-- ==== Sys2Proof/Word.lean ====
section
/-! DEFINITION. The widths and index types of the HT-410: bytes, and the names of its lines, sectors and pages. -/

namespace Sys2Proof

/-- A byte, as the SPI port and the array carry it (chapter 12). -/
abbrev Byte := BitVec 8

/-- One of the four lines L0 to L3 (section 1.7). -/
abbrev LineIx := Fin 4

/-- A sector of the array, 0 to 127 (R46). -/
abbrev Sector := Fin 128

/-- A journal sector, 0 to 125 (R46). -/
abbrev JSector := Fin 126

/-- A page of a sector, 0 to 15 (R46). -/
abbrev PageIx := Fin 16

end Sys2Proof
end

