-- ==== Sys2Proof/Config.lean ====
section
/-! DEFINITION. The fixed numbers of the part (section 1.7) and the values its manual leaves open. An open value is an
opaque constant: nothing in Lean can evaluate it, so a theorem about it holds whatever it is. -/

namespace Sys2Proof.Config

/-- The largest seq, epoch, generation and FIXED floor value, FFFFFFFFh (section 1.7: 32 bits each). -/
abbrev max32 : Nat := 0xFFFFFFFF

/-- The value at which the stamp counter saturates, 2^48-1 (R26). -/
abbrev stampMax : Nat := 0xFFFFFFFFFFFF

/-- The largest span, FFFFh (R9). -/
abbrev spanMax : Nat := 0xFFFF

/-- Bytes of a line FIFO (R12). -/
abbrev fifoSize : Nat := 512

/-- Descriptors of a closed-frame queue (R14). -/
abbrev queueSize : Nat := 8

/-- The value at which a pending lost count stays (R15). -/
abbrev lostMax : Nat := 255

/-- Bytes of a record area (R35). -/
abbrev areaSize : Nat := 488

/-- The normal fill limit of a record area (R35). -/
abbrev normalFill : Nat := 464

/-- The erase-count limit at which a sector is retired (R96). -/
abbrev eraseLimit : Nat := 100000

/-- The reserve of FREE sectors that reclaim keeps (R93). -/
abbrev freeReserve : Nat := 2

/-- The usable minimum: non-RETIRED journal sectors (R98). -/
abbrev usableMin : Nat := 4

/-- The count at which the idle measurement stops (R3). -/
abbrev idleMax : Nat := 255

/-- FREE VALUE (R51, R52). `cellBits n a` is what the bits of the byte at array address `a` hold where the `n`-th cut, failed
or abandoned operation leaves a bit holding 0 or 1. -/
opaque cellBits : Nat → Nat → BitVec 8

/-- FREE VALUE (R59, R60). `takenFirst n r` says whether, at the `n`-th happening at which the array becomes free or several
requests are made together, requester number `r`'s new request is taken before the grant. -/
opaque takenFirst : Nat → Nat → Bool

/-- FREE VALUE (R37). Whether the flush-age clock stands at or past a newly written flush age, where the happenings seen so
far leave that open. -/
opaque flushClockPast : Nat → Bool

/-- FREE VALUE (R67). The epoch that follows FFFFFFFFh, which the manual does not state. -/
opaque epochPastLast : Nat → BitVec 32

end Sys2Proof.Config
end

