-- ==== Sys2Proof/Syntax.lean ====
section
/-! DEFINITION. The commands of the HT-410: one constructor for each row of spec/opcode_table.json, with the operands that
the outside world, or the array, brings to that happening. -/

namespace Sys2Proof

/-- The outcome of a program or an erase (R50): it is not decided by the part, so it is an operand of the happening. -/
inductive OpOutcome where
  | ok
  | fail
  deriving DecidableEq, Repr

/-- The last byte of a Clear Events as it arrives (R195). `together` marks the flags whose raise came at this very happening and
was taken first. -/
structure ClearByte where
  byte     : Byte
  together : BitVec 11
  deriving DecidableEq, Repr

/-- The happenings of the part, each whole and indivisible. A host command of several bytes is the happening at which its
LAST byte arrives (R188): its earlier bytes are `argumentByteReceived`, so its operand is that last byte. -/
inductive Instr where
  /-- CHARACTER_DELIVERED (R1, R4): the stop-bit sample of a character of a line. `parityBit` and `stopBit` are the levels
  sampled; `parityBit` is not looked at with parity NONE. -/
  | characterDelivered (line : LineIx) (data : Byte) (parityBit stopBit : Bool)
  /-- LINE_RETURNS_HIGH (R2). -/
  | lineReturnsHigh (line : LineIx)
  /-- BREAK_RECOGNISED (R8). -/
  | breakRecognised (line : LineIx)
  /-- IDLE_STEP (R3, R5). -/
  | idleStep (line : LineIx)
  /-- LINE_SETTLED (R20). -/
  | lineSettled (line : LineIx)
  /-- STAMP_TICK (R25). -/
  | stampTick
  /-- FLUSH_AGE_REACHED (R37). -/
  | flushAgeReached
  /-- ADMISSION (R31, R32). The report of the close of a recovery's START buffer is a happening of its own (R170), which the
  table has no row for: the next ADMISSION is the taking of that report. -/
  | admission
  /-- HEAD_PROGRAM_END (R70). -/
  | headProgramEnd (outcome : OpOutcome)
  /-- BODY_PROGRAM_END (R73). -/
  | bodyProgramEnd (outcome : OpOutcome)
  /-- COMMIT_FIELD_END (R74). -/
  | commitFieldEnd (outcome : OpOutcome)
  /-- ERASE_SUSPEND_EFFECT (R55). -/
  | eraseSuspendEffect
  /-- ERASE_STOP_EFFECT (R57). -/
  | eraseStopEffect
  /-- RECLAIM_ERASE_END (R96). -/
  | reclaimEraseEnd (outcome : OpOutcome)
  /-- RETIRE_MARK_END (R97). -/
  | retireMarkEnd (outcome : OpOutcome)
  /-- FORMAT_ERASE_END (R137). -/
  | formatEraseEnd (outcome : OpOutcome)
  /-- SETUP_ERASE_END (R183). -/
  | setupEraseEnd (outcome : OpOutcome)
  /-- SETUP_BODY_END (R183). -/
  | setupBodyEnd (outcome : OpOutcome)
  /-- SETUP_FIELD_END (R183). -/
  | setupFieldEnd (outcome : OpOutcome)
  /-- CURSOR_READ_END (R109). -/
  | cursorReadEnd
  /-- SEEK_READ_END (R113). -/
  | seekReadEnd
  /-- RECOVERY_READ_END (R158). -/
  | recoveryReadEnd
  /-- TOKEN_CHOICE (R115). -/
  | tokenChoice
  /-- TOKEN_END (R117). -/
  | tokenEnd
  /-- CS_N_FALL (R187). -/
  | csNFall
  /-- CS_N_RISE (R188). -/
  | csNRise
  /-- UNKNOWN_COMMAND (R188): a command byte that names no command. -/
  | unknownCommand (byte : Byte)
  /-- READ_STATUS (R192). -/
  | readStatus
  /-- READ_IDENTITY (R192). -/
  | readIdentity
  /-- READ_JOURNAL_SUMMARY (R193). -/
  | readJournalSummary
  /-- READ_LINE_STATE (R23): the line number byte. -/
  | readLineState (last : Byte)
  /-- READ_DIRECTORY_ENTRY (R103): the sector index byte. -/
  | readDirectoryEntry (last : Byte)
  /-- WRITE_LINE_SETUP (R19, R178): the 17th argument byte. -/
  | writeLineSetup (last : Byte)
  /-- WRITE_JOURNAL_SETUP (R179): the 12th argument byte. -/
  | writeJournalSetup (last : Byte)
  /-- STORE_SETUP (R181). -/
  | storeSetup
  /-- RUN (R128). -/
  | run
  /-- STOP (R127). -/
  | stop
  /-- FLUSH (R129). -/
  | flush
  /-- APPEND_NOTE (R42): the last payload byte, or a length byte outside 1 to 240. -/
  | appendNote (last : Byte)
  /-- SET_RETAIN_FLOOR (R91): the 5th argument byte. -/
  | setRetainFloor (last : Byte)
  /-- SEEK (R111): the last value byte, or the kind byte where no value follows it. -/
  | seek (last : Byte)
  /-- READ_RECORDS (R115). -/
  | readRecords
  /-- READ_EVENTS (R195). -/
  | readEvents
  /-- CLEAR_EVENTS (R195): the second mask byte, with what was raised together with its arrival. -/
  | clearEvents (last : ClearByte)
  /-- WRITE_EVENT_ENABLES (R195): the second mask byte. -/
  | writeEventEnables (last : Byte)
  /-- FORMAT (R136). -/
  | format
  /-- RESET_DEVICE (R154). -/
  | resetDevice
  /-- PFW_N_FALL (R141, R144). -/
  | pfwNFall
  /-- PFW_N_RISE (R142, R144). -/
  | pfwNRise
  /-- POWER_ON_RESET (R153). -/
  | powerOnReset
  /-- RESET_N_FALL (R153). -/
  | resetNFall
  /-- RESET_END (R144). -/
  | resetEnd
  /-- START_EDGE (R1): a falling edge on RXDn; `confirmed` says that the start-bit sample found the line low. -/
  | startEdge (line : LineIx) (confirmed : Bool)
  /-- ARGUMENT_BYTE_RECEIVED (R188): a byte that is not a command's last byte. -/
  | argumentByteReceived (byte : Byte)
  /-- POWER_LOSS (R64). -/
  | powerLoss
  deriving DecidableEq, Repr

end Sys2Proof
end

