-- ==== Sys2Proof/Decode.lean ====
section
/-! DEFINITION. The command that a word spells by the table's bits. spec/opcode_table.json gives no row any bits ("fields" is
empty in every row and no row has "fixed"), so no word spells a command. -/

namespace Sys2Proof

/-- The command a word of the table spells: none, since no row of the table has bits. The command bytes of the SPI port are
no words of the table; they are decoded by `Machine.commandOf` (R202). -/
def decodeTableWord (_nbits _w : Nat) : Option Instr := none

end Sys2Proof
end

