-- ==== Sys2Proof/Machine/State.lean ====
section
/-! DEFINITION. The state of the HT-410 as plain data: every register, FIFO, buffer, counter, mode and pin the manual names,
block by block (chapters 1 to 11), the array's contents, and the queue of waiting commands. -/

namespace Sys2Proof.Machine

/-! ### The working setup (chapter 10) -/

/-- Parity of a line (R176). -/
inductive Parity where
  | noParity | even | odd
  deriving DecidableEq, Repr

/-- Framing mode of a line (section 1.3). -/
inductive FrameMode where
  | gap | pair | count
  deriving DecidableEq, Repr

/-- Overflow policy of a line (R10, R11). -/
inductive Overflow where
  | split | cut
  deriving DecidableEq, Repr

/-- Polarity of a PACE output (R18). -/
inductive Polarity where
  | activeLow | activeHigh
  deriving DecidableEq, Repr

/-- The working setup fields of one line (R176). -/
structure LineSetup where
  enable   : Bool
  divisor  : Nat
  parity   : Parity
  mode     : FrameMode
  g        : Nat
  e1       : Byte
  e2       : Byte
  n        : Nat
  maxlen   : Nat
  policy   : Overflow
  high     : Nat
  low      : Nat
  polarity : Polarity
  deriving DecidableEq, Repr

/-- Retention mode (R89). -/
inductive Retention where
  | wrap | halt
  deriving DecidableEq, Repr

/-- Retain floor mode (R90). -/
inductive FloorMode where
  | noFloor | fixed | cursor
  deriving DecidableEq, Repr

/-- The journal fields of the working setup (R176). -/
structure JournalSetup where
  retention  : Retention
  floorMode  : FloorMode
  fixedFloor : Nat
  k          : Nat
  flushAge   : Nat
  threshold  : Nat
  autostart  : Bool
  deriving DecidableEq, Repr

/-- Where the working setup came from (R176). -/
inductive SetupSource where
  | defaults | stored
  deriving DecidableEq, Repr

/-- The fields of a setup: the four lines and the journal group (R176). -/
structure SetupFields where
  line    : Vector LineSetup 4
  journal : JournalSetup
  deriving DecidableEq, Repr

/-- The working setup: its fields and its origin, a source and a generation (R176). -/
structure WorkingSetup where
  fields     : SetupFields
  source     : SetupSource
  generation : Nat
  deriving DecidableEq, Repr

/-! ### Line ports (chapter 1) -/

/-- The condition of a line's receiver (R1, R2, R20). A line is enabled, in the sense of R19, exactly while it is not `off`. -/
inductive Receiver where
  /-- not running: the line is disabled, or the journal is RECOVERING (R22) -/
  | off
  /-- enabled and not yet settled (R20) -/
  | unsettled
  /-- settled, with no character or break in force -/
  | ready
  /-- a character in progress, its start bit confirmed (R1) -/
  | receiving
  /-- a character of all low bits and a low stop bit, held; the flag is its PARITY mark (R1, R2) -/
  | held (parityMark : Bool)
  /-- a recognised break in force (R2) -/
  | breaking
  /-- a delivered character whose stop bit was low; the line has not been high since (R1, R3) -/
  | lowStop
  deriving DecidableEq, Repr

/-- The state of a framer (section 1.1). -/
inductive FramerState where
  | waiting | opened | continuing | discarding
  deriving DecidableEq, Repr

/-- The piece in progress (section 1.1). -/
structure Piece where
  openStamp : Nat
  count     : Nat
  parity    : Bool
  framing   : Bool
  overrun   : Bool
  deriving DecidableEq, Repr

/-- The flags of a LINE record (R14, section 12.1). -/
structure RecFlags where
  parity  : Bool
  framing : Bool
  brk     : Bool
  cont    : Bool
  trunc   : Bool
  openEnd : Bool
  deriving DecidableEq, Repr

/-- A descriptor of the closed-frame queue (R14). -/
structure Descriptor where
  line   : LineIx
  length : Nat
  flags  : RecFlags
  close  : Nat
  span   : Nat
  deriving DecidableEq, Repr

/-- One line port (section 1.1). `fifo` holds the bytes of the queued pieces and then the stored bytes of the piece in
progress, oldest first; its fill is its length. `idle` is the idle measurement: none while it has no origin. -/
structure LinePort where
  receiver   : Receiver
  idle       : Option Nat
  framer     : FramerState
  piece      : Piece
  pairArmed  : Bool
  frameCount : Nat
  fifo       : List Byte
  queue      : List Descriptor
  lost       : Nat
  hysteresis : Bool
  deriving DecidableEq, Repr

/-! ### Timebase and admission (chapter 2) -/

/-- The timebase (section 2.1). The tick exponent in force is the working setup's k (R45). -/
structure Timebase where
  counter       : Nat
  prescaler     : Nat
  held          : Bool
  retimePending : Bool
  saturated     : Bool
  deriving DecidableEq, Repr

/-- The role of a page buffer (R36). -/
inductive Role where
  | filling | closed | committing | idle
  deriving DecidableEq, Repr

/-- A page buffer (section 2.3). `data` is the used part of its record area (the rest of the 488 bytes holds FFh), so the
used record bytes are its length. `clock` counts the microseconds of the flush-age clock by whole ticks, and `reachedAge` is
the largest flush age, in ms, that the clock is known to have reached (R37). -/
structure Buffer where
  role       : Role
  data       : List Byte
  count      : Nat
  firstSeq   : Nat
  lastSeq    : Nat
  clock      : Nat
  reachedAge : Nat
  deriving DecidableEq, Repr

/-- The name of a page buffer. -/
inductive BufId where
  | p | q
  deriving DecidableEq, Repr

/-- The note slot's content (section 2.5). -/
structure Note where
  payload : List Byte
  stamp   : Nat
  deriving DecidableEq, Repr

/-- The cause of a START record (section 12.1). -/
inductive StartCause where
  | powerOn | resetPin | hostReset | resume | format | retime
  deriving DecidableEq, Repr

/-- The content of a START record (section 12.1). -/
structure StartContent where
  cause      : StartCause
  clean      : Bool
  k          : Nat
  source     : SetupSource
  generation : Nat
  discarded  : Nat
  corrupt    : Nat
  damaged    : Nat
  retired    : Nat
  deriving DecidableEq, Repr

/-- A system record waiting in the system slot with its system stamp (R38). A SHUTDOWN's counts are sampled at its
admission (R148), so the slot holds none. -/
inductive SysRecord where
  | start (content : StartContent) (stamp : Nat)
  | shutdown (stamp : Nat)
  deriving DecidableEq, Repr

/-- The admission unit (section 2.2). `reportOwed` is set from the close of the recovery START's buffer to the happening at which
the journal controller takes the report of it (R170). -/
structure Admission where
  nextSeq    : Nat
  exhausted  : Bool
  note       : Option Note
  sys        : Option SysRecord
  bufP       : Buffer
  bufQ       : Buffer
  reportOwed : Bool
  deriving DecidableEq, Repr

/-! ### The storage array (chapter 3) -/

/-- Who makes a request of the array arbiter (R58). The cursor engine's reads are for a fetch or for a seek. -/
inductive Requester where
  | commit | cursorFetch | cursorSeek | setup | reclaim | format | recovery
  deriving DecidableEq, Repr

/-- What a request asks for (R47 to R49). -/
inductive OpKind where
  | read | bodyProgram | fieldProgram | headProgram | retireMark | setupBody | setupField | erase
  deriving DecidableEq, Repr

/-- A request of the arbiter, and, once granted, a read or a program in flight (R58). `data` is what a program writes.
`generation` is the setup copy's, for the setup store's requests (R185). `wanted` is clear once the requester has given the
operation up (R58, R80, R110, R185). -/
structure Request where
  requester  : Requester
  kind       : OpKind
  sector     : Sector
  page       : PageIx
  data       : List Byte
  generation : Nat
  wanted     : Bool
  deriving DecidableEq, Repr

/-- The condition of the erase in existence (section 3.4). -/
inductive EraseCond where
  | running | suspendPending | suspended | stopPending
  deriving DecidableEq, Repr

/-- The erase in existence (section 3.4). `runMicros` is its accumulated running time, counted by whole ticks. -/
structure Erase where
  sector    : Sector
  requester : Requester
  cond      : EraseCond
  runMicros : Nat
  wanted    : Bool
  deriving DecidableEq, Repr

/-- The array and its arbiter (chapter 3). `mem` is the array's contents: address and byte pairs, addresses strictly rising,
no byte equal to FFh (an unlisted address reads FFh). `op` is the read or program in flight; an erase in flight is `erase`.
`waiting` holds the waiting requests in the order made, and `made` those made at the present happening, which the arbiter has
not yet dealt with: it is empty between happenings. -/
structure StorageArray where
  mem     : List Host.Cell
  op      : Option Request
  erase   : Option Erase
  waiting : List Request
  made    : List Request
  deriving DecidableEq, Repr

/-! ### Committing records (chapter 4) -/

/-- The phase of the commit path (section 4.1). -/
inductive CommitPhase where
  | idle | head | body | field | blocked | halted
  deriving DecidableEq, Repr

/-- The commit path (section 4.1). `bodyCrc` is the body CRC it keeps for the commit field (R72); `leavingBlocked` is set
from the opening of a sector that ends BLOCKED until a head program ends OK or the held buffer is released (R69). -/
structure CommitPath where
  phase          : CommitPhase
  holding        : Option BufId
  target         : Option JSector
  nextPage       : Nat
  lastEpoch      : Nat
  newestSeq      : Nat
  countSince     : Nat
  drainLoss      : Bool
  bodyCrc        : BitVec 32
  leavingBlocked : Bool
  deriving DecidableEq, Repr

/-! ### Sector directory and reclaim (chapter 5) -/

/-- The state of a journal sector (R85). -/
inductive SectorState where
  | unknown | free | opened | closed | erasing | dirty | retired
  deriving DecidableEq, Repr

/-- A directory entry (R84). -/
structure Entry where
  state      : SectorState
  epoch      : Nat
  firstSeq   : Nat
  lastSeq    : Nat
  firstStamp : Nat
  lastStamp  : Nat
  pagesUsed  : Nat
  eraseCount : Nat
  retireMark : Bool
  failCount  : Nat
  deriving DecidableEq, Repr

/-- The sector directory: one entry for each journal sector (R84). -/
abbrev Directory := Vector Entry 126

/-- The phase of the reclaim engine (section 5.4). -/
inductive ReclaimPhase where
  | idle | erase | mark
  deriving DecidableEq, Repr

/-- The reclaim engine (section 5.4). -/
structure ReclaimEngine where
  phase  : ReclaimPhase
  target : Option JSector
  deriving DecidableEq, Repr

/-! ### The cursor engine (chapter 6) -/

/-- The read buffer (section 6.1). A HELD page's class is that of its bytes (R82). -/
inductive ReadBuffer where
  | empty
  | fetching (sector : JSector) (page : PageIx)
  | held (sector : JSector) (page : PageIx) (bytes : List Byte)
  deriving DecidableEq, Repr

/-- A token of the Read Records stream (section 6.4). A RECORD carries its record's bytes: header and payload. -/
inductive Token where
  | record (seq : Nat) (bytes : List Byte)
  | endOfJournal
  | wait
  | lost (resume : Nat)
  | fault (resume : Nat)
  deriving DecidableEq, Repr

/-- The pending token (section 6.1). -/
inductive PendingToken where
  | noToken
  | lost (resume : Nat)
  | fault (resume : Nat)
  deriving DecidableEq, Repr

/-- The transmit store (section 6.1). -/
inductive TransmitStore where
  | empty
  | transfer (token : Token)
  | kept (seq : Nat) (bytes : List Byte)
  deriving DecidableEq, Repr

/-- A seek by stamp in progress (R113): its stamp, the page it reads next (none: step 1 is still to be taken), and whether
a read of the seek that is still wanted is outstanding (R114). -/
structure SeekState where
  stamp       : Nat
  position    : Option (JSector × PageIx)
  outstanding : Bool
  deriving DecidableEq, Repr

/-- The cursor engine (section 6.1). -/
structure CursorEngine where
  target       : Nat
  lastReturned : Nat
  buffer       : ReadBuffer
  faultSeen    : Bool
  pendingToken : PendingToken
  seek         : Option SeekState
  store        : TransmitStore
  withheld     : List (JSector × PageIx)
  deriving DecidableEq, Repr

/-! ### Journal controller, drain and reset (chapters 7 and 8) -/

/-- The journal state (section 7.1). -/
inductive JState where
  | recovering | running | stopping | stopped | full | formatting | draining | drained | failed
  deriving DecidableEq, Repr

/-- Kind of the host operation (R135). -/
inductive HostOpKind where
  | noOp | format | storeSetup
  deriving DecidableEq, Repr

/-- Outcome of the last host operation (R135). -/
inductive HostOpOutcome where
  | noOutcome | ok | failed | aborted
  deriving DecidableEq, Repr

/-- How far a Format has got (R137 to R139). -/
inductive FormatPhase where
  /-- no Format -/
  | noFormat
  /-- the next sector is to be chosen once no erase exists -/
  | choosing
  /-- the erase of this sector is requested, in flight or suspended -/
  | erasing (sector : JSector)
  /-- the retire-mark program of this sector is requested or in flight -/
  | marking (sector : JSector)
  /-- the FORMAT START has been placed -/
  | starting
  deriving DecidableEq, Repr

/-- Phase of the drain (section 8.2). -/
inductive DrainPhase where
  | noDrain | finishing | closing
  deriving DecidableEq, Repr

/-- What became of the last drain's SHUTDOWN record (section 8.2). -/
inductive ShutdownOutcome where
  | noOutcome | committed | lost | notAdmitted
  deriving DecidableEq, Repr

/-- The reset cause (R155). -/
inductive ResetCause where
  | powerOn | resetPin | hostReset
  deriving DecidableEq, Repr

/-- The journal controller (sections 7.1 and 8.2). `formatDone` lists the sectors the Format has erased. `resetAtRise` is set
by a Reset Device taken in DRAINED: its reset is taken at the rise of CS_N (R154). -/
structure Controller where
  state            : JState
  stopRequested    : Bool
  spaceWait        : Bool
  saved            : Option JState
  opKind           : HostOpKind
  opOutcome        : HostOpOutcome
  format           : FormatPhase
  formatDone       : List JSector
  drain            : DrainPhase
  hostResetPending : Bool
  resetAtRise      : Bool
  shutdownOutcome  : ShutdownOutcome
  resetCause       : ResetCause
  deriving DecidableEq, Repr

/-! ### The recovery unit (chapter 9) -/

/-- Phase of the recovery unit (section 9.1). -/
inductive RecoveryPhase where
  | idle | loading | heads | pages | closing
  deriving DecidableEq, Repr

/-- A head table entry (section 9.1). For a VALID head, `pagesUsed` is what the page scan has found so far (R162). -/
inductive HeadInfo where
  | blank
  | valid (epoch eraseCount pagesUsed : Nat)
  | retired
  | damaged
  deriving DecidableEq, Repr

/-- A page of the accepted list (section 9.1). `lastKind` is bits 7-4 of byte 0 of its last record's header (R198). -/
structure AcceptedPage where
  sector     : JSector
  page       : PageIx
  firstSeq   : Nat
  lastSeq    : Nat
  firstStamp : Nat
  lastStamp  : Nat
  lastKind   : Nat
  deriving DecidableEq, Repr

/-- The committed setup copy that the load would choose so far (R159). -/
structure LoadChoice where
  fields     : SetupFields
  generation : Nat
  sector     : Sector
  page       : PageIx
  deriving DecidableEq, Repr

/-- The recovery unit (section 9.1). `nextA` and `nextB` are one more than the highest page of setup sectors A and B found
not all FFh, or 0 (R180). -/
structure RecoveryUnit where
  phase     : RecoveryPhase
  scan      : Option (Sector × PageIx)
  heads     : List HeadInfo
  accepted  : List AcceptedPage
  discarded : Nat
  corrupt   : Nat
  damaged   : Nat
  result    : Option (SetupSource × Nat)
  choice    : Option LoadChoice
  nextA     : Nat
  nextB     : Nat
  deriving DecidableEq, Repr

/-! ### The setup store (chapter 10) -/

/-- A setup sector: A is sector 126 and B is sector 127. -/
inductive SetupSector where
  | a | b
  deriving DecidableEq, Repr

/-- Phase of the setup store's operation (section 10.3). -/
inductive StorePhase where
  | idle | erase | body | field
  deriving DecidableEq, Repr

/-- The setup store (section 10.3). `seekOwed` is set while a Store Setup waits for the result of an operation of an earlier
one that was aborted (R181). -/
structure SetupStore where
  current   : SetupSector
  nextPage  : Nat
  location  : Option (SetupSector × PageIx)
  latest    : Nat
  issued    : Nat
  phase     : StorePhase
  copy      : Option (SetupFields × Nat)
  switched  : Bool
  seekOwed  : Bool
  deriving DecidableEq, Repr

/-! ### Host port and event unit (chapter 11) -/

/-- Phase of a transaction (section 11.1). -/
inductive PortPhase where
  | idle | command | arguments | reply | stream
  deriving DecidableEq, Repr

/-- A result code, and the values of the last result (section 11.1). -/
inductive Result where
  | ok | busy | state | badArg | unknown | notReady | noResult | incomplete
  deriving DecidableEq, Repr

/-- The host port (section 11.1). `status` is the status byte sampled at the fall of CS_N; `reply` is what is still to be sent of
the reply prepared, the result byte and then the reply data, or of the token in transfer: its first byte is sent in the unit
that comes next (R187, R189). -/
structure HostPort where
  phase      : PortPhase
  command    : Byte
  args       : List Byte
  status     : Byte
  reply      : List Byte
  lastResult : Result
  deriving DecidableEq, Repr

/-- The eleven event flags and their enables, at the bit positions of section 12.4. -/
structure EventUnit where
  flags   : BitVec 11
  enables : BitVec 11
  deriving DecidableEq, Repr

/-- The levels of the input pins that the happenings are changes of (section 1.5); true is high. -/
structure Pins where
  csN    : Bool
  pfwN   : Bool
  resetN : Bool
  deriving DecidableEq, Repr

/-! ### The whole part -/

/-- The state of the HT-410. `powered` is clear from a loss of power to the next power-on reset, `inReset` is set while a
reset is in force (R153), `setupLoaded` is set once recovery has loaded the working setup since the last reset (R24),
`freeIx` counts the free values drawn so far (the MODEL's own field), and `pending` is the queue of waiting commands,
first in, first out (the MODEL's own). -/
structure State where
  setup       : WorkingSetup
  lines       : Vector LinePort 4
  time        : Timebase
  adm         : Admission
  array       : StorageArray
  commit      : CommitPath
  dir         : Directory
  reclaim     : ReclaimEngine
  cursor      : CursorEngine
  ctrl        : Controller
  recov       : RecoveryUnit
  store       : SetupStore
  port        : HostPort
  events      : EventUnit
  pins        : Pins
  powered     : Bool
  inReset     : Bool
  setupLoaded : Bool
  freeIx      : Nat
  pending     : List Instr
  deriving DecidableEq, Repr

/-- Why the machine stops. -/
inductive Fault where
  /-- Raised by every meaning but those of the input pins and POWER_ON_RESET in a state in which the part has no supply
  (after POWER_LOSS): the manual says nothing of a part without supply. Safe: nothing is claimed of it. -/
  | unpowered
  deriving DecidableEq, Repr

/-- Why a command has no meaning in a state. -/
inductive Refusal where
  /-- Raised by an arm of `exec` whose command has no meaning yet; none is left, and no meaning refuses. Safe. -/
  | notModelled (mnemonic : String)
  deriving DecidableEq, Repr

/-! ### Reset -/

/-- The default fields of a line (R177). -/
def LineSetup.default : LineSetup :=
  { enable := false, divisor := 104, parity := .noParity, mode := .gap, g := 4, e1 := 0x0D, e2 := 0x0A, n := 16,
    maxlen := 240, policy := .split, high := 384, low := 128, polarity := .activeLow }

/-- The default journal fields (R177). -/
def JournalSetup.default : JournalSetup :=
  { retention := .wrap, floorMode := .noFloor, fixedFloor := 0, k := 0, flushAge := 0, threshold := 1, autostart := false }

/-- The default working setup (R177). -/
def WorkingSetup.default : WorkingSetup :=
  { fields := { line := Vector.replicate 4 LineSetup.default, journal := JournalSetup.default },
    source := .defaults, generation := 0 }

/-- A framer's piece in progress when there is none. -/
def Piece.empty : Piece :=
  { openStamp := 0, count := 0, parity := false, framing := false, overrun := false }

/-- A line port after reset (R24). -/
def LinePort.reset : LinePort :=
  { receiver := .off, idle := none, framer := .waiting, piece := Piece.empty, pairArmed := false, frameCount := 0,
    fifo := [], queue := [], lost := 0, hysteresis := false }

/-- An empty page buffer with the given role (R36). DESIGN CHOICE (log entry 15): its first and last seq, its flush-age clock and the
age reached are 0; the manual gives its counts alone. -/
def Buffer.empty (role : Role) : Buffer :=
  { role := role, data := [], count := 0, firstSeq := 0, lastSeq := 0, clock := 0, reachedAge := 0 }

/-- The commit path after reset (R83). -/
def CommitPath.reset : CommitPath :=
  { phase := .idle, holding := none, target := none, nextPage := 1, lastEpoch := 0, newestSeq := 0, countSince := 0,
    drainLoss := false, bodyCrc := 0, leavingBlocked := false }

/-- A directory entry in the given state with all fields 0 and flags clear (R85, R105). -/
def Entry.blank (state : SectorState) : Entry :=
  { state := state, epoch := 0, firstSeq := 0, lastSeq := 0, firstStamp := 0, lastStamp := 0, pagesUsed := 0,
    eraseCount := 0, retireMark := false, failCount := 0 }

/-- The cursor engine after reset (R125). -/
def CursorEngine.reset : CursorEngine :=
  { target := 0, lastReturned := 0, buffer := .empty, faultSeen := false, pendingToken := .noToken, seek := none,
    store := .empty, withheld := [] }

/-- The journal controller after reset (R143, R157), with the reset cause recorded (R155). -/
def Controller.reset (cause : ResetCause) : Controller :=
  { state := .recovering, stopRequested := false, spaceWait := false, saved := none, opKind := .noOp,
    opOutcome := .noOutcome, format := .noFormat, formatDone := [], drain := .noDrain, hostResetPending := false,
    resetAtRise := false, shutdownOutcome := .noOutcome, resetCause := cause }

/-- The recovery unit after reset (R175). -/
def RecoveryUnit.reset : RecoveryUnit :=
  { phase := .idle, scan := none, heads := [], accepted := [], discarded := 0, corrupt := 0, damaged := 0, result := none,
    choice := none, nextA := 0, nextB := 0 }

/-- The setup store after reset (R180). -/
def SetupStore.reset : SetupStore :=
  { current := .a, nextPage := 16, location := none, latest := 0, issued := 0, phase := .idle, copy := none,
    switched := false, seekOwed := false }

/-- The host port after reset (R197). -/
def HostPort.reset : HostPort :=
  { phase := .idle, command := 0, args := [], status := 0, reply := [], lastResult := .noResult }

/-- The machine right after a power-on reset, which is still in force: every block at its reset values and the array blank.
Recovery begins at the RESET_END that follows (R144, R158). -/
def State.reset : State :=
  { setup := WorkingSetup.default
    lines := Vector.replicate 4 LinePort.reset
    time := { counter := 0, prescaler := 0, held := true, retimePending := false, saturated := false }
    adm := { nextSeq := 1, exhausted := false, note := none, sys := none, bufP := Buffer.empty .filling,
             bufQ := Buffer.empty .idle, reportOwed := false }
    array := { mem := [], op := none, erase := none, waiting := [], made := [] }
    commit := CommitPath.reset
    dir := Vector.replicate 126 (Entry.blank .unknown)
    reclaim := { phase := .idle, target := none }
    cursor := CursorEngine.reset
    ctrl := Controller.reset .powerOn
    recov := RecoveryUnit.reset
    store := SetupStore.reset
    port := HostPort.reset
    events := { flags := 0, enables := 0 }
    pins := { csN := true, pfwN := true, resetN := true }
    powered := true
    inReset := true
    setupLoaded := false
    freeIx := 0
    pending := [] }

end Sys2Proof.Machine
end

