-- ==== Sys2Proof/Machine/Flags.lean ====
section
/-! DEFINITION. The event flags, their enables and IRQ_N (sections 11.4 and 11.5). -/

namespace Sys2Proof.Machine

/-- The eleven events (section 11.4). -/
inductive Event where
  | committed
  | state
  | lineFault (line : LineIx)
  | cursorLost
  | sectorRetired
  | opDone
  | setupFault
  | recoveryDone
  deriving DecidableEq, Repr

/-- The bit of an event in the flags, enables and masks (R202). -/
def Event.bit : Event → Nat
  | .committed => 0
  | .state => 1
  | .lineFault n => 2 + n.val
  | .cursorLost => 6
  | .sectorRetired => 7
  | .opDone => 8
  | .setupFault => 9
  | .recoveryDone => 10

/-- The mask of one event. -/
def Event.mask (e : Event) : BitVec 11 := BitVec.ofNat 11 (2 ^ e.bit)

/-- A raise sets the flag, whatever the enable (R194). -/
def State.raise (e : Event) (s : State) : State :=
  { s with events := { s.events with flags := s.events.flags ||| e.mask } }

/-- The flag of an event is set. -/
def State.flagSet (e : Event) (s : State) : Bool := s.events.flags.getLsbD e.bit

/-- IRQ_N is active while some flag and its enable are both 1 (R196); it is released otherwise, and while a reset is in
force the flags are 0. -/
def State.irqActive (s : State) : Bool := s.events.flags &&& s.events.enables != 0

/-- Clear Events (R195). -/
def EventUnit.clear (mask : BitVec 11) (e : EventUnit) : EventUnit := { e with flags := e.flags &&& ~~~mask }

/-- Write Event Enables (R195): the enables are replaced as a whole. -/
def EventUnit.enable (mask : BitVec 11) (e : EventUnit) : EventUnit := { e with enables := mask }

end Sys2Proof.Machine
end

