-- ==== Sys2Proof/Machine/Operands.lean ====
section
/-! DEFINITION. The operand forms of the host commands: the command bytes of R202, how many bytes each command still owes
(R188), and the byte-order helpers every layout of chapter 12 uses. -/

namespace Sys2Proof.Machine

/-! ### Big-endian fields (section 1.6) -/

/-- The number that bytes spell, most significant byte first. -/
def beNat (l : List Byte) : Nat := l.foldl (fun acc b => acc * 256 + b.toNat) 0

/-- A number as `n` bytes, most significant first. -/
def beBytes : Nat → Nat → List Byte
  | 0, _ => []
  | n + 1, v => BitVec.ofNat 8 (v / 256 ^ n) :: beBytes n v

/-- The bytes at offset `off`, `len` of them. -/
def bytesAt (l : List Byte) (off len : Nat) : List Byte := (l.drop off).take len

/-- The big-endian field of `len` bytes at offset `off`. -/
def fieldAt (l : List Byte) (off len : Nat) : Nat := beNat (bytesAt l off len)

/-- The byte at offset `off`, 0 beyond the end. -/
def byteAt (l : List Byte) (off : Nat) : Byte := l.getD off 0

/-- Every byte is FFh. -/
def allFF (l : List Byte) : Bool := l.all (· == 0xFF)

/-! ### Command bytes (R202) -/

/-- The commands of the host port (R202). -/
inductive Command where
  | readStatus | readIdentity | readJournalSummary | readLineState | readDirectoryEntry
  | writeLineSetup | writeJournalSetup | storeSetup
  | run | stop | flush | appendNote | setRetainFloor
  | seek | readRecords
  | readEvents | clearEvents | writeEventEnables
  | format | resetDevice
  deriving DecidableEq, Repr

/-- The command a command byte names (R202); every other byte is UNKNOWN. -/
def commandOf (b : Byte) : Option Command :=
  match b.toNat with
  | 0x01 => some .readStatus
  | 0x02 => some .readIdentity
  | 0x03 => some .readJournalSummary
  | 0x04 => some .readLineState
  | 0x05 => some .readDirectoryEntry
  | 0x10 => some .writeLineSetup
  | 0x11 => some .writeJournalSetup
  | 0x12 => some .storeSetup
  | 0x20 => some .run
  | 0x21 => some .stop
  | 0x22 => some .flush
  | 0x23 => some .appendNote
  | 0x24 => some .setRetainFloor
  | 0x30 => some .seek
  | 0x31 => some .readRecords
  | 0x40 => some .readEvents
  | 0x41 => some .clearEvents
  | 0x42 => some .writeEventEnables
  | 0x50 => some .format
  | 0x5A => some .resetDevice
  | _ => none

/-- How many argument bytes a command still owes when it has received `args` (R188, R202). Append Note owes its length byte,
then as many payload bytes as a length of 1 to 240 says; Seek owes its kind byte, then 4 bytes for BY_SEQ, 6 for BY_STAMP. -/
def owed (c : Command) (args : List Byte) : Nat :=
  match c with
  | .readLineState | .readDirectoryEntry => 1 - args.length
  | .writeLineSetup => 17 - args.length
  | .writeJournalSetup => 12 - args.length
  | .setRetainFloor => 5 - args.length
  | .clearEvents | .writeEventEnables => 2 - args.length
  | .appendNote =>
    match args with
    | [] => 1
    | len :: rest => if 1 ≤ len.toNat ∧ len.toNat ≤ 240 then len.toNat - rest.length else 0
  | .seek =>
    match args with
    | [] => 1
    | kind :: rest => if kind = 2 then 4 - rest.length else if kind = 3 then 6 - rest.length else 0
  | .readStatus | .readIdentity | .readJournalSummary | .storeSetup | .run | .stop | .flush | .readRecords
  | .readEvents | .format | .resetDevice => 0

end Sys2Proof.Machine
end

