-- ==== Sys2Proof/Machine/Formats.lean ====
section
/-! DEFINITION. The byte layouts of chapter 12: records, record pages, head pages, setup copies, the CRC, tokens; and the
page classes (R82) and head classes (R160) that are judged from bytes alone. -/

namespace Sys2Proof.Machine

/-! ### The CRC (R200) -/

/-- One bit of the CRC register: shift left, and apply the polynomial 04C11DB7h when a 1 leaves it. -/
def crcBit (c : BitVec 32) : BitVec 32 :=
  if c.msb then (c <<< 1) ^^^ 0x04C11DB7 else c <<< 1

/-- One byte fed into the CRC register, most significant bit first. -/
def crcByte (c : BitVec 32) (b : Byte) : BitVec 32 :=
  let c := c ^^^ (b.zeroExtend 32 <<< 24)
  crcBit (crcBit (crcBit (crcBit (crcBit (crcBit (crcBit (crcBit c)))))))

/-- The CRC of a run of bytes (R200). -/
def crc (l : List Byte) : BitVec 32 := l.foldl crcByte 0xFFFFFFFF ^^^ 0xFFFFFFFF

/-! ### Records (section 12.1) -/

/-- The flags byte of a record header. -/
def RecFlags.toByte (f : RecFlags) : Byte :=
  BitVec.ofNat 8 (f.parity.toNat + 2 * f.framing.toNat + 4 * f.brk.toNat + 8 * f.cont.toNat + 16 * f.trunc.toNat
    + 32 * f.openEnd.toNat)

/-- No flags. -/
def RecFlags.empty : RecFlags :=
  { parity := false, framing := false, brk := false, cont := false, trunc := false, openEnd := false }

/-- A 16-byte record header. -/
def recHeader (kind line : Nat) (flags : Byte) (lost length seq stamp span : Nat) : List Byte :=
  [BitVec.ofNat 8 (16 * kind + line), flags, BitVec.ofNat 8 lost, BitVec.ofNat 8 length]
    ++ beBytes 4 seq ++ beBytes 6 stamp ++ beBytes 2 span

/-- Kind of a record (bits 7-4 of header byte 0). -/
def recKind (r : List Byte) : Nat := (byteAt r 0).toNat / 16

/-- Seq of a record (header bytes 4 to 7). -/
def recSeq (r : List Byte) : Nat := fieldAt r 4 4

/-- Close stamp of a record (header bytes 8 to 13). -/
def recStamp (r : List Byte) : Nat := fieldAt r 8 6

/-- The kind codes of section 12.1. -/
def kindLine : Nat := 1
/-- NOTE. -/
def kindNote : Nat := 2
/-- START. -/
def kindStart : Nat := 3
/-- SHUTDOWN. -/
def kindShutdown : Nat := 4

/-- The cause code of a START payload. -/
def StartCause.code : StartCause → Nat
  | .powerOn => 1 | .resetPin => 2 | .hostReset => 3 | .resume => 4 | .format => 5 | .retime => 6

/-- Code of a setup source: DEFAULT 0, STORED 1. -/
def SetupSource.code : SetupSource → Nat
  | .defaults => 0 | .stored => 1

/-- The 24-byte START payload. -/
def startPayload (c : StartContent) : List Byte :=
  [BitVec.ofNat 8 c.cause.code, BitVec.ofNat 8 (c.clean.toNat + 2 * c.source.code), BitVec.ofNat 8 c.k, 0]
    ++ beBytes 4 c.generation ++ beBytes 2 c.discarded ++ beBytes 2 c.corrupt
    ++ [BitVec.ofNat 8 c.damaged, BitVec.ofNat 8 c.retired] ++ List.replicate 10 0

/-- The 8-byte SHUTDOWN payload: queued count and pending lost count of each line (R148). -/
def shutdownPayload (lines : Vector LinePort 4) : List Byte :=
  lines.toList.flatMap fun p => [BitVec.ofNat 8 p.queue.length, BitVec.ofNat 8 p.lost]

/-- Walks `n` records from the front of a record area; none when one of them does not fit (R82, R198). -/
def walkRecords : Nat → List Byte → Option (List (List Byte))
  | 0, _ => some []
  | n + 1, l =>
    let size := 16 + (byteAt l 3).toNat
    if 256 < size ∨ l.length < size then none
    else (walkRecords n (l.drop size)).map (l.take size :: ·)

/-! ### Record pages (R199) -/

/-- The commit mark, 5E1A0C97h. -/
def commitMark : List Byte := [0x5E, 0x1A, 0x0C, 0x97]

/-- The commit field over a body: its CRC and the commit mark. -/
def commitField (bodyCrc : BitVec 32) : List Byte := beBytes 4 bodyCrc.toNat ++ commitMark

/-- Bytes padded with FFh to `n`. -/
def padFF (n : Nat) (l : List Byte) : List Byte := l ++ List.replicate (n - l.length) 0xFF

/-- The 504-byte body of a record page (R72): its page header and record area. -/
def pageBody (epoch : Nat) (b : Buffer) : List Byte :=
  [0xC3, 0x5A] ++ beBytes 4 epoch ++ [BitVec.ofNat 8 b.count, 0] ++ beBytes 4 b.firstSeq ++ beBytes 4 b.lastSeq
    ++ padFF Config.areaSize b.data

/-- The records of a page, walked from offset 16 by the header's count; none when they do not fit the area. -/
def pageRecords? (page : List Byte) : Option (List (List Byte)) :=
  walkRecords (byteAt page 6).toNat (bytesAt page 16 Config.areaSize)

/-- The records of a page, none if they cannot be walked. -/
def pageRecords (page : List Byte) : List (List Byte) := (pageRecords? page).getD []

/-- Each record's seq is one more than the seq before it. -/
def seqsRise : List (List Byte) → Bool
  | [] => true
  | [_] => true
  | r :: r' :: rest => recSeq r' == recSeq r + 1 && seqsRise (r' :: rest)

/-- The first record of a page, or buffer, walked into records. -/
def firstRec (rs : List (List Byte)) : List Byte := rs.headD []

/-- The last record. -/
def lastRec (rs : List (List Byte)) : List Byte := rs.getLastD []

/-- A page is consistent (R82): a count of 1 to 30, records that fit, a first seq that is not 0, seqs that rise by one, and a
header whose first and last seq are those of the first and last records. -/
def pageConsistent (page : List Byte) : Bool :=
  match pageRecords? page with
  | none => false
  | some rs =>
    decide (1 ≤ rs.length ∧ rs.length ≤ 30) && recSeq (firstRec rs) != 0 && seqsRise rs
      && fieldAt page 8 4 == recSeq (firstRec rs) && fieldAt page 12 4 == recSeq (lastRec rs)

/-- The commit test's mark and CRC parts, over a 504-byte body (R82, R159). -/
def markExact (page : List Byte) : Bool := bytesAt page 508 4 == commitMark

/-- The CRC field equals the body CRC. -/
def crcMatches (page : List Byte) : Bool := fieldAt page 504 4 == (crc (bytesAt page 0 504)).toNat

/-- The class of a record page (R82); a TORN page says whether it is corrupt. -/
inductive PageClass where
  | erased
  | uncommitted
  | committed
  | torn (corrupt : Bool)
  deriving DecidableEq, Repr

/-- The classification of R82, its tests in the order given. -/
def pageClass (page : List Byte) : PageClass :=
  if allFF page then .erased
  else if allFF (bytesAt page 504 8) && !allFF (bytesAt page 0 504) then .uncommitted
  else if markExact page && crcMatches page && pageConsistent page then .committed
  else .torn (markExact page && !crcMatches page)

/-! ### Head pages (R199) -/

/-- The head marker and layout version, with the reserved bytes that follow. -/
def headMarker : List Byte := [0x7A, 0x31, 0xC6, 0xE5]

/-- The layout version the part writes and accepts. -/
def layoutVersion : Byte := 0x01

/-- The 20 bytes of the head program (R67): head fields and head CRC. -/
def headFields (epoch eraseCount : Nat) : List Byte :=
  let fields := headMarker ++ [layoutVersion, 0, 0, 0] ++ beBytes 4 epoch ++ beBytes 4 eraseCount
  fields ++ beBytes 4 (crc fields).toNat

/-- The retire mark: sixteen bytes of 00h. -/
def retireMarkBytes : List Byte := List.replicate 16 0

/-- The classification of a head page (R160), its tests in the order given. -/
def headClass (page : List Byte) : HeadInfo :=
  if bytesAt page 496 16 == retireMarkBytes then .retired
  else if allFF page then .blank
  else if bytesAt page 0 4 == headMarker && byteAt page 4 == layoutVersion && fieldAt page 8 4 != 0
      && decide (fieldAt page 12 4 ≤ 99999) && fieldAt page 16 4 == (crc (bytesAt page 0 16)).toNat
      && allFF (bytesAt page 496 16) then
    .valid (fieldAt page 8 4) (fieldAt page 12 4) 0
  else .damaged

/-! ### Setup copies and the setup arguments (R201) -/

/-- Code of a parity. -/
def Parity.code : Parity → Nat
  | .noParity => 0 | .even => 1 | .odd => 2

/-- The parity of a code. -/
def Parity.ofCode : Nat → Option Parity
  | 0 => some .noParity | 1 => some .even | 2 => some .odd | _ => none

/-- Code of a framing mode. -/
def FrameMode.code : FrameMode → Nat
  | .gap => 0 | .pair => 1 | .count => 2

/-- The framing mode of a code. -/
def FrameMode.ofCode : Nat → Option FrameMode
  | 0 => some .gap | 1 => some .pair | 2 => some .count | _ => none

/-- Code of an overflow policy. -/
def Overflow.code : Overflow → Nat
  | .split => 0 | .cut => 1

/-- The overflow policy of a code. -/
def Overflow.ofCode : Nat → Option Overflow
  | 0 => some .split | 1 => some .cut | _ => none

/-- Code of a polarity. -/
def Polarity.code : Polarity → Nat
  | .activeLow => 0 | .activeHigh => 1

/-- The polarity of a code. -/
def Polarity.ofCode : Nat → Option Polarity
  | 0 => some .activeLow | 1 => some .activeHigh | _ => none

/-- Code of a retention mode. -/
def Retention.code : Retention → Nat
  | .wrap => 0 | .halt => 1

/-- The retention mode of a code. -/
def Retention.ofCode : Nat → Option Retention
  | 0 => some .wrap | 1 => some .halt | _ => none

/-- Code of a floor mode. -/
def FloorMode.code : FloorMode → Nat
  | .noFloor => 0 | .fixed => 1 | .cursor => 2

/-- The floor mode of a code. -/
def FloorMode.ofCode : Nat → Option FloorMode
  | 0 => some .noFloor | 1 => some .fixed | 2 => some .cursor | _ => none

/-- Every field of a line is in range (R19). -/
def LineSetup.inRange (u : LineSetup) : Bool :=
  decide (1 ≤ u.divisor ∧ u.divisor ≤ 4095 ∧ 2 ≤ u.g ∧ u.g ≤ 255 ∧ 1 ≤ u.n ∧ u.n ≤ 240 ∧ 1 ≤ u.maxlen ∧ u.maxlen ≤ 240
    ∧ 1 ≤ u.high ∧ u.high ≤ 511 ∧ u.low < u.high)

/-- Every journal field is in range (R179). -/
def JournalSetup.inRange (j : JournalSetup) : Bool :=
  decide (j.k ≤ 7 ∧ j.flushAge ≤ 60000 ∧ 1 ≤ j.threshold ∧ j.threshold ≤ 65535 ∧ j.fixedFloor ≤ Config.max32)

/-- The 16-byte line block. -/
def lineBlock (u : LineSetup) : List Byte :=
  [BitVec.ofNat 8 u.enable.toNat] ++ beBytes 2 u.divisor
    ++ [BitVec.ofNat 8 u.parity.code, BitVec.ofNat 8 u.mode.code, BitVec.ofNat 8 u.g, u.e1, u.e2, BitVec.ofNat 8 u.n,
        BitVec.ofNat 8 u.maxlen, BitVec.ofNat 8 u.policy.code]
    ++ beBytes 2 u.high ++ beBytes 2 u.low ++ [BitVec.ofNat 8 u.polarity.code]

/-- The fields a line block carries, when every code is defined and every field in range (R19, R201, R203). Bits 7-1 of the
enable byte are reserved and not looked at. -/
def lineOfBlock (l : List Byte) : Option LineSetup :=
  match Parity.ofCode (byteAt l 3).toNat, FrameMode.ofCode (byteAt l 4).toNat, Overflow.ofCode (byteAt l 10).toNat,
      Polarity.ofCode (byteAt l 15).toNat with
  | some parity, some mode, some policy, some polarity =>
    let u : LineSetup :=
      { enable := (byteAt l 0).getLsbD 0, divisor := fieldAt l 1 2, parity := parity, mode := mode,
        g := (byteAt l 5).toNat, e1 := byteAt l 6, e2 := byteAt l 7, n := (byteAt l 8).toNat,
        maxlen := (byteAt l 9).toNat, policy := policy, high := fieldAt l 11 2, low := fieldAt l 13 2,
        polarity := polarity }
    if u.inRange then some u else none
  | _, _, _, _ => none

/-- The 12-byte journal block. -/
def journalBlock (j : JournalSetup) : List Byte :=
  [BitVec.ofNat 8 j.retention.code, BitVec.ofNat 8 j.floorMode.code] ++ beBytes 4 j.fixedFloor
    ++ [BitVec.ofNat 8 j.k] ++ beBytes 2 j.flushAge ++ beBytes 2 j.threshold ++ [BitVec.ofNat 8 j.autostart.toNat]

/-- The fields a journal block carries, when every code is defined and every field in range (R179, R201). -/
def journalOfBlock (l : List Byte) : Option JournalSetup :=
  match Retention.ofCode (byteAt l 0).toNat, FloorMode.ofCode (byteAt l 1).toNat with
  | some retention, some floorMode =>
    let j : JournalSetup :=
      { retention := retention, floorMode := floorMode, fixedFloor := fieldAt l 2 4, k := (byteAt l 6).toNat,
        flushAge := fieldAt l 7 2, threshold := fieldAt l 9 2, autostart := byteAt l 11 == 1 }
    if j.inRange && decide ((byteAt l 11).toNat ≤ 1) then some j else none
  | _, _ => none

/-- The 504-byte body of a setup copy page (R201). -/
def setupBody (f : SetupFields) (generation : Nat) : List Byte :=
  beBytes 4 generation ++ f.line.toList.flatMap lineBlock ++ journalBlock f.journal ++ List.replicate 424 0

/-- The fields and generation a setup page holds when it is a committed copy with every field in range (R159). -/
def setupOfPage (page : List Byte) : Option (SetupFields × Nat) :=
  if markExact page && crcMatches page then
    match lineOfBlock (bytesAt page 4 16), lineOfBlock (bytesAt page 20 16), lineOfBlock (bytesAt page 36 16),
        lineOfBlock (bytesAt page 52 16), journalOfBlock (bytesAt page 68 12) with
    | some u0, some u1, some u2, some u3, some j => some ({ line := #v[u0, u1, u2, u3], journal := j }, fieldAt page 0 4)
    | _, _, _, _, _ => none
  else none

/-! ### Tokens and codes of the SPI port (R202) -/

/-- A resume seq as it is sent: 100000000h is sent as 0 (R120). -/
def resumeBytes (n : Nat) : List Byte := beBytes 4 n

/-- The bytes of a token (R202). -/
def Token.bytes : Token → List Byte
  | .record _ r => 0xA1 :: r
  | .endOfJournal => [0xA2]
  | .wait => [0xA3]
  | .lost n => 0xA4 :: resumeBytes n
  | .fault n => 0xA5 :: resumeBytes n

/-- Result codes (R202). -/
def Result.code : Result → Byte
  | .ok => 0x00 | .busy => 0x01 | .state => 0x02 | .badArg => 0x03 | .unknown => 0x04 | .notReady => 0x05
  | .noResult => 0x08 | .incomplete => 0x09

/-- State codes (R202). -/
def JState.code : JState → Nat
  | .recovering => 0 | .running => 1 | .stopping => 2 | .stopped => 3 | .full => 4 | .formatting => 5 | .draining => 6
  | .drained => 7 | .failed => 8

/-- Sector state codes (R202). -/
def SectorState.code : SectorState → Nat
  | .unknown => 0 | .free => 1 | .opened => 2 | .closed => 3 | .erasing => 4 | .dirty => 5 | .retired => 6

/-- Host operation kind codes (R202). -/
def HostOpKind.code : HostOpKind → Nat
  | .noOp => 0 | .format => 1 | .storeSetup => 2

/-- Host operation outcome codes (R202). -/
def HostOpOutcome.code : HostOpOutcome → Nat
  | .noOutcome => 0 | .ok => 1 | .failed => 2 | .aborted => 3

end Sys2Proof.Machine
end

