-- ==== Sys2Proof/Machine/Ops.lean ====
section
/-! DEFINITION. The operations that several blocks share: the array's memory (R46 to R53), the arbiter (R55 to R63), the
directory's derived values (R86 to R88), the page buffers (R35, R36), and the answers of a meaning. -/

namespace Sys2Proof.Machine

/-- What a meaning answers. -/
abbrev Answer := Host.Outcome State Fault Refusal

/-- The meaning of a happening of a part that has its supply: without supply the model stops. -/
def State.live (s : State) (k : State → Answer) : Answer := if s.powered then k s else .fault .unpowered

/-- The meaning of a happening that only some states bring about; a state that does not is left as it stands (log entry 5). -/
def State.ifArises (s : State) (arises : Bool) (k : Answer) : Answer := if arises then k else .next s

/-! ### The array's memory -/

/-- What an array byte that is not listed reads as: FFh, the value of an erased byte (R49). -/
def erasedByte : Byte := 0xFF

/-- The byte of the array at an address. -/
def memByte : List Host.Cell → Nat → Byte
  | [], _ => erasedByte
  | c :: rest, a => if c.1 = a then c.2 else memByte rest a

/-- The cells for bytes that start at an address; FFh has no cell. -/
def cellsOf : Nat → List Byte → List Host.Cell
  | _, [] => []
  | a, b :: bs => if b = erasedByte then cellsOf (a + 1) bs else (a, b) :: cellsOf (a + 1) bs

/-- The memory with the bytes from an address on replaced. -/
def memWrite (mem : List Host.Cell) (a : Nat) (bytes : List Byte) : List Host.Cell :=
  mem.filter (fun c => c.1 < a) ++ cellsOf a bytes ++ mem.filter (fun c => a + bytes.length ≤ c.1)

/-- `n` bytes of the memory from an address on. -/
def memRead (mem : List Host.Cell) (a n : Nat) : List Byte := (List.range n).map fun i => memByte mem (a + i)

/-- The canonical form: addresses strictly rising, below 1,048,576 (R46), no byte equal to what an unlisted address reads. -/
def Memory.wf : List Host.Cell → Bool
  | [] => true
  | [c] => c.2 != erasedByte && decide (c.1 < 1048576)
  | c :: c' :: rest => c.2 != erasedByte && decide (c.1 < c'.1) && Memory.wf (c' :: rest)

/-- The array address of a sector's first byte (R46). -/
def sectorAddr (sec : Sector) : Nat := sec.val * 0x2000

/-- The array address of a page's first byte (R46). -/
def pageAddr (sec : Sector) (page : PageIx) : Nat := sectorAddr sec + page.val * 0x200

/-- A page as a read returns it (R47). -/
def readPage (mem : List Host.Cell) (sec : Sector) (page : PageIx) : List Byte := memRead mem (pageAddr sec page) 512

/-- Where in its page a program's range begins (R48, R199, R201). -/
def OpKind.offset : OpKind → Nat
  | .fieldProgram | .setupField => 504
  | .retireMark => 496
  | .bodyProgram | .headProgram | .setupBody | .read | .erase => 0

/-- The array address at which a program's range begins. -/
def Request.addr (r : Request) : Nat := pageAddr r.sector r.page + r.kind.offset

/-- The bytes a program writes: it addresses a range within one page (R46), so never more than its page holds from the offset
on. -/
def Request.bytes (r : Request) : List Byte := r.data.take (512 - r.kind.offset)

/-- A program that ends with outcome OK: each byte becomes the AND of old and new (R48). -/
def programOk (mem : List Host.Cell) (a : Nat) (bytes : List Byte) : List Host.Cell :=
  memWrite mem a (List.zipWith (· &&& ·) (memRead mem a bytes.length) bytes)

/-- A program that fails or is cut: a bit that was to be cleared holds 0 or 1, by a free value; every other bit keeps its old
value (R51). -/
def programTorn (ix : Nat) (mem : List Host.Cell) (a : Nat) (bytes : List Byte) : List Host.Cell :=
  memWrite mem a
    ((List.range bytes.length).map fun i =>
      (memByte mem (a + i) &&& bytes.getD i 0) ||| (memByte mem (a + i) &&& Config.cellBits ix (a + i)))

/-- An erase that ends with outcome OK: every byte of the sector is FFh (R49). -/
def eraseOk (mem : List Host.Cell) (sec : Sector) : List Host.Cell :=
  mem.filter fun c => c.1 < sectorAddr sec || sectorAddr sec + 0x2000 ≤ c.1

/-- An erase that fails, is cut, is abandoned or is suspended: every bit of the sector holds 0 or 1, by a free value (R52, R55). -/
def eraseTorn (ix : Nat) (mem : List Host.Cell) (sec : Sector) : List Host.Cell :=
  memWrite mem (sectorAddr sec) ((List.range 0x2000).map fun i => Config.cellBits ix (sectorAddr sec + i))

/-- The array after a program that ends with the given outcome, and the count of free values drawn. -/
def State.program (r : Request) (o : OpOutcome) (s : State) : State :=
  match o with
  | .ok => { s with array := { s.array with mem := programOk s.array.mem r.addr r.bytes } }
  | .fail =>
    { s with array := { s.array with mem := programTorn s.freeIx s.array.mem r.addr r.bytes }, freeIx := s.freeIx + 1 }

/-- The array after an erase that ends with the given outcome, or ceases to exist or is suspended (`fail`). -/
def State.eraseSector (sec : Sector) (o : OpOutcome) (s : State) : State :=
  match o with
  | .ok => { s with array := { s.array with mem := eraseOk s.array.mem sec } }
  | .fail => { s with array := { s.array with mem := eraseTorn s.freeIx s.array.mem sec }, freeIx := s.freeIx + 1 }

/-! ### The arbiter -/

/-- The number of a requester, for the free values. -/
def Requester.number : Requester → Nat
  | .commit => 0 | .cursorFetch => 1 | .cursorSeek => 2 | .setup => 3 | .reclaim => 4 | .format => 5 | .recovery => 6

/-- The class of a request (R58); the recovery unit's reads have a class of their own. Class 3 is the standing resume. -/
def Requester.cls : Requester → Nat
  | .commit => 1 | .cursorFetch | .cursorSeek => 2 | .setup => 4 | .reclaim | .format => 5 | .recovery => 6

/-- A request is made (R58). The arbiter deals with it at the end of the happening (`State.arbitrate`). -/
def State.request (r : Request) (s : State) : State :=
  { s with array := { s.array with made := s.array.made ++ [r] } }

/-- The requests of a requester that still wait are withdrawn. -/
def State.withdraw (p : Requester → Bool) (s : State) : State :=
  { s with array := { s.array with waiting := s.array.waiting.filter (fun r => !p r.requester),
                                   made := s.array.made.filter (fun r => !p r.requester) } }

/-- A requester gives up its read or program in flight: its result will be delivered and not used. -/
def State.disown (p : Requester → Bool) (s : State) : State :=
  { s with array := { s.array with op := s.array.op.map fun r => if p r.requester then { r with wanted := false } else r } }

/-- The array is free: no read or program is in flight, and no erase but a SUSPENDED one exists (section 3.4). -/
def StorageArray.free (a : StorageArray) : Bool :=
  a.op.isNone && (match a.erase with | none => true | some e => e.cond == .suspended)

/-- The journal-state rules of R62 and R63: who may be granted. -/
def JState.serves (j : JState) (r : Requester) : Bool :=
  match j with
  | .recovering => r == .recovery
  | .draining => r == .commit
  | .drained => false
  | _ => true

/-- A request may be granted (R61 to R63). -/
def grantable (j : JState) (e : Option Erase) (r : Request) : Bool :=
  j.serves r.requester
    && (match e with
        | none => true
        | some e => r.kind != .erase && r.sector != e.sector)

/-- What the arbiter grants: a request, or the standing resume. -/
inductive Grant where
  | request (r : Request)
  | resume
  deriving DecidableEq, Repr

/-- The standing resume of a SUSPENDED erase may be granted (R56). -/
def resumable (j : JState) (e : Option Erase) : Bool :=
  (match e with | none => false | some e => e.cond == .suspended)
    && (match j with | .recovering | .draining | .drained => false | _ => true)

/-- The first grantable request of the lowest class among `l`, the resume standing in class 3 (R59). -/
def bestGrant (j : JState) (e : Option Erase) (l : List Request) : Option Grant :=
  let ok := l.filter (grantable j e)
  match ok.find? (·.requester.cls == 6), ok.find? (·.requester.cls == 1), ok.find? (·.requester.cls == 2) with
  | some r, _, _ => some (.request r)
  | none, some r, _ => some (.request r)
  | none, none, some r => some (.request r)
  | none, none, none =>
    if resumable j e then some .resume
    else match ok.find? (·.requester.cls == 4), ok.find? (·.requester.cls == 5) with
      | some r, _ => some (.request r)
      | none, some r => some (.request r)
      | none, none => none

/-- A grant takes effect: an erase begins or resumes, or a read or program is in flight. The bytes of a sector are kept as they
were while its erase runs (DESIGN CHOICE, log entry 43): R49 leaves them undefined until the end, and no operation addresses them (R61). -/
def StorageArray.grant (g : Grant) (a : StorageArray) : StorageArray :=
  match g with
  | .resume => { a with erase := a.erase.map fun e => { e with cond := .running } }
  | .request r =>
    let a := { a with waiting := a.waiting.erase r, made := a.made.erase r }
    if r.kind = .erase then
      { a with erase := some { sector := r.sector, requester := r.requester, cond := .running, runMicros := 0,
                               wanted := r.wanted } }
    else { a with op := some r }

/-- The grant when the array is free. `freed` says that it became free at this happening. Requests already waiting compete
(R59). Requests made at this happening compete with them where they are taken before the freeing, which a free value
decides; a request made while nothing else is grantable is granted when it is made, and which of several such is made first a
free value decides too (R59, R60). -/
def chooseGrant (freed : Bool) (ix : Nat) (j : JState) (a : StorageArray) : Option Grant :=
  match bestGrant j a.erase a.waiting, a.made with
  | old, [] => old
  | none, [r] => bestGrant j a.erase [r]
  | old, made =>
    let early := made.filter fun r => Config.takenFirst ix r.requester.number
    if freed then
      match bestGrant j a.erase (a.waiting ++ early) with
      | some g => some g
      | none => (made.find? (grantable j a.erase)).map .request
    else
      match old, early.find? (grantable j a.erase), made.find? (grantable j a.erase) with
      | some g, _, _ => some g
      | none, some r, _ => some (.request r)
      | none, none, r => r.map .request

/-- A commit-class or read-class request made at this happening and not granted suspends a RUNNING reclaim or Format erase
(R55, R60). -/
def StorageArray.suspendFor (made : List Request) (a : StorageArray) : StorageArray :=
  { a with
    erase := a.erase.map fun e =>
      if e.cond = .running ∧ e.requester ≠ .setup ∧ made.any (fun r => r.requester.cls ≤ 2) then
        { e with cond := .suspendPending }
      else e }

/-- The arbiter deals with the requests of a happening (R59 to R63): a grant when the array is free, a suspension where a
request that cannot wait finds an erase RUNNING, and the rest wait in the order made. -/
def State.arbitrate (freed : Bool) (s : State) : State :=
  let granted :=
    if s.array.free then
      match chooseGrant freed s.freeIx s.ctrl.state s.array with
      | some g => s.array.grant g
      | none => s.array
    else s.array
  let a := granted.suspendFor granted.made
  { s with array := { a with waiting := a.waiting ++ a.made, made := [] }, freeIx := s.freeIx + 1 }

/-! ### The sector directory -/

/-- A journal sector as a sector of the array. -/
def sectorOf (j : JSector) : Sector := ⟨j.val, by omega⟩

/-- The journal sector of a sector of the array, none for a setup sector. -/
def journalOf (sec : Sector) : Option JSector :=
  if h : sec.val < 126 then some ⟨sec.val, h⟩ else none

/-- The journal sectors in ascending index. -/
def allSectors : List JSector := List.finRange 126

/-- The entry of a sector is changed. -/
def Directory.update (d : Directory) (j : JSector) (f : Entry → Entry) : Directory := d.set j (f d[j])

/-- Every entry is changed by its index. -/
def Directory.mapAll (d : Directory) (f : JSector → Entry → Entry) : Directory :=
  ⟨((List.finRange 126).map fun j => f j d[j]).toArray, by simp⟩

/-- The entry of a sector is changed in the state. -/
def State.setEntry (j : JSector) (f : Entry → Entry) (s : State) : State := { s with dir := s.dir.update j f }

/-- The sectors in a given state, ascending index. -/
def Directory.inState (d : Directory) (st : SectorState) : List JSector := allSectors.filter fun j => d[j].state == st

/-- The number of sectors in a given state (R87, R104). -/
def Directory.countOf (d : Directory) (st : SectorState) : Nat := (d.inState st).length

/-- The first element of least key. -/
def leastBy (key : α → Nat) : List α → Option α
  | [] => none
  | a :: rest =>
    match leastBy key rest with
    | none => some a
    | some b => if key a ≤ key b then some a else some b

/-- Insertion in ascending key, in front of equal keys. -/
def insertBy (key : α → Nat) (a : α) : List α → List α
  | [] => [a]
  | b :: rest => if key a ≤ key b then a :: b :: rest else b :: insertBy key a rest


/-- The ring (R86): the CLOSED sectors in ascending epoch, then the OPEN sector. -/
def Directory.ring (d : Directory) : List JSector :=
  (d.inState .closed).foldr (fun j l => insertBy (fun i => d[i].epoch) j l) [] ++ d.inState .opened

/-- The ring sectors that hold readable records. -/
def Directory.holders (d : Directory) : List JSector := d.ring.filter fun j => d[j].firstSeq != 0

/-- The first sector of the free pool (R87): least erase count, then least index. -/
def Directory.poolFirst (d : Directory) : Option JSector := leastBy (fun j => d[j].eraseCount) (d.inState .free)

/-- The usable count (R87). -/
def Directory.usable (d : Directory) : Nat := 126 - d.countOf .retired

/-- The oldest retained seq (R88). -/
def Directory.oldestRetained (d : Directory) : Nat :=
  match d.holders with
  | [] => 0
  | j :: _ => d[j].firstSeq

/-- The resume point (R88). -/
def State.resumePoint (s : State) : Nat :=
  if s.dir.oldestRetained != 0 then s.dir.oldestRetained else s.commit.newestSeq + 1

/-! ### Line ports, page buffers and stamps -/

/-- A line port is changed. -/
def State.setLine (i : LineIx) (p : LinePort) (s : State) : State := { s with lines := s.lines.set i p }

/-- A page buffer. -/
def Admission.buf (a : Admission) : BufId → Buffer
  | .p => a.bufP
  | .q => a.bufQ

/-- A page buffer is replaced. -/
def State.setBuf (b : BufId) (v : Buffer) (s : State) : State :=
  match b with
  | .p => { s with adm := { s.adm with bufP := v } }
  | .q => { s with adm := { s.adm with bufQ := v } }

/-- The other page buffer. -/
def BufId.other : BufId → BufId
  | .p => .q
  | .q => .p

/-- The FILLING buffer (R36). -/
def Admission.filling (a : Admission) : Option BufId :=
  if a.bufP.role = .filling then some .p else if a.bufQ.role = .filling then some .q else none

/-- A buffer holds staged records: COMMITTING or CLOSED, or FILLING with records (R41). -/
def Buffer.staged (b : Buffer) : Bool :=
  match b.role with
  | .committing | .closed => true
  | .filling => b.count != 0
  | .idle => false

/-- Some records are staged (R41). -/
def State.staged (s : State) : Bool := s.adm.bufP.staged || s.adm.bufQ.staged

/-- The stamp counter stands saturated (R26). -/
def State.counterSaturated (s : State) : Bool := s.time.counter == Config.stampMax

/-- The system stamp (R38): the least of the counter, the stamps of the queue heads, and the note's stamp. -/
def State.systemStamp (s : State) : Nat :=
  let heads := s.lines.toList.filterMap fun p => p.queue.head?.map (·.close)
  let note := s.adm.note.toList.map (·.stamp)
  (heads ++ note).foldl min s.time.counter

/-- A line's PACE output is active (R18). -/
def State.paceActive (s : State) (i : LineIx) : Bool :=
  s.lines[i].hysteresis || s.lines[i].queue.length == Config.queueSize || s.ctrl.state != .running

/-- The level of a PACE pin, true for high (R18, R24): low while a reset is in force and until recovery has loaded the working
setup, and by the polarity from then on. -/
def State.pacePin (s : State) (i : LineIx) : Bool :=
  if s.inReset || !s.setupLoaded then false
  else match s.setup.fields.line[i].polarity with
    | .activeLow => !s.paceActive i
    | .activeHigh => s.paceActive i

/-- The journal state changes, and STATE is raised at a change (R126). -/
def State.enter (j : JState) (s : State) : State :=
  if s.ctrl.state = j then s else { s with ctrl := { s.ctrl with state := j } }.raise .state

/-- A host operation ends with its outcome, and OP_DONE is raised (R135). -/
def State.endHostOp (o : HostOpOutcome) (s : State) : State :=
  { s with ctrl := { s.ctrl with opKind := .noOp, opOutcome := o } }.raise .opDone

/-- The withheld pages of a sector leave the list when it enters ERASING (R107). -/
def State.dropWithheld (j : JSector) (s : State) : State :=
  { s with cursor := { s.cursor with withheld := s.cursor.withheld.filter fun w => w.1 != j } }

end Sys2Proof.Machine
end

