-- ==== Sys2Proof/Machine/Line.lean ====
section
/-! DEFINITION. Line capture (chapter 1): the receivers, the framers, the line FIFOs and closed-frame queues, pacing, and the
happenings of a line port. -/

namespace Sys2Proof.Machine

/-! ### Pacing (R17) -/

/-- A stored byte that makes the fill greater than HIGH sets the hysteresis (R17). -/
def LinePort.pacedStore (u : LineSetup) (p : LinePort) : LinePort :=
  if u.high < p.fifo.length then { p with hysteresis := true } else p

/-- A release that makes the fill less than or equal to LOW clears the hysteresis (R17). -/
def LinePort.pacedRelease (u : LineSetup) (p : LinePort) : LinePort :=
  if p.fifo.length ≤ u.low then { p with hysteresis := false } else p

/-- An accepted Write Line Setup re-evaluates the hysteresis against the new marks (R17). -/
def LinePort.pacedRewrite (u : LineSetup) (p : LinePort) : LinePort :=
  if u.high < p.fifo.length then { p with hysteresis := true } else p.pacedRelease u

/-! ### Closing and dropping pieces (R9, R14, R15) -/

/-- The bytes of the queued pieces: they lie at the front of the FIFO. -/
def LinePort.queuedBytes (p : LinePort) : Nat := (p.queue.map (·.length)).sum

/-- The span of a piece that closes now (R9). -/
def State.spanFrom (s : State) (openStamp : Nat) : Nat :=
  if s.counterSaturated then 0
  else if s.time.counter < openStamp then 0
  else min (s.time.counter - openStamp) Config.spanMax

/-- Dropping the piece in progress gives it up whole (R15): its stored bytes leave the FIFO, the pending lost count rises by 1
up to 255, and LINE_FAULT is raised. -/
def State.dropPiece (i : LineIx) (s : State) : State :=
  let p := s.lines[i]
  let p := { p with fifo := p.fifo.take p.queuedBytes, lost := min (p.lost + 1) Config.lostMax, piece := Piece.empty }
  (s.setLine i (p.pacedRelease s.setup.fields.line[i])).raise (.lineFault i)

/-- The piece in progress closes with the flags of its close cause (R9, R14): it is dropped when it is overrun or the queue
holds 8, and otherwise its descriptor joins the queue. The framer's next state is given. -/
def State.closePiece (i : LineIx) (cause : RecFlags) (next : FramerState) (s : State) : State :=
  let p := s.lines[i]
  let s := s.setLine i { p with framer := next }
  if p.piece.overrun || decide (Config.queueSize ≤ p.queue.length) then s.dropPiece i
  else
    let d : Descriptor :=
      { line := i, length := p.piece.count,
        flags := { cause with parity := p.piece.parity, framing := p.piece.framing },
        close := s.time.counter, span := s.spanFrom p.piece.openStamp }
    s.setLine i { p with framer := next, queue := p.queue ++ [d], piece := Piece.empty }

/-! ### Characters (R4, R6, R7, R11, R13) -/

/-- The character is offered to the FIFO (R13). -/
def LinePort.offer (u : LineSetup) (data : Byte) (p : LinePort) : LinePort :=
  if p.piece.overrun then p
  else if p.fifo.length < Config.fifoSize then ({ p with fifo := p.fifo ++ [data] }).pacedStore u
  else { p with piece := { p.piece with overrun := true } }

/-- The frame-wide tracking of a character: whether it meets the end condition of R4, and pair-armed and the frame character
count afterwards (R6, R7). Pair-armed is kept in PAIR mode only. -/
def track (u : LineSetup) (data : Byte) (armed : Bool) (frameCount : Nat) : Bool × Bool × Nat :=
  match u.mode with
  | .gap => (false, armed, frameCount + 1)
  | .pair =>
    if armed && data == u.e2 then (true, armed, frameCount + 1) else (false, data == u.e1, frameCount + 1)
  | .count => (frameCount + 1 == u.n, armed, frameCount + 1)

/-- A character joins the piece in progress, or opens one (R4). -/
def LinePort.join (u : LineSetup) (stamp : Nat) (data : Byte) (parity framing : Bool) (p : LinePort) : LinePort :=
  let p :=
    match p.framer with
    | .opened =>
      { p with piece := { p.piece with count := p.piece.count + 1, parity := p.piece.parity || parity,
                                       framing := p.piece.framing || framing } }
    | _ =>
      { p with framer := .opened,
               piece := { openStamp := stamp, count := 1, parity := parity, framing := framing, overrun := false } }
  p.offer u data

/-- A character delivered in DISCARDING (R11): it is thrown away, and the discard ends at the mode's close condition. -/
def LinePort.discard (u : LineSetup) (data : Byte) (p : LinePort) : LinePort :=
  let (ends, armed, n) := track u data p.pairArmed p.frameCount
  { p with framer := if ends then .waiting else .discarding, pairArmed := armed,
           frameCount := if u.mode = .count then n else p.frameCount }

/-- The tests for a close after a character (R4): the end condition, then MAXLEN (R10, R11), else the piece stays open. -/
def State.closeTest (i : LineIx) (ends : Bool) (s : State) : State :=
  let u := s.setup.fields.line[i]
  if ends then s.closePiece i RecFlags.empty .waiting
  else if u.maxlen ≤ s.lines[i].piece.count then
    match u.policy with
    | .split => s.closePiece i { RecFlags.empty with cont := true } .continuing
    | .cut => s.closePiece i { RecFlags.empty with trunc := true } .discarding
  else s

/-- The framer takes a delivered character by its state, and tests for a close (R4, R10, R11). -/
def State.takeCharacter (i : LineIx) (data : Byte) (parity framing : Bool) (s : State) : State :=
  let u := s.setup.fields.line[i]
  let p := s.lines[i]
  match p.framer with
  | .discarding => s.setLine i (p.discard u data)
  | st =>
    let fresh := st == .waiting
    let (ends, armed, n) := track u data (!fresh && p.pairArmed) (if fresh then 0 else p.frameCount)
    (s.setLine i { p.join u s.time.counter data parity framing with pairArmed := armed, frameCount := n }).closeTest i ends

/-- A break is delivered to the framer (R8). -/
def State.takeBreak (i : LineIx) (s : State) : State :=
  let p := s.lines[i]
  match p.framer with
  | .opened => s.closePiece i { RecFlags.empty with brk := true } .waiting
  | _ =>
    let piece := { Piece.empty with openStamp := s.time.counter }
    (s.setLine i { p with piece := piece }).closePiece i { RecFlags.empty with brk := true } .waiting

/-- Idle step G is delivered to the framer (R5, R6, R7, R11). -/
def State.takeIdle (i : LineIx) (s : State) : State :=
  let p := s.lines[i]
  match p.framer with
  | .opened =>
    s.closePiece i { RecFlags.empty with openEnd := s.setup.fields.line[i].mode != .gap } .waiting
  | .waiting => s
  | .continuing | .discarding => s.setLine i { p with framer := .waiting }

/-! ### The receiver's happenings -/

/-- The number of ones of a data byte. -/
def ones (data : Byte) : Nat := ((List.range 8).filter fun k => data.getLsbD k).length

/-- The character is marked PARITY (R1): by the count of ones among its data bits and its parity bit. -/
def parityMark (u : LineSetup) (data : Byte) (parityBit : Bool) : Bool :=
  match u.parity with
  | .noParity => false
  | .even => (ones data + parityBit.toNat) % 2 == 1
  | .odd => (ones data + parityBit.toNat) % 2 == 0

/-- The parity bit was sampled low, or there is none. -/
def parityLow (u : LineSetup) (parityBit : Bool) : Bool := u.parity == .noParity || !parityBit

/-- The receiver of a line and its idle measurement are set. -/
def State.setReceiver (i : LineIx) (r : Receiver) (idle : Option Nat) (s : State) : State :=
  s.setLine i { s.lines[i] with receiver := r, idle := idle }

/-- START_EDGE (R1): a settled receiver with no character or break in force takes a falling edge; a false start changes
nothing, and a confirmed one stops the idle measurement (R3). Any other receiver takes no start edge. -/
def execStartEdge (i : LineIx) (confirmed : Bool) (s : State) : Answer :=
  s.live fun s =>
    match s.lines[i].receiver with
    | .ready => .next (if confirmed then s.setReceiver i .receiving none else s)
    | _ => .next s

/-- CHARACTER_DELIVERED (R1, R4): the stop-bit sample of a character in progress. With a high stop bit, or a low one after
some high bit, the character is delivered; with every bit low it is held (R2). -/
def execCharacterDelivered (i : LineIx) (data : Byte) (parityBit stopBit : Bool) (s : State) : Answer :=
  s.live fun s =>
    s.ifArises (s.lines[i].receiver == .receiving) <|
      let u := s.setup.fields.line[i]
      let mark := parityMark u data parityBit
      .next <|
        if stopBit then (s.setReceiver i .ready (some 0)).takeCharacter i data mark false
        else if data == 0 && parityLow u parityBit then s.setReceiver i (.held mark) none
        else (s.setReceiver i .lowStop none).takeCharacter i data mark true

/-- LINE_RETURNS_HIGH (R2, R3): a held character is delivered as 00h with FRAMING, a break ends, and the idle measurement
takes its origin. In any other condition of the receiver the line's level has no effect. -/
def execLineReturnsHigh (i : LineIx) (s : State) : Answer :=
  s.live fun s =>
    match s.lines[i].receiver with
    | .held mark => .next ((s.setReceiver i .ready (some 0)).takeCharacter i 0 mark true)
    | .breaking | .lowStop => .next (s.setReceiver i .ready (some 0))
    | _ => .next s

/-- BREAK_RECOGNISED (R2, R8): the held character is discarded and the break is delivered. -/
def execBreakRecognised (i : LineIx) (s : State) : Answer :=
  s.live fun s =>
    match s.lines[i].receiver with
    | .held _ => .next ((s.setReceiver i .breaking none).takeBreak i)
    | _ => .next s

/-- IDLE_STEP (R3, R5): the idle measurement counts one character time, up to 255, and step G is delivered to the framer. -/
def execIdleStep (i : LineIx) (s : State) : Answer :=
  s.live fun s =>
    match s.lines[i].receiver, s.lines[i].idle with
    | .ready, some n =>
      if Config.idleMax ≤ n then .next s
      else
        let s := s.setReceiver i .ready (some (n + 1))
        .next (if n + 1 = s.setup.fields.line[i].g then s.takeIdle i else s)
    | _, _ => .next s

/-- LINE_SETTLED (R20): the receiver takes start edges from now on, the idle measurement takes its origin, and the framer
starts in WAITING. -/
def execLineSettled (i : LineIx) (s : State) : Answer :=
  s.live fun s =>
    s.ifArises (s.lines[i].receiver == .unsettled) <|
      .next (s.setLine i { s.lines[i] with receiver := .ready, idle := some 0, framer := .waiting, pairArmed := false,
                                           frameCount := 0 })

/-! ### Enabling and disabling (R20, R21) -/

/-- A line is enabled (R19): from R20 to R21 or a reset. -/
def State.lineEnabled (s : State) (i : LineIx) : Bool := s.lines[i].receiver != .off

/-- Enabling a line starts its receiver unsettled (R20). -/
def State.enableLine (i : LineIx) (s : State) : State := s.setReceiver i .unsettled none

/-- Disabling a line stops its receiver, drops an open piece, and makes the framer WAITING (R21). -/
def State.disableLine (i : LineIx) (s : State) : State :=
  let p := s.lines[i]
  let s := s.setLine i { p with receiver := .off, idle := none, framer := .waiting }
  if p.framer = .opened then s.dropPiece i else s

/-- The lines whose working setup has enable = 1 are enabled at recovery's end (R22). -/
def State.enableLines (s : State) : State :=
  [0, 1, 2, 3].foldl (fun (s : State) (i : LineIx) => if s.setup.fields.line[i].enable then s.enableLine i else s) s

end Sys2Proof.Machine
end

