-- ==== Sys2Proof/Machine/Commit.lean ====
section
/-! DEFINITION. Staging and committing (chapters 2 and 4): the records written at an admission, the closing, taking and
releasing of page buffers, and the commit path's search for a target page. -/

namespace Sys2Proof.Machine

/-! ### System records (R38) -/

/-- A START's content with the given cause and clean flag, the k in force, the origin of the working setup, 0 in the recovery
counts and the directory's RETIRED count (R28, R138, R151). -/
def State.startContent (cause : StartCause) (clean : Bool) (s : State) : StartContent :=
  { cause := cause, clean := clean, k := s.setup.fields.journal.k, source := s.setup.source,
    generation := s.setup.generation, discarded := 0, corrupt := 0, damaged := 0, retired := s.dir.countOf .retired }

/-- A START is placed in the system slot with its system stamp (R38). -/
def State.placeStart (c : StartContent) (s : State) : State :=
  { s with adm := { s.adm with sys := some (.start c s.systemStamp) } }

/-! ### Writing a record into the filling buffer (R32, R33, R34) -/

/-- What an admission writes, apart from the seq: the header fields and payload of R33. -/
structure Draft where
  kind    : Nat
  line    : Nat
  flags   : Byte
  lost    : Nat
  stamp   : Nat
  span    : Nat
  payload : List Byte
  deriving DecidableEq, Repr

/-- The record's bytes with its seq (R198). -/
def Draft.bytes (d : Draft) (seq : Nat) : List Byte :=
  recHeader d.kind d.line d.flags d.lost d.payload.length seq d.stamp d.span ++ d.payload

/-- A record fits in a buffer (R35): up to 464 used bytes, or up to 488 for a SHUTDOWN. -/
def Buffer.fits (b : Buffer) (d : Draft) : Bool :=
  decide (b.data.length + 16 + d.payload.length ≤ if d.kind = kindShutdown then Config.areaSize else Config.normalFill)

/-- The buffer with one more record (R32): the first record starts the flush-age clock (R37). -/
def Buffer.append (b : Buffer) (seq : Nat) (bytes : List Byte) : Buffer :=
  { b with data := b.data ++ bytes, count := b.count + 1, lastSeq := seq,
           firstSeq := if b.count = 0 then seq else b.firstSeq,
           clock := if b.count = 0 then 0 else b.clock,
           reachedAge := if b.count = 0 then 0 else b.reachedAge }

/-- The seq after one that has been given: none (0) after FFFFFFFFh (R34). -/
def seqAfter (n : Nat) : Nat := if Config.max32 ≤ n then 0 else n + 1

/-- The record receives the next seq and is written into the buffer (R32); seq FFFFFFFFh exhausts the numbers (R34). -/
def State.writeRecord (b : BufId) (d : Draft) (s : State) : State :=
  let seq := s.adm.nextSeq
  let s := s.setBuf b ((s.adm.buf b).append seq (d.bytes seq))
  { s with adm := { s.adm with nextSeq := seqAfter seq, exhausted := s.adm.exhausted || decide (Config.max32 ≤ seq) } }

/-! ### Messages to the journal controller -/

/-- The commit path reports space blocked (R131): FULL, with stop-requested set when a stop or a Format is in progress; a
Format then ends with outcome OK (R139). -/
def State.spaceBlocked (s : State) : State :=
  let s := { s with ctrl := { s.ctrl with spaceWait := true } }
  match s.ctrl.state with
  | .running => s.enter .full
  | .stopping | .stopped => { s with ctrl := { s.ctrl with stopRequested := true } }.enter .full
  | .formatting =>
    ({ s with ctrl := { s.ctrl with stopRequested := true, format := .noFormat, formatDone := [] } }.enter .full).endHostOp .ok
  | _ => s

/-- The report that sequence numbers are exhausted (R133). -/
def State.reportExhausted (s : State) : State :=
  match s.ctrl.state with
  | .running => s.enter .full
  | .stopping | .stopped => { s with ctrl := { s.ctrl with stopRequested := true } }.enter .full
  | _ => s

/-! ### Releasing, seeking and taking (R36, R65 to R68, R79) -/

/-- The commit path releases the buffer it holds (R36): it is emptied, and becomes FILLING if no buffer is, IDLE otherwise.
The phase becomes IDLE, unless it is HALTED (R77). A sector opened afterwards, for another buffer, was not opened on leaving
BLOCKED (R69; log entry 44). -/
def State.releaseHeld (s : State) : State :=
  match s.commit.holding with
  | none => s
  | some b =>
    let role : Role := if (s.adm.buf b.other).role = .filling then .idle else .filling
    let s := s.setBuf b (Buffer.empty role)
    { s with commit := { s.commit with holding := none, leavingBlocked := false,
                                       phase := if s.commit.phase = .halted then .halted else .idle } }

/-- A page index from the commit path's next page. -/
def pageOf (n : Nat) : PageIx := Fin.ofNat 16 n

/-- A commit-class request (R58). -/
def commitRequest (kind : OpKind) (j : JSector) (page : Nat) (data : List Byte) : Request :=
  { requester := .commit, kind := kind, sector := sectorOf j, page := pageOf page, data := data, generation := 0,
    wanted := true }

/-- The body of the target page is built from the held buffer and its program requested (R72). -/
def State.startBody (j : JSector) (s : State) : State :=
  match s.commit.holding with
  | none => s
  | some b =>
    let body := pageBody s.dir[j].epoch (s.adm.buf b)
    let s := { s with commit := { s.commit with phase := .body, bodyCrc := crc body } }
    s.request (commitRequest .bodyProgram j s.commit.nextPage body)

/-- The epoch given to the next sector opened (R67); the one after FFFFFFFFh is a free value. -/
def State.nextEpoch (s : State) : Nat :=
  if s.commit.lastEpoch < Config.max32 then s.commit.lastEpoch + 1 else (Config.epochPastLast s.freeIx).toNat

/-- A sector is opened and its head program requested (R67). DESIGN CHOICE (log entry 50): the request is made at this happening also
where a program of the path that a Format gave up (R80) is still in flight; it waits for the array, and so for that result. -/
def State.openSector (j : JSector) (s : State) : State :=
  let e := s.nextEpoch
  let s := s.setEntry j fun x =>
    { x with state := .opened, epoch := e, firstSeq := 0, lastSeq := 0, firstStamp := 0, lastStamp := 0, pagesUsed := 0,
             retireMark := false, failCount := 0 }
  let s := { s with commit := { s.commit with lastEpoch := e, target := some j, nextPage := 1, phase := .head } }
  s.request (commitRequest .headProgram j 0 (headFields e s.dir[j].eraseCount))

/-- No target and no free sector (R68). In DRAINING the buffer is released with its records lost and drain loss mode is set
(R79). In RECOVERING the report is left to the end of recovery (R170). In FAILED, and in DRAINED, there is none (R77, R131). In FULL a
path that was leaving BLOCKED makes no second report (R69). -/
def State.block (s : State) : State :=
  match s.ctrl.state with
  | .draining =>
    let s := s.releaseHeld
    { s with commit := { s.commit with phase := .idle, drainLoss := true, leavingBlocked := false } }
  | .recovering | .failed | .drained => { s with commit := { s.commit with phase := .blocked, leavingBlocked := false } }
  | .running | .stopping | .stopped | .full | .formatting =>
    let again := s.commit.leavingBlocked && s.ctrl.state == .full
    let s := { s with commit := { s.commit with phase := .blocked, leavingBlocked := false } }
    if again then s else s.spaceBlocked

/-- The first sector of the free pool is opened, or the commit path is blocked (R66, R67, R68). -/
def State.openOrBlock (s : State) : State :=
  match s.dir.poolFirst with
  | some j => s.openSector j
  | none => s.block

/-- The commit path seeks a target page for its held buffer (R66). -/
def State.seekTarget (s : State) : State :=
  match s.commit.target with
  | none => s.openOrBlock
  | some j =>
    if s.commit.nextPage ≤ 15 then s.startBody j
    else
      let s := s.setEntry j fun x => { x with state := .closed }
      { s with commit := { s.commit with target := none } }.openOrBlock

/-- The commit path takes a buffer (R65). In HALTED it seeks nothing (R77); in drain loss mode it releases the buffer at once
with its records lost (R78). -/
def State.takeBuffer (b : BufId) (s : State) : State :=
  let s := s.setBuf b { s.adm.buf b with role := .committing }
  let s := { s with commit := { s.commit with holding := some b } }
  if s.commit.phase = .halted then s
  else if s.commit.drainLoss then s.releaseHeld
  else s.seekTarget

/-- The filling buffer is closed if it holds records (R36, R37): the IDLE buffer becomes FILLING, and the commit path takes
the closed one if it holds none. -/
def State.closeFilling (s : State) : State :=
  match s.adm.filling with
  | none => s
  | some b =>
    if (s.adm.buf b).count = 0 then s
    else
      let s := s.setBuf b { s.adm.buf b with role := .closed }
      let o := s.adm.buf b.other
      let s := if o.role = .idle then s.setBuf b.other { o with role := .filling } else s
      if s.commit.holding.isNone then s.takeBuffer b else s

/-- At a release the commit path takes the other buffer if it is CLOSED (R65), but not in HALTED (R77). -/
def State.takeClosed (s : State) : State :=
  if s.commit.phase = .halted ∨ s.commit.holding.isSome then s
  else if s.adm.bufP.role = .closed then s.takeBuffer .p
  else if s.adm.bufQ.role = .closed then s.takeBuffer .q
  else s

/-! ### What an admission does beside writing the record -/

/-- Some record is in the filling buffer. -/
def State.fillingHolds (s : State) : Bool :=
  match s.adm.filling with
  | none => false
  | some b => (s.adm.buf b).count != 0

/-- The flush-age clock of the filling buffer has reached the flush age (R37). -/
def State.flushOwed (s : State) : Bool :=
  let age := s.setup.fields.journal.flushAge
  match s.adm.filling with
  | none => false
  | some b => age != 0 && (s.adm.buf b).count != 0 && decide (age ≤ (s.adm.buf b).reachedAge)

/-- The clock of a filling buffer is known to have reached an age. -/
def State.markReached (age : Nat) (s : State) : State :=
  match s.adm.filling with
  | none => s
  | some b => s.setBuf b { s.adm.buf b with reachedAge := max (s.adm.buf b).reachedAge age }

/-- Whether a clock stands at or past `age` ms (R37): surely if it has reached an age at least as great, or if the ticks
counted since its start leave no doubt; surely not if they exclude it; otherwise a free value. -/
def State.clockPast (b : Buffer) (age : Nat) (s : State) : Bool :=
  let tick := 2 ^ s.setup.fields.journal.k
  if age ≤ b.reachedAge ∨ age * 1000 + tick ≤ b.clock then true
  else if b.clock + tick ≤ age * 1000 then false
  else Config.flushClockPast s.freeIx

end Sys2Proof.Machine
end

