-- ==== Sys2Proof/Machine/Cursor.lean ====
section
/-! DEFINITION. The cursor engine (chapter 6): what is returnable, fetches, seeks by stamp, tokens, and being overtaken. -/

namespace Sys2Proof.Machine

/-! ### Returnable records (R106, R107) -/

/-- The wanted seq (R106): the target, or one above the RECORD in the transmit store. -/
def CursorEngine.wanted (c : CursorEngine) : Nat :=
  match c.store with
  | .transfer (.record n _) => n + 1
  | .kept n _ => n + 1
  | _ => c.target

/-- A page is withheld (R107). -/
def CursorEngine.isWithheld (c : CursorEngine) (j : JSector) (p : PageIx) : Bool := c.withheld.contains (j, p)

/-- The returnable records of the read buffer, in page order (R106). -/
def State.returnable (s : State) : List (List Byte) :=
  match s.cursor.buffer with
  | .held j p bytes =>
    if pageClass bytes = .committed ∧ !s.cursor.isWithheld j p then
      (pageRecords bytes).filter fun r =>
        decide (s.cursor.wanted ≤ recSeq r ∧ s.cursor.lastReturned < recSeq r ∧ recSeq r ≤ s.commit.newestSeq)
    else []
  | _ => []

/-! ### Reads of the cursor engine -/

/-- Is this requester the cursor engine? -/
def Requester.isCursor : Requester → Bool
  | .cursorFetch | .cursorSeek => true
  | _ => false

/-- A read of the cursor engine that is no longer wanted is in flight (R110). -/
def State.staleRead (s : State) : Bool :=
  match s.array.op with
  | none => false
  | some r => r.requester.isCursor && !r.wanted

/-- The reads of the given kind are no longer wanted (R110): one that waits is withdrawn, one in flight runs to its end. -/
def State.giveUpReads (p : Requester → Bool) (s : State) : State := (s.withdraw p).disown p

/-- A page read of the cursor engine. -/
def cursorRead (who : Requester) (j : JSector) (p : PageIx) : Request :=
  { requester := who, kind := .read, sector := sectorOf j, page := p, data := [], generation := 0, wanted := true }

/-- The ring sectors after a sector. -/
def Directory.after (d : Directory) (j : JSector) : List JSector := (d.ring.dropWhile (· != j)).tail

/-- The page a fetch asks for (R108): after the place where there is one, and by the directory where there is none. -/
def State.fetchPlace (s : State) : Option (JSector × PageIx) :=
  match s.cursor.buffer with
  | .held j p _ =>
    if (s.dir[j].state = .opened ∨ s.dir[j].state = .closed) ∧ p.val < s.dir[j].pagesUsed then some (j, pageOf (p.val + 1))
    else ((s.dir.after j).find? fun i => s.dir[i].firstSeq != 0).map fun i => (i, 1)
  | .empty => (s.dir.holders.find? fun i => decide (s.cursor.wanted ≤ s.dir[i].lastSeq)).map fun i => (i, 1)
  | .fetching _ _ => none

/-- The conditions of a fetch (R108). -/
def State.wantsFetch (s : State) : Bool :=
  s.cursor.target != 0 && s.cursor.seek.isNone && !s.staleRead && decide (s.cursor.wanted ≤ s.commit.newestSeq)
    && (match s.cursor.buffer with
        | .fetching _ _ => false
        | _ => s.returnable.isEmpty)

/-- The cursor engine requests a page where R108 says so. In DRAINING and DRAINED the request is refused, and the page held
is given up (R110). -/
def State.fetchStep (s : State) : State :=
  if !s.wantsFetch then s
  else match s.fetchPlace with
    | none => s
    | some (j, p) =>
      match s.ctrl.state with
      | .recovering => s
      | .draining | .drained => { s with cursor := { s.cursor with buffer := .empty } }
      | _ => { s with cursor := { s.cursor with buffer := .fetching j p } }.request (cursorRead .cursorFetch j p)

/-! ### Seek by stamp (R113, R114) -/

/-- A seek by stamp ends with the target set; a pending token set while it was in progress is cleared (R113). -/
def State.endSeek (target : Nat) (s : State) : State :=
  { s with cursor := { s.cursor with target := target, seek := none, pendingToken := .noToken } }

/-- Step 1 of R113 over the given ring sectors. -/
def State.seekChoose (k : SeekState) (sectors : List JSector) (s : State) : State :=
  match sectors.find? fun j => s.dir[j].firstSeq != 0 && decide (k.stamp ≤ s.dir[j].lastStamp) with
  | none => s.endSeek (s.commit.newestSeq + 1)
  | some j =>
    if k.stamp ≤ s.dir[j].firstStamp then s.endSeek s.dir[j].firstSeq
    else { s with cursor := { s.cursor with seek := some { k with position := some (j, 1) } } }

/-- A seek that has ended wants no read any more (R110). -/
def State.dropSeekRead (s : State) : State := if s.cursor.seek.isNone then s.giveUpReads (· == .cursorSeek) else s

/-- Step 1 is taken where a seek has no position yet: after an overtaking has restarted it (R114). -/
def State.seekLocate (s : State) : State :=
  match s.cursor.seek with
  | some k => if k.position.isNone then (s.seekChoose k s.dir.ring).dropSeekRead else s
  | none => s

/-- The read a seek is waiting to make is requested, unless a read no longer wanted is in flight (R110) or the journal state
refuses it (R110, R114). -/
def State.seekRead (s : State) : State :=
  match s.cursor.seek with
  | none => s
  | some k =>
    match k.position with
    | none => s
    | some (j, p) =>
      if k.outstanding || s.staleRead then s
      else match s.ctrl.state with
        | .recovering | .draining | .drained => s
        | _ =>
          { s with cursor := { s.cursor with seek := some { k with outstanding := true } } }.request
            (cursorRead .cursorSeek j p)

/-- The cursor engine's requests at the end of a happening (R108, R113). -/
def State.cursorWork (s : State) : State := s.seekLocate.seekRead.fetchStep

/-- The page a seek reads next is delivered (R113): it is searched for the first record at or above the stamp, or the search
moves on. -/
def State.seekSearch (k : SeekState) (j : JSector) (p : PageIx) (bytes : List Byte) (s : State) : State :=
  let withheld := s.cursor.isWithheld j p
  let found :=
    if pageClass bytes = .committed ∧ !withheld then
      (pageRecords bytes).find? fun r => decide (k.stamp ≤ recStamp r ∧ recSeq r ≤ s.commit.newestSeq)
    else none
  match found with
  | some r =>
    let s := s.endSeek (recSeq r)
    { s with cursor := { s.cursor with buffer := .held j p bytes } }
  | none =>
    let torn := match pageClass bytes with | .torn _ => !withheld | _ => false
    let s := { s with cursor := { s.cursor with faultSeen := s.cursor.faultSeen || torn } }
    if p.val < s.dir[j].pagesUsed ∧ p.val < 15 then
      { s with cursor := { s.cursor with seek := some { k with position := some (j, pageOf (p.val + 1)) } } }
    else s.seekChoose k (s.dir.after j)

/-- A page is delivered to a seek (R113). A page that a search restarted since does not ask for has been read for nothing (R114;
DESIGN CHOICE, log entry 27), and the search reads the page it stands at. -/
def State.seekDeliver (j : JSector) (p : PageIx) (bytes : List Byte) (s : State) : State :=
  match s.cursor.seek with
  | none => s
  | some k =>
    let k := { k with outstanding := false }
    if k.position = some (j, p) then s.seekSearch k j p bytes
    else { s with cursor := { s.cursor with seek := some k } }

/-! ### Tokens (R115 to R121) -/

/-- The token that R115 chooses at this moment. -/
def State.nextToken (s : State) : Token :=
  if s.cursor.seek.isSome then .wait
  else match s.cursor.pendingToken with
    | .lost n => .lost n
    | .fault n => .fault n
    | .noToken =>
      match s.cursor.store with
      | .kept n r => .record n r
      | _ =>
        if s.cursor.target = 0 ∨ s.commit.newestSeq < s.cursor.target then .endOfJournal
        else match s.returnable with
          | r :: _ => if s.cursor.faultSeen then .fault (recSeq r) else .record (recSeq r) r
          | [] => .wait

/-- The cursor-ready bit (R123): the next token would not be WAIT. While the journal is RECOVERING it is 1 (R172). -/
def State.cursorReady (s : State) : Bool := s.ctrl.state == .recovering || s.nextToken != .wait

/-- A token is chosen and copied into the transmit store (R115); a FAULT chosen for the fault-seen mark is made pending
(R121). -/
def State.chooseToken (s : State) : State :=
  let t := s.nextToken
  let c := { s.cursor with store := .transfer t }
  let c :=
    match t with
    | .fault n => if s.cursor.pendingToken = .noToken then { c with pendingToken := .fault n, faultSeen := false } else c
    | _ => c
  { s with cursor := c }

/-- The last byte of a token is clocked out (R117, R120, R121). A pending token that is not the one sent stays pending. -/
def State.finishToken (t : Token) (s : State) : State :=
  let c := { s.cursor with store := .empty }
  let c :=
    match t with
    | .record n _ => { c with lastReturned := n, target := max c.target (n + 1) }
    | .lost n => if c.pendingToken = .lost n then { c with pendingToken := .noToken } else c
    | .fault n => if c.pendingToken = .fault n then { c with pendingToken := .noToken } else c
    | _ => c
  { s with cursor := c }

/-- A rise of CS_N while a token is in transfer (R118). -/
def State.cutToken (s : State) : State :=
  match s.cursor.store with
  | .transfer (.record n r) =>
    { s with cursor := { s.cursor with store := if s.cursor.target ≤ n then .kept n r else .empty } }
  | .transfer _ => { s with cursor := { s.cursor with store := .empty } }
  | _ => s

/-! ### Losing pages and being overtaken (R122) -/

/-- The read buffer gives up a page of a sector that enters ERASING, and a fetch of one is no longer wanted (R122). -/
def State.invalidate (j : JSector) (s : State) : State :=
  match s.cursor.buffer with
  | .held i _ _ => if i = j then { s with cursor := { s.cursor with buffer := .empty } } else s
  | .fetching i _ =>
    if i = j then
      let s := s.giveUpReads (· == .cursorFetch)
      { s with cursor := { s.cursor with buffer := .empty } }
    else s
  | .empty => s

/-- A read of a seek that addresses a page of the sector (R114). -/
def Request.seeks (j : JSector) (r : Request) : Bool := r.requester == .cursorSeek && r.sector == sectorOf j

/-- A read of a seek that is still wanted and addresses the sector is waiting or in flight. -/
def StorageArray.seekReads (j : JSector) (a : StorageArray) : Bool :=
  (a.op.toList ++ a.waiting ++ a.made).any fun r => r.wanted && r.seeks j

/-- The reads of a seek that address the sector are no longer wanted (R110, R114): one that waits is withdrawn, one in flight
runs to its end. -/
def State.giveUpSeekRead (j : JSector) (s : State) : State :=
  { s with array := { s.array with waiting := s.array.waiting.filter (fun r => !r.seeks j),
                                   made := s.array.made.filter (fun r => !r.seeks j),
                                   op := s.array.op.map fun r => if r.seeks j then { r with wanted := false } else r } }

/-- The cursor is overtaken by the reclaim of a sector (R122): it moves to the new resume point, LOST is made pending, and a seek
restarts, which no longer wants a read of that sector and still wants one of another (R114). -/
def State.overtake (j : JSector) (s : State) : State :=
  let n := s.resumePoint
  let gone := s.array.seekReads j
  let s := s.giveUpSeekRead j
  let store : TransmitStore := match s.cursor.store with
    | .kept _ _ => .empty
    | other => other
  let seek : Option SeekState := s.cursor.seek.map fun k => ⟨k.stamp, none, k.outstanding && !gone⟩
  let c := { s.cursor with target := n, pendingToken := .lost n, faultSeen := false, store := store, seek := seek }
  { s with cursor := c }.raise .cursorLost

/-- The cursor engine is emptied around a new target: by a Seek (R111) and by the start of a Format (R124). DESIGN CHOICE (log entry
49): where a Format starts again at a return from DRAINED while a token is in transfer, the store is emptied, as R124 says; the
bytes of that token still due stay listed in the port and leave SDO, as R115 says, and its TOKEN_END then ends no token. -/
def State.placeCursor (target : Nat) (s : State) : State :=
  let s := s.giveUpReads Requester.isCursor
  { s with
    cursor :=
      { s.cursor with
        target := target, lastReturned := 0, buffer := .empty, faultSeen := false, pendingToken := .noToken, seek := none,
        store := .empty } }

end Sys2Proof.Machine
end

