-- ==== Sys2Proof/Machine/Reclaim.lean ====
section
/-! DEFINITION. The reclaim engine's choice and start of a reclaim (R89, R90, R93 to R95). -/

namespace Sys2Proof.Machine

/-- The retain floor admits a last seq (R90). -/
def State.floorAdmits (s : State) (lastSeq : Nat) : Bool :=
  match s.setup.fields.journal.floorMode with
  | .noFloor => true
  | .fixed => decide (lastSeq < s.setup.fields.journal.fixedFloor)
  | .cursor => decide (lastSeq < s.cursor.target)

/-- The oldest CLOSED sector: the CLOSED sector of lowest epoch (R86). -/
def Directory.oldestClosed (d : Directory) : Option JSector := leastBy (fun j => d[j].epoch) (d.inState .closed)

/-- A sector holding readable records is reclaimable (R89). -/
def State.reclaimable (s : State) (j : JSector) : Bool :=
  s.dir.oldestClosed == some j && s.setup.fields.journal.retention == .wrap && s.ctrl.state != .failed
    && s.floorAdmits s.dir[j].lastSeq

/-- The candidate a reclaim takes (R94). -/
def State.reclaimCandidate (s : State) : Option JSector :=
  match (s.dir.inState .dirty).head?,
      leastBy (fun j => s.dir[j].epoch) ((s.dir.inState .closed).filter fun j => s.dir[j].firstSeq == 0) with
  | some j, _ => some j
  | none, some j => some j
  | none, none =>
    match s.dir.oldestClosed with
    | some j => if s.dir[j].firstSeq != 0 && s.reclaimable j then some j else none
    | none => none

/-- An entry in ERASING: its records are no longer readable, and its other fields are kept (R85, R95, R102). -/
def Entry.erasing (x : Entry) : Entry :=
  { x with state := .erasing, firstSeq := 0, lastSeq := 0, firstStamp := 0, lastStamp := 0 }

/-- A sector enters ERASING, and its pages leave the withheld list (R107). -/
def State.enterErasing (j : JSector) (s : State) : State := (s.setEntry j Entry.erasing).dropWithheld j

/-- The request of an erase of a journal sector (R95, R137). -/
def eraseRequest (who : Requester) (j : JSector) : Request :=
  { requester := who, kind := .erase, sector := sectorOf j, page := 0, data := [], generation := 0, wanted := true }

/-- A reclaim starts, with the effects of R95 in their order. -/
def State.reclaimStart (j : JSector) (s : State) : State :=
  let overtaken := s.dir[j].firstSeq != 0 && decide (s.cursor.target ≤ s.dir[j].lastSeq)
  let s := { s with reclaim := { phase := .erase, target := some j } }
  let s := (s.enterErasing j).invalidate j
  let s := if overtaken then s.overtake j else s
  s.request (eraseRequest .reclaim j)

/-- The journal states in which the reclaim engine starts a reclaim (R93). -/
def JState.reclaims : JState → Bool
  | .running | .stopping | .stopped | .full | .failed => true
  | .recovering | .formatting | .draining | .drained => false

/-- The reclaim trigger (R93), tested once after a happening. -/
def State.reclaimTest (s : State) : State :=
  if s.reclaim.phase = .idle ∧ s.dir.countOf .free < Config.freeReserve ∧ s.ctrl.state.reclaims then
    match s.reclaimCandidate with
    | some j => s.reclaimStart j
    | none => s
  else s

end Sys2Proof.Machine
end

