-- ==== Sys2Proof/Machine/Store.lean ====
section
/-! DEFINITION. The setup store (chapter 10): seeking a page, ending a Store Setup, and results that come late. -/

namespace Sys2Proof.Machine

/-- The array sector of a setup sector (R46). -/
def SetupSector.sector : SetupSector → Sector
  | .a => 126
  | .b => 127

/-- The setup sector of an array sector. -/
def setupSectorOf (sec : Sector) : SetupSector := if sec = 127 then .b else .a

/-- The other setup sector. -/
def SetupSector.other : SetupSector → SetupSector
  | .a => .b
  | .b => .a

/-- The setup store is changed. -/
def State.withStore (f : SetupStore → SetupStore) (s : State) : State := { s with store := f s.store }

/-- A request of the setup store (R58). -/
def setupRequest (kind : OpKind) (x : SetupSector) (page : Nat) (data : List Byte) (generation : Nat) : Request :=
  { requester := .setup, kind := kind, sector := x.sector, page := Fin.ofNat 16 page, data := data,
    generation := generation, wanted := true }

/-- The origin of the working setup becomes STORED with a generation (R176, R184, R185). -/
def State.setOrigin (g : Nat) (s : State) : State := { s with setup := { s.setup with source := .stored, generation := g } }

/-- What the outcome of a Store Setup does to the origin and the events (R184). -/
def State.storeOutcome (o : HostOpOutcome) (s : State) : State :=
  match o, s.store.copy with
  | .ok, some (_, g) => s.setOrigin g
  | .failed, _ => s.raise .setupFault
  | _, _ => s

/-- A Store Setup ends with OK or FAILED (R184). On OK the origin of the working setup becomes STORED with the copy's
generation; on FAILED, SETUP_FAULT is raised. -/
def State.storeEnd (o : HostOpOutcome) (s : State) : State :=
  ((s.storeOutcome o).withStore fun x => { x with phase := .idle, copy := none, seekOwed := false }).endHostOp o

/-- The sector that a switch erases (R182). -/
def SetupStore.toErase (x : SetupStore) : SetupSector :=
  match x.location with
  | some (loc, _) => loc.other
  | none => x.current.other

/-- The store seeks a page (R182). -/
def State.storeSeek (s : State) : State :=
  match s.store.copy with
  | none => s
  | some (fields, g) =>
    if s.store.nextPage ≤ 15 then
      (s.withStore fun x => { x with phase := .body, seekOwed := false }).request
        (setupRequest .setupBody s.store.current s.store.nextPage (setupBody fields g) g)
    else if s.store.switched then s.storeEnd .failed
    else
      (s.withStore fun x => { x with phase := .erase, switched := true, seekOwed := false }).request
        (setupRequest .erase s.store.toErase 0 [] g)

/-- A seek that waited for the result of an operation of an aborted Store Setup is made (R181). -/
def State.storeOwed (s : State) : State := if s.store.seekOwed then s.storeSeek else s

/-- A program or erase of an earlier Store Setup is still outstanding (R181). -/
def State.storeOutstanding (s : State) : Bool :=
  (match s.array.op with | some r => r.requester == .setup | none => false)
    || (match s.array.erase with | some e => e.requester == .setup | none => false)

/-- A Store Setup starts with a copy of the whole working setup (R181). -/
def State.storeStart (s : State) : State :=
  let s := { s with ctrl := { s.ctrl with opKind := .storeSetup, opOutcome := .noOutcome } }
  let s := s.withStore fun x => { x with switched := false }
  if Config.max32 ≤ s.store.issued then s.storeEnd .failed
  else
    let g := s.store.issued + 1
    let s := s.withStore fun x => { x with issued := g, copy := some (s.setup.fields, g) }
    if s.storeOutstanding then s.withStore fun x => { x with seekOwed := true } else s.storeSeek

/-- The effects of an erase of a setup sector that ends OK, wanted or late (R183, R185). -/
def State.storeErased (x : SetupSector) (s : State) : State := s.withStore fun y => { y with current := x, nextPage := 0 }

/-- The next page after the end of a body program, wanted or late (R183, R185). -/
def State.storeAdvance (page : PageIx) (s : State) : State := s.withStore fun y => { y with nextPage := page.val + 1 }

/-- A commit field that ends OK puts its copy in force (R183, R185). -/
def State.storeCommitted (r : Request) (s : State) : State :=
  s.withStore fun y => { y with location := some (setupSectorOf r.sector, r.page), latest := r.generation }

/-- The Store Setup in progress is given up at the start of a drain (R185); its operation in flight runs on unwanted. -/
def State.storeAbort (s : State) : State :=
  let s := s.disown (· == .setup)
  let e := s.array.erase.map fun e => if e.requester = .setup then { e with wanted := false } else e
  let s := { s with array := { s.array with erase := e } }
  s.withStore fun x => { x with phase := .idle, copy := none, seekOwed := false }

end Sys2Proof.Machine
end

