-- ==== Sys2Proof/Machine/Control.lean ====
section
/-! DEFINITION. The journal controller (chapter 7): changes of the journal state that other blocks cause, retirement, Format,
and the work every block takes up at the end of a happening. -/

namespace Sys2Proof.Machine

/-! ### Changes of state -/

/-- The journal controller is changed. -/
def State.withCtrl (f : Controller → Controller) (s : State) : State := { s with ctrl := f s.ctrl }

/-- The commit path is changed. -/
def State.withCommit (f : CommitPath → CommitPath) (s : State) : State := { s with commit := f s.commit }

/-- A change into RUNNING (R28, R37, R128): the retime test, and the close of a filling buffer whose flush age was reached. -/
def State.enterRunning (s : State) : State :=
  if s.ctrl.state = .running then s
  else
    let s := s.enter .running
    let s := if s.time.retimePending ∧ s.adm.sys.isNone then s.placeStart (s.startContent .retime false) else s
    if s.flushOwed then s.closeFilling else s

/-- The commit path becomes HALTED (R77): a request that waits is withdrawn, an operation in flight runs on. -/
def State.haltCommit (s : State) : State :=
  (s.withdraw (· == .commit)).withCommit fun c => { c with phase := .halted, leavingBlocked := false }

/-- The directory's report that the journal has failed (R134). -/
def State.journalFailed (s : State) : State :=
  match s.ctrl.state with
  | .running | .stopping | .stopped | .full =>
    ((s.enter .failed).withCtrl fun c => { c with stopRequested := false, spaceWait := false }).haltCommit
  | _ => s

/-- FULL becomes STOPPED, and stop-requested is cleared (R132). -/
def State.fullToStopped (s : State) : State := (s.withCtrl fun c => { c with stopRequested := false }).enter .stopped

/-- Space back (R132). -/
def State.spaceBack (s : State) : State :=
  let s := s.withCtrl fun c => { c with spaceWait := false }
  if s.ctrl.state = .full ∧ !s.adm.exhausted then
    if !s.ctrl.stopRequested then s.enterRunning
    else if !s.staged then s.fullToStopped
    else s
  else s

/-- A journal sector has entered FREE (R69, R132): a BLOCKED commit path opens the first sector of the pool, and with
space-wait set and the commit path IDLE the controller takes it as space back. -/
def State.sectorFreed (s : State) : State :=
  if s.commit.phase = .blocked then
    let s := s.withCommit fun c => { c with leavingBlocked := true }
    match s.dir.poolFirst with
    | some j => s.openSector j
    | none => s
  else if s.ctrl.spaceWait ∧ s.commit.phase = .idle then s.spaceBack
  else s

/-! ### Erase outcomes and retirement (R96, R97, R99, R102) -/

/-- The journal is DRAINING or DRAINED. -/
def JState.draws : JState → Bool
  | .draining | .drained => true
  | _ => false

/-- The retire-mark program of a sector's head page (R97). -/
def retireMarkRequest (who : Requester) (j : JSector) : Request :=
  { requester := who, kind := .retireMark, sector := sectorOf j, page := 0, data := retireMarkBytes, generation := 0,
    wanted := true }

/-- The reclaim engine returns to IDLE with no target. -/
def State.reclaimIdle (s : State) : State := { s with reclaim := { phase := .idle, target := none } }

/-- A sector becomes RETIRED with its erase count, and SECTOR_RETIRED is raised (R97). -/
def State.markRetired (j : JSector) (count : Nat) (s : State) : State :=
  (s.setEntry j fun _ => { Entry.blank .retired with eraseCount := count }).raise .sectorRetired

/-- The usable test at a retirement (R98): it makes the journal FAILED in RUNNING, STOPPING, STOPPED and FULL alone. -/
def State.usableTest (s : State) : State := if s.dir.usable < Config.usableMin then s.journalFailed else s

/-- The retire-mark program is requested (R97); in DRAINING and DRAINED the request is refused at once (R99). -/
def State.requestMark (who : Requester) (j : JSector) (s : State) : State :=
  if s.ctrl.state.draws then
    if who = .reclaim then s.reclaimIdle else s
  else
    let s := s.request (retireMarkRequest who j)
    match who with
    | .reclaim => { s with reclaim := { s.reclaim with phase := .mark } }
    | .format => if s.ctrl.state = .formatting then s.withCtrl fun c => { c with format := .marking j } else s
    | _ => s

/-- A sector is retired with its erase count (R97, R98, R99). -/
def State.retire (who : Requester) (j : JSector) (count : Nat) (s : State) : State :=
  ((s.markRetired j count).usableTest).requestMark who j

/-- What becomes of a sector whose erase ends OK and is not to be retired (R96). -/
def Entry.freed (count : Nat) : Entry := { Entry.blank .free with eraseCount := count }

/-- The erase of a journal sector ends with its outcome, for the reclaim engine or for Format (R96, R99, R102). -/
def State.eraseEnded (who : Requester) (j : JSector) (o : OpOutcome) (s : State) : State :=
  let x := s.dir[j]
  let count := x.eraseCount + 1
  let idle := fun (s : State) => if who = .reclaim then s.reclaimIdle else s
  match o with
  | .fail => s.retire who j count
  | .ok =>
    if s.ctrl.state.draws then idle (s.setEntry j fun x => { x with state := .dirty, eraseCount := count })
    else if Config.eraseLimit ≤ count ∨ x.retireMark then s.retire who j count
    else (idle (s.setEntry j fun _ => Entry.freed count)).sectorFreed

/-- A sector whose erase was refused or abandoned goes from ERASING to DIRTY, its fields kept (R99, R101, R102). -/
def State.eraseGivenUp (j : JSector) (s : State) : State := s.setEntry j fun x => { x with state := .dirty }

/-! ### Format (R136 to R138) -/

/-- The order in which Format takes sectors (R137): DIRTY sectors with an epoch, in ascending epoch, and then DIRTY sectors
without one and FREE sectors, in ascending index. -/
def State.formatNext (s : State) : Option JSector :=
  let left := allSectors.filter fun j => !s.ctrl.formatDone.contains j
  match leastBy (fun j => s.dir[j].epoch) (left.filter fun j => s.dir[j].state == .dirty && s.dir[j].epoch != 0) with
  | some j => some j
  | none => left.find? fun j => s.dir[j].state == .free || s.dir[j].state == .dirty && s.dir[j].epoch == 0

/-- A saturated counter is set to 0, with the close stamps of the queued descriptors (R27). -/
def State.zeroSaturated (s : State) : State :=
  if s.counterSaturated then
    { s with
      time := { s.time with counter := 0, saturated := false }
      lines := s.lines.map fun p => { p with queue := p.queue.map fun d => { d with close := 0 } } }
  else s

/-- Last epoch becomes 0, next seq 1, and SEQ_EXHAUSTED is cleared at the end of a Format's erases (R44, R80, R138). -/
def State.restartNumbers (s : State) : State :=
  { s with commit := { s.commit with lastEpoch := 0 }, adm := { s.adm with nextSeq := 1, exhausted := false } }

/-- A Format ends into FAILED (R138). -/
def State.formatFailed (s : State) : State :=
  (((s.enter .failed).haltCommit).withCtrl fun c => { c with format := .noFormat, formatDone := [] }).endHostOp .failed

/-- The FORMAT START is placed (R138). -/
def State.placeFormatStart (s : State) : State :=
  (s.placeStart (s.startContent .format false)).withCtrl fun c => { c with format := .starting }

/-- The erases of a Format end (R138). -/
def State.formatErasesEnd (s : State) : State :=
  if s.dir.usable < Config.usableMin then s.restartNumbers.formatFailed
  else s.restartNumbers.zeroSaturated.placeFormatStart

/-- The result of a request of this requester, waiting or with its read or program in flight, is still to be delivered (R58). -/
def StorageArray.owesResult (a : StorageArray) (who : Requester) : Bool :=
  (a.op.toList ++ a.waiting ++ a.made).any fun r => r.requester == who

/-- Format chooses its next sector once no erase exists (R137) and no retire mark of its own is requested or in flight, that of an
earlier Format included (R58, R97). -/
def State.formatStep (s : State) : State :=
  if s.ctrl.format = .choosing ∧ s.ctrl.state = .formatting ∧ s.array.erase.isNone ∧ !s.array.owesResult .format then
    match s.formatNext with
    | some j =>
      let s := s.withCtrl fun c => { c with format := .erasing j }
      (s.enterErasing j).request (eraseRequest .format j)
    | none => s.formatErasesEnd
  else s

/-- Format has dealt with a sector, and its next one is to be chosen. -/
def State.formatDealt (j : JSector) (s : State) : State :=
  match s.ctrl.format with
  | .erasing i | .marking i =>
    if i = j then s.withCtrl fun c => { c with format := .choosing, formatDone := j :: c.formatDone } else s
  | _ => s

/-- A request of this requester and kind is waiting. -/
def StorageArray.waits (a : StorageArray) (who : Requester) (kind : OpKind) : Bool :=
  (a.waiting ++ a.made).any fun r => r.requester == who && r.kind == kind

/-- A reclaim whose erase request still waits is ended by Format (R101). -/
def State.formatEndsReclaim (s : State) : State :=
  match s.reclaim.target with
  | some j =>
    if s.reclaim.phase = .erase ∧ s.array.waits .reclaim .erase then
      ((s.withdraw (· == .reclaim)).eraseGivenUp j).reclaimIdle
    else s
  | none => s

/-- The directory at the start of a Format (R101). -/
def Directory.forgotten (d : Directory) : Directory :=
  d.mapAll fun _ x =>
    if x.state = .opened ∨ x.state = .closed then
      { x with state := .dirty, firstSeq := 0, lastSeq := 0, firstStamp := 0, lastStamp := 0 }
    else x

/-- A Format starts (R136): the state, the admission unit (R44), the commit path (R80), the directory and the reclaim engine
(R101), and the cursor (R124). Its first sector is chosen at the end of the happening. -/
def State.formatStart (s : State) : State :=
  let s := s.enter .formatting
  let s := s.withCtrl fun c =>
    { c with opKind := .format, opOutcome := .noOutcome, stopRequested := false, spaceWait := false, format := .choosing,
             formatDone := [] }
  let s := { s with adm := { s.adm with note := none, sys := none, bufP := Buffer.empty .filling,
                                        bufQ := Buffer.empty .idle } }
  let s := (s.withdraw (· == .commit)).disown (· == .commit)
  let s := s.withCommit fun c =>
    { c with phase := .idle, holding := none, target := none, newestSeq := 0, countSince := 0, leavingBlocked := false }
  let s := { s with dir := s.dir.forgotten }
  let s := s.formatEndsReclaim
  s.placeCursor s.resumePoint

/-! ### The end of a happening -/

/-- What the blocks take up at the end of a happening: Format's choice (R137), the reclaim trigger (R93), the cursor engine's
requests (R108, R113), and the arbiter (R59 to R63). `freed` says that the array became free at this happening. -/
def State.settle (freed : Bool) (s : State) : State := (s.formatStep.reclaimTest.cursorWork).arbitrate freed

end Sys2Proof.Machine
end

