-- ==== Sys2Proof/Machine/Drain.lean ====
section
/-! DEFINITION. Drains, the return from DRAINED, resets, and the beginning of recovery (chapters 7 to 9). -/

namespace Sys2Proof.Machine

/-! ### Cutting the array's operations (R57, R64) -/

/-- An erase ceases to exist without an outcome: its sector's bits hold 0 or 1 (R52). -/
def State.cutErase (s : State) : State :=
  match s.array.erase with
  | none => s
  | some e =>
    let s := s.eraseSector e.sector .fail
    { s with array := { s.array with erase := none } }

/-- The operation in flight is cut and delivers nothing: a program's range is left as R51 gives (R64). -/
def State.cutOp (s : State) : State :=
  match s.array.op with
  | none => s
  | some r =>
    let s := if r.kind = .read then s else s.program r .fail
    { s with array := { s.array with op := none } }

/-- A reset or a loss of power cuts whatever is in flight, and the waiting requests are gone (R64). -/
def State.cutArray (s : State) : State :=
  let s := s.cutOp.cutErase
  { s with array := { s.array with waiting := [], made := [] } }

/-! ### Resets (R24, R45, R64, R83, R105, R125, R143, R153 to R157, R175, R177, R180, R197) -/

/-- A reset is taken: every block takes its reset values, with the reset cause. It stays in force until RESET_END. -/
def State.takeReset (cause : ResetCause) (s : State) : State :=
  let s := s.cutArray
  { State.reset with
    array := { State.reset.array with mem := s.array.mem }
    ctrl := Controller.reset cause
    pins := s.pins
    freeIx := s.freeIx
    pending := s.pending }

/-! ### The beginning, abandoning and restarting of recovery (R158, R173, R174) -/

/-- A page read of the recovery unit. -/
def recoveryRead (sec : Sector) (page : PageIx) : Request :=
  { requester := .recovery, kind := .read, sector := sec, page := page, data := [], generation := 0, wanted := true }

/-- The recovery unit requests its next read, at the happening at which the one before is delivered, or its recovery begins (R158).
DESIGN CHOICE (log entry 50): a recovery that starts again makes its first request also where a read of the abandoned one is still in
flight; it waits for the array, and so for that result. -/
def State.recoverNext (sec : Sector) (page : PageIx) (s : State) : State :=
  { s with recov := { s.recov with scan := some (sec, page) } }.request (recoveryRead sec page)

/-- Recovery begins (R158). -/
def State.beginRecovery (s : State) : State :=
  let s := { s with recov := { RecoveryUnit.reset with phase := .loading }
                    dir := Vector.replicate 126 (Entry.blank .unknown) }
  s.recoverNext 126 0

/-- Every entry still UNKNOWN becomes DIRTY with all fields 0 (R105). -/
def Directory.unknownToDirty (d : Directory) : Directory :=
  d.mapAll fun _ x => if x.state = .unknown then Entry.blank .dirty else x

/-- An abandon in LOADING leaves the default working setup in force (R173, R177). -/
def State.abandonLoad (s : State) : State :=
  if s.recov.phase = .loading then { s with setup := WorkingSetup.default } else s

/-- The START's buffer, if the commit path holds it, is released with its records lost, and the path's request is refused
(R81). -/
def State.refuseStart (s : State) : State :=
  (if s.commit.holding.isSome then s.releaseHeld else s).withCommit fun c => { c with phase := .idle }

/-- The recovery unit stops (R173): its read in flight will not be used, the START leaves the system slot, a report of its
buffer's close that has not been taken has no effect (R170), and the entries still UNKNOWN become DIRTY. The counts, the head table
and the accepted list are given up. DESIGN CHOICE (log entry 52): so are the setup result and the scan position, of which R173 says
nothing. -/
def State.stopRecovery (s : State) : State :=
  let s := State.disown (· == .recovery) { s with array := { s.array with waiting := [], made := [] } }
  { s with adm := { s.adm with sys := none, reportOwed := false }, recov := RecoveryUnit.reset, dir := s.dir.unknownToDirty }

/-- Recovery is abandoned by a fall of PFW_N (R81, R105, R173). -/
def State.abandonRecovery (s : State) : State :=
  ((s.abandonLoad.refuseStart.stopRecovery).withCtrl fun c => { c with saved := some .recovering }).enter .drained

/-- The blocks that a restarted recovery sets to their reset values (R174): the admission unit as R45 gives, next seq and
SEQ_EXHAUSTED with it (R193). A token in transfer leaves the transmit store and not the port (log entry 49). -/
def State.restartBlocks (s : State) : State :=
  { s with
    commit := CommitPath.reset
    cursor := CursorEngine.reset
    adm := State.reset.adm
    ctrl := { s.ctrl with saved := none } }

/-- Recovery starts again from DRAINED (R174). -/
def State.restartRecovery (s : State) : State := (s.restartBlocks.enter .recovering).beginRecovery

/-! ### The return from DRAINED (R142, R151) -/

/-- The RESUME START is placed with its clean flag, and the shutdown outcome becomes NONE (R151). -/
def State.placeResume (s : State) : State :=
  let s := s.placeStart (s.startContent .resume (s.ctrl.shutdownOutcome == .committed))
  s.withCtrl fun c => { c with shutdownOutcome := .noOutcome }

/-- The return into FAILED. -/
def State.returnFailed (s : State) : State := ((s.enter .failed).placeResume).haltCommit

/-- The return into RUNNING or STOPPED, or into FULL instead when sequence numbers are exhausted (R142). -/
def State.returnTo (running : Bool) (stop : Bool) (s : State) : State :=
  if s.adm.exhausted then
    ((s.withCtrl fun c => { c with stopRequested := stop || c.stopRequested }).enter .full).placeResume
  else if running then s.placeResume.enterRunning
  else ((s.withCtrl fun c => { c with stopRequested := false }).enter .stopped).placeResume

/-- The controller returns from DRAINED by the saved state (R142). -/
def State.returnFromDrained (s : State) : State :=
  match s.ctrl.saved with
  | some .recovering => s.restartRecovery
  | some saved =>
    let s := (s.withCtrl fun c => { c with saved := none }).withCommit fun c => { c with drainLoss := false }
    if s.dir.usable < Config.usableMin then s.returnFailed
    else
      match saved with
      | .running => s.returnTo true false
      | .stopping | .stopped => s.returnTo false true
      | .full =>
        if s.ctrl.spaceWait ∨ s.adm.exhausted then (s.enter .full).placeResume
        else s.returnTo (!s.ctrl.stopRequested) false
      | .formatting => s.formatStart.withCtrl fun c => { c with shutdownOutcome := .noOutcome }
      | .failed => s.returnFailed
      | .recovering | .draining | .drained => s
  | none => s

/-! ### The drain (R145 to R149) -/

/-- The outcome, the drain phase and the system slot at the end of a drain (R149). -/
def State.drainDone (o : ShutdownOutcome) (s : State) : State :=
  { s with
    ctrl := { s.ctrl with drain := .noDrain,
                          shutdownOutcome := if s.ctrl.shutdownOutcome = .notAdmitted then .notAdmitted else o }
    adm := { s.adm with sys := none } }

/-- The drain ends (R149): DRAINED, and then the reset of a Reset Device, the return, or neither. DESIGN CHOICE (log entry 53): that
reset is taken at this happening, as R149 and R154 say, also where CS_N has not risen yet, while R197 has it fall after the rise. -/
def State.drainEnd (o : ShutdownOutcome) (s : State) : State :=
  let s := (s.drainDone o).enter .drained
  if s.ctrl.hostResetPending then s.takeReset .hostReset
  else if s.pins.pfwN then s.returnFromDrained
  else s

/-- The SHUTDOWN record as it is admitted, its counts sampled then (R33, R148). -/
def State.shutdownDraft (stamp : Nat) (s : State) : Draft :=
  { kind := kindShutdown, line := 0, flags := RecFlags.empty.toByte, lost := 0, stamp := stamp, span := 0,
    payload := shutdownPayload s.lines }

/-- The filling buffer is closed and handed over (R147). In drain loss mode, or with no target and no free sector, its release
comes at the take itself, and the drain ends at once with no program (R150). -/
def State.handOver (s : State) : State :=
  let s := (s.withCtrl fun c => { c with drain := .closing }).closeFilling
  if s.commit.holding.isNone then s.drainEnd .lost else s

/-- A system record is placed in the system slot, or leaves it. -/
def State.setSys (r : Option SysRecord) (s : State) : State := { s with adm := { s.adm with sys := r } }

/-- The SHUTDOWN step with sequence numbers exhausted (R147): with an empty buffer the drain ends at once with no program
(R150). -/
def State.shutdownUnnumbered (s : State) : State :=
  let s := s.withCtrl fun c => { c with shutdownOutcome := .notAdmitted }
  if s.fillingHolds then s.handOver else s.drainEnd .notAdmitted

/-- The SHUTDOWN step (R147). -/
def State.shutdownStep (s : State) : State :=
  let stamp := s.systemStamp
  let s := s.setSys (some (.shutdown stamp))
  if s.adm.exhausted then s.shutdownUnnumbered
  else
    match s.adm.filling with
    | none => s.drainEnd .lost
    | some b => ((s.writeRecord b (s.shutdownDraft stamp)).setSys none).handOver

/-- A request that waits is refused at the start of a drain (R63): what its requester makes of it (R99, R102, R110, R114). -/
def State.refuse (r : Request) (s : State) : State :=
  match r.requester, r.kind, journalOf r.sector with
  | .reclaim, .erase, some j => (s.eraseGivenUp j).reclaimIdle
  | .reclaim, _, _ => s.reclaimIdle
  | .format, .erase, some j => s.eraseGivenUp j
  | .cursorFetch, _, _ => { s with cursor := { s.cursor with buffer := .empty } }
  | .cursorSeek, _, _ =>
    { s with cursor := { s.cursor with seek := s.cursor.seek.map fun k => { k with outstanding := false } } }
  | _, _, _ => s

/-- Every waiting request but the commit path's is refused (R63). -/
def State.refuseWaiting (s : State) : State :=
  let refused := (s.array.waiting ++ s.array.made).filter fun r => r.requester != .commit
  refused.foldl (fun s r => s.refuse r) (s.withdraw (· != .commit))

/-- A requester receives ABANDONED (R99, R102, R185): a journal sector becomes DIRTY, and the setup store changes nothing. -/
def State.eraseAbandoned (e : Erase) (s : State) : State :=
  match e.requester, journalOf e.sector with
  | .reclaim, some j => (s.eraseGivenUp j).reclaimIdle
  | .format, some j => s.eraseGivenUp j
  | _, _ => s

/-- The erase in existence is abandoned at the start of a drain (R57). -/
def State.abandonErase (s : State) : State :=
  match s.array.erase with
  | none => s
  | some e =>
    if e.cond = .suspended then s.cutErase.eraseAbandoned e
    else { s with array := { s.array with erase := some { e with cond := .stopPending } } }

/-- The admission unit at the start of a drain (R40). -/
def Admission.drained (a : Admission) : Admission :=
  let reopen := fun (b o : Buffer) =>
    if b.role = .closed then { b with role := .filling }
    else if o.role = .closed ∧ b.role = .filling ∧ b.count = 0 then { b with role := .idle }
    else b
  { a with note := none, sys := none, bufP := reopen a.bufP a.bufQ, bufQ := reopen a.bufQ a.bufP }

/-- The commit path at the start of a drain (R78). -/
def State.drainCommit (s : State) : State :=
  match s.commit.phase with
  | .blocked | .halted =>
    let s := s.releaseHeld
    s.withCommit fun c => { c with phase := .idle, drainLoss := true, leavingBlocked := false }
  | .idle | .head | .body | .field => s

/-- The journal controller at the start of a drain (R135, R141, R145). -/
def State.enterDraining (s : State) : State :=
  let s := (s.withCtrl fun c => { c with saved := some c.state, shutdownOutcome := .noOutcome }).enter .draining
  if s.ctrl.opKind = .noOp then s else s.endHostOp .aborted

/-- The admission unit takes its start-of-drain effects (R40). -/
def State.drainAdmission (s : State) : State := { s with adm := s.adm.drained }

/-- A Format, if one was in progress, is over (R140). -/
def State.dropFormat (s : State) : State := s.withCtrl fun c => { c with format := .noFormat, formatDone := [] }

/-- A drain begins (R141, R145), with the effects of R40, R57, R63, R78, R99, R110, R140 and R185. -/
def State.beginDrain (s : State) : State :=
  let s := s.enterDraining.drainAdmission.abandonErase.refuseWaiting.storeAbort.dropFormat.drainCommit
  if s.commit.holding.isSome then s.withCtrl fun c => { c with drain := .finishing } else s.shutdownStep

/-! ### Releases (R130, R132, R139, R146, R149) -/

/-- What a release of a buffer tells the journal controller: whether its records were committed. -/
def State.afterRelease (committed : Bool) (s : State) : State :=
  match s.ctrl.state with
  | .stopping => if s.staged then s else s.enter .stopped
  | .full =>
    if s.ctrl.stopRequested ∧ !s.ctrl.spaceWait ∧ !s.adm.exhausted ∧ !s.staged then s.fullToStopped else s
  | .formatting =>
    if committed ∧ s.ctrl.format = .starting then
      ((s.enter .stopped).withCtrl fun c => { c with format := .noFormat, formatDone := [] }).endHostOp .ok
    else s
  | .draining =>
    match s.ctrl.drain with
    | .finishing => s.shutdownStep
    | .closing => s.drainEnd (if committed then .committed else .lost)
    | .noDrain => s
  | .recovering | .running | .stopped | .drained | .failed => s

end Sys2Proof.Machine
end

