-- ==== Sys2Proof/Machine/Recovery.lean ====
section
/-! DEFINITION. Start-up recovery (chapter 9): the setup load, the head scan, the page scan, the rebuild of the directory, the
resumed counters, and the end of recovery; RECOVERY_READ_END. -/

namespace Sys2Proof.Machine

/-- The recovery unit is changed. -/
def State.withRecov (f : RecoveryUnit → RecoveryUnit) (s : State) : State := { s with recov := f s.recov }

/-! ### The end of recovery (R171) -/

/-- What happens at every end of recovery, after the state change: the phase becomes IDLE, the lines are enabled, and
RECOVERY_DONE is raised. -/
def State.recoveryClose (s : State) : State := (s.withRecov fun r => { r with phase := .idle }).enableLines.raise .recoveryDone

/-- The state entered when recovery has not failed: RUNNING with autostart on, STOPPING with it off. -/
def State.recoveryEnter (s : State) : State :=
  if s.setup.fields.journal.autostart then s.enterRunning else s.enter .stopping

/-- The journal controller takes the report of the START buffer's close (R170). The requests made in RECOVERING have waited in
the arbiter since they were made (R62). -/
def State.reportTaken (s : State) : State :=
  { s with adm := { s.adm with reportOwed := false }
           array := { s.array with waiting := s.array.waiting ++ s.array.made, made := [] } }

/-- Recovery ends at the report of the START buffer's close (R170, R171): with the commit path BLOCKED its space-blocked report
is made now, and with the numbers exhausted the report of R133. -/
def State.recoveryEnd (s : State) : State :=
  let s := s.reportTaken.recoveryEnter
  let s := if s.commit.phase = .blocked then s.spaceBlocked else s
  let s := if s.adm.exhausted then s.reportExhausted else s
  s.recoveryClose

/-- Recovery ends into FAILED (R168, R171). -/
def State.recoveryFailed (s : State) : State := (s.enter .failed).haltCommit.recoveryClose

/-! ### The finishing happening (R165 to R169) -/

/-- The epoch of a VALID head. -/
def HeadInfo.epoch? : HeadInfo → Option Nat
  | .valid e _ _ => some e
  | _ => none

/-- The erase count of a VALID head, 0 for any other. -/
def HeadInfo.eraseCount : HeadInfo → Nat
  | .valid _ c _ => c
  | _ => 0

/-- The head of a sector in the head table. -/
def RecoveryUnit.head (r : RecoveryUnit) (j : JSector) : HeadInfo := r.heads.getD j.val .damaged

/-- The inherited erase count (R161). -/
def RecoveryUnit.inherited (r : RecoveryUnit) : Nat := r.heads.foldl (fun m h => max m h.eraseCount) 0

/-- The accepted pages of a sector, in journal order. -/
def RecoveryUnit.acceptedOf (r : RecoveryUnit) (j : JSector) : List AcceptedPage := r.accepted.filter fun a => a.sector == j

/-- A VALID sector that becomes OPEN or CLOSED: it has an accepted page or a used page (R165). -/
def RecoveryUnit.inRing (r : RecoveryUnit) (j : JSector) : Bool :=
  match r.head j with
  | .valid _ _ used => !(r.acceptedOf j).isEmpty || used != 0
  | _ => false

/-- The epoch of a sector's head, 0 where it is not VALID. -/
def RecoveryUnit.epochOf (r : RecoveryUnit) (j : JSector) : Nat := (r.head j).epoch?.getD 0

/-- The sector that becomes OPEN (R166): the ring sector of highest epoch, if its pages used is below 15. -/
def RecoveryUnit.openSector (r : RecoveryUnit) : Option JSector :=
  let ring := allSectors.filter r.inRing
  match ring.find? fun j => ring.all fun i => decide (r.epochOf i ≤ r.epochOf j) with
  | none => none
  | some j =>
    match r.head j with
    | .valid _ _ used => if used < 15 then some j else none
    | _ => none

/-- The rebuilt entry of a sector (R165, R166). -/
def RecoveryUnit.entry (r : RecoveryUnit) (j : JSector) : Entry :=
  match r.head j with
  | .blank => { Entry.blank .free with eraseCount := r.inherited }
  | .damaged => { Entry.blank .dirty with eraseCount := r.inherited }
  | .retired => { Entry.blank .retired with eraseCount := r.inherited }
  | .valid e c used =>
    if !r.inRing j then { Entry.blank .dirty with epoch := e, eraseCount := c }
    else
      let x : Entry := { Entry.blank (if r.openSector = some j then .opened else .closed) with
                         epoch := e, eraseCount := c, pagesUsed := used }
      match (r.acceptedOf j).head?, (r.acceptedOf j).getLast? with
      | some a, some b =>
        { x with firstSeq := a.firstSeq, firstStamp := a.firstStamp, lastSeq := b.lastSeq, lastStamp := b.lastStamp }
      | _, _ => x

/-- The rebuilt directory (R165). -/
def RecoveryUnit.directory (r : RecoveryUnit) : Directory := Vector.ofFn r.entry

/-- The highest epoch among the VALID heads, or 0 (R167). -/
def RecoveryUnit.lastEpoch (r : RecoveryUnit) : Nat := r.heads.foldl (fun m h => max m (h.epoch?.getD 0)) 0

/-- The stamp counter is loaded, if it is held, with the last readable stamp plus 1, or 0 for an empty journal (R26, R167). -/
def Timebase.load (last : Option AcceptedPage) (t : Timebase) : Timebase :=
  if t.held then
    let v := match last with | some a => min (a.lastStamp + 1) Config.stampMax | none => 0
    { t with counter := v, prescaler := 0, held := false, saturated := v == Config.stampMax }
  else t

/-- The directory is rebuilt and the counters resumed (R165 to R167), and the cursor is placed (R125). DESIGN CHOICE (log entry 51): an
END in transfer in a STREAM that has been open since DRAINED stays in the transmit store, to be sent to its last byte (R115). -/
def State.rebuild (s : State) : State :=
  let r := s.recov
  let last := r.accepted.getLast?
  let lastSeq := match last with | some a => a.lastSeq | none => 0
  let dir := r.directory
  let target := r.openSector
  let nextPage := match target with | some j => dir[j].pagesUsed + 1 | none => 1
  let s := { s with dir := dir, time := s.time.load last }
  let s := s.withCommit fun c =>
    { c with newestSeq := lastSeq, lastEpoch := r.lastEpoch, target := target, nextPage := nextPage }
  let s := { s with adm := { s.adm with nextSeq := seqAfter lastSeq, exhausted := decide (Config.max32 ≤ lastSeq) } }
  { s with cursor := { s.cursor with target := s.resumePoint } }

/-- The cause a recovery START carries (R155). -/
def ResetCause.start : ResetCause → StartCause
  | .powerOn => .powerOn
  | .resetPin => .resetPin
  | .hostReset => .hostReset

/-- The content of the recovery START (R169). -/
def State.recoveryStart (s : State) : StartContent :=
  let r := s.recov
  { cause := s.ctrl.resetCause.start
    clean := match r.accepted.getLast? with | some a => a.lastKind == kindShutdown | none => false
    k := s.setup.fields.journal.k
    source := (r.result.map (·.1)).getD .defaults
    generation := (r.result.map (·.2)).getD 0
    discarded := r.discarded, corrupt := r.corrupt, damaged := r.damaged, retired := s.dir.countOf .retired }

/-- The finishing happening (R165 to R168). -/
def State.finishRecovery (s : State) : State :=
  let s := s.rebuild
  let s := s.withRecov fun r => { r with scan := none }
  if s.dir.usable < Config.usableMin then s.recoveryFailed
  else if s.adm.exhausted then s.recoveryEnter.reportExhausted.recoveryClose
  else (s.placeStart s.recoveryStart).withRecov fun r => { r with phase := .closing }

/-! ### The page scan (R162 to R164) -/

/-- The VALID sector of least epoch above `e`. -/
def RecoveryUnit.nextValid (r : RecoveryUnit) (e : Nat) : Option JSector :=
  leastBy r.epochOf (allSectors.filter fun j => (r.head j).epoch?.isSome && decide (e < r.epochOf j))

/-- The first BLANK sector of index `n` or above. -/
def RecoveryUnit.nextBlank (r : RecoveryUnit) (n : Nat) : Option JSector :=
  allSectors.find? fun j => decide (n ≤ j.val) && r.head j == .blank

/-- The scan goes on with page 1 of a sector, or finishes. -/
def State.scanSector (j : Option JSector) (s : State) : State :=
  match j with
  | some j => s.recoverNext (sectorOf j) 1
  | none => s.finishRecovery

/-- The scan goes on after a VALID sector of epoch `e`: the next VALID one, and then the BLANK ones. -/
def State.scanAfterValid (e : Nat) (s : State) : State :=
  match s.recov.nextValid e with
  | some j => s.scanSector (some j)
  | none => s.scanSector (s.recov.nextBlank 0)

/-- A COMMITTED page is offered to the accepted list (R164). -/
def RecoveryUnit.offer (j : JSector) (p : PageIx) (page : List Byte) (r : RecoveryUnit) : RecoveryUnit :=
  let rs := pageRecords page
  let f := recSeq (firstRec rs)
  let kept := r.accepted.filter fun a => decide (a.lastSeq < f)
  let a : AcceptedPage :=
    { sector := j, page := p, firstSeq := f, lastSeq := recSeq (lastRec rs), firstStamp := recStamp (firstRec rs),
      lastStamp := recStamp (lastRec rs), lastKind := recKind (lastRec rs) }
  { r with accepted := kept ++ [a], discarded := r.discarded + (r.accepted.length - kept.length) }

/-- A record page of a VALID sector is handled by its class (R163). -/
def RecoveryUnit.takePage (j : JSector) (p : PageIx) (page : List Byte) (r : RecoveryUnit) : RecoveryUnit :=
  match pageClass page with
  | .erased => r
  | .uncommitted | .torn false => { r with discarded := r.discarded + 1 }
  | .torn true => { r with corrupt := r.corrupt + 1 }
  | .committed => r.offer j p page

/-- A head table entry is replaced. -/
def RecoveryUnit.setHead (j : JSector) (h : HeadInfo) (r : RecoveryUnit) : RecoveryUnit :=
  { r with heads := r.heads.set j.val h }

/-- A record page is delivered in PAGES (R162). -/
def State.scanPage (j : JSector) (p : PageIx) (page : List Byte) (s : State) : State :=
  match s.recov.head j with
  | .valid e c used =>
    let used := if pageClass page = .erased then used else p.val
    let s := s.withRecov fun r => (r.setHead j (.valid e c used)).takePage j p page
    if p.val < 15 then s.recoverNext (sectorOf j) (pageOf (p.val + 1)) else s.scanAfterValid e
  | .blank =>
    if pageClass page = .erased then
      if p.val < 15 then s.recoverNext (sectorOf j) (pageOf (p.val + 1)) else s.scanSector (s.recov.nextBlank (j.val + 1))
    else
      let s := s.withRecov fun r => { r.setHead j .damaged with damaged := r.damaged + 1 }
      s.scanSector (s.recov.nextBlank (j.val + 1))
  | _ => s

/-! ### The head scan (R160, R161) -/

/-- Of VALID heads that share an epoch, all but the one of highest sector index are DAMAGED (R161). -/
def damageShared : List HeadInfo → List HeadInfo
  | [] => []
  | h :: rest =>
    (match h with
      | .valid e _ _ => if rest.any fun h' => h'.epoch? == some e then HeadInfo.damaged else h
      | _ => h) :: damageShared rest

/-- The head table is complete (R161). -/
def State.headsComplete (s : State) : State :=
  let heads := damageShared s.recov.heads
  let s := s.withRecov fun r =>
    { r with phase := .pages, heads := heads, damaged := (heads.filter (· == .damaged)).length }
  s.scanAfterValid 0

/-- A head page is delivered in HEADS (R160). -/
def State.scanHead (j : JSector) (page : List Byte) (s : State) : State :=
  let s := s.withRecov fun r => { r with heads := r.heads ++ [headClass page] }
  if h : j.val + 1 < 126 then s.recoverNext (sectorOf ⟨j.val + 1, h⟩) 0 else s.headsComplete

/-! ### The setup load (R159, R180) -/

/-- What a setup page adds to the load: the choice so far, and the highest page not all FFh of each setup sector. -/
def RecoveryUnit.takeSetup (sec : Sector) (p : PageIx) (page : List Byte) (r : RecoveryUnit) : RecoveryUnit :=
  let r :=
    if allFF page then r
    else if setupSectorOf sec = .a then { r with nextA := p.val + 1 }
    else { r with nextB := p.val + 1 }
  match setupOfPage page with
  | none => r
  | some (f, g) =>
    let better := match r.choice with | none => true | some c => decide (c.generation ≤ g)
    if better then { r with choice := some { fields := f, generation := g, sector := sec, page := p } } else r

/-- The setup is chosen and the setup store set (R159, R180); the PACE pins follow the loaded polarity from now on (R24). -/
def State.loadSetup (s : State) : State :=
  match s.recov.choice with
  | some c =>
    let x := setupSectorOf c.sector
    let next := if x = .a then s.recov.nextA else s.recov.nextB
    let s := { s with
      setup := { fields := c.fields, source := .stored, generation := c.generation }
      setupLoaded := true
      store := { SetupStore.reset with current := x, nextPage := next,
                                       location := some (x, c.page), latest := c.generation, issued := c.generation } }
    s.withRecov fun r => { r with result := some (.stored, c.generation) }
  | none =>
    let s := { s with setup := WorkingSetup.default, setupLoaded := true,
                      store := { SetupStore.reset with nextPage := s.recov.nextA } }
    s.withRecov fun r => { r with result := some (.defaults, 0) }

/-- A setup page is delivered in LOADING (R159). -/
def State.scanSetup (sec : Sector) (p : PageIx) (page : List Byte) (s : State) : State :=
  let s := s.withRecov fun r => r.takeSetup sec p page
  if p.val < 15 then s.recoverNext sec (pageOf (p.val + 1))
  else if setupSectorOf sec = .a then s.recoverNext 127 0
  else (s.loadSetup.withRecov fun r => { r with phase := .heads }).recoverNext 0 0

/-- A page is delivered to the recovery unit (R158). -/
def State.recoveryDeliver (sec : Sector) (p : PageIx) (page : List Byte) (s : State) : State :=
  match s.recov.phase, journalOf sec with
  | .loading, _ => s.scanSetup sec p page
  | .heads, some j => s.scanHead j page
  | .pages, some j => s.scanPage j p page
  | _, _ => s

/-- RECOVERY_READ_END (R158): the page goes to the recovery unit, unless recovery was abandoned since (R173). -/
def execRecoveryReadEnd (s : State) : Answer :=
  s.live fun s =>
    match s.array.op with
    | some r =>
      s.ifArises (r.requester == .recovery) <|
        let page := readPage s.array.mem r.sector r.page
        let s := { s with array := { s.array with op := none } }
        .next ((if r.wanted then s.recoveryDeliver r.sector r.page page else s).settle true)
    | none => .next s

end Sys2Proof.Machine
end

