-- ==== Sys2Proof/Machine/AdmissionUnit.lean ====
section
/-! DEFINITION. The timebase and the admission unit (chapter 2): STAMP_TICK, FLUSH_AGE_REACHED and ADMISSION. -/

namespace Sys2Proof.Machine

/-! ### The timebase -/

/-- A tick at a counter value: the next value, and whether it stands saturated (R26). -/
def tickValue (n : Nat) : Nat := if Config.stampMax ≤ n then n else n + 1

/-- The flush-age clock of a buffer holding records runs on (R37). -/
def Buffer.runClock (micros : Nat) (b : Buffer) : Buffer := if b.count = 0 then b else { b with clock := b.clock + micros }

/-- Running time accumulates while an erase runs and not while it is suspended (R54). -/
def Erase.run (micros : Nat) (e : Erase) : Erase :=
  if e.cond = .suspended then e else { e with runMicros := e.runMicros + micros }

/-- STAMP_TICK (R25, R26): the counter increases by 1, up to 2^48-1, whose reaching sets STAMP_SATURATED. While the hold
condition is in force the counter does not count. -/
def execStampTick (s : State) : Answer :=
  s.live fun s =>
    if s.time.held then .next s
    else
      let n := tickValue s.time.counter
      let micros := 2 ^ s.setup.fields.journal.k
      .next { s with
        time := { s.time with counter := n, prescaler := 0, saturated := s.time.saturated || n == Config.stampMax }
        adm := { s.adm with bufP := s.adm.bufP.runClock micros, bufQ := s.adm.bufQ.runClock micros }
        array := { s.array with erase := s.array.erase.map (Erase.run micros) } }

/-- The reached age of the filling buffer. -/
def State.fillingReached (s : State) : Nat :=
  match s.adm.filling with
  | some b => (s.adm.buf b).reachedAge
  | none => 0

/-- FLUSH_AGE_REACHED (R37): in RUNNING the filling buffer is closed; in another state the close is owed. -/
def execFlushAgeReached (s : State) : Answer :=
  s.live fun s =>
    let age := s.setup.fields.journal.flushAge
    s.ifArises (s.fillingHolds && age != 0 && decide (s.fillingReached < age)) <|
      let s := s.markReached age
      .next ((if s.ctrl.state = .running then s.closeFilling else s).settle false)

/-! ### Admission -/

/-- A candidate for admission (R29). -/
inductive Candidate where
  | sys (r : SysRecord)
  | line (i : LineIx) (d : Descriptor)
  | note (n : Note)
  deriving DecidableEq, Repr

/-- The system stamp of a system record. -/
def SysRecord.stamp : SysRecord → Nat
  | .start _ t => t
  | .shutdown t => t

/-- The candidate stamp (R29). -/
def Candidate.stamp : Candidate → Nat
  | .sys r => r.stamp
  | .line _ d => d.close
  | .note n => n.stamp

/-- The system slot is admissible in this state (R30). -/
def JState.admitsSystem : JState → Bool
  | .recovering | .running | .stopping | .stopped | .formatting | .draining => true
  | .full | .drained | .failed => false

/-- The line candidates, in line order (R29). -/
def State.lineCandidates (s : State) : List Candidate :=
  (List.finRange 4).filterMap fun i => (s.lines[i].queue.head?).map (Candidate.line i)

/-- The admissible candidates, in the order that settles equal stamps (R30, R31). -/
def State.admissible (s : State) : List Candidate :=
  if s.adm.exhausted then []
  else
    (if s.ctrl.state.admitsSystem then s.adm.sys.toList.map Candidate.sys else [])
      ++ (if s.ctrl.state = .running then s.lineCandidates ++ s.adm.note.toList.map Candidate.note else [])

/-- The selected candidate (R31). -/
def State.selected (s : State) : Option Candidate := leastBy Candidate.stamp s.admissible

/-- What the record of a candidate will hold, apart from its seq (R33). -/
def State.draft (s : State) : Candidate → Draft
  | .sys (.start c t) =>
    { kind := kindStart, line := 0, flags := RecFlags.empty.toByte, lost := 0, stamp := t, span := 0,
      payload := startPayload c }
  | .sys (.shutdown t) => s.shutdownDraft t
  | .line i d =>
    { kind := kindLine, line := i.val, flags := d.flags.toByte, lost := s.lines[i].lost, stamp := d.close, span := d.span,
      payload := s.lines[i].fifo.take d.length }
  | .note n =>
    { kind := kindNote, line := 0, flags := RecFlags.empty.toByte, lost := 0, stamp := n.stamp, span := 0,
      payload := n.payload }

/-- A line port whose queue head is taken (R16, R17). -/
def LinePort.takeHead (u : LineSetup) (d : Descriptor) (p : LinePort) : LinePort :=
  { p with queue := p.queue.tail, fifo := p.fifo.drop d.length, lost := 0 }.pacedRelease u

/-- The candidate leaves its place (R32); a START clears retime pending (R28). -/
def State.takeCandidate (c : Candidate) (s : State) : State :=
  match c with
  | .sys (.start _ _) =>
    { s with adm := { s.adm with sys := none }, time := { s.time with retimePending := false } }
  | .sys (.shutdown _) => { s with adm := { s.adm with sys := none } }
  | .line i d => s.setLine i (s.lines[i].takeHead s.setup.fields.line[i] d)
  | .note _ => { s with adm := { s.adm with note := none } }

/-- The admission of this candidate closes the filling buffer directly (R39): a START of cause POWER_ON, RESET_PIN, HOST_RESET
or FORMAT, and a START of any cause while the journal is not RUNNING. -/
def Candidate.closes (j : JState) : Candidate → Bool
  | .sys (.start c _) =>
    match c.cause with
    | .powerOn | .resetPin | .hostReset | .format => true
    | .resume | .retime => j != .running
  | _ => false

/-- The candidate leaves its place and its record is written (R32). -/
def State.admitted (b : BufId) (c : Candidate) (s : State) : State := (s.takeCandidate c).writeRecord b (s.draft c)

/-- The close that an admission causes: for a START to be committed at once (R39), and for seq FFFFFFFFh (R34). -/
def State.closeAfter (closes : Bool) (s : State) : State := if closes ∨ s.adm.exhausted then s.closeFilling else s

/-- The report of the recovery START's close is made and not yet taken by the journal controller (R170). -/
def State.oweReport (s : State) : State := { s with adm := { s.adm with reportOwed := true } }

/-- The reports of an admission: the close of the recovery START's buffer is reported, and the controller takes the report as a
happening of its own (R170); in any other state exhausted numbers are reported (R133). -/
def State.admitReport (state : JState) (closes : Bool) (s : State) : State :=
  if state = .recovering then
    if closes then s.oweReport else s
  else if s.adm.exhausted then s.reportExhausted else s

/-- The admission of a candidate (R32), with the close it causes (R34, R39) and the reports of R133 and R170. -/
def State.admitCandidate (b : BufId) (c : Candidate) (s : State) : State :=
  let closes := c.closes s.ctrl.state
  ((s.admitted b c).closeAfter closes).admitReport s.ctrl.state closes

/-- ADMISSION (R31, R32): the selected candidate is admitted if it fits, and otherwise the filling buffer is closed. With no
admissible candidate, or no buffer FILLING, nothing is admitted. Where the report of the recovery START's close is owed, the
happening is the taking of that report (R170; DEDUCED, log entry 45). -/
def execAdmission (s : State) : Answer :=
  s.live fun s =>
    if s.adm.reportOwed then .next (s.recoveryEnd.settle false)
    else
      match s.adm.filling, s.selected with
      | some b, some c =>
        .next ((if (s.adm.buf b).fits (s.draft c) then s.admitCandidate b c else s.closeFilling).settle false)
      | _, _ => .next s

end Sys2Proof.Machine
end

