-- ==== Sys2Proof/Machine/ArrayEnds.lean ====
section
/-! DEFINITION. The ends of array operations (chapters 3 to 6 and 10): programs, erases, suspensions, stops and reads. -/

namespace Sys2Proof.Machine

/-- The read or program in flight, when it is of one of these kinds and this requester. -/
def StorageArray.ending (a : StorageArray) (p : Requester → OpKind → Bool) : Option Request :=
  match a.op with
  | some r => if p r.requester r.kind then some r else none
  | none => none

/-- The erase in flight of a requester: RUNNING, SUSPEND_PENDING or STOP_PENDING (section 3.4). -/
def StorageArray.endingErase (a : StorageArray) (who : Requester) : Option Erase :=
  match a.erase with
  | some e => if e.requester = who ∧ e.cond ≠ .suspended then some e else none
  | none => none

/-- The operation in flight is over. -/
def State.opOver (s : State) : State := { s with array := { s.array with op := none } }

/-- The erase in existence is over. -/
def State.eraseOver (s : State) : State := { s with array := { s.array with erase := none } }

/-- A program in flight ends: its bytes take their values (R48, R51), and the requester hears the outcome. -/
def State.programEnds (p : Requester → OpKind → Bool) (o : OpOutcome) (s : State)
    (hears : Request → State → State) : Answer :=
  match s.array.ending p with
  | some r => .next ((hears r (s.program r o).opOver).settle true)
  | none => .next s

/-- An erase in flight ends: its sector's bytes take their values (R49, R52), and the requester hears the outcome. -/
def State.eraseEnds (who : Requester) (o : OpOutcome) (s : State) (hears : Erase → State → State) : Answer :=
  match s.array.endingErase who with
  | some e => .next ((hears e (s.eraseSector e.sector o).eraseOver).settle true)
  | none => .next s

/-- A read in flight ends: its page goes to the requester (R47). -/
def State.readEnds (who : Requester) (s : State) (hears : Request → List Byte → State → State) : Answer :=
  match s.array.ending fun q _ => q == who with
  | some r => .next ((hears r (readPage s.array.mem r.sector r.page) s.opOver).settle true)
  | none => .next s

/-! ### The commit path (R70 to R79) -/

/-- The held buffer is released, and what follows a release is taken up (R36, R65): the CLOSED buffer, and the journal
controller's tests. -/
def State.release (committed : Bool) (s : State) : State := (s.releaseHeld.takeClosed).afterRelease committed

/-- What the commit path does after a failed program: it seeks a target again, or, in DRAINING, releases the buffer with its
records lost (R71, R75, R76, R79): a drain makes one attempt at each buffer, and at most one head, one body and one commit field
for it (R150). A HALTED path, or one that has lost its buffer, seeks nothing (R77, R78). -/
def State.retryOrLose (working : Bool) (s : State) : State :=
  if !working then s
  else if s.ctrl.state = .draining then s.release false
  else s.seekTarget

/-- The end of a head program (R70, R71). -/
def State.headEnded (o : OpOutcome) (r : Request) (s : State) : State :=
  match r.wanted, journalOf r.sector with
  | true, some j =>
    let working := s.commit.phase == .head && s.commit.holding.isSome
    match o with
    | .ok =>
      if working then
        let back := s.commit.leavingBlocked
        let s := (s.withCommit fun c => { c with leavingBlocked := false }).startBody j
        if back then s.spaceBack else s
      else s
    | .fail =>
      let s := s.setEntry j fun x => { x with state := .dirty, retireMark := true }
      (s.withCommit fun c => { c with target := none }).retryOrLose working
  | _, _ => s

/-- The directory's and the target's part of a program failure (R75, R76). -/
def State.programFailed (j : JSector) (s : State) : State :=
  let s := s.setEntry j fun x => { x with failCount := x.failCount + 1 }
  let s := s.withCommit fun c => { c with nextPage := c.nextPage + 1 }
  if 2 ≤ s.dir[j].failCount then
    (s.setEntry j fun x => { x with state := .closed, retireMark := true }).withCommit fun c => { c with target := none }
  else s

/-- The end of a body program (R73, R75). -/
def State.bodyEnded (o : OpOutcome) (r : Request) (s : State) : State :=
  match r.wanted, journalOf r.sector with
  | true, some j =>
    let working := s.commit.phase == .body && s.commit.holding.isSome
    let s := s.setEntry j fun x => { x with pagesUsed := r.page.val }
    match o with
    | .ok =>
      if working then
        (s.withCommit fun c => { c with phase := .field }).request
          (commitRequest .fieldProgram j r.page.val (commitField s.commit.bodyCrc))
      else s
    | .fail => (s.programFailed j).retryOrLose working
  | _, _ => s

/-- The publication of the held buffer (R74), without its release. -/
def State.publish (j : JSector) (b : Buffer) (s : State) : State :=
  let rs := (walkRecords b.count b.data).getD []
  let s := s.setEntry j fun x =>
    { x with firstSeq := if x.firstSeq = 0 then b.firstSeq else x.firstSeq,
             firstStamp := if x.firstSeq = 0 then recStamp (firstRec rs) else x.firstStamp,
             lastSeq := b.lastSeq, lastStamp := recStamp (lastRec rs) }
  let n := s.commit.countSince + b.count
  let due := decide (s.setup.fields.journal.threshold ≤ n)
  let s := s.withCommit fun c =>
    { c with newestSeq := b.lastSeq, countSince := if due then 0 else n, nextPage := c.nextPage + 1 }
  if due then s.raise .committed else s

/-- A page joins the withheld list (R107). -/
def State.withhold (j : JSector) (p : PageIx) (s : State) : State :=
  { s with cursor := { s.cursor with withheld := s.cursor.withheld ++ [(j, p)] } }

/-- The end of a commit-field program (R74, R75, R77, R79). -/
def State.fieldEnded (o : OpOutcome) (r : Request) (s : State) : State :=
  match r.wanted, journalOf r.sector with
  | true, some j =>
    match o with
    | .ok =>
      match s.commit.holding with
      | some b =>
        if s.commit.phase = .field ∨ s.commit.phase = .halted then (s.publish j (s.adm.buf b)).release true else s
      | none => s
    | .fail =>
      let working := s.commit.phase == .field && s.commit.holding.isSome
      ((s.withhold j r.page).programFailed j).retryOrLose working
  | _, _ => s

/-- HEAD_PROGRAM_END (R70). -/
def execHeadProgramEnd (o : OpOutcome) (s : State) : Answer :=
  s.live fun s => s.programEnds (fun q k => q == .commit && k == .headProgram) o (State.headEnded o)

/-- BODY_PROGRAM_END (R73). -/
def execBodyProgramEnd (o : OpOutcome) (s : State) : Answer :=
  s.live fun s => s.programEnds (fun q k => q == .commit && k == .bodyProgram) o (State.bodyEnded o)

/-- COMMIT_FIELD_END (R74). -/
def execCommitFieldEnd (o : OpOutcome) (s : State) : Answer :=
  s.live fun s => s.programEnds (fun q k => q == .commit && k == .fieldProgram) o (State.fieldEnded o)

/-! ### Suspensions, stops and erases (R55, R57, R96, R97, R99, R137) -/

/-- The suspension of an erase takes effect (R55): it is SUSPENDED with its running time kept, and its sector holds contents as R52 gives
for a cut erase, every bit by a free value. -/
def State.eraseSuspended (e : Erase) (s : State) : State :=
  let s := s.eraseSector e.sector .fail
  { s with array := { s.array with erase := some { e with cond := .suspended } } }

/-- ERASE_SUSPEND_EFFECT (R55): the erase becomes SUSPENDED and the array free. -/
def execEraseSuspendEffect (s : State) : Answer :=
  s.live fun s =>
    match s.array.erase with
    | some e =>
      s.ifArises (e.cond == .suspendPending) <|
        .next ((s.eraseSuspended e).settle true)
    | none => .next s

/-- ERASE_STOP_EFFECT (R57): the erase ceases to exist and its requester receives ABANDONED. -/
def execEraseStopEffect (s : State) : Answer :=
  s.live fun s =>
    match s.array.erase with
    | some e =>
      s.ifArises (e.cond == .stopPending) <|
        .next (((s.cutErase.eraseAbandoned e).storeOwed).settle true)
    | none => .next s

/-- RECLAIM_ERASE_END (R96, R99). -/
def execReclaimEraseEnd (o : OpOutcome) (s : State) : Answer :=
  s.live fun s => s.eraseEnds .reclaim o fun e s =>
    match journalOf e.sector with
    | some j => s.eraseEnded .reclaim j o
    | none => s

/-- RETIRE_MARK_END (R97): the sector stays RETIRED with either outcome; the reclaim engine returns to IDLE, or Format goes
on. -/
def execRetireMarkEnd (o : OpOutcome) (s : State) : Answer :=
  s.live fun s => s.programEnds (fun _ k => k == .retireMark) o fun r s =>
    match r.requester, journalOf r.sector with
    | .reclaim, _ => s.reclaimIdle
    | .format, some j => s.formatDealt j
    | _, _ => s

/-- FORMAT_ERASE_END (R102, R137): the sector becomes FREE or RETIRED, and the Format goes on with the next. -/
def execFormatEraseEnd (o : OpOutcome) (s : State) : Answer :=
  s.live fun s => s.eraseEnds .format o fun e s =>
    match journalOf e.sector with
    | some j =>
      let s := s.eraseEnded .format j o
      if s.ctrl.format = .erasing j then s.formatDealt j else s
    | none => s

/-! ### The setup store (R183, R185) -/

/-- SETUP_ERASE_END (R183, R185). -/
def execSetupEraseEnd (o : OpOutcome) (s : State) : Answer :=
  s.live fun s => s.eraseEnds .setup o fun e s =>
    match o, e.wanted with
    | .ok, true => (s.storeErased (setupSectorOf e.sector)).storeSeek
    | .fail, true => s.storeEnd .failed
    | .ok, false => (s.storeErased (setupSectorOf e.sector)).storeOwed
    | .fail, false => s.storeOwed

/-- SETUP_BODY_END (R183, R185). -/
def execSetupBodyEnd (o : OpOutcome) (s : State) : Answer :=
  s.live fun s => s.programEnds (fun q k => q == .setup && k == .setupBody) o fun r s =>
    let s := s.storeAdvance r.page
    match o, r.wanted with
    | .ok, true =>
      (s.withStore fun x => { x with phase := .field }).request
        (setupRequest .setupField (setupSectorOf r.sector) r.page.val (commitField (crc r.data)) r.generation)
    | .fail, true => s.storeSeek
    | _, false => s.storeOwed

/-- SETUP_FIELD_END (R183, R185). -/
def execSetupFieldEnd (o : OpOutcome) (s : State) : Answer :=
  s.live fun s => s.programEnds (fun q k => q == .setup && k == .setupField) o fun r s =>
    match o, r.wanted with
    | .ok, true => (s.storeCommitted r).storeEnd .ok
    | .fail, true => s.storeSeek
    | .ok, false => ((s.storeCommitted r).setOrigin r.generation).storeOwed
    | .fail, false => s.storeOwed

/-! ### Reads of the cursor engine (R109, R110, R113) -/

/-- CURSOR_READ_END (R109): the page is HELD, and a TORN page that is not withheld sets the fault-seen mark. Data no longer
wanted are discarded (R110). -/
def execCursorReadEnd (s : State) : Answer :=
  s.live fun s => s.readEnds .cursorFetch fun r page s =>
    match r.wanted, journalOf r.sector with
    | true, some j =>
      let torn := match pageClass page with | .torn _ => !s.cursor.isWithheld j r.page | _ => false
      { s with cursor := { s.cursor with buffer := .held j r.page page, faultSeen := s.cursor.faultSeen || torn } }
    | _, _ => s

/-- SEEK_READ_END (R113): the page is searched, or the search moves on. Data no longer wanted are discarded (R110). -/
def execSeekReadEnd (s : State) : Answer :=
  s.live fun s => s.readEnds .cursorSeek fun r page s =>
    match r.wanted, journalOf r.sector with
    | true, some j => s.seekDeliver j r.page page
    | _, _ => s

end Sys2Proof.Machine
end

