-- ==== Sys2Proof/Machine/HostPort.lean ====
section
/-! DEFINITION. The host port (chapter 11): transactions, the decision of a command, and the meaning of every command. -/

namespace Sys2Proof.Machine

/-! ### The status byte and replies (R190, R202) -/

/-- The status byte (R190, R202). -/
def State.statusByte (s : State) : Byte :=
  BitVec.ofNat 8 (16 * s.ctrl.state.code + 8 * s.irqActive.toNat + 4 * (s.ctrl.opKind != .noOp).toNat
    + 2 * s.cursorReady.toNat)

/-- A decided command: its result, its reply data, and the state its effects leave. -/
abbrev Decision := Result × List Byte × State

/-- A command is taken with the bytes that make it up (R188, R189): the phase becomes REPLY, or STREAM for Read Records answered
OK; the reply holds the result byte and, on OK, the data; and the last result becomes the result, except for Read Status. -/
def State.answer (cmd : Byte) (args : List Byte) (d : Decision) : State :=
  let (r, data, s) := d
  let stream := commandOf cmd = some .readRecords ∧ r = .ok
  let last := if commandOf cmd = some .readStatus then s.port.lastResult else r
  { s with
    port := { s.port with
      phase := if stream then .stream else .reply
      command := cmd
      args := args
      reply := r.code :: (if r = .ok then data else [])
      lastResult := last } }

/-- A unit is clocked whose byte on SDI the phase ignores (R187, R189): in REPLY and STREAM the byte sent in it has left SDO; while
CS_N is high SCK has no effect. -/
def HostPort.clocked (p : HostPort) : HostPort :=
  match p.phase with
  | .reply | .stream => { p with reply := p.reply.tail }
  | .idle | .command | .arguments => p

/-- The port after such a unit. -/
def State.clocked (s : State) : State := { s with port := s.port.clocked }

/-- The byte on SDO in the unit that comes next, none while SDO is at high impedance (R187, R189, R197): the status byte, the
fill byte FFh for each argument byte, then the reply and fill bytes after it; in STREAM the result byte and the tokens, each
chosen when its first byte is due (R115). Without a transaction, in a reset and without supply SDO is at high impedance. -/
def State.sdo (s : State) : Option Byte :=
  if !s.powered || s.inReset then none
  else
    match s.port.phase with
    | .idle => none
    | .command => some s.port.status
    | .arguments => some 0xFF
    | .reply => some (s.port.reply.headD 0xFF)
    | .stream => some ((s.port.reply ++ s.nextToken.bytes).headD 0xFF)

/-- A command that is refused changes nothing. -/
def State.refuseWith (r : Result) (s : State) : Decision := (r, [], s)

/-- A command answered OK with no data. -/
def State.accept (s : State) : Decision := (.ok, [], s)

/-! ### Read commands (R23, R103, R192, R193) -/

/-- The rule of Read Status (R192). -/
def State.readStatusRule (s : State) : Decision := (.ok, [s.statusByte, s.port.lastResult.code], s)

/-- The identity fields (R192, R202). -/
def identity : List Byte := [0x48, 0x04, 0x10, 0x01, 0x01, 0x7E, 0x0F, 0x02, 0x00]

/-- The rule of Read Identity (R192). -/
def State.readIdentityRule (s : State) : Decision := (.ok, identity, s)

/-- The floor value in force (R104); 100000000h is reported as 0. -/
def State.floorValue (s : State) : Nat :=
  match s.setup.fields.journal.floorMode with
  | .noFloor => 0
  | .fixed => s.setup.fields.journal.fixedFloor
  | .cursor => s.cursor.target

/-- The 33 bytes of the journal summary (R193, R202). -/
def State.summary (s : State) : List Byte :=
  [BitVec.ofNat 8 (16 * s.ctrl.state.code),
   BitVec.ofNat 8 (s.ctrl.stopRequested.toNat + 2 * s.time.saturated.toNat + 4 * s.adm.exhausted.toNat),
   BitVec.ofNat 8 s.ctrl.opKind.code, BitVec.ofNat 8 s.ctrl.opOutcome.code]
    ++ beBytes 4 s.dir.oldestRetained ++ beBytes 4 s.commit.newestSeq ++ beBytes 4 s.adm.nextSeq
    ++ beBytes 6 s.time.counter
    ++ [SectorState.free, .opened, .closed, .erasing, .dirty, .retired].map (fun st => BitVec.ofNat 8 (s.dir.countOf st))
    ++ [BitVec.ofNat 8 s.setup.fields.journal.floorMode.code] ++ beBytes 4 s.floorValue

/-- The rule of Read Journal Summary (R193). -/
def State.readJournalSummaryRule (s : State) : Decision := (.ok, s.summary, s)

/-- The line a byte names, none above 3. -/
def lineOf (b : Byte) : Option LineIx := if h : b.toNat < 4 then some ⟨b.toNat, h⟩ else none

/-- The 6 bytes of a line's state (R23, R202). -/
def State.lineState (s : State) (i : LineIx) : List Byte :=
  let p := s.lines[i]
  [BitVec.ofNat 8 s.setup.fields.line[i].enable.toNat] ++ beBytes 2 p.fifo.length
    ++ [BitVec.ofNat 8 p.queue.length, BitVec.ofNat 8 (s.paceActive i).toNat, BitVec.ofNat 8 p.lost]

/-- The rule of Read Line State (R23). -/
def State.readLineStateRule (args : List Byte) (s : State) : Decision :=
  match lineOf (byteAt args 0) with
  | none => s.refuseWith .badArg
  | some i => (.ok, s.lineState i, s)

/-- The 31 bytes of a directory entry (R103, R202). -/
def Entry.bytes (x : Entry) : List Byte :=
  [BitVec.ofNat 8 x.state.code, BitVec.ofNat 8 (x.retireMark.toNat + 2 * x.failCount)]
    ++ beBytes 4 x.epoch ++ beBytes 4 x.firstSeq ++ beBytes 4 x.lastSeq ++ beBytes 6 x.firstStamp
    ++ beBytes 6 x.lastStamp ++ [BitVec.ofNat 8 x.pagesUsed] ++ beBytes 4 x.eraseCount

/-- The rule of Read Directory Entry (R103). -/
def State.readDirectoryEntryRule (args : List Byte) (s : State) : Decision :=
  if h : (byteAt args 0).toNat < 126 then (.ok, (s.dir[(byteAt args 0).toNat]'h).bytes, s) else s.refuseWith .badArg

/-! ### Setup commands (R19, R28, R91, R178, R179, R181) -/

/-- The journal was abandoned in recovery and is DRAINED: no line is enabled there (R22). -/
def State.drainedRecovering (s : State) : Bool := s.ctrl.state == .drained && s.ctrl.saved == some .recovering

/-- An accepted Write Line Setup (R19): the fields are replaced, the line disabled or enabled, and its hysteresis re-evaluated
against the new marks (R17). -/
def State.writeLine (i : LineIx) (u : LineSetup) (s : State) : State :=
  let on := s.lineEnabled i
  let fields := { s.setup.fields with line := s.setup.fields.line.set i u }
  let s := { s with setup := { s.setup with fields := fields } }
  let s :=
    if on ∧ !u.enable then s.disableLine i
    else if !on ∧ u.enable ∧ !s.drainedRecovering then s.enableLine i
    else s
  s.setLine i (s.lines[i].pacedRewrite u)

/-- The rule of Write Line Setup (R19, R178). -/
def State.writeLineSetupRule (args : List Byte) (s : State) : Decision :=
  match lineOf (byteAt args 0), lineOfBlock (args.drop 1) with
  | some i, some u => if u.enable ∧ s.lineEnabled i then s.refuseWith .state else (s.writeLine i u).accept
  | _, _ => s.refuseWith .badArg

/-- The journal fields that an accepted write leaves: the FIXED value takes the given one only under FIXED (R179). -/
def JournalSetup.written (old new : JournalSetup) : JournalSetup :=
  { new with fixedFloor := if new.floorMode = .fixed then new.fixedFloor else old.fixedFloor }

/-- The journal fields of the working setup are replaced. -/
def State.setJournal (j : JournalSetup) (s : State) : State :=
  { s with setup := { s.setup with fields := { s.setup.fields with journal := j } } }

/-- A new flush age applies at once to the clock already running (R37): a filling buffer whose clock stands at or past it is
closed in RUNNING, and its close is owed in any other state. -/
def State.newFlushAge (past : Bool) (age : Nat) (s : State) : State :=
  if past then
    let s := s.markReached age
    if s.ctrl.state = .running then s.closeFilling else s
  else s

/-- The filling buffer's clock stands at or past a changed flush age. -/
def State.pastNewAge (age : Nat) (s : State) : Bool :=
  match s.adm.filling with
  | none => false
  | some b =>
    age != s.setup.fields.journal.flushAge && age != 0 && (s.adm.buf b).count != 0 && s.clockPast (s.adm.buf b) age

/-- An accepted Write Journal Setup (R28, R37, R92, R179). -/
def State.writeJournal (j : JournalSetup) (s : State) : State :=
  let old := s.setup.fields.journal
  let past := s.pastNewAge j.flushAge
  let s := s.setJournal (old.written j)
  let s := if j.k = old.k then s else { s with time := { s.time with prescaler := 0, retimePending := true } }
  (s.newFlushAge past j.flushAge).settle false

/-- The rule of Write Journal Setup (R179). -/
def State.writeJournalSetupRule (args : List Byte) (s : State) : Decision :=
  match journalOfBlock args with
  | none => s.refuseWith .badArg
  | some j =>
    if j.k ≠ s.setup.fields.journal.k ∧ s.ctrl.state ≠ .stopped then s.refuseWith .state
    else (s.writeJournal j).accept

/-- The rule of Store Setup (R181). -/
def State.storeSetupRule (s : State) : Decision :=
  if s.ctrl.opKind ≠ .noOp then s.refuseWith .busy
  else if s.ctrl.state.draws then s.refuseWith .state
  else (s.storeStart.settle false).accept

/-- The rule of Set Retain Floor (R91). -/
def State.setRetainFloorRule (args : List Byte) (s : State) : Decision :=
  match FloorMode.ofCode (byteAt args 0).toNat with
  | none => s.refuseWith .badArg
  | some m =>
    let j := s.setup.fields.journal
    let v := if m = .fixed then fieldAt args 1 4 else j.fixedFloor
    ((s.setJournal { j with floorMode := m, fixedFloor := v }).settle false).accept

/-! ### Journal control (R42, R127 to R129, R136, R154) -/

/-- The rule of Run (R128). -/
def State.runRule (s : State) : Decision :=
  match s.ctrl.state with
  | .stopped | .stopping => (s.enterRunning.settle false).accept
  | .running => s.accept
  | .full =>
    let s := s.withCtrl fun c => { c with stopRequested := false }
    ((if !s.ctrl.spaceWait ∧ !s.adm.exhausted then s.enterRunning else s).settle false).accept
  | _ => s.refuseWith .state

/-- Stop in RUNNING (R127): STOPPING when records are staged, STOPPED when none are, and the filling buffer is closed. -/
def State.stopRunning (s : State) : State := ((s.enter (if s.staged then .stopping else .stopped)).closeFilling).settle false

/-- The rule of Stop (R127). -/
def State.stopRule (s : State) : Decision :=
  match s.ctrl.state with
  | .running => s.stopRunning.accept
  | .stopping | .stopped => s.accept
  | .full => (s.withCtrl fun c => { c with stopRequested := true }).accept
  | _ => s.refuseWith .state

/-- The rule of Flush (R39, R129). -/
def State.flushRule (s : State) : Decision :=
  match s.ctrl.state with
  | .running | .stopping => (s.closeFilling.settle false).accept
  | _ => s.refuseWith .state

/-- The rule of Append Note (R42). -/
def State.appendNoteRule (args : List Byte) (s : State) : Decision :=
  let len := (byteAt args 0).toNat
  if s.ctrl.state ≠ .running then s.refuseWith .state
  else if len < 1 ∨ 240 < len then s.refuseWith .badArg
  else if s.adm.note.isSome then s.refuseWith .busy
  else State.accept { s with adm := { s.adm with note := some { payload := args.drop 1, stamp := s.time.counter } } }

/-- The rule of Format (R136). -/
def State.formatRule (s : State) : Decision :=
  if s.ctrl.opKind ≠ .noOp then s.refuseWith .busy
  else
    match s.ctrl.state with
    | .stopped | .full | .failed => (s.formatStart.settle false).accept
    | _ => s.refuseWith .state

/-- The rule of Reset Device (R154): the drain, or in DRAINED the reset, is taken at the rise of CS_N. -/
def State.resetDeviceRule (s : State) : Decision :=
  State.accept <|
    if s.ctrl.state = .drained then s.withCtrl fun c => { c with resetAtRise := true }
    else s.withCtrl fun c => { c with hostResetPending := true }

/-! ### The cursor's commands (R111 to R113, R115) -/

/-- A Seek of a defined kind (R111 to R113): its target, after the effects common to every kind. -/
def State.seekTo (kind : Nat) (args : List Byte) (s : State) : Option State :=
  let resume := s.resumePoint
  let newest := s.commit.newestSeq
  match kind with
  | 0 => some (s.placeCursor resume)
  | 1 => some (s.placeCursor (if resume ≤ newest then newest else resume))
  | 2 =>
    let n := fieldAt args 1 4
    some (s.placeCursor (if n < resume then resume else if newest < n then newest + 1 else n))
  | 3 =>
    let s := s.placeCursor resume
    let seek : SeekState := ⟨fieldAt args 1 6, none, false⟩
    some (s.seekChoose seek s.dir.ring)
  | _ => none

/-- The rule of Seek (R111). -/
def State.seekRule (args : List Byte) (s : State) : Decision :=
  match s.seekTo (byteAt args 0).toNat args with
  | none => s.refuseWith .badArg
  | some s => (s.settle false).accept

/-- The rule of Read Records (R115, R189). -/
def State.readRecordsRule (s : State) : Decision := s.accept

/-! ### Event commands (R195) -/

/-- A 16-bit mask as it is sent, its reserved bits 0 (R202, R203). -/
def maskBytes (m : BitVec 11) : List Byte := beBytes 2 m.toNat

/-- The defined bits of a received mask (R203). -/
def maskOf (args : List Byte) : BitVec 11 := BitVec.ofNat 11 (fieldAt args 0 2)

/-- The rule of Read Events (R195). -/
def State.readEventsRule (s : State) : Decision := (.ok, maskBytes s.events.flags ++ maskBytes s.events.enables, s)

/-- The rule of Clear Events (R195): a flag raised at this very happening, the raise taken first, is not cleared. -/
def State.clearEventsRule (together : BitVec 11) (args : List Byte) (s : State) : Decision :=
  State.accept { s with events := s.events.clear (maskOf args &&& ~~~together) }

/-- The rule of Write Event Enables (R195). -/
def State.writeEventEnablesRule (args : List Byte) (s : State) : Decision :=
  State.accept { s with events := s.events.enable (maskOf args) }

/-! ### A whole command is decided (R188) -/

/-- The rule of a command, with its argument bytes. `together` are the flags raised as its last byte arrives, which only Clear
Events looks at. -/
def Command.rule (c : Command) (together : BitVec 11) (args : List Byte) (s : State) : Decision :=
  match c with
  | .readStatus => s.readStatusRule
  | .readIdentity => s.readIdentityRule
  | .readJournalSummary => s.readJournalSummaryRule
  | .readLineState => s.readLineStateRule args
  | .readDirectoryEntry => s.readDirectoryEntryRule args
  | .writeLineSetup => s.writeLineSetupRule args
  | .writeJournalSetup => s.writeJournalSetupRule args
  | .storeSetup => s.storeSetupRule
  | .setRetainFloor => s.setRetainFloorRule args
  | .run => s.runRule
  | .stop => s.stopRule
  | .flush => s.flushRule
  | .appendNote => s.appendNoteRule args
  | .format => s.formatRule
  | .resetDevice => s.resetDeviceRule
  | .seek => s.seekRule args
  | .readRecords => s.readRecordsRule
  | .readEvents => s.readEventsRule
  | .clearEvents => s.clearEventsRule together args
  | .writeEventEnables => s.writeEventEnablesRule args

/-- A whole command is decided (R188): NOT_READY while the journal is RECOVERING, unless it is Read Status or Read Identity, and
else by the command's own rule. -/
def Command.decide (c : Command) (together : BitVec 11) (args : List Byte) (s : State) : Decision :=
  if s.ctrl.state = .recovering ∧ c ≠ .readStatus ∧ c ≠ .readIdentity then s.refuseWith .notReady
  else c.rule together args s

/-! ### Bytes of a transaction (R187, R188) -/

/-- The port has received these bytes of a command: while it owes bytes the phase is ARGUMENTS, and with its last byte the command
is taken and decided. -/
def State.gather (c : Command) (code : Byte) (args : List Byte) (together : BitVec 11) (s : State) : State :=
  if owed c args = 0 then State.answer code args (c.decide together args s)
  else { s with port := { s.port with phase := .arguments, command := code, args := args } }

/-- A byte arrives on SDI, with what the phase makes of it: ignored while CS_N is high and in REPLY and STREAM (R187, R189); the
command byte, answered UNKNOWN where it names no command; or an argument byte (R188). -/
def State.byteArrives (b : Byte) (together : BitVec 11) (s : State) : State :=
  match s.port.phase with
  | .idle | .reply | .stream => s.clocked
  | .command =>
    match commandOf b with
    | none => State.answer b [] (s.refuseWith .unknown)
    | some c => s.gather c b [] together
  | .arguments =>
    match commandOf s.port.command with
    | none => s
    | some c => s.gather c s.port.command (s.port.args ++ [b]) together

/-- The happening of a byte. Every row of the table that a byte brings names what that byte does where it completes the row's
command; the byte has its one effect whichever row names it (log entry 5). -/
def State.takeByte (b : Byte) (together : BitVec 11) (s : State) : Answer := s.live fun s => .next (s.byteArrives b together)

/-- ARGUMENT_BYTE_RECEIVED (R188): the command byte of a command with arguments, or an argument byte after which bytes are still
owed. -/
def execArgumentByteReceived (b : Byte) (s : State) : Answer := s.takeByte b 0

/-- UNKNOWN_COMMAND (R188): the command byte names no command. -/
def execUnknownCommand (b : Byte) (s : State) : Answer := s.takeByte b 0

/-- READ_STATUS (R192): its command byte arrives. -/
def execReadStatus (s : State) : Answer := s.takeByte 0x01 0

/-- READ_IDENTITY (R192): its command byte arrives. -/
def execReadIdentity (s : State) : Answer := s.takeByte 0x02 0

/-- READ_JOURNAL_SUMMARY (R193): its command byte arrives. -/
def execReadJournalSummary (s : State) : Answer := s.takeByte 0x03 0

/-- READ_LINE_STATE (R23): its last byte arrives. -/
def execReadLineState (last : Byte) (s : State) : Answer := s.takeByte last 0

/-- READ_DIRECTORY_ENTRY (R103): its last byte arrives. -/
def execReadDirectoryEntry (last : Byte) (s : State) : Answer := s.takeByte last 0

/-- WRITE_LINE_SETUP (R19, R178): its last byte arrives. -/
def execWriteLineSetup (last : Byte) (s : State) : Answer := s.takeByte last 0

/-- WRITE_JOURNAL_SETUP (R179): its last byte arrives. -/
def execWriteJournalSetup (last : Byte) (s : State) : Answer := s.takeByte last 0

/-- STORE_SETUP (R181): its command byte arrives. -/
def execStoreSetup (s : State) : Answer := s.takeByte 0x12 0

/-- SET_RETAIN_FLOOR (R91): its last byte arrives. -/
def execSetRetainFloor (last : Byte) (s : State) : Answer := s.takeByte last 0

/-- RUN (R128): its command byte arrives. -/
def execRun (s : State) : Answer := s.takeByte 0x20 0

/-- STOP (R127): its command byte arrives. -/
def execStop (s : State) : Answer := s.takeByte 0x21 0

/-- FLUSH (R39, R129): its command byte arrives. -/
def execFlush (s : State) : Answer := s.takeByte 0x22 0

/-- APPEND_NOTE (R42): its last byte arrives. -/
def execAppendNote (last : Byte) (s : State) : Answer := s.takeByte last 0

/-- FORMAT (R136): its command byte arrives. -/
def execFormat (s : State) : Answer := s.takeByte 0x50 0

/-- RESET_DEVICE (R154): its command byte arrives. -/
def execResetDevice (s : State) : Answer := s.takeByte 0x5A 0

/-- SEEK (R111): its last byte arrives. -/
def execSeek (last : Byte) (s : State) : Answer := s.takeByte last 0

/-- READ_RECORDS (R115, R189): its command byte arrives. -/
def execReadRecords (s : State) : Answer := s.takeByte 0x31 0

/-- READ_EVENTS (R195): its command byte arrives. -/
def execReadEvents (s : State) : Answer := s.takeByte 0x40 0

/-- CLEAR_EVENTS (R195): its last byte arrives, with the flags that are raised together with it. -/
def execClearEvents (last : ClearByte) (s : State) : Answer := s.takeByte last.byte last.together

/-- WRITE_EVENT_ENABLES (R195): its last byte arrives. -/
def execWriteEventEnables (last : Byte) (s : State) : Answer := s.takeByte last 0

/-! ### Tokens of the stream (R115 to R121) -/

/-- A token is in transfer. -/
def TransmitStore.busy : TransmitStore → Bool
  | .transfer _ => true
  | .empty | .kept _ _ => false

/-- The bytes of the token in transfer go to SDO (R115, R189). -/
def State.sendToken (s : State) : State :=
  { s with port := { s.port with reply := match s.cursor.store with | .transfer t => t.bytes | _ => [] } }

/-- TOKEN_CHOICE (R115): the first byte of a token is due, and the token is chosen; a RECORD that leaves the page without a
returnable record calls for the next page (R108, R116). -/
def execTokenChoice (s : State) : Answer :=
  s.live fun s =>
    s.ifArises (s.port.phase == .stream && !s.cursor.store.busy) <| .next (s.chooseToken.sendToken.settle false)

/-- TOKEN_END (R117, R120, R121): the last byte of a token is clocked out. A token that the store no longer holds has left SDO, and
its end has no other effect (log entry 49). -/
def execTokenEnd (s : State) : Answer :=
  s.live fun s =>
    s.ifArises (s.port.phase == .stream) <|
      match s.cursor.store with
      | .transfer t => .next ((s.finishToken t).sendToken.settle false)
      | .empty | .kept _ _ => .next s.sendToken

end Sys2Proof.Machine
end

