-- ==== Sys2Proof/Machine/Power.lean ====
section
/-! DEFINITION. The pins and the supply: CS_N, PFW_N, resets and the loss of power (R141 to R144, R153, R154, R187, R188). -/

namespace Sys2Proof.Machine

/-- The level of CS_N changes. -/
def State.setCsN (v : Bool) (s : State) : State := { s with pins := { s.pins with csN := v } }

/-- The level of PFW_N changes. -/
def State.setPfwN (v : Bool) (s : State) : State := { s with pins := { s.pins with pfwN := v } }

/-- The level of RESET_N changes. -/
def State.setResetN (v : Bool) (s : State) : State := { s with pins := { s.pins with resetN := v } }

/-- The part takes no notice of CS_N and PFW_N: it has no supply, or a reset is in force (R153). -/
def State.deaf (s : State) : Bool := !s.powered || s.inReset

/-- CS_N_FALL (R187, R190): a transaction begins, with the status byte sampled. -/
def execCsNFall (s : State) : Answer :=
  s.ifArises s.pins.csN <|
    let s := s.setCsN false
    .next <|
      if s.deaf then s
      else
        { s with port := { s.port with phase := .command, command := 0, args := [], reply := [], status := s.statusByte } }

/-- What the end of a transaction does at the port and at the cursor engine (R118, R187, R188, R189). -/
def State.endTransaction (s : State) : State :=
  let s := if s.port.phase = .stream then s.cutToken else s
  let last := if s.port.phase = .arguments then .incomplete else s.port.lastResult
  { s with port := { s.port with phase := .idle, reply := [], lastResult := last } }

/-- What a Reset Device taken before does at the rise of CS_N (R154): the reset in DRAINED, or the drain in a working state. -/
def State.hostResetAtRise (s : State) : State :=
  if s.ctrl.resetAtRise then s.takeReset .hostReset
  else if s.ctrl.hostResetPending then
    match s.ctrl.state with
    | .recovering | .draining | .drained => s
    | _ => s.beginDrain
  else s

/-- CS_N_RISE (R118, R154, R187, R188). -/
def execCsNRise (s : State) : Answer :=
  s.ifArises (!s.pins.csN) <|
    let s := s.setCsN true
    .next (if s.deaf then s else (s.endTransaction.hostResetAtRise).settle false)

/-- PFW_N_FALL (R141, R144). -/
def execPfwNFall (s : State) : Answer :=
  s.ifArises s.pins.pfwN <|
    let s := s.setPfwN false
    .next <|
      if s.deaf then s
      else
        match s.ctrl.state with
        | .recovering => s.abandonRecovery.settle false
        | .draining | .drained => s
        | _ => s.beginDrain.settle false

/-- PFW_N_RISE (R142, R144). -/
def execPfwNRise (s : State) : Answer :=
  s.ifArises (!s.pins.pfwN) <|
    let s := s.setPfwN true
    .next (if !s.deaf ∧ s.ctrl.state = .drained then s.returnFromDrained.settle false else s)

/-- POWER_ON_RESET (R153): the supply comes up, and every block takes its reset values. -/
def execPowerOnReset (s : State) : Answer := .next (s.takeReset .powerOn)

/-- RESET_N_FALL (R153, R155): an abrupt reset. During a power-on reset it is the one reset, and counts as a power-on reset. -/
def execResetNFall (s : State) : Answer :=
  s.ifArises s.pins.resetN <|
    let s := s.setResetN false
    .next <|
      if !s.powered then s
      else if s.inReset ∧ s.ctrl.resetCause = .powerOn then s.takeReset .powerOn
      else s.takeReset .resetPin

/-- RESET_END (R144): recovery begins with PFW_N high, and is abandoned before its first read with PFW_N low. -/
def execResetEnd (s : State) : Answer :=
  s.live fun s =>
    s.ifArises s.inReset <|
      let s := { s.setResetN true with inReset := false }
      .next <| (if s.pins.pfwN then s.beginRecovery else s.abandonRecovery).settle false

/-- POWER_LOSS (R64): the operation in flight is cut, a drain in progress ends unfinished, and the part has no supply. -/
def execPowerLoss (s : State) : Answer :=
  s.live fun s =>
    let s := s.cutArray.withCtrl fun c => { c with drain := .noDrain }
    .next { s with powered := false }

end Sys2Proof.Machine
end

