-- ==== Sys2Proof/Machine/Dispatch.lean ====
section
/-! DEFINITION. The meaning of every command, one arm for each constructor of Instr. -/

namespace Sys2Proof.Machine

/-- The effect of a command on everything but the queue of waiting commands. -/
def exec (i : Instr) (s : State) : Host.Outcome State Fault Refusal :=
  match i with
  | .characterDelivered line data parityBit stopBit => Sys2Proof.Machine.execCharacterDelivered line data parityBit stopBit s
  | .lineReturnsHigh line => Sys2Proof.Machine.execLineReturnsHigh line s
  | .breakRecognised line => Sys2Proof.Machine.execBreakRecognised line s
  | .idleStep line => Sys2Proof.Machine.execIdleStep line s
  | .lineSettled line => Sys2Proof.Machine.execLineSettled line s
  | .stampTick => Sys2Proof.Machine.execStampTick s
  | .flushAgeReached => Sys2Proof.Machine.execFlushAgeReached s
  | .admission => Sys2Proof.Machine.execAdmission s
  | .headProgramEnd o => Sys2Proof.Machine.execHeadProgramEnd o s
  | .bodyProgramEnd o => Sys2Proof.Machine.execBodyProgramEnd o s
  | .commitFieldEnd o => Sys2Proof.Machine.execCommitFieldEnd o s
  | .eraseSuspendEffect => Sys2Proof.Machine.execEraseSuspendEffect s
  | .eraseStopEffect => Sys2Proof.Machine.execEraseStopEffect s
  | .reclaimEraseEnd o => Sys2Proof.Machine.execReclaimEraseEnd o s
  | .retireMarkEnd o => Sys2Proof.Machine.execRetireMarkEnd o s
  | .formatEraseEnd o => Sys2Proof.Machine.execFormatEraseEnd o s
  | .setupEraseEnd o => Sys2Proof.Machine.execSetupEraseEnd o s
  | .setupBodyEnd o => Sys2Proof.Machine.execSetupBodyEnd o s
  | .setupFieldEnd o => Sys2Proof.Machine.execSetupFieldEnd o s
  | .cursorReadEnd => Sys2Proof.Machine.execCursorReadEnd s
  | .seekReadEnd => Sys2Proof.Machine.execSeekReadEnd s
  | .recoveryReadEnd => Sys2Proof.Machine.execRecoveryReadEnd s
  | .tokenChoice => Sys2Proof.Machine.execTokenChoice s
  | .tokenEnd => Sys2Proof.Machine.execTokenEnd s
  | .csNFall => Sys2Proof.Machine.execCsNFall s
  | .csNRise => Sys2Proof.Machine.execCsNRise s
  | .unknownCommand byte => Sys2Proof.Machine.execUnknownCommand byte s
  | .readStatus => Sys2Proof.Machine.execReadStatus s
  | .readIdentity => Sys2Proof.Machine.execReadIdentity s
  | .readJournalSummary => Sys2Proof.Machine.execReadJournalSummary s
  | .readLineState last => Sys2Proof.Machine.execReadLineState last s
  | .readDirectoryEntry last => Sys2Proof.Machine.execReadDirectoryEntry last s
  | .writeLineSetup last => Sys2Proof.Machine.execWriteLineSetup last s
  | .writeJournalSetup last => Sys2Proof.Machine.execWriteJournalSetup last s
  | .storeSetup => Sys2Proof.Machine.execStoreSetup s
  | .run => Sys2Proof.Machine.execRun s
  | .stop => Sys2Proof.Machine.execStop s
  | .flush => Sys2Proof.Machine.execFlush s
  | .appendNote last => Sys2Proof.Machine.execAppendNote last s
  | .setRetainFloor last => Sys2Proof.Machine.execSetRetainFloor last s
  | .seek last => Sys2Proof.Machine.execSeek last s
  | .readRecords => Sys2Proof.Machine.execReadRecords s
  | .readEvents => Sys2Proof.Machine.execReadEvents s
  | .clearEvents last => Sys2Proof.Machine.execClearEvents last s
  | .writeEventEnables last => Sys2Proof.Machine.execWriteEventEnables last s
  | .format => Sys2Proof.Machine.execFormat s
  | .resetDevice => Sys2Proof.Machine.execResetDevice s
  | .pfwNFall => Sys2Proof.Machine.execPfwNFall s
  | .pfwNRise => Sys2Proof.Machine.execPfwNRise s
  | .powerOnReset => Sys2Proof.Machine.execPowerOnReset s
  | .resetNFall => Sys2Proof.Machine.execResetNFall s
  | .resetEnd => Sys2Proof.Machine.execResetEnd s
  | .startEdge line confirmed => Sys2Proof.Machine.execStartEdge line confirmed s
  | .argumentByteReceived byte => Sys2Proof.Machine.execArgumentByteReceived byte s
  | .powerLoss => Sys2Proof.Machine.execPowerLoss s

end Sys2Proof.Machine
end

