-- ==== Sys2Proof/Safety.lean ====
section
/-! DEFINITION. The terms the statements use: safe states (the array's memory in its canonical form, fields within the bounds
of section 1.7 and the rules), frames, and the places where a host command arrives. -/

namespace Sys2Proof.Machine

/-- The array's memory is in its canonical form. -/
def State.memWf (s : State) : Prop := Memory.wf s.array.mem = true

/-- A line port keeps the bounds of its FIFO, its queue and its lost count (R12, R14, R15). -/
def LinePort.bounded (p : LinePort) : Prop :=
  p.fifo.length ≤ Config.fifoSize ∧ p.queue.length ≤ Config.queueSize ∧ p.lost ≤ Config.lostMax

/-- Every line port keeps its bounds. -/
def State.linesBounded (s : State) : Prop := ∀ i : LineIx, s.lines[i].bounded

/-- The stamp counter stands within its 48 bits, and STAMP_SATURATED is set when it stands at the last value (R26). -/
def State.stampWf (s : State) : Prop :=
  s.time.counter ≤ Config.stampMax ∧ (s.time.counter = Config.stampMax → s.time.saturated = true)

/-! ### Frames -/

/-- `t` differs from `s` in the journal's own blocks at most: the admission unit, the arbiter (not the array's contents), the
commit path, the directory, the reclaim engine, the cursor engine, the controller, the setup store, the events and the count
of free values. -/
structure Calm (s t : State) : Prop where
  pending : t.pending = s.pending
  pins    : t.pins = s.pins
  mem     : t.array.mem = s.array.mem
  time    : t.time = s.time
  lines   : t.lines = s.lines
  setup   : t.setup = s.setup
  port    : t.port = s.port
  recov   : t.recov = s.recov
  powered : t.powered = s.powered
  inReset : t.inReset = s.inReset
  loaded  : t.setupLoaded = s.setupLoaded

/-- `t` is `s` after the blocks have taken up their work at the end of a happening: a reclaim may have started (one DIRTY or
CLOSED sector entered ERASING, and the cursor may have been overtaken, R93 to R95), the cursor engine may have made a request
(R108, R113), and the arbiter may have granted, suspended or queued (R59 to R63). Everything else is as it was. -/
structure Settled (s t : State) : Prop extends Calm s t where
  adm     : t.adm = s.adm
  commit  : t.commit = s.commit
  ctrl    : t.ctrl = s.ctrl
  store   : t.store = s.store
  enables : t.events.enables = s.events.enables
  flags   : t.events.flags = s.events.flags ∨ t.events.flags = s.events.flags ||| Event.cursorLost.mask
  dir     : ∀ j : JSector, t.dir[j] = s.dir[j]
              ∨ (s.dir[j].state = .dirty ∨ s.dir[j].state = .closed) ∧ t.dir[j] = s.dir[j].erasing
  one     : ∀ i j : JSector, t.dir[i] ≠ s.dir[i] → t.dir[j] ≠ s.dir[j] → i = j

/-- Format is about to choose its next sector (R137): the one case in which the end of a happening changes more than `Settled`
says. No happening leaves a powered part so. While an erase exists, or a request of Format's own is waiting
or in flight (R58), it waits. -/
def State.choosing (s : State) : Prop :=
  s.ctrl.format = .choosing ∧ s.ctrl.state = .formatting ∧ s.array.erase = none
    ∧ ∀ r ∈ s.array.op.toList ++ s.array.waiting ++ s.array.made, r.requester ≠ .format

/-- The request has been made and is granted or still waiting. -/
def State.hasRequest (r : Request) (s : State) : Prop :=
  s.array.op = some r ∨ r ∈ s.array.waiting
    ∨ r.kind = .erase ∧ ∃ e, s.array.erase = some e ∧ e.sector = r.sector ∧ e.requester = r.requester

/-! ### Where a command arrives (R187, R188) -/

/-- The part has its supply, and the port is about to receive the command byte of a transaction. -/
def State.atCommand (s : State) : Prop := s.powered = true ∧ s.port.phase = .command

/-- The part has its supply, and the port has received this command byte and these argument bytes of an unfinished command. -/
def State.atArguments (s : State) (code : Byte) (args : List Byte) : Prop :=
  s.powered = true ∧ s.port.phase = .arguments ∧ s.port.command = code ∧ s.port.args = args

/-- The state after a command has been taken and answered in REPLY: the reply is the result byte and the data, the last result
is the result code, and nothing else has changed. -/
def State.replied (code : Byte) (args : List Byte) (r : Result) (data : List Byte) (s : State) : State :=
  { s with port := { s.port with phase := .reply, command := code, args := args, reply := r.code :: data, lastResult := r } }

/-- How the last byte of a command arrives. -/
inductive Arrival where
  /-- the command byte is the last byte -/
  | command
  /-- the last byte is this argument byte -/
  | argument (last : Byte)
  deriving DecidableEq, Repr

/-- That last byte, of a command with this command byte. -/
def Arrival.byte (code : Byte) : Arrival → Byte
  | .command => code
  | .argument b => b

/-- The argument bytes of the command that is whole with this byte, or none where its last byte cannot arrive in this phase. -/
def HostPort.complete (c : Command) (code : Byte) (a : Arrival) (p : HostPort) : Option (List Byte) :=
  match p.phase, a with
  | .command, .command => if owed c [] = 0 then some [] else none
  | .arguments, .argument b =>
    if p.command = code ∧ owed c p.args = 1 ∧ owed c (p.args ++ [b]) = 0 then some (p.args ++ [b]) else none
  | _, _ => none

/-- The host commands among the happenings: the command, its command byte, and how its last byte arrives. -/
def hostCommand : Instr → Option (Command × Byte × Arrival)
  | .readStatus => some (.readStatus, 0x01, .command)
  | .readIdentity => some (.readIdentity, 0x02, .command)
  | .readJournalSummary => some (.readJournalSummary, 0x03, .command)
  | .readLineState b => some (.readLineState, 0x04, .argument b)
  | .readDirectoryEntry b => some (.readDirectoryEntry, 0x05, .argument b)
  | .writeLineSetup b => some (.writeLineSetup, 0x10, .argument b)
  | .writeJournalSetup b => some (.writeJournalSetup, 0x11, .argument b)
  | .storeSetup => some (.storeSetup, 0x12, .command)
  | .run => some (.run, 0x20, .command)
  | .stop => some (.stop, 0x21, .command)
  | .flush => some (.flush, 0x22, .command)
  | .appendNote b => some (.appendNote, 0x23, .argument b)
  | .setRetainFloor b => some (.setRetainFloor, 0x24, .argument b)
  | .seek b => some (.seek, 0x30, .argument b)
  | .readRecords => some (.readRecords, 0x31, .command)
  | .readEvents => some (.readEvents, 0x40, .command)
  | .clearEvents b => some (.clearEvents, 0x41, .argument b.byte)
  | .writeEventEnables b => some (.writeEventEnables, 0x42, .argument b)
  | .format => some (.format, 0x50, .command)
  | .resetDevice => some (.resetDevice, 0x5A, .command)
  | .characterDelivered .. | .lineReturnsHigh .. | .breakRecognised .. | .idleStep .. | .lineSettled .. | .stampTick
  | .flushAgeReached | .admission | .headProgramEnd .. | .bodyProgramEnd .. | .commitFieldEnd .. | .eraseSuspendEffect
  | .eraseStopEffect | .reclaimEraseEnd .. | .retireMarkEnd .. | .formatEraseEnd .. | .setupEraseEnd .. | .setupBodyEnd ..
  | .setupFieldEnd .. | .cursorReadEnd | .seekReadEnd | .recoveryReadEnd | .tokenChoice | .tokenEnd | .csNFall | .csNRise
  | .unknownCommand .. | .pfwNFall | .pfwNRise | .powerOnReset | .resetNFall | .resetEnd | .startEdge ..
  | .argumentByteReceived .. | .powerLoss => none

/-- The byte that a happening brings on SDI, with the flags that are raised together with it (R195); none for a happening of
another kind. -/
def arrivingByte : Instr → Option (Byte × BitVec 11)
  | .argumentByteReceived b | .unknownCommand b => some (b, 0)
  | .clearEvents b => some (b.byte, b.together)
  | i => (hostCommand i).map fun (_, code, a) => (a.byte code, 0)

end Sys2Proof.Machine
end

