-- ==== Sys2Proof/Certificates/Slice0/Obligations.lean ====
section
/-! DEFINITION. The statements for the provers: what a step does, the host port, the lines, the journal, the array, and the
invariants that every step keeps. -/

open Sys2Proof Sys2Proof.Machine

/-! ### Steps and stops -/

/-- A step takes the command at the front of the queue and runs it with the rest waiting. The manual tells behaviour as
happenings, their order deciding the outcome (section 1.6, Time in the text); the one queue they wait in is the model's
choice (log entry 3). -/
def Obligations.StepRunsFrontCommand : Prop :=
  ∀ (c : Instr) (rest : List Instr) (s : State),
    step { s with pending := c :: rest } = exec c { s with pending := rest }

/-- With no command waiting the part idles. The model's choice (log entry 2). No command's effect touches the queue of
waiting commands, which is the model's own (log entry 3): the happenings are queued from outside (section 1.6). In a part
with supply every happening has a next state, and without supply there is no stop but the fault of log entry 4, the
model's choice: the manual says nothing of such a part. That a happening a state cannot bring about has a next state too
is log entry 5. -/
def Obligations.QueueAndSupply : Prop :=
  (∀ s : State, s.pending = [] → step s = .next s)
  ∧ (∀ (i : Instr) (s t : State), exec i s = .next t → t.pending = s.pending)
  ∧ (∀ (i : Instr) (s : State),
      (∃ t, exec i s = .next t) ∨ s.powered = false ∧ exec i s = .fault .unpowered)

/-- The end of a happening, Format not choosing a sector: the reclaim trigger is tested (R93), a seek takes step 1 where
it has no position and makes its read (R113), the cursor engine fetches (R108), and the arbiter works (R59). These rules
give no order among the four: that they come in this order is the model's deduction (log entry 20). It changes no more
than `Settled` says: at most one reclaim starts, on a DIRTY or CLOSED sector (R94, R95), and the cursor engine and the
arbiter work. -/
def Obligations.EndOfHappeningFrame : Prop :=
  ∀ (freed : Bool) (s : State), ¬ s.choosing →
    s.settle freed = State.arbitrate freed s.reclaimTest.seekLocate.seekRead.fetchStep ∧ Settled s (s.settle freed)

/-! ### The host port: status, replies and bytes (chapter 11) -/

/-- The status byte (R190): the state code in bits 7 to 4, IRQ pending, host operation busy, cursor ready (1 in
RECOVERING, R172; log entry 46), and bit 0 clear. The byte on SDO (R187, R189, R197): high impedance without a transaction
and in a reset, and, which is the model's choice (log entry 40), without supply; the status byte, then FFh for each
argument byte, then the reply and FFh after it, or in STREAM the result byte and the tokens. A raise sets its flag
whatever the enable, and no other flag and no enable changes (R194); IRQ_N is active exactly while some event's flag and
enable are both 1 (R196). The PACE outputs (R18, R24): active while the line's hysteresis is set, its queue is full or the
journal is not RUNNING; the pin is low in a reset and until recovery has loaded the working setup (log 47), and from then
on shows the condition by the line's polarity. -/
def Obligations.StatusAndOutputs : Prop :=
  (∀ s : State,
      s.statusByte.toNat / 16 = s.ctrl.state.code ∧ s.statusByte.getLsbD 3 = s.irqActive
        ∧ s.statusByte.getLsbD 2 = (s.ctrl.opKind != .noOp) ∧ s.statusByte.getLsbD 1 = (s.ctrl.state == .recovering || s.nextToken != .wait)
        ∧ s.statusByte.getLsbD 0 = false)
  ∧ (∀ s : State,
      (s.powered = false ∨ s.inReset = true ∨ s.port.phase = .idle → s.sdo = none)
      ∧ (s.powered = true → s.inReset = false →
          (s.port.phase = .command → s.sdo = some s.port.status)
          ∧ (s.port.phase = .arguments → s.sdo = some 0xFF)
          ∧ (∀ b l, s.port.phase = .reply ∨ s.port.phase = .stream → s.port.reply = b :: l → s.sdo = some b)
          ∧ (s.port.phase = .reply → s.port.reply = [] → s.sdo = some 0xFF)
          ∧ (s.port.phase = .stream → s.port.reply = [] → s.sdo = s.nextToken.bytes.head? ∧ s.sdo ≠ none)))
  ∧ ((∀ (e e' : Event) (s : State),
      ((s.raise e).flagSet e' = true ↔ e' = e ∨ s.flagSet e' = true) ∧ (s.raise e).events.enables = s.events.enables)
    ∧ ∀ s : State, s.irqActive = true ↔ ∃ e : Event, s.flagSet e = true ∧ s.events.enables.getLsbD e.bit = true)
  ∧ (∀ (s : State) (i : LineIx),
      (s.inReset = true ∨ s.setupLoaded = false → s.pacePin i = false)
      ∧ (s.inReset = false → s.setupLoaded = true → (s.pacePin i = true ↔
          ((s.lines[i].hysteresis = true ∨ s.lines[i].queue.length = 8 ∨ s.ctrl.state ≠ .running)
            ↔ s.setup.fields.line[i].polarity = .activeHigh))))

/-- The command bytes of R202, and how many bytes each command still owes after the argument bytes received, none to all
(R188): by its length, and for Append Note and Seek by their first argument byte. A length outside 1 to 240 and an
undefined kind leave no byte owed. -/
def Obligations.CommandTable : Prop :=
  [0x01, 0x02, 0x03, 0x04, 0x05, 0x10, 0x11, 0x12, 0x20, 0x21, 0x22, 0x23, 0x24, 0x30, 0x31, 0x40, 0x41, 0x42, 0x50, 0x5A].map
      commandOf
    = [.readStatus, .readIdentity, .readJournalSummary, .readLineState, .readDirectoryEntry, .writeLineSetup,
       .writeJournalSetup, .storeSetup, .run, .stop, .flush, .appendNote, .setRetainFloor, .seek, .readRecords, .readEvents,
       .clearEvents, .writeEventEnables, .format, .resetDevice].map some
  ∧ (List.range 256).countP (fun n => (commandOf (BitVec.ofNat 8 n)).isSome) = 20
  ∧ (∀ args : List Byte,
      [Command.readStatus, .readIdentity, .readJournalSummary, .readLineState, .readDirectoryEntry, .writeLineSetup,
        .writeJournalSetup, .storeSetup, .run, .stop, .flush, .setRetainFloor, .readRecords, .readEvents, .clearEvents,
        .writeEventEnables, .format, .resetDevice].map (fun c => owed c args)
      = [0, 0, 0, 1, 1, 17, 12, 0, 0, 0, 0, 5, 0, 0, 2, 2, 0, 0].map (fun n => n - args.length))
  ∧ owed .appendNote [] = 1 ∧ owed .seek [] = 1
  ∧ ∀ (b : Byte) (rest : List Byte),
      owed .appendNote (b :: rest) = (if b.toNat = 0 ∨ 240 < b.toNat then 0 else b.toNat - rest.length)
        ∧ owed .seek (b :: rest) = (if b = 2 then 4 - rest.length else if b = 3 then 6 - rest.length else 0)

/-- A fall of CS_N begins a transaction, with the status byte sampled and nothing else changed (R187, R190). A rise of
CS_N ends the transaction (R118, R187, R188): an unfinished command is discarded as INCOMPLETE, a RECORD in transfer is
kept when its seq is at or above the target, any other token in transfer leaves the store, a store with no token in
transfer stays as it is, and pending tokens stay. Without supply (log entry 4) and in a reset (R197) a change of CS_N
moves the pin and nothing else; a fall of a low or a rise of a high pin cannot come, and such a happening changes nothing
(log entry 5). -/
def Obligations.Transactions : Prop :=
  (∀ s : State, s.powered = true → s.inReset = false → s.pins.csN = true →
      exec .csNFall s = .next
        { s with
          pins := { s.pins with csN := false }
          port := { s.port with phase := .command, command := 0, args := [], reply := [],
                                status := (State.setCsN false s).statusByte } }
      ∧ (State.setCsN false s).statusByte = s.statusByte)
  ∧ (∀ s : State, s.powered = true → s.inReset = false → s.pins.csN = false →
      ∃ (x : TransmitStore) (u : State),
        u = (State.setCsN true s).endTransaction
        ∧ u = { s with
            pins := { s.pins with csN := true }
            port := { s.port with phase := .idle, reply := [],
                                  lastResult := if s.port.phase = .arguments then .incomplete else s.port.lastResult }
            cursor := { s.cursor with store := x } }
        ∧ (s.ctrl.resetAtRise = false → s.ctrl.hostResetPending = false → exec .csNRise s = .next (u.settle false))
        ∧ (s.port.phase ≠ .stream → x = s.cursor.store)
        ∧ (s.port.phase = .stream → ∀ n r, s.cursor.store = .transfer (.record n r) →
            x = if s.cursor.target ≤ n then .kept n r else .empty)
        ∧ ((∀ t, s.cursor.store ≠ .transfer t) → x = s.cursor.store)
        ∧ (s.port.phase = .stream → ∀ t, s.cursor.store = .transfer t → (∀ n r, t ≠ .record n r) → x = .empty))
  ∧ (∀ s : State,
      (s.pins.csN = true → s.powered = false ∨ s.inReset = true →
        exec .csNFall s = .next { s with pins := { s.pins with csN := false } })
      ∧ (s.pins.csN = false → s.powered = false ∨ s.inReset = true →
        exec .csNRise s = .next { s with pins := { s.pins with csN := true } })
      ∧ (s.pins.csN = false → exec .csNFall s = .next s)
      ∧ (s.pins.csN = true → exec .csNRise s = .next s))

/-- A byte that is not a command's last byte (R188): the command byte of a command with arguments makes the phase
ARGUMENTS, and an argument byte after which bytes are owed is kept. A byte that names no command is answered UNKNOWN in
every journal state, RECOVERING included, and changes nothing else (R188). Bytes on SDI have no effect while CS_N is high,
and are ignored in REPLY and STREAM, where the byte sent leaves SDO (R187, R189). A byte has its one effect whichever row
of the table names it (log entry 5). -/
def Obligations.TransactionBytes : Prop :=
  (∀ (b : Byte) (s : State) (c : Command),
      (s.atCommand → commandOf b = some c → owed c [] ≠ 0 →
        exec (.argumentByteReceived b) s
          = .next { s with port := { s.port with phase := .arguments, command := b, args := [] } })
      ∧ ∀ (code : Byte) (args : List Byte), s.atArguments code args → commandOf code = some c → owed c (args ++ [b]) ≠ 0 →
        exec (.argumentByteReceived b) s = .next { s with port := { s.port with args := args ++ [b] } })
  ∧ (∀ (b : Byte) (s : State), s.atCommand → commandOf b = none →
      exec (.unknownCommand b) s = .next (s.replied b [] .unknown []))
  ∧ (∀ (i : Instr) (s : State), s.powered = true →
      (s.port.phase = .idle ∨ s.port.phase = .reply ∨ s.port.phase = .stream) →
      ((hostCommand i).isSome = true ∨ (∃ b, i = .argumentByteReceived b) ∨ ∃ b, i = .unknownCommand b) →
      exec i s = .next
        (if s.port.phase = .idle then s else { s with port := { s.port with reply := s.port.reply.tail } }))
  ∧ (∀ (i j : Instr) (x : Byte × BitVec 11) (s : State), arrivingByte i = some x → arrivingByte j = some x → exec i s = exec j s)

/-- While the journal is RECOVERING every command but Read Status and Read Identity is answered NOT_READY and changes
nothing (R188). -/
def Obligations.NotReadyWhileRecovering : Prop :=
  ∀ (i : Instr) (c : Command) (code : Byte) (a : Arrival) (args : List Byte) (s : State),
    hostCommand i = some (c, code, a) → c ≠ .readStatus → c ≠ .readIdentity →
    s.powered = true → s.ctrl.state = .recovering → s.port.complete c code a = some args →
    exec i s = .next (s.replied code args .notReady [])

/-- Read Status gives the status byte and the last result as they stand, and changes nothing, the last result included;
Read Identity gives the constants of the part (R192). Both in every journal state. -/
def Obligations.ReadStatusAndIdentity : Prop :=
  ∀ s : State, s.atCommand →
    exec .readStatus s = .next
      { s with port := { s.port with phase := .reply, command := 0x01, args := [],
                                     reply := [0x00, s.statusByte, s.port.lastResult.code] } }
    ∧ exec .readIdentity s = .next
        (s.replied 0x02 [] .ok [0x48, 0x04, 0x10, 0x01, 0x01, 126, 15, 0x02, 0x00])

/-- Read Journal Summary: 33 bytes, field by field (R193, R104, R202), and nothing changes. The oldest retained seq and
the resume point (R88): the first seq of the first ring sector that holds readable records, and where none does 0 and the
newest seq plus 1. -/
def Obligations.ReadJournalSummaryReply : Prop :=
  (∀ s : State, s.atCommand → s.ctrl.state ≠ .recovering →
      ∃ d : List Byte,
        exec .readJournalSummary s = .next (s.replied 0x03 [] .ok d) ∧ d.length = 33
        ∧ (byteAt d 0).toNat = 16 * s.ctrl.state.code
        ∧ (byteAt d 1).getLsbD 0 = s.ctrl.stopRequested ∧ (byteAt d 1).getLsbD 1 = s.time.saturated
        ∧ (byteAt d 1).getLsbD 2 = s.adm.exhausted ∧ (byteAt d 1).toNat < 8
        ∧ (byteAt d 2).toNat = s.ctrl.opKind.code ∧ (byteAt d 3).toNat = s.ctrl.opOutcome.code
        ∧ fieldAt d 4 4 = s.dir.oldestRetained % 2 ^ 32 ∧ fieldAt d 8 4 = s.commit.newestSeq % 2 ^ 32
        ∧ fieldAt d 12 4 = s.adm.nextSeq % 2 ^ 32 ∧ fieldAt d 16 6 = s.time.counter % 2 ^ 48
        ∧ (byteAt d 22).toNat = s.dir.countOf .free ∧ (byteAt d 23).toNat = s.dir.countOf .opened
        ∧ (byteAt d 24).toNat = s.dir.countOf .closed ∧ (byteAt d 25).toNat = s.dir.countOf .erasing
        ∧ (byteAt d 26).toNat = s.dir.countOf .dirty ∧ (byteAt d 27).toNat = s.dir.countOf .retired
        ∧ (byteAt d 28).toNat = s.setup.fields.journal.floorMode.code
        ∧ fieldAt d 29 4 =
            (match s.setup.fields.journal.floorMode with
             | .noFloor => 0
             | .fixed => s.setup.fields.journal.fixedFloor % 2 ^ 32
             | .cursor => s.cursor.target % 2 ^ 32))
  ∧ (∀ s : State,
      ((∀ j ∈ s.dir.ring, s.dir[j].firstSeq = 0) → s.dir.oldestRetained = 0 ∧ s.resumePoint = s.commit.newestSeq + 1)
      ∧ ∀ (l r : List JSector) (j : JSector), s.dir.ring = l ++ j :: r → (∀ i ∈ l, s.dir[i].firstSeq = 0) →
          s.dir[j].firstSeq ≠ 0 → s.dir.oldestRetained = s.dir[j].firstSeq ∧ s.resumePoint = s.dir[j].firstSeq)

/-- Read Line State (R23): the five values as they stand at the taking; reading changes none; and the lost count shown is
the one the line's next LINE record carries. A line number above 3 is refused with BAD_ARG. -/
def Obligations.ReadLineStateReply : Prop :=
  ∀ (s : State) (b : Byte), s.atArguments 0x04 [] → s.ctrl.state ≠ .recovering → s.linesBounded →
    (4 ≤ b.toNat → exec (.readLineState b) s = .next (s.replied 0x04 [b] .badArg []))
    ∧ ∀ i : LineIx, b.toNat = i.val →
      ∃ d : List Byte,
        exec (.readLineState b) s = .next (s.replied 0x04 [b] .ok d) ∧ d.length = 6
        ∧ (byteAt d 0).toNat = s.setup.fields.line[i].enable.toNat ∧ fieldAt d 1 2 = s.lines[i].fifo.length
        ∧ (byteAt d 3).toNat = s.lines[i].queue.length
        ∧ (byteAt d 4).toNat
            = (s.lines[i].hysteresis || decide (s.lines[i].queue.length = 8) || s.ctrl.state != .running).toNat
        ∧ (byteAt d 5).toNat = s.lines[i].lost
        ∧ ∀ x : Descriptor, (s.draft (.line i x)).lost = s.lines[i].lost

/-- Read Directory Entry (R103): the entry of the sector as it stands; an index above 125 is refused with BAD_ARG, and
everything with NOT_READY while RECOVERING; reading changes nothing. -/
def Obligations.ReadDirectoryEntryReply : Prop :=
  ∀ (s : State) (b : Byte), s.atArguments 0x05 [] →
    (s.ctrl.state = .recovering → exec (.readDirectoryEntry b) s = .next (s.replied 0x05 [b] .notReady []))
    ∧ (s.ctrl.state ≠ .recovering → 126 ≤ b.toNat →
      exec (.readDirectoryEntry b) s = .next (s.replied 0x05 [b] .badArg []))
    ∧ ∀ j : JSector, s.ctrl.state ≠ .recovering → b.toNat = j.val →
      exec (.readDirectoryEntry b) s = .next (s.replied 0x05 [b] .ok
        ([BitVec.ofNat 8 s.dir[j].state.code, BitVec.ofNat 8 (s.dir[j].retireMark.toNat + 2 * s.dir[j].failCount)]
          ++ beBytes 4 s.dir[j].epoch ++ beBytes 4 s.dir[j].firstSeq ++ beBytes 4 s.dir[j].lastSeq
          ++ beBytes 6 s.dir[j].firstStamp ++ beBytes 6 s.dir[j].lastStamp ++ [BitVec.ofNat 8 s.dir[j].pagesUsed]
          ++ beBytes 4 s.dir[j].eraseCount))

/-- The three event commands (R195): Read Events gives the flags and the enables and changes nothing; Clear Events clears
the flags whose mask bit is 1 and no other, but for one whose raise came together with it and was taken first (log entry
41); Write Event Enables replaces the enables as a whole. No argument value is refused. -/
def Obligations.EventCommands : Prop :=
  ∀ s : State, s.ctrl.state ≠ .recovering →
    (s.atCommand →
      exec .readEvents s = .next (s.replied 0x40 [] .ok
        (beBytes 2 s.events.flags.toNat ++ beBytes 2 s.events.enables.toNat)))
    ∧ (∀ (a b : Byte) (m : BitVec 11), s.atArguments 0x41 [a] →
        ∃ f : BitVec 11,
          exec (.clearEvents ⟨b, m⟩) s = .next (State.replied 0x41 [a, b] .ok [] { s with events := { s.events with flags := f } })
          ∧ ∀ k < 11, f.getLsbD k = (s.events.flags.getLsbD k && !((a ++ b).getLsbD k && !m.getLsbD k)))
    ∧ ∀ a b : Byte, s.atArguments 0x42 [a] →
        ∃ f : BitVec 11,
          exec (.writeEventEnables b) s
            = .next (State.replied 0x42 [a, b] .ok [] { s with events := { s.events with enables := f } })
          ∧ ∀ k < 11, f.getLsbD k = (a ++ b).getLsbD k

/-! ### Setup and journal commands (chapters 2, 5, 7 and 10) -/

/-- Append Note (R42): STATE outside RUNNING, before its length is looked at; BAD_ARG for a length outside 1 to 240; BUSY
with the slot full; otherwise the slot takes the payload, stamped with the counter. A refused note changes nothing. -/
def Obligations.AppendNoteRule : Prop :=
  ∀ (s : State) (b : Byte), s.ctrl.state ≠ .recovering →
    (∀ args, s.atArguments 0x23 args → owed .appendNote args = 1 → owed .appendNote (args ++ [b]) = 0 →
      s.ctrl.state ≠ .running → exec (.appendNote b) s = .next (s.replied 0x23 (args ++ [b]) .state []))
    ∧ (s.atArguments 0x23 [] → s.ctrl.state = .running → b.toNat = 0 ∨ 240 < b.toNat →
      exec (.appendNote b) s = .next (s.replied 0x23 [b] .badArg []))
    ∧ ∀ (len : Byte) (payload : List Byte), s.atArguments 0x23 (len :: payload) → s.ctrl.state = .running →
      len.toNat ≤ 240 → payload.length + 1 = len.toNat →
      exec (.appendNote b) s = .next
        (match s.adm.note with
         | some _ => s.replied 0x23 (len :: payload ++ [b]) .busy []
         | none => State.replied 0x23 (len :: payload ++ [b]) .ok []
            { s with adm := { s.adm with note := some { payload := payload ++ [b], stamp := s.time.counter } } })

/-- Set Retain Floor (R91): an undefined mode is refused with BAD_ARG; otherwise the mode changes, and the FIXED value
under FIXED alone. -/
def Obligations.SetRetainFloorRule : Prop :=
  ∀ (s : State) (mode b1 b2 b3 b4 : Byte), s.atArguments 0x24 [mode, b1, b2, b3] → s.ctrl.state ≠ .recovering →
    (2 < mode.toNat → exec (.setRetainFloor b4) s = .next (s.replied 0x24 [mode, b1, b2, b3, b4] .badArg []))
    ∧ ∀ m : FloorMode, mode.toNat = m.code →
      exec (.setRetainFloor b4) s = .next (State.replied 0x24 [mode, b1, b2, b3, b4] .ok [] (State.settle false
        { s with setup := { s.setup with fields := { s.setup.fields with journal :=
          { s.setup.fields.journal with
            floorMode := m
            fixedFloor := if m = .fixed then beNat [b1, b2, b3, b4] else s.setup.fields.journal.fixedFloor } } } }))

/-- The twelve bytes of a journal block (R179, R201): which of them carry which field, and exactly when the block is
refused, for an undefined code or a field out of range. Write Journal Setup (R179, R28, R37): BAD_ARG for an undefined
code or a field out of range, before the state is looked at; STATE for a change of k outside STOPPED; otherwise the fields
are replaced (the FIXED value under FIXED alone), a change of k restarts the prescaler and sets retime pending, and a new
flush age that the running clock stands at or past (see below), judged at the write, owes a close (log entries 10 and 39).
A changed flush age that is not 0 is passed (R37) certainly when a buffer with records fills whose clock has reached an
age as great, or stands a tick or more past it; certainly not when neither buffer fills or it holds none, or when the
clock stands a tick or more below it and it has reached no such age. In the tick between the model leaves it free (log
entry 10). The age reached is kept as the greatest (log entry 39). -/
def Obligations.WriteJournalSetupRule : Prop :=
  (∀ l : List Byte, l.length = 12 →
      (journalOfBlock l = none ↔
        1 < (byteAt l 0).toNat ∨ 2 < (byteAt l 1).toNat ∨ 7 < (byteAt l 6).toNat ∨ 60000 < fieldAt l 7 2 ∨ fieldAt l 9 2 = 0
          ∨ 1 < (byteAt l 11).toNat)
      ∧ ∀ j : JournalSetup, journalOfBlock l = some j →
          j.retention.code = (byteAt l 0).toNat ∧ j.floorMode.code = (byteAt l 1).toNat ∧ j.fixedFloor = fieldAt l 2 4
          ∧ j.k = (byteAt l 6).toNat ∧ j.flushAge = fieldAt l 7 2 ∧ j.threshold = fieldAt l 9 2
          ∧ (j.autostart = true ↔ byteAt l 11 = 1))
  ∧ (∀ (s : State) (args : List Byte) (b : Byte), s.atArguments 0x11 args → args.length = 11 → s.ctrl.state ≠ .recovering →
      (journalOfBlock (args ++ [b]) = none →
        exec (.writeJournalSetup b) s = .next (s.replied 0x11 (args ++ [b]) .badArg []))
      ∧ ∀ j : JournalSetup, journalOfBlock (args ++ [b]) = some j →
        (j.k ≠ s.setup.fields.journal.k → s.ctrl.state ≠ .stopped →
          exec (.writeJournalSetup b) s = .next (s.replied 0x11 (args ++ [b]) .state []))
        ∧ ∀ u : State,
          u = { s with
                setup := { s.setup with fields := { s.setup.fields with journal :=
                  { j with fixedFloor := if j.floorMode = .fixed then j.fixedFloor else s.setup.fields.journal.fixedFloor } } }
                time := if j.k = s.setup.fields.journal.k then s.time
                        else { s.time with prescaler := 0, retimePending := true } } →
          (j.k = s.setup.fields.journal.k ∨ s.ctrl.state = .stopped) →
          exec (.writeJournalSetup b) s = .next (State.replied 0x11 (args ++ [b]) .ok [] (State.settle false
            (if s.pastNewAge j.flushAge then
              if s.ctrl.state = .running then (u.markReached j.flushAge).closeFilling else u.markReached j.flushAge
             else u))))
  ∧ (∀ (s : State) (age : Nat),
      (s.adm.filling = none ∨ age = 0 ∨ age = s.setup.fields.journal.flushAge → s.pastNewAge age = false)
      ∧ ∀ b : BufId, s.adm.filling = some b →
        s.markReached age = s.setBuf b { s.adm.buf b with reachedAge := max (s.adm.buf b).reachedAge age }
        ∧ ((s.adm.buf b).count = 0 → s.pastNewAge age = false)
        ∧ (age ≠ 0 → age ≠ s.setup.fields.journal.flushAge → (s.adm.buf b).count ≠ 0 →
          (age ≤ (s.adm.buf b).reachedAge ∨ age * 1000 + 2 ^ s.setup.fields.journal.k ≤ (s.adm.buf b).clock →
            s.pastNewAge age = true)
          ∧ ((s.adm.buf b).reachedAge < age → (s.adm.buf b).clock + 2 ^ s.setup.fields.journal.k ≤ age * 1000 →
            s.pastNewAge age = false)))

/-- The sixteen bytes of a line block (R19, R201): which of them carry which field, and exactly when the block is refused.
Bits 7 to 1 of the enable byte are not looked at (R203). Write Line Setup (R19, R17, R20, R21): BAD_ARG for a line above
3, an undefined code or a field out of range; STATE for enable 1 on an enabled line (one whose receiver is not off);
otherwise the line's fields are replaced, the line is disabled (an open piece is dropped) or enabled (its receiver starts
unsettled), and the hysteresis is judged by the new marks, the drop included (log entry 35). -/
def Obligations.WriteLineSetupRule : Prop :=
  (∀ l : List Byte, l.length = 16 →
      (lineOfBlock l = none ↔
        fieldAt l 1 2 = 0 ∨ 4095 < fieldAt l 1 2 ∨ 2 < (byteAt l 3).toNat ∨ 2 < (byteAt l 4).toNat ∨ (byteAt l 5).toNat < 2
          ∨ (byteAt l 8).toNat = 0 ∨ 240 < (byteAt l 8).toNat ∨ (byteAt l 9).toNat = 0 ∨ 240 < (byteAt l 9).toNat
          ∨ 1 < (byteAt l 10).toNat ∨ fieldAt l 11 2 = 0 ∨ 511 < fieldAt l 11 2 ∨ fieldAt l 11 2 ≤ fieldAt l 13 2
          ∨ 1 < (byteAt l 15).toNat)
      ∧ ∀ u : LineSetup, lineOfBlock l = some u →
          u.enable = (byteAt l 0).getLsbD 0 ∧ u.divisor = fieldAt l 1 2 ∧ u.parity.code = (byteAt l 3).toNat
          ∧ u.mode.code = (byteAt l 4).toNat ∧ u.g = (byteAt l 5).toNat ∧ u.e1 = byteAt l 6 ∧ u.e2 = byteAt l 7
          ∧ u.n = (byteAt l 8).toNat ∧ u.maxlen = (byteAt l 9).toNat ∧ u.policy.code = (byteAt l 10).toNat
          ∧ u.high = fieldAt l 11 2 ∧ u.low = fieldAt l 13 2 ∧ u.polarity.code = (byteAt l 15).toNat)
  ∧ (∀ (s : State) (n : Byte) (block : List Byte) (b : Byte),
      s.atArguments 0x10 (n :: block) → block.length = 15 → s.ctrl.state ≠ .recovering →
      (4 ≤ n.toNat ∨ lineOfBlock (block ++ [b]) = none →
        exec (.writeLineSetup b) s = .next (s.replied 0x10 (n :: block ++ [b]) .badArg []))
      ∧ ∀ (i : LineIx) (u : LineSetup), n.toNat = i.val → lineOfBlock (block ++ [b]) = some u →
        (u.enable = true → s.lines[i].receiver ≠ .off →
          exec (.writeLineSetup b) s = .next (s.replied 0x10 (n :: block ++ [b]) .state []))
        ∧ ((u.enable = true → s.lines[i].receiver = .off) →
          ∀ (on opens drops : Bool) (p q : LinePort),
            on = decide (s.lines[i].receiver ≠ .off) →
            opens = (u.enable && !decide (s.ctrl.state = .drained ∧ s.ctrl.saved = some .recovering)) →
            drops = (on && decide (s.lines[i].framer = .opened)) →
            p = { s.lines[i] with
                  receiver := if opens then .unsettled else .off
                  idle := if on ∨ opens then none else s.lines[i].idle
                  framer := if on then .waiting else s.lines[i].framer
                  fifo := if drops then s.lines[i].fifo.take s.lines[i].queuedBytes else s.lines[i].fifo
                  lost := if drops then min (s.lines[i].lost + 1) 255 else s.lines[i].lost
                  piece := if drops then Piece.empty else s.lines[i].piece } →
            q = { p with hysteresis := if u.high < p.fifo.length then true else if p.fifo.length ≤ u.low then false
                                       else s.lines[i].hysteresis } →
            exec (.writeLineSetup b) s = .next (State.replied 0x10 (n :: block ++ [b]) .ok []
              { s with
                setup := { s.setup with fields := { s.setup.fields with line := s.setup.fields.line.set i u } }
                lines := s.lines.set i q
                events := { s.events with flags := if drops then s.events.flags ||| (Event.lineFault i).mask
                                                   else s.events.flags } })))

/-- Store Setup (R181, R182): BUSY while a host operation runs, STATE in DRAINING and DRAINED; otherwise the operation
starts: with FFFFFFFFh issued it ends FAILED with SETUP_FAULT and OP_DONE; with an earlier program or erase of the store
in flight or in existence the seek waits; else the next page's body is programmed, or the other sector is erased. -/
def Obligations.StoreSetupRule : Prop :=
  ∀ s : State, s.atCommand → s.ctrl.state ≠ .recovering →
    (s.ctrl.opKind ≠ .noOp → exec .storeSetup s = .next (s.replied 0x12 [] .busy []))
    ∧ (s.ctrl.opKind = .noOp → (s.ctrl.state = .draining ∨ s.ctrl.state = .drained) →
        exec .storeSetup s = .next (s.replied 0x12 [] .state []))
    ∧ (s.ctrl.opKind = .noOp → s.ctrl.state ≠ .draining → s.ctrl.state ≠ .drained →
        ∀ (ctrl : Controller) (g : Nat) (outstanding : Prop) [Decidable outstanding],
          ctrl = { s.ctrl with opKind := .storeSetup, opOutcome := .noOutcome } → g = s.store.issued + 1 →
          (outstanding ↔ (∃ r, s.array.op = some r ∧ r.requester = .setup) ∨ ∃ e, s.array.erase = some e ∧ e.requester = .setup) →
          exec .storeSetup s = .next (State.replied 0x12 [] .ok [] (State.settle false
            (if Config.max32 ≤ s.store.issued then
              { s with ctrl := { ctrl with opKind := .noOp, opOutcome := .failed }
                       store := { s.store with switched := false, phase := .idle, copy := none, seekOwed := false }
                       events := { s.events with
                         flags := s.events.flags ||| Event.setupFault.mask ||| Event.opDone.mask } }
             else if outstanding then
              { s with ctrl := ctrl
                       store := { s.store with switched := false, issued := g, copy := some (s.setup.fields, g),
                                               seekOwed := true } }
             else if s.store.nextPage ≤ 15 then
              State.request (setupRequest .setupBody s.store.current s.store.nextPage (setupBody s.setup.fields g) g)
                { s with ctrl := ctrl
                         store := { s.store with switched := false, issued := g, copy := some (s.setup.fields, g),
                                                 phase := .body, seekOwed := false } }
             else
              State.request
                (setupRequest .erase
                  (match s.store.location with | some (loc, _) => loc.other | none => s.store.current.other) 0 [] g)
                { s with ctrl := ctrl
                         store := { s.store with switched := true, issued := g, copy := some (s.setup.fields, g),
                                                 phase := .erase, seekOwed := false } }))))

/-- Run (R128): it ends a stop in STOPPED and STOPPING, is answered OK without effect in RUNNING, clears stop-requested in
FULL and leaves FULL when neither condition keeps it there; STATE in FORMATTING, DRAINING, DRAINED and FAILED. A change
into RUNNING (R28, R37, R126): STATE is raised, with retime pending and the system slot empty a RETIME START is placed,
and with a close owed by the flush age the filling buffer is closed. The system stamp (R38): the least of the stamp
counter, the close stamp of each queue head, and the stamp of a note in its slot. -/
def Obligations.RunRule : Prop :=
  (∀ s u : State, s.atCommand → u = { s with ctrl := { s.ctrl with stopRequested := false } } →
      exec .run s = .next
        (match s.ctrl.state with
         | .recovering => s.replied 0x20 [] .notReady []
         | .formatting | .draining | .drained | .failed => s.replied 0x20 [] .state []
         | .running => s.replied 0x20 [] .ok []
         | .stopped | .stopping => State.replied 0x20 [] .ok [] (s.enterRunning.settle false)
         | .full =>
           State.replied 0x20 [] .ok []
             ((if s.ctrl.spaceWait || s.adm.exhausted then u else u.enterRunning).settle false)))
  ∧ (∀ s u : State, s.ctrl.state ≠ .running →
      u = { s with
            ctrl := { s.ctrl with state := .running }
            events := { s.events with flags := s.events.flags ||| Event.state.mask }
            adm := if s.time.retimePending = true ∧ s.adm.sys = none then
                     { s.adm with sys := some (.start
                       { cause := .retime, clean := false, k := s.setup.fields.journal.k, source := s.setup.source,
                         generation := s.setup.generation, discarded := 0, corrupt := 0, damaged := 0,
                         retired := s.dir.countOf .retired } s.systemStamp) }
                   else s.adm } →
      s.enterRunning = if s.flushOwed then u.closeFilling else u)
  ∧ (∀ s : State,
      s.systemStamp ≤ s.time.counter ∧ (∀ (i : LineIx) (d : Descriptor), s.lines[i].queue.head? = some d → s.systemStamp ≤ d.close)
      ∧ (∀ n, s.adm.note = some n → s.systemStamp ≤ n.stamp)
      ∧ (s.systemStamp = s.time.counter ∨ (∃ (i : LineIx) (d : Descriptor), s.lines[i].queue.head? = some d ∧ s.systemStamp = d.close)
        ∨ ∃ n, s.adm.note = some n ∧ s.systemStamp = n.stamp))

/-- Stop (R127): in RUNNING the state becomes STOPPING while records are staged and STOPPED otherwise, and a filling
buffer holding records is closed after the change of state (log entry 21); in STOPPING and STOPPED nothing changes; in
FULL stop-requested is set; STATE elsewhere. Flush (R129): OK in RUNNING and STOPPING, where the filling buffer is closed
if it holds records; STATE elsewhere. Records are staged (R41) while a buffer is COMMITTING or CLOSED, or FILLING with
records. -/
def Obligations.StopAndFlushRules : Prop :=
  (∀ s : State, s.atCommand →
      exec .stop s = .next
        (match s.ctrl.state with
         | .recovering => s.replied 0x21 [] .notReady []
         | .formatting | .draining | .drained | .failed => s.replied 0x21 [] .state []
         | .stopping | .stopped => s.replied 0x21 [] .ok []
         | .full => State.replied 0x21 [] .ok [] { s with ctrl := { s.ctrl with stopRequested := true } }
         | .running =>
           State.replied 0x21 [] .ok [] (State.settle false (State.closeFilling
             { s with ctrl := { s.ctrl with state := if s.staged then .stopping else .stopped }
                      events := { s.events with flags := s.events.flags ||| Event.state.mask } }))))
  ∧ (∀ s : State, s.atCommand → s.ctrl.state ≠ .recovering →
      exec .flush s = .next
        (if s.ctrl.state = .running ∨ s.ctrl.state = .stopping then
          State.replied 0x22 [] .ok [] (s.closeFilling.settle false)
         else s.replied 0x22 [] .state []))
  ∧ (∀ s : State, s.staged = true ↔ ∃ b : BufId, (s.adm.buf b).role = .committing ∨ (s.adm.buf b).role = .closed
      ∨ (s.adm.buf b).role = .filling ∧ (s.adm.buf b).count ≠ 0)

/-- Seek (R111 to R113): every accepted Seek empties the read buffer, the store and the pending token, gives up the
engine's reads and sets the target (for BY_STAMP, until the search ends, the resume point); an undefined kind is refused
and changes nothing. -/
def Obligations.SeekRule : Prop :=
  ∀ (s : State) (b : Byte), s.ctrl.state ≠ .recovering →
    (s.atArguments 0x30 [] → 3 < b.toNat → exec (.seek b) s = .next (s.replied 0x30 [b] .badArg []))
    ∧ (s.atArguments 0x30 [] → b = 0 →
        exec (.seek b) s = .next (State.replied 0x30 [b] .ok [] ((s.placeCursor s.resumePoint).settle false)))
    ∧ (s.atArguments 0x30 [] → b = 1 →
        exec (.seek b) s = .next (State.replied 0x30 [b] .ok []
          ((s.placeCursor (max s.resumePoint s.commit.newestSeq)).settle false)))
    ∧ (∀ b1 b2 b3 : Byte, s.atArguments 0x30 [2, b1, b2, b3] →
        exec (.seek b) s = .next (State.replied 0x30 [2, b1, b2, b3, b] .ok []
          ((s.placeCursor
            (if beNat [b1, b2, b3, b] < s.resumePoint then s.resumePoint
             else if s.commit.newestSeq < beNat [b1, b2, b3, b] then s.commit.newestSeq + 1
             else beNat [b1, b2, b3, b])).settle false)))
    ∧ (∀ b1 b2 b3 b4 b5 : Byte, s.atArguments 0x30 [3, b1, b2, b3, b4, b5] →
        ∃ u : State, u = s.placeCursor s.resumePoint
          ∧ exec (.seek b) s = .next (State.replied 0x30 [3, b1, b2, b3, b4, b5, b] .ok []
              ((u.seekChoose { stamp := beNat [b1, b2, b3, b4, b5, b], position := none, outstanding := false }
                s.dir.ring).settle false)))
    ∧ ∀ n : Nat, ∃ a : StorageArray,
        s.placeCursor n
          = { s with
              array := a
              cursor := { target := n, lastReturned := 0, buffer := .empty, faultSeen := false, pendingToken := .noToken,
                          seek := none, store := .empty, withheld := s.cursor.withheld } }
        ∧ a.mem = s.array.mem ∧ a.erase = s.array.erase
        ∧ a.waiting = s.array.waiting.filter (fun r => !r.requester.isCursor)
        ∧ ∀ r, s.array.op = some r →
            a.op = some (if r.requester.isCursor then { r with wanted := false } else r)

/-- Reset Device (R154): taken in every state but RECOVERING, it marks the reset that is to come: in DRAINED the reset
itself at the rise of CS_N, elsewhere a host reset pending. Nothing else changes at the taking. The rise of CS_N after a
Reset Device (R154): a working state begins the drain; in DRAINING the drain goes on; and a reset marked in DRAINED is
taken, with the reset cause HOST_RESET, in whatever state the journal then is (log entry 30). -/
def Obligations.ResetDeviceRule : Prop :=
  (∀ s : State, s.atCommand → s.ctrl.state ≠ .recovering →
      exec .resetDevice s = .next (State.replied 0x5A [] .ok []
        (if s.ctrl.state = .drained then { s with ctrl := { s.ctrl with resetAtRise := true } }
         else { s with ctrl := { s.ctrl with hostResetPending := true } })))
  ∧ (∀ s u : State, s.powered = true → s.inReset = false → s.pins.csN = false →
      u = (State.setCsN true s).endTransaction →
      (s.ctrl.resetAtRise = true → exec .csNRise s = .next ((u.takeReset .hostReset).settle false))
      ∧ (s.ctrl.resetAtRise = false → s.ctrl.hostResetPending = true →
          exec .csNRise s = .next (State.settle false
            (if s.ctrl.state ∈ [JState.running, .stopping, .stopped, .full, .formatting, .failed] then u.beginDrain else u))))

/-! ### Line capture (chapter 1) -/

/-- A character at its stop-bit sample (R1, R2, R3): PARITY by the count of ones, FRAMING for a low stop bit; with every
data and parity bit low and a low stop bit it is held. A high stop bit gives the idle measurement its origin. -/
def Obligations.CharacterAtStopBit : Prop :=
  ∀ (i : LineIx) (data : Byte) (parityBit stopBit mark : Bool) (s : State),
    s.powered = true → s.lines[i].receiver = .receiving →
    mark = (match s.setup.fields.line[i].parity with
            | .noParity => false
            | .even => decide ((((List.range 8).filter fun k => data.getLsbD k).length + parityBit.toNat) % 2 = 1)
            | .odd => decide ((((List.range 8).filter fun k => data.getLsbD k).length + parityBit.toNat) % 2 = 0)) →
    exec (.characterDelivered i data parityBit stopBit) s = .next
      (if stopBit then
        State.takeCharacter i data mark false
          { s with lines := s.lines.set i { s.lines[i] with receiver := .ready, idle := some 0 } }
       else if data = 0 ∧ (s.setup.fields.line[i].parity = .noParity ∨ parityBit = false) then
        { s with lines := s.lines.set i { s.lines[i] with receiver := .held mark, idle := none } }
       else
        State.takeCharacter i data mark true
          { s with lines := s.lines.set i { s.lines[i] with receiver := .lowStop, idle := none } })

/-- The framer takes a character (R4, R6, R7, R10, R11, R13): it joins or opens a piece and is offered to the FIFO; then
the end condition, and after it MAXLEN, may close the piece. In DISCARDING it is thrown away, and the end condition ends
the discard. -/
def Obligations.FramerTakesCharacter : Prop :=
  ∀ (i : LineIx) (data : Byte) (parity framing : Bool) (s : State) (u : LineSetup) (p : LinePort),
    u = s.setup.fields.line[i] → p = s.lines[i] →
    ∀ (armed ends : Bool) (n : Nat),
      armed = (p.pairArmed && p.framer != .waiting) → n = (if p.framer = .waiting then 0 else p.frameCount) + 1 →
      ends = (match u.mode with | .gap => false | .pair => armed && data == u.e2 | .count => decide (n = u.n)) →
      ∀ q : LinePort,
        q = { p with pairArmed := if u.mode = .pair ∧ ends = false then data == u.e1 else armed } →
        (p.framer = .discarding →
          s.takeCharacter i data parity framing
            = { s with
              lines := s.lines.set i
                { q with framer := if ends then .waiting else .discarding
                         frameCount := if u.mode = .count then n else p.frameCount } })
        ∧ ∀ (piece : Piece) (stored : Bool) (r : LinePort),
          p.framer ≠ .discarding →
          piece = (if p.framer = .opened then
                    { p.piece with count := p.piece.count + 1, parity := p.piece.parity || parity,
                                   framing := p.piece.framing || framing }
                   else { openStamp := s.time.counter, count := 1, parity := parity, framing := framing,
                          overrun := false }) →
          stored = (!piece.overrun && decide (p.fifo.length < 512)) →
          r = { q with framer := .opened, frameCount := n, piece := { piece with overrun := !stored },
                       fifo := if stored then p.fifo ++ [data] else p.fifo,
                       hysteresis := p.hysteresis || (stored && decide (u.high < p.fifo.length + 1)) } →
          ∀ v : State, v = { s with lines := s.lines.set i r } →
          s.takeCharacter i data parity framing =
            if ends then v.closePiece i RecFlags.empty .waiting
            else if u.maxlen ≤ piece.count then
              match u.policy with
              | .split => v.closePiece i { RecFlags.empty with cont := true } .continuing
              | .cut => v.closePiece i { RecFlags.empty with trunc := true } .discarding
            else v

/-- A piece closes (R9, R14, R15, R17): its descriptor joins the queue with the counter as close stamp and the span in
ticks, at most FFFFh, and 0 while the counter stands saturated; an overrun piece, and one that finds 8 queued, is dropped
whole. -/
def Obligations.ClosingPiece : Prop :=
  ∀ (i : LineIx) (cause : RecFlags) (next : FramerState) (s : State) (p : LinePort), p = s.lines[i] →
    (p.piece.overrun = false → p.queue.length < 8 →
      s.closePiece i cause next = { s with
      lines := s.lines.set i
        { p with
          framer := next
          piece := Piece.empty
          queue := p.queue ++ [
            { line := i, length := p.piece.count,
              flags := { cause with parity := p.piece.parity, framing := p.piece.framing },
              close := s.time.counter,
              span := if s.time.counter = 0xFFFFFFFFFFFF then 0 else min (s.time.counter - p.piece.openStamp) 0xFFFF }] } })
    ∧ (p.piece.overrun = true ∨ 8 ≤ p.queue.length →
      ∀ kept : List Byte, kept = p.fifo.take (p.queue.map (·.length)).sum →
      s.closePiece i cause next = { s with
        lines := s.lines.set i
          { p with framer := next, piece := Piece.empty, fifo := kept, lost := min (p.lost + 1) 255,
                   hysteresis := p.hysteresis && decide (s.setup.fields.line[i].low < kept.length) }
        events := { s.events with flags := s.events.flags ||| (Event.lineFault i).mask } })

/-- A recognised break (R2, R8): the held character is gone, and the open piece closes with BREAK, or a piece of length 0
whose open stamp is the counter does; the framer becomes WAITING. An idle step (R3, R5, R6, R7, R11): the measurement
counts up to 255; step G closes an open piece, with OPEN_END except in GAP mode, ends a CONTINUING or DISCARDING frame
without a record, and has no effect in WAITING. The other levels of a line (R1, R2, R3, R20): a confirmed start edge
begins a character and stops the measurement, a false one changes nothing; the return to high delivers a held character as
00h with FRAMING, ends a break, and sets the origin; settling starts the receiver, the measurement and the framer. -/
def Obligations.LineHappenings : Prop :=
  (∀ (i : LineIx) (s : State) (mark : Bool), s.powered = true → s.lines[i].receiver = .held mark →
      exec (.breakRecognised i) s = .next (State.closePiece i { RecFlags.empty with brk := true } .waiting
        { s with
        lines := s.lines.set i
          { s.lines[i] with
            receiver := .breaking
            idle := none
            piece := if s.lines[i].framer = .opened then s.lines[i].piece
                     else { openStamp := s.time.counter, count := 0, parity := false, framing := false, overrun := false } } }))
  ∧ (∀ (i : LineIx) (s : State) (n : Nat), s.powered = true → s.lines[i].receiver = .ready → s.lines[i].idle = some n →
      (255 ≤ n → exec (.idleStep i) s = .next s)
      ∧ (n < 255 → ∀ u : State, u = { s with lines := s.lines.set i { s.lines[i] with idle := some (n + 1) } } →
          exec (.idleStep i) s = .next
            (if n + 1 = s.setup.fields.line[i].g then
              match s.lines[i].framer with
              | .waiting => u
              | .continuing | .discarding =>
                { s with lines := s.lines.set i { s.lines[i] with idle := some (n + 1), framer := .waiting } }
              | .opened =>
                u.closePiece i { RecFlags.empty with openEnd := s.setup.fields.line[i].mode != .gap } .waiting
             else u)))
  ∧ (∀ (i : LineIx) (s : State) (p : LinePort), s.powered = true → p = s.lines[i] →
      (∀ confirmed, exec (.startEdge i confirmed) s = .next
        (if p.receiver = .ready ∧ confirmed = true then
          { s with lines := s.lines.set i { p with receiver := .receiving, idle := none } }
         else s))
      ∧ exec (.lineReturnsHigh i) s = .next
          (match p.receiver with
           | .held mark => State.takeCharacter i 0 mark true
               { s with lines := s.lines.set i { p with receiver := .ready, idle := some 0 } }
           | .breaking | .lowStop => { s with lines := s.lines.set i { p with receiver := .ready, idle := some 0 } }
           | .off | .unsettled | .ready | .receiving => s)
      ∧ (p.receiver = .unsettled → exec (.lineSettled i) s = .next { s with
        lines := s.lines.set i
          { p with receiver := .ready, idle := some 0, framer := .waiting, pairArmed := false, frameCount := 0 } }))

/-! ### Timebase, staging and admission (chapter 2) -/

/-- A stamp tick (R25, R26, R37, R54): the counter rises by 1 up to 2^48-1, whose reaching sets STAMP_SATURATED; a buffer
holding records and an erase that is not suspended run on by 2^k microseconds, and the prescaler stands at 0 (log entry
17). While held the counter does not count. -/
def Obligations.StampTickRule : Prop :=
  ∀ (s : State) (n : Nat) (run : Buffer → Buffer), s.powered = true →
    n = (if s.time.counter < 0xFFFFFFFFFFFF then s.time.counter + 1 else s.time.counter) →
    run = (fun b => { b with clock := b.clock + if b.count = 0 then 0 else 2 ^ s.setup.fields.journal.k }) →
    exec .stampTick s = .next (if s.time.held then s else
      { s with
        time := { s.time with counter := n, prescaler := 0,
                              saturated := s.time.saturated || decide (n = 0xFFFFFFFFFFFF) }
        adm := { s.adm with bufP := run s.adm.bufP, bufQ := run s.adm.bufQ }
        array := { s.array with erase := s.array.erase.map fun e =>
          { e with runMicros := e.runMicros + if e.cond = .suspended then 0 else 2 ^ s.setup.fields.journal.k } } })

/-- The flush age is reached (R37): in RUNNING the filling buffer is closed; in another state the close is owed at the
next change to RUNNING. The filling buffer is closed (R36, R37, R65): an empty one is not; the IDLE buffer becomes
FILLING; and with no buffer held the commit path takes the closed one, releases it at once in drain loss mode, keeps it in
HALTED, and else seeks a page. -/
def Obligations.FlushAndClosing : Prop :=
  (∀ (s u : State) (b : BufId) (age : Nat), s.powered = true → s.adm.filling = some b → (s.adm.buf b).count ≠ 0 →
      age = s.setup.fields.journal.flushAge → age ≠ 0 → (s.adm.buf b).reachedAge < age →
      u = s.setBuf b { s.adm.buf b with reachedAge := age } →
      exec .flushAgeReached s = .next ((if s.ctrl.state = .running then u.closeFilling else u).settle false)
        ∧ u.flushOwed = true)
  ∧ (∀ s : State,
      (s.adm.filling = none → s.closeFilling = s)
      ∧ ∀ b : BufId, s.adm.filling = some b →
        ((s.adm.buf b).count = 0 → s.closeFilling = s)
        ∧ ((s.adm.buf b).count ≠ 0 →
          ∃ u : State,
            (u.adm.buf b).role = (if s.commit.holding = none then .committing else .closed)
            ∧ (u.adm.buf b).data = (s.adm.buf b).data ∧ (u.adm.buf b).count = (s.adm.buf b).count
            ∧ (u.adm.buf b).firstSeq = (s.adm.buf b).firstSeq ∧ (u.adm.buf b).lastSeq = (s.adm.buf b).lastSeq
            ∧ u.adm.buf b.other = { s.adm.buf b.other with
                role := if (s.adm.buf b.other).role = .idle then .filling else (s.adm.buf b.other).role }
            ∧ u = { s with adm := { s.adm with bufP := u.adm.bufP, bufQ := u.adm.bufQ }
                           commit := { s.commit with holding := some (s.commit.holding.getD b) } }
            ∧ s.closeFilling =
                if s.commit.holding ≠ none ∨ s.commit.phase = .halted then u
                else if s.commit.drainLoss then u.releaseHeld
                else u.seekTarget))

/-- Who may be admitted (R29, R30, R31): the admissible candidates, and their order among equal stamps: the system slot,
lines L0 to L3, the note slot. An admission (R31, R35, R37): the first candidate of least stamp is admitted if it fits in
the filling buffer, 464 used bytes for any record but SHUTDOWN, and otherwise the buffer is closed; with nothing to admit
nothing changes. A report of the recovery START's close that stands is taken instead, and recovery ends (R170; log entry
45). -/
def Obligations.AdmissionRule : Prop :=
  (∀ s : State,
      (∀ c : Candidate, c ∈ s.admissible ↔ s.adm.exhausted = false ∧
        match c with
        | .sys r => s.adm.sys = some r ∧ s.ctrl.state ∈ [JState.recovering, .running, .stopping, .stopped, .formatting, .draining]
        | .line i d => s.ctrl.state = .running ∧ s.lines[i].queue.head? = some d
        | .note n => s.ctrl.state = .running ∧ s.adm.note = some n)
      ∧ (s.admissible.map fun c => match c with | .sys _ => 0 | .line i _ => i.val + 1 | .note _ => 5).Pairwise (· < ·))
  ∧ (∀ s : State, s.powered = true →
      (s.adm.reportOwed = true → exec .admission s = .next (s.recoveryEnd.settle false))
      ∧ (s.adm.reportOwed = false → s.adm.filling = none ∨ s.admissible = [] → exec .admission s = .next s)
      ∧ ∀ (b : BufId) (c : Candidate) (l r : List Candidate),
        s.adm.reportOwed = false → s.adm.filling = some b → s.admissible = l ++ c :: r → (∀ x ∈ l, c.stamp < x.stamp) → (∀ x ∈ r, c.stamp ≤ x.stamp) →
        exec .admission s = .next (State.settle false
          (if (s.adm.buf b).data.length + 16 + (s.draft c).payload.length
                ≤ (match c with | .sys (.shutdown _) => 488 | _ => 464) then s.admitCandidate b c
           else s.closeFilling)))

/-- The record of an admission (R32, R33, R34, R16, R198): it is numbered with the next seq, written behind the records
already there with its header fields and its payload, and its candidate, and no other, leaves its place; seq FFFFFFFFh
exhausts the numbers. The buffer's first record starts its flush-age clock (R37), a later one leaves it; a START clears
retime pending (R28). The other buffer, the other slots and everything else stay as they were. -/
def Obligations.AdmittedRecord : Prop :=
  ∀ (s : State) (b : BufId) (c : Candidate) (seq : Nat) (old new : Buffer),
    seq = s.adm.nextSeq → old = s.adm.buf b → new = (s.admitted b c).adm.buf b →
    (s.draft c).payload.length < 256 → seq < 2 ^ 32 → c.stamp < 2 ^ 48 →
    ∃ rec : List Byte,
    new = { old with data := old.data ++ rec, count := old.count + 1, lastSeq := seq,
                     firstSeq := if old.count = 0 then seq else old.firstSeq,
                     clock := if old.count = 0 then 0 else old.clock,
                     reachedAge := if old.count = 0 then 0 else old.reachedAge }
    ∧ s.admitted b c = { s with
        adm := { s.adm with
          nextSeq := if seq = 0xFFFFFFFF then 0 else seq + 1
          exhausted := s.adm.exhausted || decide (seq = 0xFFFFFFFF)
          note := match c with | .note _ => none | .line _ _ | .sys _ => s.adm.note
          sys := match c with | .sys _ => none | .line _ _ | .note _ => s.adm.sys
          bufP := match b with | .p => new | .q => s.adm.bufP
          bufQ := match b with | .p => s.adm.bufQ | .q => new }
        lines := (s.admitted b c).lines
        time := match c with
          | .sys (.start _ _) => { s.time with retimePending := false }
          | .sys (.shutdown _) | .line _ _ | .note _ => s.time }
    ∧ rec.drop 16 = (s.draft c).payload ∧ recSeq rec = seq ∧ recStamp rec = c.stamp
    ∧ (byteAt rec 3).toNat = (s.draft c).payload.length ∧ rec.length = 16 + (s.draft c).payload.length
    ∧ (match c with
       | .line i d =>
         (s.admitted b c).lines = s.lines.set i
           { s.lines[i] with
             queue := s.lines[i].queue.tail, fifo := s.lines[i].fifo.drop d.length, lost := 0,
             hysteresis := s.lines[i].hysteresis
               && decide (s.setup.fields.line[i].low < (s.lines[i].fifo.drop d.length).length) }
         ∧ (s.draft c).payload = s.lines[i].fifo.take d.length ∧ (byteAt rec 0).toNat = 16 + i.val
         ∧ byteAt rec 1 = d.flags.toByte ∧ byteAt rec 2 = BitVec.ofNat 8 s.lines[i].lost
         ∧ (d.span < 2 ^ 16 → fieldAt rec 14 2 = d.span)
       | .note n =>
         (s.draft c).payload = n.payload ∧ byteAt rec 0 = 0x20
         ∧ byteAt rec 1 = 0 ∧ byteAt rec 2 = 0 ∧ fieldAt rec 14 2 = 0 ∧ (s.admitted b c).lines = s.lines
       | .sys r =>
         (s.admitted b c).lines = s.lines
         ∧ byteAt rec 0 = (match r with | .start _ _ => 0x30 | .shutdown _ => 0x40)
         ∧ byteAt rec 1 = 0 ∧ byteAt rec 2 = 0 ∧ fieldAt rec 14 2 = 0
         ∧ (match r with
            | .start k _ =>
              rec.length = 40
              ∧ byteAt rec 16 = (match k.cause with
                  | .powerOn => 1 | .resetPin => 2 | .hostReset => 3 | .resume => 4 | .format => 5 | .retime => 6)
              ∧ byteAt rec 17 = BitVec.ofNat 8 (k.clean.toNat + 2 * (match k.source with | .defaults => 0 | .stored => 1))
              ∧ byteAt rec 18 = BitVec.ofNat 8 k.k ∧ byteAt rec 19 = 0
              ∧ fieldAt rec 20 4 = k.generation % 2 ^ 32 ∧ fieldAt rec 24 2 = k.discarded % 2 ^ 16
              ∧ fieldAt rec 26 2 = k.corrupt % 2 ^ 16 ∧ byteAt rec 28 = BitVec.ofNat 8 k.damaged
              ∧ byteAt rec 29 = BitVec.ofNat 8 k.retired ∧ rec.drop 30 = List.replicate 10 0
            | .shutdown _ =>
              rec.length = 24
              ∧ ∀ i : LineIx, byteAt rec (16 + 2 * i.val) = BitVec.ofNat 8 s.lines[i].queue.length
                  ∧ byteAt rec (17 + 2 * i.val) = BitVec.ofNat 8 s.lines[i].lost))

/-- What an admission causes beside its record (R34, R39, R133, R170): a START of cause POWER_ON, RESET_PIN, HOST_RESET or
FORMAT, a START outside RUNNING, and seq FFFFFFFFh close the buffer; the close of the recovery START's buffer leaves a
report for the next ADMISSION to take (log entry 45), and elsewhere exhausted numbers are reported. Exhausted numbers
reported (R133): RUNNING becomes FULL, STOPPING and STOPPED become FULL with stop-requested set, each raising STATE
(R126), and every other state stays as it is. -/
def Obligations.AdmissionCloses : Prop :=
  (∀ (s u : State) (b : BufId) (c : Candidate) (closes : Bool),
      closes = (match c with
        | .sys (.start k _) =>
          decide (k.cause ∈ [StartCause.powerOn, .resetPin, .hostReset, .format]) || s.ctrl.state != .running
        | _ => false) →
      u = (if closes || (s.admitted b c).adm.exhausted then (s.admitted b c).closeFilling else s.admitted b c) →
      s.admitCandidate b c =
        if s.ctrl.state = .recovering then
          (if closes then { u with adm := { u.adm with reportOwed := true } } else u)
        else if u.adm.exhausted then u.reportExhausted
        else u)
  ∧ (∀ s : State,
      s.reportExhausted = (match s.ctrl.state with
        | .running => { s with ctrl := { s.ctrl with state := .full }
                               events := { s.events with flags := s.events.flags ||| Event.state.mask } }
        | .stopping | .stopped =>
          { s with ctrl := { s.ctrl with state := .full, stopRequested := true }
                   events := { s.events with flags := s.events.flags ||| Event.state.mask } }
        | .recovering | .full | .formatting | .draining | .drained | .failed => s))

/-! ### The array and the commit path (chapters 3 and 4) -/

/-- A program's end changes only its range (R46, R48, R51): with OK every byte is the AND of old and new; with FAIL a bit
that was to be cleared holds 0 or 1 and every other bit its old value. The rest of the state is as it was, but for the
count of free values. An erase's end changes only its sector (R49, R52): with OK every byte of it is FFh; the rest of the
state is as it was, but for the count of free values. A later read of a page gives its 512 bytes as they stand (R47). -/
def Obligations.ArrayEffects : Prop :=
  (∀ (r : Request) (o : OpOutcome) (s : State) (old new : Nat → Byte),
      old = memByte s.array.mem → new = memByte (s.program r o).array.mem →
      s.program r o = { s with array := { s.array with mem := (s.program r o).array.mem }
                               freeIx := if o = .ok then s.freeIx else s.freeIx + 1 }
      ∧ (∀ a, a < r.addr ∨ r.addr + r.bytes.length ≤ a → new a = old a)
      ∧ r.addr = r.sector.val * 0x2000 + r.page.val * 0x200 + r.kind.offset
      ∧ r.addr + r.bytes.length ≤ r.sector.val * 0x2000 + r.page.val * 0x200 + 0x200
      ∧ ∀ (k : Nat) (h : k < r.bytes.length),
        (o = .ok → new (r.addr + k) = old (r.addr + k) &&& r.bytes[k])
        ∧ (o = .fail → ∀ b < 8,
            (old (r.addr + k)).getLsbD b = false ∨ r.bytes[k].getLsbD b = true →
            (new (r.addr + k)).getLsbD b = (old (r.addr + k)).getLsbD b))
  ∧ ((∀ (sec : Sector) (o : OpOutcome) (s : State),
      s.eraseSector sec o = { s with array := { s.array with mem := (s.eraseSector sec o).array.mem }
                                     freeIx := if o = .ok then s.freeIx else s.freeIx + 1 }
      ∧ ∀ a,
        (a < sec.val * 0x2000 ∨ sec.val * 0x2000 + 0x2000 ≤ a →
          memByte (s.eraseSector sec o).array.mem a = memByte s.array.mem a)
        ∧ (o = .ok → sec.val * 0x2000 ≤ a → a < sec.val * 0x2000 + 0x2000 →
          memByte (s.eraseSector sec o).array.mem a = 0xFF))
    ∧ ∀ (mem : List Host.Cell) (sec : Sector) (page : PageIx),
      (readPage mem sec page).length = 512
      ∧ ∀ k < 512, (readPage mem sec page)[k]? = some (memByte mem (sec.val * 0x2000 + page.val * 0x200 + k)))

/-- What the arbiter does at the end of a happening (R56, R59, R61, R62, R63): while the array is occupied every request
waits. While it is free, it grants one request that the journal state serves, that is no erase while one exists and does
not address an erase's sector; or it resumes a SUSPENDED erase; or there is nothing to grant and all wait. Among the
requests that waited the lower class goes first (the resume stands in class 3), and within a class the one made first; a
request made at this very happening is no less urgent than they (log entry 9). The array's bytes stay, those of a sector
whose erase is granted or runs too (log entry 43). A class 1 or class 2 request made while a reclaim or Format erase runs
suspends it (R55, R60); a setup erase, a SUSPENDED and a STOP_PENDING erase are left as they are; and while the array
stays occupied the requests wait in the order made. A request made at a happening joins those made at it (R59), and one
that a block other than the cursor engine makes is granted at the happening's end, or waits. -/
def Obligations.ArbiterRules : Prop :=
  (∀ (freed : Bool) (s : State) (a b : StorageArray) (can : Request → Prop) (rank : Request → Nat) (resumes : Prop)
      (cond : List Request → Requester → EraseCond),
      a = s.array → b = (s.arbitrate freed).array →
      (∀ r, can r ↔ (s.ctrl.state = .recovering → r.requester = .recovery) ∧ (s.ctrl.state = .draining → r.requester = .commit)
        ∧ s.ctrl.state ≠ .drained ∧ ∀ e, a.erase = some e → r.kind ≠ .erase ∧ r.sector ≠ e.sector) →
      rank = (fun r => match r.requester with
        | .recovery => 0 | .commit => 1 | .cursorFetch | .cursorSeek => 2 | .setup => 4 | .reclaim | .format => 5) →
      (resumes ↔ s.ctrl.state ∉ [JState.recovering, .draining, .drained] ∧ ∃ e, a.erase = some e ∧ e.cond = .suspended) →
      cond = (fun l q => if q ≠ .setup ∧ (∃ x ∈ l, rank x = 1 ∨ rank x = 2) then .suspendPending else .running) →
      s.arbitrate freed = { s with array := b, freeIx := s.freeIx + 1 } ∧ b.mem = a.mem ∧ b.made = []
      ∧ (a.free = false → b.op = a.op ∧ b.waiting = a.waiting ++ a.made)
      ∧ (a.free = true →
        (b.op = none ∧ b.erase = a.erase ∧ b.waiting = a.waiting ++ a.made ∧ ¬ resumes ∧ ∀ r ∈ a.waiting ++ a.made, ¬ can r)
        ∨ (∃ e, a.erase = some e ∧ resumes ∧ b.op = none ∧ b.waiting = a.waiting ++ a.made
            ∧ b.erase = some { e with cond := cond a.made e.requester } ∧ ∀ x ∈ a.waiting, can x → 3 < rank x)
        ∨ ∃ r, can r ∧ (resumes → rank r < 3) ∧ b.waiting = a.waiting.erase r ++ a.made.erase r
            ∧ ((∃ l l', a.waiting = l ++ r :: l' ∧ (∀ x ∈ l, can x → rank r < rank x) ∧ ∀ x ∈ l', can x → rank r ≤ rank x)
                ∨ r ∈ a.made ∧ ∀ x ∈ a.waiting, can x → rank r < rank x)
            ∧ (r.kind ≠ .erase → b.op = some r ∧ b.erase = a.erase)
            ∧ (r.kind = .erase → b.op = none ∧ b.erase = some
                { sector := r.sector, requester := r.requester, cond := cond (a.made.erase r) r.requester, runMicros := 0,
                  wanted := r.wanted })))
  ∧ (∀ (freed : Bool) (s : State) (e : Erase), s.array.erase = some e → s.array.free = false →
      (s.arbitrate freed).array.erase = some
        (if e.cond = .running ∧ e.requester ≠ .setup ∧ (∃ r ∈ s.array.made, r.requester.cls ≤ 2) then
          { e with cond := .suspendPending } else e))
  ∧ (∀ (freed : Bool) (r : Request) (s : State),
      s.request r = { s with array := { s.array with made := s.array.made ++ [r] } }
      ∧ (¬ s.choosing → r.requester.isCursor = false → r ∈ s.array.made → (s.settle freed).hasRequest r))

/-- The next sector to open (R67, R87) is a FREE one of least erase count, and among those of least index; there is none
only when no sector is FREE. The usable count is 126 less the RETIRED sectors. The commit path seeks a target (R66, R67,
R68, R72): a page left of the target is programmed with the body of the held buffer; a used-up target is CLOSED; then the
first FREE sector is opened with the next epoch (that after FFFFFFFFh is free, log entry 11) and its head programmed (at
this happening also where a given-up program is still in flight, log entry 50); with none FREE the path is BLOCKED and the
journal controller is told, but not in RECOVERING, where the report is left to the end of recovery (R131, R170), nor in
FAILED and DRAINED, where no path seeks (R77, R131), nor in FULL by a path that was leaving BLOCKED (R69; log entries 24
and 44); and in DRAINING it is not BLOCKED: the buffer is released with its records lost and drain loss mode is set (R79).
Space blocked (R131, R126, R139): space-wait is set, and RUNNING becomes FULL; STOPPING and STOPPED become FULL with
stop-requested set; so does FORMATTING, where the Format, its START still staged, ends with outcome OK; every other state
stays. -/
def Obligations.SeekingTarget : Prop :=
  (∀ d : Directory,
      (∀ st, d.countOf st = ((List.finRange 126).filter fun j => d[j].state == st).length)
      ∧ d.usable = 126 - d.countOf .retired
      ∧ (d.poolFirst = none ↔ ∀ j : JSector, d[j].state ≠ .free)
      ∧ ∀ j : JSector, d.poolFirst = some j ↔
          d[j].state = .free ∧ ∀ i : JSector, d[i].state = .free →
            d[j].eraseCount < d[i].eraseCount ∨ d[j].eraseCount = d[i].eraseCount ∧ j.val ≤ i.val)
  ∧ (∀ s : State,
      (∀ (j : JSector) (b : BufId), s.commit.target = some j → s.commit.nextPage ≤ 15 → s.commit.holding = some b →
        s.seekTarget = State.request
          (commitRequest .bodyProgram j s.commit.nextPage (pageBody s.dir[j].epoch (s.adm.buf b)))
          { s with commit := { s.commit with phase := .body, bodyCrc := crc (pageBody s.dir[j].epoch (s.adm.buf b)) } })
      ∧ (∀ j : JSector, s.commit.target = some j → 15 < s.commit.nextPage →
        s.seekTarget = State.seekTarget
          { s with dir := s.dir.update j fun x => { x with state := .closed }
                   commit := { s.commit with target := none } })
      ∧ (∀ j : JSector, s.commit.target = none → s.dir.poolFirst = some j → s.seekTarget = s.openSector j)
      ∧ (∀ (j : JSector) (e : Nat),
        e = (if s.commit.lastEpoch < 0xFFFFFFFF then s.commit.lastEpoch + 1 else (Config.epochPastLast s.freeIx).toNat) →
        s.openSector j = State.request
          (commitRequest .headProgram j 0 (headFields e s.dir[j].eraseCount))
          { s with
            dir := s.dir.update j fun x =>
              { state := .opened, epoch := e, firstSeq := 0, lastSeq := 0, firstStamp := 0,
                lastStamp := 0, pagesUsed := 0, eraseCount := x.eraseCount, retireMark := false, failCount := 0 }
            commit := { s.commit with lastEpoch := e, target := some j, nextPage := 1,
                                      phase := .head } })
      ∧ (s.commit.target = none → s.dir.poolFirst = none →
          s.seekTarget = (match s.ctrl.state with
            | .draining =>
              { s.releaseHeld with commit := { s.releaseHeld.commit with phase := .idle, drainLoss := true,
                                                                         leavingBlocked := false } }
            | .recovering | .failed | .drained => { s with commit := { s.commit with phase := .blocked, leavingBlocked := false } }
            | .running | .stopping | .stopped | .full | .formatting =>
              if s.commit.leavingBlocked && s.ctrl.state == .full then
                { s with commit := { s.commit with phase := .blocked, leavingBlocked := false } }
              else
                State.spaceBlocked { s with commit := { s.commit with phase := .blocked, leavingBlocked := false } })))
  ∧ (∀ s : State,
      s.spaceBlocked = (match s.ctrl.state with
        | .running => { s with ctrl := { s.ctrl with spaceWait := true, state := .full }
                               events := { s.events with flags := s.events.flags ||| Event.state.mask } }
        | .stopping | .stopped =>
          { s with ctrl := { s.ctrl with spaceWait := true, state := .full, stopRequested := true }
                   events := { s.events with flags := s.events.flags ||| Event.state.mask } }
        | .formatting =>
          { s with ctrl := { s.ctrl with spaceWait := true, state := .full, stopRequested := true, format := .noFormat,
                                         formatDone := [], opKind := .noOp, opOutcome := .ok }
                   events := { s.events with flags := s.events.flags ||| Event.state.mask ||| Event.opDone.mask } }
        | .recovering | .full | .draining | .drained | .failed => { s with ctrl := { s.ctrl with spaceWait := true } }))

/-- The end of a head program of the working commit path (R70, R71, R69, R79): OK requests the body program of the
sector's page, and ends FULL when the path was leaving BLOCKED; FAIL makes the sector DIRTY, to be retired, and the path
seeks again or, in DRAINING, gives the records up. A path that is not working is another statement's (R77, R78). -/
def Obligations.HeadProgramEnd : Prop :=
  ∀ (s u : State) (r : Request) (j : JSector) (b : BufId) (o : OpOutcome),
    s.powered = true → s.array.op = some r → r.requester = .commit → r.kind = .headProgram → r.wanted = true →
    r.sector = sectorOf j → s.commit.phase = .head → s.commit.holding = some b →
    u = { s.program r o with array := { (s.program r o).array with op := none } } →
    (o = .ok → ∀ v : State,
      v = State.request (commitRequest .bodyProgram j s.commit.nextPage (pageBody s.dir[j].epoch (s.adm.buf b)))
            { u with commit := { s.commit with phase := .body, leavingBlocked := false,
                                               bodyCrc := crc (pageBody s.dir[j].epoch (s.adm.buf b)) } } →
      exec (.headProgramEnd o) s = .next ((if s.commit.leavingBlocked then v.spaceBack else v).settle true))
    ∧ (o = .fail → ∀ v : State,
      v = { u with dir := s.dir.update j fun x => { x with state := .dirty, retireMark := true }
                   commit := { s.commit with target := none } } →
      exec (.headProgramEnd o) s = .next
        ((if s.ctrl.state = .draining then v.release false else v.seekTarget).settle true))

/-- The end of a body program of the working commit path (R73, R75, R76, R79): the page counts as used; OK requests its
commit field; FAIL counts against the sector, which the second failure closes for retirement, and the same buffer seeks
another page, or is released with its records lost in DRAINING. That the next page moves on by one at every failure, at a
second one outside DRAINING too, is the model's deduction (log entry 24). -/
def Obligations.BodyProgramEnd : Prop :=
  ∀ (s u : State) (r : Request) (j : JSector) (b : BufId) (o : OpOutcome),
    s.powered = true → s.array.op = some r → r.requester = .commit → r.kind = .bodyProgram → r.wanted = true →
    r.sector = sectorOf j → s.commit.phase = .body → s.commit.holding = some b →
    u = { s.program r o with array := { (s.program r o).array with op := none } } →
    (o = .ok →
      exec (.bodyProgramEnd o) s = .next (State.settle true (State.request
        (commitRequest .fieldProgram j r.page.val (beBytes 4 s.commit.bodyCrc.toNat ++ [0x5E, 0x1A, 0x0C, 0x97]))
        { u with dir := s.dir.update j fun x => { x with pagesUsed := r.page.val }
                 commit := { s.commit with phase := .field } })))
    ∧ (o = .fail → ∀ v : State,
      v = { u with
            dir := s.dir.update j fun x =>
              if 2 ≤ x.failCount + 1 then
                { x with pagesUsed := r.page.val, failCount := x.failCount + 1, state := .closed, retireMark := true }
              else { x with pagesUsed := r.page.val, failCount := x.failCount + 1 }
            commit := { s.commit with nextPage := s.commit.nextPage + 1,
                                      target := if 2 ≤ s.dir[j].failCount + 1 then none else s.commit.target } } →
      exec (.bodyProgramEnd o) s = .next
        ((if s.ctrl.state = .draining then v.release false else v.seekTarget).settle true))

/-- The end of a commit-field program (R74, R75, R76, R77, R79, R107): OK, on a HALTED path too, publishes the held buffer
in the directory and the commit path, raises COMMITTED at the threshold, and releases the buffer; FAIL withholds the page
and counts against the sector, which the second failure closes for retirement, and the same records are tried again, or in
DRAINING released lost. Either way the next page moves on (log entry 24). -/
def Obligations.CommitFieldEnd : Prop :=
  ∀ (s u : State) (r : Request) (j : JSector) (b : BufId) (o : OpOutcome) (recs : List (List Byte)),
    s.powered = true → s.array.op = some r → r.requester = .commit → r.kind = .fieldProgram → r.wanted = true →
    r.sector = sectorOf j → s.commit.holding = some b →
    recs = (walkRecords (s.adm.buf b).count (s.adm.buf b).data).getD [] →
    u = { s.program r o with array := { (s.program r o).array with op := none } } →
    (o = .ok → s.commit.phase = .field ∨ s.commit.phase = .halted → ∀ (n : Nat) (due : Bool), n = s.commit.countSince + (s.adm.buf b).count →
      due = decide (s.setup.fields.journal.threshold ≤ n) →
      exec (.commitFieldEnd o) s = .next (State.settle true (State.release true
        { u with
          dir := s.dir.update j fun x =>
            { x with
              firstSeq := if x.firstSeq = 0 then (s.adm.buf b).firstSeq else x.firstSeq
              firstStamp := if x.firstSeq = 0 then recStamp (recs.headD []) else x.firstStamp
              lastSeq := (s.adm.buf b).lastSeq
              lastStamp := recStamp (recs.getLastD []) }
          commit := { s.commit with newestSeq := (s.adm.buf b).lastSeq, countSince := if due then 0 else n,
                                    nextPage := s.commit.nextPage + 1 }
          events := if due then { s.events with flags := s.events.flags ||| Event.committed.mask } else s.events })))
    ∧ (o = .fail → s.commit.phase = .field → ∀ v : State,
      v = { u with
            cursor := { s.cursor with withheld := s.cursor.withheld ++ [(j, r.page)] }
            dir := s.dir.update j fun x =>
              if 2 ≤ x.failCount + 1 then
                { x with failCount := x.failCount + 1, state := .closed, retireMark := true }
              else { x with failCount := x.failCount + 1 }
            commit := { s.commit with nextPage := s.commit.nextPage + 1,
                                      target := if 2 ≤ s.dir[j].failCount + 1 then none else s.commit.target } } →
      exec (.commitFieldEnd o) s = .next
        ((if s.ctrl.state = .draining then v.release false else v.seekTarget).settle true))

/-- An operation of the commit path that a Format gave up (R80) ends with its bytes in the array and no other effect of
its outcome. An operation that ends with the commit path not working on it, HALTED (R77) or with its buffer given up at a
drain (R78), is recorded in the directory as R71, R73, R75, R76 and R107 have it of a working path, and no target is
sought and nothing released. A HALTED path that still holds its buffer publishes a commit field that ends OK (see
`CommitFieldEnd`); without the buffer nothing is published. That the outcome is recorded after a drain took the buffer,
and nothing published then, is the model's deduction (log entry 23; R79 speaks of a path that still holds it), and so is
the next page that moves on (log entry 24). -/
def Obligations.GivenUpProgram : Prop :=
  (∀ (s : State) (r : Request) (o : OpOutcome) (i : Instr),
      s.powered = true → s.array.op = some r → r.requester = .commit → r.wanted = false →
      (i = .headProgramEnd o ∧ r.kind = .headProgram ∨ i = .bodyProgramEnd o ∧ r.kind = .bodyProgram
        ∨ i = .commitFieldEnd o ∧ r.kind = .fieldProgram) →
      exec i s = .next (State.settle true { s.program r o with array := { (s.program r o).array with op := none } }))
  ∧ (∀ (s u : State) (r : Request) (j : JSector) (o : OpOutcome) (failed : Bool → State → State),
      s.powered = true → s.array.op = some r → r.requester = .commit → r.wanted = true → r.sector = sectorOf j →
      u = { s.program r o with array := { (s.program r o).array with op := none } } →
      failed = (fun body v =>
        { v with
          dir := s.dir.update j fun x =>
            { x with pagesUsed := if body then r.page.val else x.pagesUsed
                     failCount := x.failCount + 1
                     state := if 2 ≤ x.failCount + 1 then .closed else x.state
                     retireMark := decide (2 ≤ x.failCount + 1) || x.retireMark }
          commit := { s.commit with nextPage := s.commit.nextPage + 1,
                                    target := if 2 ≤ s.dir[j].failCount + 1 then none else s.commit.target } }) →
      (r.kind = .headProgram → s.commit.phase ≠ .head ∨ s.commit.holding = none →
        exec (.headProgramEnd o) s = .next (State.settle true (match o with
          | .ok => u
          | .fail => { u with dir := s.dir.update j fun x => { x with state := .dirty, retireMark := true }
                              commit := { s.commit with target := none } })))
      ∧ (r.kind = .bodyProgram → s.commit.phase ≠ .body ∨ s.commit.holding = none →
        exec (.bodyProgramEnd o) s = .next (State.settle true (match o with
          | .ok => { u with dir := s.dir.update j fun x => { x with pagesUsed := r.page.val } }
          | .fail => failed true u)))
      ∧ (r.kind = .fieldProgram → o = .fail → s.commit.phase ≠ .field ∨ s.commit.holding = none →
        exec (.commitFieldEnd o) s = .next (State.settle true
          (failed false { u with cursor := { s.cursor with withheld := s.cursor.withheld ++ [(j, r.page)] } })))
      ∧ (r.kind = .fieldProgram → o = .ok → s.commit.holding = none →
        exec (.commitFieldEnd o) s = .next (State.settle true u)))

/-- A release (R36, R65, R130, R132, R139, R146, R149): the held buffer is emptied (its seqs 0, log entry 15) and becomes
FILLING if none is, the path becomes IDLE unless HALTED, a sector opened later is not opened on leaving BLOCKED (log entry
44), a CLOSED other buffer is taken, and the journal controller makes its tests. A buffer that is taken becomes COMMITTING
and held (R65): a HALTED path seeks nothing (R77), drain loss mode releases it at once (R78), and else the path seeks a
page. What a release tells the journal controller (R130, R132, R139, R146, R149): the end of a stop, of a Format with its
FORMAT START committed, of a stop in FULL, and the steps of a drain. -/
def Obligations.ReleasingBuffer : Prop :=
  (∀ (s : State) (b : BufId) (committed : Bool), s.commit.holding = some b →
      ∃ u : State, u = s.releaseHeld
        ∧ u = { s with adm := u.adm
                       commit := { s.commit with holding := none, leavingBlocked := false,
                                                 phase := if s.commit.phase = .halted then .halted else .idle } }
        ∧ u.adm = { s.adm with bufP := u.adm.bufP, bufQ := u.adm.bufQ }
        ∧ u.adm.buf b = Buffer.empty (if (s.adm.buf b.other).role = .filling then .idle else .filling)
        ∧ u.adm.buf b.other = s.adm.buf b.other
        ∧ s.release committed = State.afterRelease committed
            (if s.commit.phase ≠ .halted ∧ (s.adm.buf b.other).role = .closed then u.takeBuffer b.other else u)
        ∧ ∀ (x y : State) (o : BufId),
          y = State.setBuf o { x.adm.buf o with role := .committing } { x with commit := { x.commit with holding := some o } } →
          x.takeBuffer o = if x.commit.phase = .halted then y else if x.commit.drainLoss then y.releaseHeld else y.seekTarget)
  ∧ (∀ (s : State) (committed : Bool),
      (s.ctrl.state = .stopping → s.afterRelease committed =
        if s.staged then s
        else { s with ctrl := { s.ctrl with state := .stopped }
                      events := { s.events with flags := s.events.flags ||| Event.state.mask } })
      ∧ (s.ctrl.state = .full → s.afterRelease committed =
        if s.ctrl.stopRequested && !s.ctrl.spaceWait && !s.adm.exhausted && !s.staged then
          { s with ctrl := { s.ctrl with state := .stopped, stopRequested := false }
                   events := { s.events with flags := s.events.flags ||| Event.state.mask } }
        else s)
      ∧ (s.ctrl.state = .formatting → s.afterRelease committed =
        if committed = true ∧ s.ctrl.format = .starting then
          { s with ctrl := { s.ctrl with state := .stopped, format := .noFormat, formatDone := [], opKind := .noOp,
                                         opOutcome := .ok }
                   events := { s.events with flags := s.events.flags ||| Event.state.mask ||| Event.opDone.mask } }
        else s)
      ∧ (s.ctrl.state = .draining → s.afterRelease committed =
        match s.ctrl.drain with
        | .finishing => s.shutdownStep
        | .closing => s.drainEnd (if committed then .committed else .lost)
        | .noDrain => s)
      ∧ (s.ctrl.state ∈ [JState.recovering, .running, .stopped, .drained, .failed] → s.afterRelease committed = s))

/-- A suspension takes effect (R55): the erase is SUSPENDED with its running time kept, the array is free, its sector's
bits hold 0 or 1 (R52) by a free value, as after an erase that fails (`ArrayEffects`), and every byte outside the sector
stays. A stop takes effect (R57, R99, R102, R185): the erase is gone, its sector's bits hold 0 or 1, a journal sector
becomes DIRTY with its fields kept, the reclaim engine is idle, and a Store Setup that waited for the result (R181) seeks
its page. -/
def Obligations.EraseSuspendedOrStopped : Prop :=
  (∀ (s u : State) (e : Erase), s.powered = true → s.array.erase = some e → e.cond = .suspendPending →
      u = s.eraseSector e.sector .fail →
      exec .eraseSuspendEffect s = .next (State.settle true
        { u with array := { u.array with erase := some { e with cond := .suspended } } })
      ∧ u = { s with array := { s.array with mem := u.array.mem }, freeIx := s.freeIx + 1 }
      ∧ ∀ a, (e.sector.val * 0x2000 ≤ a → a < e.sector.val * 0x2000 + 0x2000 → memByte u.array.mem a = Config.cellBits s.freeIx a)
          ∧ (a < e.sector.val * 0x2000 ∨ e.sector.val * 0x2000 + 0x2000 ≤ a → memByte u.array.mem a = memByte s.array.mem a))
  ∧ (∀ (s u : State) (e : Erase), s.powered = true → s.array.erase = some e → e.cond = .stopPending →
      u = { s.eraseSector e.sector .fail with array := { (s.eraseSector e.sector .fail).array with erase := none } } →
      (∀ j : JSector, e.sector = sectorOf j → (e.requester = .reclaim ∨ e.requester = .format) →
        ∀ v : State,
          v = { u with dir := s.dir.update j fun x => { x with state := .dirty }
                       reclaim := if e.requester = .reclaim then { phase := .idle, target := none } else s.reclaim } →
          exec .eraseStopEffect s = .next ((if s.store.seekOwed then v.storeSeek else v).settle true))
      ∧ (e.requester = .setup →
          exec .eraseStopEffect s = .next ((if s.store.seekOwed then u.storeSeek else u).settle true)))

/-- The end of a reclaim's or a Format's erase (R96, R97, R98, R99, R102): the count rises by 1; OK with the count below
100,000 and no retirement due makes the sector FREE, or DIRTY in DRAINING and DRAINED; anything else, a count above
100,000 included (log entry 25), retires it, with the usable test and the request of the retire mark, which DRAINING and
DRAINED refuse. That the journal state at the end judges the erase, also one that was to be stopped and ends after the
return from DRAINED, and that a Format's erase ends so after its Format was dropped, setting its entry and requesting its
mark, is the model's deduction (log entry 26). The end of a retire-mark program (R97): with either outcome the sector
stays RETIRED; the reclaim engine becomes idle, or the Format that asked for it goes on to its next sector. -/
def Obligations.JournalEraseEnd : Prop :=
  (∀ (s u : State) (e : Erase) (j : JSector) (o : OpOutcome) (draws : Bool) (count : Nat) (i : Instr),
      s.powered = true → s.array.erase = some e → e.cond ≠ .suspended → e.sector = sectorOf j →
      (i = .reclaimEraseEnd o ∧ e.requester = .reclaim ∨ i = .formatEraseEnd o ∧ e.requester = .format) →
      draws = decide (s.ctrl.state = .draining ∨ s.ctrl.state = .drained) → count = s.dir[j].eraseCount + 1 →
      u = { s.eraseSector e.sector o with array := { (s.eraseSector e.sector o).array with erase := none } } →
      ∀ (v idle : State) (deal : State → State),
      idle = { v with reclaim := if e.requester = .reclaim then { phase := .idle, target := none } else s.reclaim } →
      deal = (fun w => if e.requester = .format ∧ w.ctrl.format = .erasing j then
          { w with ctrl := { w.ctrl with format := .choosing, formatDone := j :: w.ctrl.formatDone } } else w) →
      (o = .ok → draws = true →
        v = { u with dir := s.dir.update j fun x => { x with state := .dirty, eraseCount := count } } →
        exec i s = .next ((deal idle).settle true))
      ∧ (o = .ok → draws = false → count < 100000 → s.dir[j].retireMark = false →
        v = { u with dir := s.dir.update j fun _ =>
              { state := .free, epoch := 0, firstSeq := 0, lastSeq := 0, firstStamp := 0, lastStamp := 0, pagesUsed := 0,
                eraseCount := count, retireMark := false, failCount := 0 } } →
        exec i s = .next ((deal idle.sectorFreed).settle true))
      ∧ (o = .fail ∨ draws = false ∧ (100000 ≤ count ∨ s.dir[j].retireMark = true) →
        v = { u with
              dir := s.dir.update j fun _ =>
                { state := .retired, epoch := 0, firstSeq := 0, lastSeq := 0, firstStamp := 0, lastStamp := 0,
                  pagesUsed := 0, eraseCount := count, retireMark := false, failCount := 0 }
              events := { s.events with flags := s.events.flags ||| Event.sectorRetired.mask } } →
        ∀ w : State, w = v.usableTest →
        exec i s = .next (State.settle true
          (if draws then deal idle
           else deal (State.request
              { requester := e.requester, kind := .retireMark, sector := sectorOf j, page := 0,
                data := List.replicate 16 0, generation := 0, wanted := true }
              (if e.requester = .reclaim then { w with reclaim := { s.reclaim with phase := .mark } }
               else if w.ctrl.state = .formatting then { w with ctrl := { w.ctrl with format := .marking j } }
               else w))))))
  ∧ (∀ (s u : State) (r : Request) (o : OpOutcome),
      s.powered = true → s.array.op = some r → r.kind = .retireMark →
      u = { s.program r o with array := { (s.program r o).array with op := none } } →
      (r.requester = .reclaim →
        exec (.retireMarkEnd o) s = .next (State.settle true { u with reclaim := { phase := .idle, target := none } }))
      ∧ ∀ j : JSector, r.requester = .format → r.sector = sectorOf j →
        exec (.retireMarkEnd o) s = .next (State.settle true
          (if s.ctrl.format = .erasing j ∨ s.ctrl.format = .marking j then
            { u with ctrl := { s.ctrl with format := .choosing, formatDone := j :: s.ctrl.formatDone } }
           else u)))

/-- The usable test at a retirement (R98, R77, R134): below four usable sectors the journal fails from RUNNING, STOPPING,
STOPPED and FULL, which clears stop-requested and space-wait and halts the commit path, its waiting request withdrawn; in
the other states the test is made elsewhere. A sector has become FREE (R69, R132): a BLOCKED commit path opens the first
of the pool and remembers that it is leaving BLOCKED; with space-wait set and the path IDLE the controller takes space
back; else nothing follows. Space back (R132): space-wait is cleared, and in FULL, unless the sequence numbers are
exhausted, the journal returns to RUNNING, or to STOPPED with a stop requested and nothing staged. -/
def Obligations.UsableAndSpace : Prop :=
  (∀ s : State,
      s.haltCommit = { s with
        commit := { s.commit with phase := .halted, leavingBlocked := false }
        array := { s.array with waiting := s.array.waiting.filter (fun r => r.requester != .commit)
                                made := s.array.made.filter (fun r => r.requester != .commit) } }
      ∧ s.usableTest =
        if s.dir.usable < 4 ∧ s.ctrl.state ∈ [JState.running, .stopping, .stopped, .full] then
          { s with
            ctrl := { s.ctrl with state := .failed, stopRequested := false, spaceWait := false }
            events := { s.events with flags := s.events.flags ||| Event.state.mask }
            commit := { s.commit with phase := .halted, leavingBlocked := false }
            array := { s.array with waiting := s.array.waiting.filter (fun r => r.requester != .commit)
                                    made := s.array.made.filter (fun r => r.requester != .commit) } }
        else s)
  ∧ (∀ s : State,
      (s.commit.phase = .blocked → ∀ j : JSector, s.dir.poolFirst = some j →
        s.sectorFreed = State.openSector j { s with commit := { s.commit with leavingBlocked := true } })
      ∧ (s.commit.phase = .idle → s.ctrl.spaceWait = true → s.sectorFreed = s.spaceBack)
      ∧ (s.commit.phase ≠ .blocked → s.commit.phase ≠ .idle ∨ s.ctrl.spaceWait = false → s.sectorFreed = s))
  ∧ (∀ s u : State, u = { s with ctrl := { s.ctrl with spaceWait := false } } →
      s.spaceBack =
        if s.ctrl.state = .full ∧ s.adm.exhausted = false then
          if s.ctrl.stopRequested = false then u.enterRunning
          else if s.staged = false then
            { s with ctrl := { s.ctrl with spaceWait := false, stopRequested := false, state := .stopped }
                     events := { s.events with flags := s.events.flags ||| Event.state.mask } }
          else u
        else u)

/-! ### Format and the setup store (chapters 5, 7 and 10) -/

/-- Format (R136): BUSY while a host operation runs; STATE outside STOPPED, FULL and FAILED; otherwise it starts. The
start of a Format, by the command or at a return from DRAINED (R136, R44, R80, R101, R124, R142): FORMATTING, its first
sector to be chosen, with the admission unit emptied (the seqs of an empty buffer 0, log entry 15), the commit path given
up, every OPEN and CLOSED sector DIRTY with nothing readable, a reclaim whose erase request waits ended, and the cursor at
seq 1 with nothing in it; a token in transfer leaves the store, and what is left of it the port still sends (log entry
49). The array's bytes stay. -/
def Obligations.FormatStarts : Prop :=
  (∀ s : State, s.atCommand → s.ctrl.state ≠ .recovering →
      (s.ctrl.opKind ≠ .noOp → exec .format s = .next (s.replied 0x50 [] .busy []))
      ∧ (s.ctrl.opKind = .noOp → s.ctrl.state ∉ [JState.stopped, .full, .failed] →
          exec .format s = .next (s.replied 0x50 [] .state []))
      ∧ (s.ctrl.opKind = .noOp → s.ctrl.state ∈ [JState.stopped, .full, .failed] →
          exec .format s = .next (State.replied 0x50 [] .ok [] (s.formatStart.settle false))))
  ∧ (∀ s : State, s.ctrl.state ≠ .formatting →
      ∀ ended : Bool,
      ended = (s.reclaim.target.isSome && decide (s.reclaim.phase = .erase)
        && (s.array.waiting ++ s.array.made).any fun r => r.requester == .reclaim && r.kind == .erase) →
      ∃ u : State, s.formatStart = u
        ∧ u = { s with
            ctrl := { s.ctrl with state := .formatting, stopRequested := false, spaceWait := false, opKind := .format,
                                  opOutcome := .noOutcome, format := .choosing, formatDone := [] }
            events := { s.events with flags := s.events.flags ||| Event.state.mask }
            adm := { s.adm with note := none, sys := none, bufP := Buffer.empty .filling, bufQ := Buffer.empty .idle }
            commit := { s.commit with phase := .idle, holding := none, target := none, newestSeq := 0, countSince := 0,
                                      leavingBlocked := false }
            cursor := { target := 1, lastReturned := 0, buffer := .empty, faultSeen := false, pendingToken := .noToken,
                        seek := none, store := .empty, withheld := s.cursor.withheld }
            reclaim := if ended then { phase := .idle, target := none } else s.reclaim
            dir := u.dir
            array := { s.array with op := u.array.op, waiting := u.array.waiting, made := u.array.made } }
        ∧ (∀ r, r ∈ u.array.waiting ↔ r ∈ s.array.waiting ∧ r.requester ≠ .commit ∧ r.requester.isCursor = false
            ∧ (ended = true → r.requester ≠ .reclaim))
        ∧ (∀ r, s.array.op = some r → u.array.op
            = some (if r.requester = .commit ∨ r.requester.isCursor then { r with wanted := false } else r))
        ∧ ∀ j : JSector, u.dir[j] =
            if s.dir[j].state = .opened ∨ s.dir[j].state = .closed then
              { s.dir[j] with state := .dirty, firstSeq := 0, lastSeq := 0, firstStamp := 0, lastStamp := 0 }
            else if ended = true ∧ s.reclaim.target = some j then { s.dir[j] with state := .dirty }
            else s.dir[j])

/-- Format takes its next sector (R137): DIRTY sectors with an epoch in ascending epoch, then FREE sectors and DIRTY ones
without an epoch in ascending index, each once; its erase is requested. After the last (R138, R44, R80, R27, R98) last
epoch is 0 and next seq 1, and either fewer than four sectors are usable and the Format ends FAILED, or the FORMAT START
is placed. Format chooses once no erase exists and no request of its own is waiting or in flight, an earlier Format's
included (R58, R97): until then the end of a happening is the work of the cursor engine and the arbiter alone, in the
model's order (log entry 20), and the controller and the directory stay as they are. That a Format with no sector left
waits too is log entry 38. -/
def Obligations.FormatErases : Prop :=
  (∀ (freed : Bool) (s : State), s.choosing →
      ∀ aged young : JSector → Prop,
      aged = (fun i => i ∉ s.ctrl.formatDone ∧ s.dir[i].state = .dirty ∧ s.dir[i].epoch ≠ 0) →
      young = (fun i => i ∉ s.ctrl.formatDone
        ∧ (s.dir[i].state = .free ∨ s.dir[i].state = .dirty ∧ s.dir[i].epoch = 0)) →
      (∀ j : JSector,
        (aged j ∧ (∀ i, aged i → s.dir[j].epoch < s.dir[i].epoch ∨ s.dir[j].epoch = s.dir[i].epoch ∧ j.val ≤ i.val)
          ∨ young j ∧ (∀ i, ¬ aged i) ∧ ∀ i, young i → j.val ≤ i.val) →
        s.settle freed = State.settle freed (State.request
          { requester := .format, kind := .erase, sector := sectorOf j, page := 0, data := [], generation := 0, wanted := true }
          { s with
            ctrl := { s.ctrl with format := .erasing j }
            dir := s.dir.update j fun x =>
              { x with state := .erasing, firstSeq := 0, lastSeq := 0, firstStamp := 0, lastStamp := 0 }
            cursor := { s.cursor with withheld := s.cursor.withheld.filter fun w => w.1 != j } }))
      ∧ ((∀ i, ¬ aged i ∧ ¬ young i) →
        s.settle freed = State.settle freed
          (if s.dir.usable < 4 then
            { s with
              ctrl := { s.ctrl with state := .failed, format := .noFormat, formatDone := [], opKind := .noOp,
                                    opOutcome := .failed }
              events := { s.events with flags := s.events.flags ||| Event.state.mask ||| Event.opDone.mask }
              commit := { s.commit with lastEpoch := 0, phase := .halted, leavingBlocked := false }
              adm := { s.adm with nextSeq := 1, exhausted := false }
              array := { s.array with waiting := s.array.waiting.filter (fun r => r.requester != .commit)
                                      made := s.array.made.filter (fun r => r.requester != .commit) } }
           else
            { s with
              ctrl := { s.ctrl with format := .starting }
              commit := { s.commit with lastEpoch := 0 }
              time := if s.time.counter = 0xFFFFFFFFFFFF then { s.time with counter := 0, saturated := false } else s.time
              lines := if s.time.counter = 0xFFFFFFFFFFFF then
                         s.lines.map fun p => { p with queue := p.queue.map fun d => { d with close := 0 } }
                       else s.lines
              adm := { s.adm with
                nextSeq := 1
                exhausted := false
                sys := some (.start
                  { cause := .format, clean := false, k := s.setup.fields.journal.k, source := s.setup.source,
                    generation := s.setup.generation, discarded := 0, corrupt := 0, damaged := 0,
                    retired := s.dir.countOf .retired }
                  (if s.time.counter = 0xFFFFFFFFFFFF then 0 else s.systemStamp)) } })))
  ∧ (∀ (freed : Bool) (s : State), s.ctrl.format = .choosing → s.ctrl.state = .formatting →
      ((∃ e, s.array.erase = some e) ∨ ∃ r ∈ s.array.op.toList ++ s.array.waiting ++ s.array.made, r.requester = .format) →
      s.settle freed = State.arbitrate freed s.seekLocate.seekRead.fetchStep
      ∧ (s.settle freed).ctrl = s.ctrl ∧ (s.settle freed).dir = s.dir)

/-- The setup store seeks a page (R182, R184): the next page of its current sector, or once the erase of the sector that
does not hold the copy in force; a second switch ends the operation FAILED, with SETUP_FAULT and OP_DONE. The ends of the
setup store's operations (R183, R184, R185): an erase OK moves to its sector's page 0, FAIL ends the operation FAILED; a
body OK is followed by its commit field, FAIL by the next page; a field OK puts the copy in force with OK, FAIL is
followed by the next page. Of an aborted operation only what landed is kept, and a Store Setup that waited for it seeks
its page. -/
def Obligations.SetupStoreRules : Prop :=
  (∀ (s : State) (f : SetupFields) (g : Nat), s.store.copy = some (f, g) →
      s.storeSeek =
        if s.store.nextPage ≤ 15 then
          State.request
            { requester := .setup, kind := .setupBody, sector := s.store.current.sector, page := pageOf s.store.nextPage,
              data := setupBody f g, generation := g, wanted := true }
            { s with store := { s.store with phase := .body, seekOwed := false } }
        else if s.store.switched then
          { s with
            ctrl := { s.ctrl with opKind := .noOp, opOutcome := .failed }
            store := { s.store with phase := .idle, copy := none, seekOwed := false }
            events := { s.events with flags := s.events.flags ||| Event.setupFault.mask ||| Event.opDone.mask } }
        else
          State.request
            { requester := .setup, kind := .erase,
              sector := (match s.store.location with | some (x, _) => x.other | none => s.store.current.other).sector,
              page := 0, data := [], generation := g, wanted := true }
            { s with store := { s.store with phase := .erase, switched := true, seekOwed := false } })
  ∧ (∀ (s u : State) (o : OpOutcome), s.powered = true →
      (∀ e : Erase, s.array.erase = some e → e.requester = .setup → e.cond ≠ .suspended →
        u = { s.eraseSector e.sector o with array := { (s.eraseSector e.sector o).array with erase := none } } →
        ∀ v : State, v = { u with store := { s.store with current := setupSectorOf e.sector, nextPage := 0 } } →
        exec (.setupEraseEnd o) s = .next (State.settle true
          (match o with
           | .ok => if e.wanted || s.store.seekOwed then v.storeSeek else v
           | .fail =>
             if e.wanted then
               { u with
                 ctrl := { s.ctrl with opKind := .noOp, opOutcome := .failed }
                 store := { s.store with phase := .idle, copy := none, seekOwed := false }
                 events := { s.events with flags := s.events.flags ||| Event.setupFault.mask ||| Event.opDone.mask } }
             else if s.store.seekOwed then u.storeSeek else u)))
      ∧ ∀ r : Request, s.array.op = some r → r.requester = .setup →
        u = { s.program r o with array := { (s.program r o).array with op := none } } →
        (r.kind = .setupBody →
          ∀ v : State, v = { u with store := { s.store with nextPage := r.page.val + 1 } } →
          exec (.setupBodyEnd o) s = .next (State.settle true
            (match o, r.wanted with
             | .ok, true =>
               State.request
                 { requester := .setup, kind := .setupField, sector := (setupSectorOf r.sector).sector, page := r.page,
                   data := commitField (crc r.data), generation := r.generation, wanted := true }
                 { v with store := { s.store with nextPage := r.page.val + 1, phase := .field } }
             | .fail, true => v.storeSeek
             | _, false => if s.store.seekOwed then v.storeSeek else v)))
        ∧ (r.kind = .setupField →
          ∀ v : State,
          v = { u with
                store := { s.store with location := some (setupSectorOf r.sector, r.page), latest := r.generation } } →
          exec (.setupFieldEnd o) s = .next (State.settle true
            (match o, r.wanted with
             | .ok, true =>
               { v with
                 store := { v.store with phase := .idle, copy := none, seekOwed := false }
                 setup := (match s.store.copy with
                   | some (_, g) => { s.setup with source := .stored, generation := g }
                   | none => s.setup)
                 ctrl := { s.ctrl with opKind := .noOp, opOutcome := .ok }
                 events := { s.events with flags := s.events.flags ||| Event.opDone.mask } }
             | .fail, true => u.storeSeek
             | .ok, false =>
               if s.store.seekOwed then
                 State.storeSeek { v with setup := { s.setup with source := .stored, generation := r.generation } }
               else { v with setup := { s.setup with source := .stored, generation := r.generation } }
             | .fail, false => if s.store.seekOwed then u.storeSeek else u))))

/-! ### Reading and reclaim (chapters 5 and 6) -/

/-- The ring (R86): the CLOSED sectors in ascending epoch, each once, and behind them the OPEN one. Returnable records and
the page a fetch asks for (R106, R107, R108): no record of a page that is not COMMITTED, or is withheld, is returnable.
With nothing returnable at or below the newest seq the page behind the place is requested, and without a place page 1 of
the first ring sector whose last seq is at or above the wanted one. In DRAINING and DRAINED the request is answered
REFUSED at once and the read buffer becomes EMPTY (R63, R110), and in RECOVERING none is made (R110). -/
def Obligations.CursorFetches : Prop :=
  (∀ d : Directory,
      d.ring.Nodup ∧ (∀ j : JSector, j ∈ d.ring ↔ d[j].state = .closed ∨ d[j].state = .opened)
      ∧ d.ring.Pairwise fun i j => d[j].state = .opened ∨ d[i].state = .closed ∧ d[i].epoch ≤ d[j].epoch)
  ∧ (∀ (s : State) (w : Nat),
      w = (match s.cursor.store with | .transfer (.record n _) | .kept n _ => n + 1 | _ => s.cursor.target) →
      (∀ rec : List Byte, rec ∈ s.returnable ↔ ∃ j p bytes, s.cursor.buffer = .held j p bytes
        ∧ pageClass bytes = .committed ∧ (j, p) ∉ s.cursor.withheld ∧ rec ∈ pageRecords bytes
        ∧ w ≤ recSeq rec ∧ s.cursor.lastReturned < recSeq rec ∧ recSeq rec ≤ s.commit.newestSeq)
      ∧ (s.cursor.target = 0 ∨ s.cursor.seek ≠ none ∨ s.commit.newestSeq < w ∨ s.returnable ≠ []
          ∨ (∃ j p, s.cursor.buffer = .fetching j p)
          ∨ (∃ r, s.array.op = some r ∧ r.requester.isCursor = true ∧ r.wanted = false) ∨ s.ctrl.state = .recovering →
        s.fetchStep = s)
      ∧ ∀ (place : Option (JSector × PageIx)) (j : JSector) (p : PageIx),
        place = (match s.cursor.buffer with
          | .held i q _ =>
            if (s.dir[i].state = .opened ∨ s.dir[i].state = .closed) ∧ q.val < s.dir[i].pagesUsed then
              some (i, pageOf (q.val + 1))
            else ((s.dir.ring.dropWhile (· != i)).tail.find? fun i => s.dir[i].firstSeq != 0).map fun i => (i, 1)
          | _ =>
            (s.dir.ring.find? fun i => s.dir[i].firstSeq != 0 && decide (w ≤ s.dir[i].lastSeq)).map fun i => (i, 1)) →
        s.cursor.target ≠ 0 → s.cursor.seek = none → w ≤ s.commit.newestSeq → s.returnable = [] →
        (∀ j p, s.cursor.buffer ≠ .fetching j p) →
        (∀ r, s.array.op = some r → r.requester.isCursor = true → r.wanted = true) → s.ctrl.state ≠ .recovering →
        (place = none → s.fetchStep = s)
        ∧ (place = some (j, p) → s.fetchStep =
          if s.ctrl.state = .draining ∨ s.ctrl.state = .drained then
            { s with cursor := { s.cursor with buffer := .empty } }
          else
            State.request
              { requester := .cursorFetch, kind := .read, sector := sectorOf j, page := p, data := [], generation := 0,
                wanted := true }
              { s with cursor := { s.cursor with buffer := .fetching j p } }))

/-- The end of a read of the cursor engine (R109, R110, R113): a fetched page is HELD, and a TORN one that is not withheld
sets the fault-seen mark; a seek takes the first record at or above its stamp as its target and holds its page, or reads
on, or chooses the next sector. What is no longer wanted is discarded, and a page that a restarted seek does not ask for
is read for nothing (R114; log entry 27). Step 1 of a seek by stamp (R113): of the sectors left, the first holding records
whose last stamp is at or above the sought one; with none the target is one above the newest seq; at or below its first
stamp the target is its first seq; else its pages are read from page 1 on. A seek restarted by an overtaking takes it at
the end of the happening (R114), and one that ends there wants no read; the page to be read is requested when no read of
the engine is outstanding or runs on unwanted (R110). -/
def Obligations.CursorReads : Prop :=
  (∀ (s u : State) (r : Request) (page : List Byte) (fault : Bool), s.powered = true → s.array.op = some r →
      page = readPage s.array.mem r.sector r.page → u = { s with array := { s.array with op := none } } →
      ∀ j : JSector, r.sector = sectorOf j →
      fault = (s.cursor.faultSeen
        || decide ((pageClass page = .torn true ∨ pageClass page = .torn false) ∧ (j, r.page) ∉ s.cursor.withheld)) →
      (r.requester = .cursorFetch → exec .cursorReadEnd s = .next (State.settle true
        (if r.wanted then
          { u with cursor := { s.cursor with buffer := .held j r.page page, faultSeen := fault } }
         else u)))
      ∧ (r.requester = .cursorSeek → r.wanted = false ∨ s.cursor.seek = none →
        exec .seekReadEnd s = .next (u.settle true))
      ∧ (∀ k : SeekState, r.requester = .cursorSeek → r.wanted = true → s.cursor.seek = some k → k.position ≠ some (j, r.page) →
        exec .seekReadEnd s = .next (State.settle true
          { u with cursor := { s.cursor with seek := some { k with outstanding := false } } }))
      ∧ (r.requester = .cursorSeek → r.wanted = true → ∀ k : SeekState, s.cursor.seek = some k →
        k.position = some (j, r.page) → ∀ found : Option (List Byte),
        found = (if pageClass page = .committed ∧ (j, r.page) ∉ s.cursor.withheld then
            (pageRecords page).find? fun rec => decide (k.stamp ≤ recStamp rec ∧ recSeq rec ≤ s.commit.newestSeq)
          else none) →
        exec .seekReadEnd s = .next (State.settle true
          (match found with
           | some rec =>
             { u with cursor := { s.cursor with target := recSeq rec, seek := none, pendingToken := .noToken,
                                                buffer := .held j r.page page } }
           | none =>
             if r.page.val < s.dir[j].pagesUsed ∧ r.page.val < 15 then
               { u with cursor := { s.cursor with
                   faultSeen := fault
                   seek := some { k with position := some (j, pageOf (r.page.val + 1)), outstanding := false } } }
             else
               State.seekChoose { k with outstanding := false } (s.dir.ring.dropWhile (· != j)).tail
                 { u with cursor := { s.cursor with faultSeen := fault } }))))
  ∧ ((∀ s : State, s.cursor.seek = none → s.seekLocate = s ∧ s.seekRead = s)
    ∧ (∀ (s : State) (k : SeekState), s.cursor.seek = some k →
      (k.position = none → ∀ t : State, t = s.seekChoose k s.dir.ring →
        s.seekLocate = if t.cursor.seek = none then
            { t with array := { t.array with
                waiting := t.array.waiting.filter (fun r => r.requester != .cursorSeek)
                made := t.array.made.filter (fun r => r.requester != .cursorSeek)
                op := t.array.op.map fun r => if r.requester = .cursorSeek then { r with wanted := false } else r } }
          else t)
      ∧ (k.position ≠ none → s.seekLocate = s)
      ∧ ∀ (j : JSector) (p : PageIx), k.position = some (j, p) → s.seekRead =
          if k.outstanding || s.array.op.any (fun r => r.requester.isCursor && !r.wanted)
              || decide (s.ctrl.state ∈ [JState.recovering, .draining, .drained]) then s
          else
            State.request
              { requester := .cursorSeek, kind := .read, sector := sectorOf j, page := p, data := [], generation := 0,
                wanted := true }
              { s with cursor := { s.cursor with seek := some { k with outstanding := true } } })
    ∧ ∀ (s : State) (k : SeekState) (sectors : List JSector),
      ((∀ i ∈ sectors, s.dir[i].firstSeq = 0 ∨ s.dir[i].lastStamp < k.stamp) →
        s.seekChoose k sectors = { s with
          cursor := { s.cursor with target := s.commit.newestSeq + 1, seek := none, pendingToken := .noToken } })
      ∧ ∀ (l rest : List JSector) (j : JSector), sectors = l ++ j :: rest →
        (∀ i ∈ l, s.dir[i].firstSeq = 0 ∨ s.dir[i].lastStamp < k.stamp) → s.dir[j].firstSeq ≠ 0 →
        k.stamp ≤ s.dir[j].lastStamp →
        s.seekChoose k sectors = { s with
          cursor :=
            if k.stamp ≤ s.dir[j].firstStamp then
              { s.cursor with target := s.dir[j].firstSeq, seek := none, pendingToken := .noToken }
            else { s.cursor with seek := some { stamp := k.stamp, position := some (j, 1), outstanding := k.outstanding } } })

/-- The token chosen (R115, R116, R121): WAIT in a seek, then a pending LOST or FAULT, a kept RECORD, END at the end of
the journal, the first returnable record, or a FAULT before it when the fault-seen mark is set, which is then pending;
WAIT otherwise. Its bytes are the next to be sent (R189, R202). The end of a token (R117, R120, R121): a RECORD becomes
the last returned and moves the target to at least its seq plus 1; a LOST or FAULT clears the pending token when that is
the one sent, and not one that an overtaking set meanwhile (log entry 28); END and WAIT leave the rest as it is. A
TOKEN_END with no token in the store: one that a restarted Format or recovery took from it in transfer (R124, R174) has
left SDO whole, and nothing else follows (log entry 49). Read Records (R115, R189): taken in every state but RECOVERING;
the port enters STREAM and nothing else changes. -/
def Obligations.Tokens : Prop :=
  (∀ (s : State) (t : Token), s.powered = true → s.port.phase = .stream → (∀ x, s.cursor.store ≠ .transfer x) →
      t = (if s.cursor.seek ≠ none then .wait
        else match s.cursor.pendingToken, s.cursor.store with
          | .lost n, _ => .lost n
          | .fault n, _ => .fault n
          | .noToken, .kept n rec => .record n rec
          | .noToken, _ =>
            if s.cursor.target = 0 ∨ s.commit.newestSeq < s.cursor.target then .endOfJournal
            else match s.returnable with
              | rec :: _ => if s.cursor.faultSeen then .fault (recSeq rec) else .record (recSeq rec) rec
              | [] => .wait) →
      exec .tokenChoice s = .next (State.settle false { s with
        port := { s.port with reply := (match t with
          | .record _ rec => 0xA1 :: rec | .endOfJournal => [0xA2] | .wait => [0xA3]
          | .lost n => 0xA4 :: beBytes 4 n | .fault n => 0xA5 :: beBytes 4 n) }
        cursor := { s.cursor with
          store := .transfer t
          pendingToken :=
            (match t with
             | .fault n => if s.cursor.pendingToken = .noToken then .fault n else s.cursor.pendingToken
             | _ => s.cursor.pendingToken)
          faultSeen :=
            (match t with
             | .fault _ => if s.cursor.pendingToken = .noToken then false else s.cursor.faultSeen
             | _ => s.cursor.faultSeen) } }))
  ∧ (∀ (s : State) (t : Token), s.powered = true → s.port.phase = .stream → s.cursor.store = .transfer t →
      exec .tokenEnd s = .next (State.settle false { s with
        port := { s.port with reply := [] }
        cursor :=
          (match t with
           | .record n _ => { s.cursor with store := .empty, lastReturned := n, target := max s.cursor.target (n + 1) }
           | .lost n => { s.cursor with
               store := .empty
               pendingToken := if s.cursor.pendingToken = .lost n then .noToken else s.cursor.pendingToken }
           | .fault n => { s.cursor with
               store := .empty
               pendingToken := if s.cursor.pendingToken = .fault n then .noToken else s.cursor.pendingToken }
           | .endOfJournal | .wait => { s.cursor with store := .empty }) }))
  ∧ (∀ s : State, s.powered = true → s.port.phase = .stream → (∀ t, s.cursor.store ≠ .transfer t) →
      exec .tokenEnd s = .next { s with port := { s.port with reply := [] } })
  ∧ (∀ s : State, s.atCommand → s.ctrl.state ≠ .recovering →
      exec .readRecords s = .next
        { s with port := { s.port with phase := .stream, command := 0x31, args := [], reply := [0x00], lastResult := .ok } })

/-- Which sector a reclaim takes (R89, R90, R94): a DIRTY one of least index; else a CLOSED one with nothing readable, of
least epoch; else the CLOSED one of least epoch, where retention is WRAP, the journal has not failed and the retain floor
lies above its last seq. An OPEN, FREE, ERASING or RETIRED sector is never taken. -/
def Obligations.ReclaimCandidates : Prop :=
  ∀ (s : State) (j : JSector),
    (s.reclaimCandidate = some j → s.dir[j].state = .dirty ∨ s.dir[j].state = .closed)
    ∧ (s.dir[j].state = .dirty → (∀ i : JSector, s.dir[i].state = .dirty → j.val ≤ i.val) → s.reclaimCandidate = some j)
    ∧ ((∀ i : JSector, s.dir[i].state ≠ .dirty) →
      (s.dir[j].state = .closed → s.dir[j].firstSeq = 0 →
        (∀ i : JSector, s.dir[i].state = .closed → s.dir[i].firstSeq = 0 →
          s.dir[j].epoch < s.dir[i].epoch ∨ s.dir[j].epoch = s.dir[i].epoch ∧ j.val ≤ i.val) →
        s.reclaimCandidate = some j)
      ∧ ((∀ i : JSector, s.dir[i].state = .closed → s.dir[i].firstSeq ≠ 0) → s.dir[j].state = .closed →
        (∀ i : JSector, s.dir[i].state = .closed →
          s.dir[j].epoch < s.dir[i].epoch ∨ s.dir[j].epoch = s.dir[i].epoch ∧ j.val ≤ i.val) →
        s.reclaimCandidate =
          if s.setup.fields.journal.retention = .wrap ∧ s.ctrl.state ≠ .failed
              ∧ (match s.setup.fields.journal.floorMode with
                 | .noFloor => true
                 | .fixed => decide (s.dir[j].lastSeq < s.setup.fields.journal.fixedFloor)
                 | .cursor => decide (s.dir[j].lastSeq < s.cursor.target)) = true then some j
          else none))

/-- A reclaim starts (R93, R95, R107, R114, R122): only with the engine idle, fewer than two sectors FREE and the journal
in one of its five states; the sector enters ERASING with nothing readable, its pages leave the withheld list and the read
buffer, a cursor at or below its last seq is overtaken, which restarts a seek, and its erase is requested. A fetch of its
page, and with an overtaking a seek's read of its page, is no longer wanted (R110, R114). That a seek's read of another
sector stays wanted, and the restarted seek still waits for it, is the model's choice (log entry 27): those rules name the
read of the reclaimed sector alone. -/
def Obligations.ReclaimStarts : Prop :=
  ∀ s : State,
    (s.reclaim.phase ≠ .idle ∨ 2 ≤ s.dir.countOf .free
        ∨ s.ctrl.state ∈ [JState.recovering, .formatting, .draining, .drained] ∨ s.reclaimCandidate = none →
      s.reclaimTest = s)
    ∧ ∀ j : JSector, s.reclaim.phase = .idle → s.dir.countOf .free < 2 →
      s.ctrl.state ∈ [JState.running, .stopping, .stopped, .full, .failed] → s.reclaimCandidate = some j →
      ∃ t : State, s.reclaimTest = t
        ∧ t.reclaim = { phase := .erase, target := some j }
        ∧ t.dir = s.dir.update j (fun x =>
            { x with state := .erasing, firstSeq := 0, lastSeq := 0, firstStamp := 0, lastStamp := 0 })
        ∧ { requester := .reclaim, kind := .erase, sector := sectorOf j, page := 0, data := [], generation := 0,
            wanted := true } ∈ t.array.made
        ∧ t.array.mem = s.array.mem ∧ t.array.erase = s.array.erase
        ∧ t.cursor.withheld = s.cursor.withheld.filter (fun w => w.1 != j)
        ∧ t.cursor.lastReturned = s.cursor.lastReturned
        ∧ t.cursor.buffer = (match s.cursor.buffer with
            | .held i p b => if i = j then .empty else .held i p b
            | .fetching i p => if i = j then .empty else .fetching i p
            | .empty => .empty)
        ∧ ∀ (taken : Bool) (gone : Request → Bool),
          taken = (s.dir[j].firstSeq != 0 && decide (s.cursor.target ≤ s.dir[j].lastSeq)) →
          gone = (fun r => taken && r.requester == .cursorSeek && r.sector == sectorOf j
            || r.requester == .cursorFetch && (match s.cursor.buffer with | .fetching i _ => i == j | _ => false)) →
          t.array.op = s.array.op.map (fun r => if gone r then { r with wanted := false } else r)
          ∧ t.array.waiting = s.array.waiting.filter (fun r => !gone r)
          ∧ t.events = (if taken then { s.events with flags := s.events.flags ||| Event.cursorLost.mask } else s.events)
          ∧ t.cursor.target = (if taken then t.resumePoint else s.cursor.target)
          ∧ t.cursor.pendingToken = (if taken then .lost t.resumePoint else s.cursor.pendingToken)
          ∧ t.cursor.faultSeen = (if taken then false else s.cursor.faultSeen)
          ∧ t.cursor.seek = (if taken then s.cursor.seek.map fun k =>
                { stamp := k.stamp, position := none
                  outstanding := k.outstanding && !(s.array.op.toList ++ s.array.waiting ++ s.array.made).any fun r =>
                    r.wanted && (r.requester == .cursorSeek && r.sector == sectorOf j) }
              else s.cursor.seek)
          ∧ t.cursor.store = (match s.cursor.store with
              | .kept n rec => if taken then .empty else .kept n rec
              | x => x)
          ∧ t = { s with reclaim := t.reclaim, dir := t.dir, cursor := t.cursor, events := t.events, array := t.array }

/-! ### Recovery, power fail and reset (chapters 8 and 9) -/

/-- A setup page in LOADING, a head in HEADS (R158 to R161): the page adds to the load, or its class to the head table,
and the next page in order is requested; after the last setup page the setup is loaded and the heads are read; a page
delivered to an abandoned recovery is not used. What a setup page adds to the load, and the load (R159, R180): a committed
copy with every field in range replaces a choice of no higher generation; the choice becomes the working setup with origin
STORED, and without one the defaults are loaded; the store goes on behind the highest page in use of the sector of the
copy in force. From the load on the PACE pins follow the polarity (R24; log entry 47). The order of the scan (R158, R161,
R162): of VALID heads that share an epoch all but the one of highest index become DAMAGED; the VALID sectors are scanned
in ascending epoch and after them the BLANK ones in ascending index, each from page 1; with none left comes the finishing
happening. -/
def Obligations.RecoveryReads : Prop :=
  (∀ (s u : State) (r : Request) (page : List Byte),
      s.powered = true → s.array.op = some r → r.requester = .recovery → page = readPage s.array.mem r.sector r.page →
      u = { s with array := { s.array with op := none } } →
      ∀ read : Sector → PageIx → State → State,
      read = (fun sec p v => State.request
        { requester := .recovery, kind := .read, sector := sec, page := p, data := [], generation := 0, wanted := true }
        { v with recov := { v.recov with scan := some (sec, p) } }) →
      (r.wanted = false → exec .recoveryReadEnd s = .next (u.settle true))
      ∧ (r.wanted = true → s.recov.phase = .loading → ∀ v : State,
        v = { u with recov := s.recov.takeSetup r.sector r.page page } →
        exec .recoveryReadEnd s = .next (State.settle true
          (if r.page.val < 15 then read r.sector (pageOf (r.page.val + 1)) v
           else if r.sector ≠ 127 then read 127 0 v
           else read 0 0 { v.loadSetup with recov := { v.loadSetup.recov with phase := .heads } })))
      ∧ (r.wanted = true → s.recov.phase = .heads → ∀ (j : JSector) (v : State), r.sector = sectorOf j →
        v = { u with recov := { s.recov with heads := s.recov.heads ++ [headClass page] } } →
        exec .recoveryReadEnd s = .next (State.settle true
          (if h : j.val + 1 < 126 then read (sectorOf ⟨j.val + 1, h⟩) 0 v
           else
            State.scanAfterValid 0
              { v with recov := { v.recov with
                  phase := .pages
                  heads := damageShared v.recov.heads
                  damaged := (damageShared v.recov.heads).countP (· == .damaged) } }))))
  ∧ ((∀ (sec : Sector) (p : PageIx) (page : List Byte) (r t : RecoveryUnit), t = r.takeSetup sec p page →
      t = { r with nextA := t.nextA, nextB := t.nextB, choice := t.choice }
      ∧ t.nextA = (if allFF page = false ∧ sec ≠ 127 then p.val + 1 else r.nextA)
      ∧ t.nextB = (if allFF page = false ∧ sec = 127 then p.val + 1 else r.nextB)
      ∧ (setupOfPage page = none → t.choice = r.choice)
      ∧ ∀ f g, setupOfPage page = some (f, g) →
          (r.choice = none ∨ (∃ c, r.choice = some c ∧ c.generation ≤ g) →
            t.choice = some { fields := f, generation := g, sector := sec, page := p })
          ∧ ∀ c, r.choice = some c → g < c.generation → t.choice = some c)
    ∧ ∀ s : State,
      (s.recov.choice = none → s.loadSetup =
        { s with setup := WorkingSetup.default
                 setupLoaded := true
                 store := { SetupStore.reset with nextPage := s.recov.nextA }
                 recov := { s.recov with result := some (.defaults, 0) } })
      ∧ ∀ c : LoadChoice, s.recov.choice = some c → s.loadSetup =
        { s with setup := { fields := c.fields, source := .stored, generation := c.generation }
                 setupLoaded := true
                 store := { SetupStore.reset with
                   current := if c.sector = 127 then .b else .a
                   nextPage := if c.sector = 127 then s.recov.nextB else s.recov.nextA
                   location := some (if c.sector = 127 then .b else .a, c.page)
                   latest := c.generation
                   issued := c.generation }
                 recov := { s.recov with result := some (.stored, c.generation) } })
  ∧ ((∀ (heads : List HeadInfo) (i : Nat) (h : HeadInfo), heads[i]? = some h →
      ((∃ e k h', h.epoch? = some e ∧ i < k ∧ heads[k]? = some h' ∧ h'.epoch? = some e) →
        (damageShared heads)[i]? = some .damaged)
      ∧ ((∀ e k h', h.epoch? = some e → i < k → heads[k]? = some h' → h'.epoch? ≠ some e) →
        (damageShared heads)[i]? = some h))
    ∧ (∀ (s : State) (sec : Sector) (p : PageIx), s.recoverNext sec p = State.request
        { requester := .recovery, kind := .read, sector := sec, page := p, data := [], generation := 0, wanted := true }
        { s with recov := { s.recov with scan := some (sec, p) } })
    ∧ (∀ (r : RecoveryUnit) (n : Nat), (r.nextBlank n = none ↔ ∀ j : JSector, n ≤ j.val → r.head j ≠ .blank)
        ∧ ∀ j : JSector, r.nextBlank n = some j ↔
            n ≤ j.val ∧ r.head j = .blank ∧ ∀ i : JSector, n ≤ i.val → r.head i = .blank → j.val ≤ i.val)
    ∧ ∀ (s : State) (e : Nat) (valid : JSector → Nat → Prop),
        (∀ j n, valid j n ↔ ∃ c used, s.recov.head j = .valid n c used) →
        (∀ j n, valid j n → e < n → (∀ i m, valid i m → e < m → n < m ∨ n = m ∧ j.val ≤ i.val) →
          s.scanAfterValid e = s.recoverNext (sectorOf j) 1)
        ∧ ((∀ j n, valid j n → n ≤ e) → s.scanAfterValid e = (match s.recov.nextBlank 0 with
            | some j => s.recoverNext (sectorOf j) 1
            | none => s.finishRecovery)))

/-- A record page in PAGES (R162, R163, R164): of a VALID sector all fifteen are read, each counted by its class, and a
COMMITTED page removes the accepted pages that reach its first seq and joins the list; of a BLANK sector pages are read up
to the first that is not ERASED, which makes it DAMAGED. -/
def Obligations.RecoveryReadsPages : Prop :=
  ∀ (s u : State) (r : Request) (page : List Byte) (j : JSector),
    s.powered = true → s.array.op = some r → r.requester = .recovery → page = readPage s.array.mem r.sector r.page →
    u = { s with array := { s.array with op := none } } → r.wanted = true → s.recov.phase = .pages → r.sector = sectorOf j →
    (∀ (e c used : Nat), s.recov.head j = .valid e c used →
      ∀ (kept : List AcceptedPage) (v : State),
      kept = s.recov.accepted.filter (fun a => decide (a.lastSeq < recSeq ((pageRecords page).headD []))) →
      v = { u with recov := { s.recov with
            heads := s.recov.heads.set j.val (.valid e c (if pageClass page = .erased then used else r.page.val))
            discarded := (match pageClass page with
              | .uncommitted | .torn false => s.recov.discarded + 1
              | .committed => s.recov.discarded + (s.recov.accepted.length - kept.length)
              | .erased | .torn true => s.recov.discarded)
            corrupt := if pageClass page = .torn true then s.recov.corrupt + 1 else s.recov.corrupt
            accepted := if pageClass page = .committed then
                kept ++ [{ sector := j, page := r.page
                           firstSeq := recSeq ((pageRecords page).headD [])
                           lastSeq := recSeq ((pageRecords page).getLastD [])
                           firstStamp := recStamp ((pageRecords page).headD [])
                           lastStamp := recStamp ((pageRecords page).getLastD [])
                           lastKind := recKind ((pageRecords page).getLastD []) }]
              else s.recov.accepted } } →
      exec .recoveryReadEnd s = .next (State.settle true
        (if r.page.val < 15 then v.recoverNext r.sector (pageOf (r.page.val + 1)) else v.scanAfterValid e)))
    ∧ (s.recov.head j = .blank → ∀ v : State,
      v = (if pageClass page = .erased then u
           else { u with recov := { s.recov with heads := s.recov.heads.set j.val .damaged
                                                 damaged := s.recov.damaged + 1 } }) →
      exec .recoveryReadEnd s = .next (State.settle true
        (if pageClass page = .erased ∧ r.page.val < 15 then v.recoverNext r.sector (pageOf (r.page.val + 1))
         else match v.recov.nextBlank (j.val + 1) with
           | some i => v.recoverNext (sectorOf i) 1
           | none => v.finishRecovery)))

/-- The finishing happening (R161, R165, R166, R167): the counters resume from the last accepted page and the heads, last
epoch the highest epoch of a VALID head or 0, the stamp counter is loaded if it is held with the last stamp plus 1, at
most 2^48-1, and the cursor goes to the resume point (R125). That the transmit store stays as it stood there, though R125
gives it as empty, is the model's choice (log entry 51). BLANK, DAMAGED and RETIRED heads give FREE, DIRTY and RETIRED
sectors with the inherited erase count, the highest of a VALID head or 0. Of the VALID sectors with an accepted or a used
page, the one of highest epoch becomes OPEN, if its pages used is below 15, and the target; the others CLOSED. -/
def Obligations.RecoveryRebuilds : Prop :=
  ∀ (s t : State) (last : Nat × Nat) (pages : JSector → List AcceptedPage) (ring : JSector → Nat → Nat → Prop), t = s.rebuild →
    last = (match s.recov.accepted.getLast? with | some a => (a.lastSeq, min (a.lastStamp + 1) 0xFFFFFFFFFFFF) | none => (0, 0)) →
    pages = (fun j => s.recov.accepted.filter (fun a => a.sector == j)) →
    (∀ j e used, ring j e used ↔ (∃ c, s.recov.head j = .valid e c used) ∧ (pages j ≠ [] ∨ used ≠ 0)) →
    t = { s with
          dir := t.dir
          time := if s.time.held then
              { s.time with counter := last.2, prescaler := 0, held := false, saturated := last.2 == 0xFFFFFFFFFFFF }
            else s.time
          commit := { s.commit with newestSeq := last.1, lastEpoch := t.commit.lastEpoch, target := t.commit.target,
                                    nextPage := t.commit.nextPage }
          adm := { s.adm with nextSeq := if 0xFFFFFFFF ≤ last.1 then 0 else last.1 + 1
                              exhausted := decide (0xFFFFFFFF ≤ last.1) }
          cursor := { s.cursor with target := t.resumePoint } }
    ∧ (∀ h ∈ s.recov.heads, ∀ e, h.epoch? = some e → e ≤ t.commit.lastEpoch)
    ∧ (t.commit.lastEpoch = 0 ∨ ∃ h ∈ s.recov.heads, h.epoch? = some t.commit.lastEpoch)
    ∧ ((∀ j e used, ¬ ring j e used) → t.commit.target = none)
    ∧ (∀ j e used, ring j e used → (∀ i e' used', ring i e' used' → i ≠ j → e' < e) →
        t.commit.target = if used < 15 then some j else none)
    ∧ (∀ j : JSector, t.commit.target = some j →
        (∃ e used, ring j e used ∧ used < 15 ∧ ∀ i e' used', ring i e' used' → e' ≤ e)
        ∧ t.commit.nextPage = t.dir[j].pagesUsed + 1)
    ∧ ∃ inherited : Nat,
      (∀ h ∈ s.recov.heads, ∀ e c used, h = .valid e c used → c ≤ inherited)
      ∧ (inherited = 0 ∨ ∃ e used, HeadInfo.valid e inherited used ∈ s.recov.heads)
      ∧ ∀ j : JSector,
        (s.recov.head j = .blank → t.dir[j] = { Entry.blank .free with eraseCount := inherited })
        ∧ (s.recov.head j = .damaged → t.dir[j] = { Entry.blank .dirty with eraseCount := inherited })
        ∧ (s.recov.head j = .retired → t.dir[j] = { Entry.blank .retired with eraseCount := inherited })
        ∧ ∀ (e c used : Nat), s.recov.head j = .valid e c used →
          (pages j = [] → used = 0 → t.dir[j] = { Entry.blank .dirty with epoch := e, eraseCount := c })
          ∧ (pages j = [] → used ≠ 0 → t.dir[j]
              = { Entry.blank (if t.commit.target = some j then .opened else .closed) with
                  epoch := e, eraseCount := c, pagesUsed := used })
          ∧ ∀ a z, (pages j).head? = some a → (pages j).getLast? = some z → t.dir[j]
              = { Entry.blank (if t.commit.target = some j then .opened else .closed) with
                  epoch := e, eraseCount := c, pagesUsed := used, firstSeq := a.firstSeq, firstStamp := a.firstStamp,
                  lastSeq := z.lastSeq, lastStamp := z.lastStamp }

/-- The end of the scan and of recovery (R168, R169, R170, R171, R22): below four usable sectors FAILED; with the numbers
exhausted FULL, with stop-requested unless autostart is on; otherwise the START with the recovery's counts is placed, and
when the report of its close is taken the state is RUNNING or STOPPING by autostart, and the requests made in RECOVERING
wait (R62; log entry 45). The enabled lines start unsettled, and RECOVERY_DONE is raised. -/
def Obligations.RecoveryFinishes : Prop :=
  ∀ s t : State, t = { s.rebuild with recov := { s.recov with scan := none } } →
    ∀ close : State → State,
    close = (fun v => { v with
      recov := { v.recov with phase := .idle }
      lines := Vector.ofFn fun i => if v.setup.fields.line[i].enable then { v.lines[i] with receiver := .unsettled, idle := none }
                                    else v.lines[i]
      events := { v.events with flags := v.events.flags ||| Event.recoveryDone.mask } }) →
    (t.dir.usable < 4 → s.finishRecovery = close ((t.enter .failed).haltCommit))
    ∧ (4 ≤ t.dir.usable → t.adm.exhausted = true →
        s.finishRecovery = close ((if s.setup.fields.journal.autostart then t.enterRunning else t.enter .stopping).reportExhausted))
    ∧ (4 ≤ t.dir.usable → t.adm.exhausted = false → s.finishRecovery = { t with
        recov := { s.recov with scan := none, phase := .closing }
        adm := { t.adm with sys := some (.start
          { cause := (match s.ctrl.resetCause with
              | .powerOn => .powerOn | .resetPin => .resetPin | .hostReset => .hostReset)
            clean := (match s.recov.accepted.getLast? with | some a => a.lastKind == 4 | none => false)
            k := s.setup.fields.journal.k
            source := (match s.recov.result with | some (x, _) => x | none => .defaults)
            generation := (match s.recov.result with | some (_, g) => g | none => 0)
            discarded := s.recov.discarded
            corrupt := s.recov.corrupt
            damaged := s.recov.damaged
            retired := t.dir.countOf .retired } t.systemStamp) } })
    ∧ ∀ u v w : State, u = { s with adm := { s.adm with reportOwed := false }
                                    array := { s.array with waiting := s.array.waiting ++ s.array.made, made := [] } } →
        v = (if u.setup.fields.journal.autostart then u.enterRunning else u.enter .stopping) →
        w = (if v.commit.phase = .blocked then v.spaceBlocked else v) →
        s.recoveryEnd = close (if w.adm.exhausted then w.reportExhausted else w)

/-- Resets (R153, R154, R155, R64, R24, R45): a reset, whichever of the three it is, gives every field its value after
reset (those the manual does not give are log 15's) but the input pins, the queue and the array, and records its cause;
the array keeps every byte outside the range of a program and the sector of an erase that are cut. POWER_ON_RESET takes it
with cause POWER_ON; RESET_N_FALL with RESET_PIN, but POWER_ON where RESET_N falls in such a reset (log entry 31); the
reset of a Reset Device has cause HOST_RESET, and `ResetDeviceRule` and `DrainAndReturn` say when it is taken. RESET_N
without supply, the end of a reset, and a loss of power (R64, R144, R153, R158, R173): the reset ends into recovery, or
with PFW_N low into DRAINED with recovery still to come, and finds RESET_N high (log entry 31); without supply a fall of
RESET_N moves the pin alone (log entry 4); a loss of power leaves the array's bytes outside what was in flight, and the
registers (log entry 32). POWER_ON_RESET always, and RESET_N_FALL at a high RESET_N, has a next state. -/
def Obligations.Resets : Prop :=
  ((∀ (s t : State) (cause : ResetCause), t = s.takeReset cause →
      t = { State.reset with
            ctrl := { State.reset.ctrl with resetCause := cause }
            array := { State.reset.array with mem := t.array.mem }
            pins := s.pins
            freeIx := t.freeIx
            pending := s.pending }
      ∧ ∀ a, (∀ r, s.array.op = some r → r.kind ≠ .read → a < r.addr ∨ r.addr + r.bytes.length ≤ a) →
          (∀ e, s.array.erase = some e → a < e.sector.val * 0x2000 ∨ e.sector.val * 0x2000 + 0x2000 ≤ a) →
          memByte t.array.mem a = memByte s.array.mem a)
    ∧ ∀ s u : State, u = { s with pins := { s.pins with resetN := false } } →
      exec .powerOnReset s = .next (s.takeReset .powerOn)
      ∧ (s.pins.resetN = true → s.powered = true → exec .resetNFall s = .next
          (u.takeReset (if s.inReset = true ∧ s.ctrl.resetCause = .powerOn then .powerOn else .resetPin))))
  ∧ (∀ s u : State,
      (∃ t, exec .powerOnReset s = .next t)
      ∧ (s.pins.resetN = true → ∃ t, exec .resetNFall s = .next t
          ∧ (s.powered = false → t = { s with pins := { s.pins with resetN := false } }))
      ∧ (s.powered = true → s.inReset = true → u = { s with inReset := false, pins := { s.pins with resetN := true } } →
        (s.pins.pfwN = true → exec .resetEnd s = .next (State.settle false (State.request
          { requester := .recovery, kind := .read, sector := 126, page := 0, data := [], generation := 0, wanted := true }
          { u with recov := { RecoveryUnit.reset with phase := .loading, scan := some (126, 0) }
                   dir := Vector.replicate 126 (Entry.blank .unknown) })))
        ∧ (s.pins.pfwN = false → exec .resetEnd s = .next (u.abandonRecovery.settle false)))
      ∧ (s.powered = true → ∃ t, exec .powerLoss s = .next t ∧ t.powered = false ∧ t.array.op = none ∧ t.array.erase = none
          ∧ t.array.waiting = [] ∧ t.ctrl = { s.ctrl with drain := .noDrain }
          ∧ t = { s with array := t.array, ctrl := t.ctrl, powered := false, freeIx := t.freeIx }
          ∧ ∀ a, (∀ r, s.array.op = some r → r.kind ≠ .read → a < r.addr ∨ r.addr + r.bytes.length ≤ a) →
              (∀ e, s.array.erase = some e → a < e.sector.val * 0x2000 ∨ e.sector.val * 0x2000 + 0x2000 ≤ a) →
              memByte t.array.mem a = memByte s.array.mem a))

/-- A fall of PFW_N (R57, R63, R78, R81, R99, R102, R110, R114, R141, R144, R145, R173): without supply only the pin
changes (log 4), as in a reset, DRAINING and DRAINED. In RECOVERING recovery is abandoned into DRAINED: its read is given
up, the START leaves its slot, and the commit path's buffer is released. Elsewhere the drain begins: the host operation is
ABORTED, CLOSED buffers reopen, all waiting requests but the commit path's are refused (erases leave their sector DIRTY, a
reclaim stops, the read buffer empties), an erase stops, and a BLOCKED or HALTED path gives its buffer up; note and START
are discarded (R40). That an empty FILLING buffer beside a reopened one becomes IDLE is the model's deduction (log 22),
and so is that an abandoned recovery releases a START's buffer from BLOCKED too, and leaves a report owed without effect
(logs 33 and 45). That it gives up its setup result and scan position too (log 52), and the seqs 0 of an empty buffer (log
15), are the model's choice. -/
def Obligations.PowerFailFalls : Prop :=
  ∀ s u : State, s.pins.pfwN = true → u = { s with pins := { s.pins with pfwN := false } } →
    (s.powered = false ∨ s.inReset = true ∨ s.ctrl.state = .draining ∨ s.ctrl.state = .drained →
      exec .pfwNFall s = .next u)
    ∧ (s.powered = true → s.inReset = false → s.ctrl.state = .recovering →
      ∃ v : State, exec .pfwNFall s = .next (v.settle false) ∧ v = u.abandonRecovery
        ∧ v = { u with
            ctrl := { s.ctrl with state := .drained, saved := some .recovering }
            events := { s.events with flags := s.events.flags ||| Event.state.mask }
            recov := RecoveryUnit.reset
            setup := if s.recov.phase = .loading then WorkingSetup.default else s.setup
            commit := { s.commit with
              holding := none, phase := .idle
              leavingBlocked := if s.commit.holding = none then s.commit.leavingBlocked else false }
            adm := { s.adm with
              sys := none, reportOwed := false
              bufP := if s.commit.holding = some .p then
                Buffer.empty (if s.adm.bufQ.role = .filling then .idle else .filling) else s.adm.bufP
              bufQ := if s.commit.holding = some .q then
                Buffer.empty (if s.adm.bufP.role = .filling then .idle else .filling) else s.adm.bufQ }
            array := { s.array with
              waiting := [], made := []
              op := s.array.op.map fun r => if r.requester = .recovery then { r with wanted := false } else r }
            dir := v.dir }
        ∧ ∀ j : JSector, v.dir[j] = if s.dir[j].state = .unknown then Entry.blank .dirty else s.dir[j])
    ∧ (s.powered = true → s.inReset = false → s.ctrl.state ∉ [JState.recovering, .draining, .drained] →
      ∀ (refused : List Request) (again : Buffer → Buffer → Buffer) (p q : Buffer) (gives : Bool),
      refused = (s.array.waiting ++ s.array.made).filter (fun r => r.requester != .commit) →
      again = (fun b o => if b.role = .closed then { b with role := .filling }
        else if o.role = .closed ∧ b.role = .filling ∧ b.count = 0 then { b with role := .idle } else b) →
      p = again s.adm.bufP s.adm.bufQ → q = again s.adm.bufQ s.adm.bufP →
      (gives = true ↔ s.commit.phase = .blocked ∨ s.commit.phase = .halted) →
      ∃ v : State, exec .pfwNFall s = .next (u.beginDrain.settle false)
        ∧ u.beginDrain = (if v.commit.holding = none then v.shutdownStep else { v with ctrl := { v.ctrl with drain := .finishing } })
        ∧ v = { u with
            ctrl := { s.ctrl with
              state := .draining, saved := some s.ctrl.state, shutdownOutcome := .noOutcome, opKind := .noOp
              opOutcome := if s.ctrl.opKind = .noOp then s.ctrl.opOutcome else .aborted
              format := .noFormat, formatDone := [] }
            events := { s.events with flags := s.events.flags ||| Event.state.mask
              ||| if s.ctrl.opKind = .noOp then 0 else Event.opDone.mask }
            adm := { s.adm with
              note := none, sys := none
              bufP := if gives ∧ s.commit.holding = some .p then
                Buffer.empty (if q.role = .filling then .idle else .filling) else p
              bufQ := if gives ∧ s.commit.holding = some .q then
                Buffer.empty (if p.role = .filling then .idle else .filling) else q }
            commit := if gives then
              { s.commit with holding := none, phase := .idle, drainLoss := true, leavingBlocked := false } else s.commit
            array := { s.array with
              mem := v.array.mem
              waiting := s.array.waiting.filter (fun r => r.requester == .commit)
              made := s.array.made.filter (fun r => r.requester == .commit)
              op := s.array.op.map fun r => if r.requester = .setup then { r with wanted := false } else r
              erase := s.array.erase.bind fun e => if e.cond = .suspended then none
                else some { e with cond := .stopPending, wanted := e.wanted && e.requester != .setup } }
            freeIx := v.freeIx
            dir := v.dir
            reclaim := if refused.any (fun r => r.requester == .reclaim) || s.array.erase.any (fun e => e.cond == .suspended
                && e.requester == .reclaim && decide (e.sector.val < 126)) then ⟨.idle, none⟩ else s.reclaim
            cursor := { s.cursor with
              buffer := if refused.any (fun r => r.requester == .cursorFetch) then .empty else s.cursor.buffer
              seek := s.cursor.seek.map fun k =>
                ⟨k.stamp, k.position, k.outstanding && !refused.any fun r => r.requester == .cursorSeek⟩ }
            store := { s.store with phase := .idle, copy := none, seekOwed := false } }
        ∧ (∀ j : JSector, v.dir[j] =
            if refused.any (fun r => r.kind == .erase && (r.requester == .reclaim || r.requester == .format)
                && r.sector == sectorOf j)
              || s.array.erase.any (fun e => e.cond == .suspended && (e.requester == .reclaim || e.requester == .format)
                && e.sector == sectorOf j)
            then { s.dir[j] with state := .dirty } else s.dir[j])
        ∧ ∀ a, (∀ e, s.array.erase = some e → e.cond = .suspended →
              a < e.sector.val * 0x2000 ∨ e.sector.val * 0x2000 + 0x2000 ≤ a) →
            memByte v.array.mem a = memByte s.array.mem a)

/-- The steps of a drain (R147, R148, R149): the SHUTDOWN record is admitted with its system stamp (R38), as
`AdmittedRecord` has it, and closes its buffer, or with the numbers exhausted is not admitted, and with an empty buffer,
or in drain loss mode, the drain ends at once (R150); the drain ends in DRAINED, and goes on to the reset of a Reset
Device, at that happening also with CS_N still low (log 53, the model's choice), or with PFW_N high to the return. A rise
of PFW_N (R142, R144, R151, R174): outside DRAINED, and without supply (log 4), only the pin changes; in DRAINED the
journal returns by the saved state: to a new recovery, its admission unit at its reset values (logs 15 and 48) and its
first read made at once (log 50), to a new Format, to FAILED below four usable sectors, or to the state saved with a
RESUME START placed, whose clean flag tells whether the SHUTDOWN was committed. Into FAILED and FORMATTING the model's
choices are those of log 37. How a Format starts again (`formatStart`) is stated in `FormatStarts`. -/
def Obligations.DrainAndReturn : Prop :=
  (∀ s v : State,
      (∀ b : BufId, s.adm.exhausted = false → s.adm.filling = some b →
        v = s.admitted b (.sys (.shutdown s.systemStamp)) → s.shutdownStep = v.handOver)
      ∧ (s.adm.exhausted = true →
        v = { s with adm := { s.adm with sys := some (.shutdown s.systemStamp) }
                     ctrl := { s.ctrl with shutdownOutcome := .notAdmitted } } →
        s.shutdownStep = if (∃ b, s.adm.filling = some b ∧ (s.adm.buf b).count ≠ 0) then v.handOver
                         else v.drainEnd .notAdmitted)
      ∧ (v = State.closeFilling { s with ctrl := { s.ctrl with drain := .closing } } →
        s.handOver = if v.commit.holding = none then v.drainEnd .lost else v)
      ∧ ∀ o : ShutdownOutcome, s.ctrl.state = .draining →
        v = { s with
              ctrl := { s.ctrl with state := .drained, drain := .noDrain,
                                    shutdownOutcome := if s.ctrl.shutdownOutcome = .notAdmitted then .notAdmitted else o }
              adm := { s.adm with sys := none }
              events := { s.events with flags := s.events.flags ||| Event.state.mask } } →
        s.drainEnd o = if s.ctrl.hostResetPending then v.takeReset .hostReset
                       else if s.pins.pfwN then v.returnFromDrained else v)
  ∧ (∀ s u : State, s.pins.pfwN = false → u = { s with pins := { s.pins with pfwN := true } } →
      (s.powered = false ∨ s.inReset = true ∨ s.ctrl.state ≠ .drained → exec .pfwNRise s = .next u)
      ∧ (s.powered = true → s.inReset = false → s.ctrl.state = .drained →
        ∀ (enter : JState → State → State) (resume : State → State),
        enter = (fun j v => { v with ctrl := { v.ctrl with state := j }
                                     events := { v.events with flags := v.events.flags ||| Event.state.mask } }) →
        resume = (fun v => { v with
          adm := { v.adm with sys := some (.start
            { cause := .resume, clean := s.ctrl.shutdownOutcome == .committed, k := s.setup.fields.journal.k,
              source := s.setup.source, generation := s.setup.generation, discarded := 0, corrupt := 0, damaged := 0,
              retired := s.dir.countOf .retired } v.systemStamp) }
          ctrl := { v.ctrl with shutdownOutcome := .noOutcome } }) →
        exec .pfwNRise s = .next (u.returnFromDrained.settle false)
        ∧ (s.ctrl.saved = some .recovering → u.returnFromDrained = State.beginRecovery
          { u with
            ctrl := { s.ctrl with state := .recovering, saved := none }
            events := { s.events with flags := s.events.flags ||| Event.state.mask }
            commit := CommitPath.reset
            cursor := CursorEngine.reset
            adm := State.reset.adm })
        ∧ ∀ (b : State) (x : JState), s.ctrl.saved = some x → x ∉ [JState.recovering, .draining, .drained] →
          b = { u with ctrl := { s.ctrl with saved := none }, commit := { s.commit with drainLoss := false } } →
          (s.dir.usable < 4 ∨ x = .failed →
            u.returnFromDrained = (resume (enter .failed b)).haltCommit)
          ∧ (4 ≤ s.dir.usable → x = .formatting → u.returnFromDrained
              = { b.formatStart with ctrl := { b.formatStart.ctrl with shutdownOutcome := .noOutcome } })
          ∧ (4 ≤ s.dir.usable → s.adm.exhausted = true → x ≠ .failed → x ≠ .formatting →
              u.returnFromDrained = resume (enter .full
                (if x = .stopping ∨ x = .stopped then { b with ctrl := { b.ctrl with stopRequested := true } } else b)))
          ∧ (4 ≤ s.dir.usable → s.adm.exhausted = false →
              (x = .full ∧ s.ctrl.spaceWait = true →
                u.returnFromDrained = resume (enter .full b))
              ∧ (x = .stopping ∨ x = .stopped ∨ x = .full ∧ s.ctrl.spaceWait = false ∧ s.ctrl.stopRequested = true →
                u.returnFromDrained = resume (enter .stopped { b with ctrl := { b.ctrl with stopRequested := false } }))
              ∧ (x = .running ∨ x = .full ∧ s.ctrl.spaceWait = false ∧ s.ctrl.stopRequested = false →
                u.returnFromDrained = State.enterRunning (resume b)))))

/-! ### What chapter 12 lays out, and what every step keeps -/

/-- What the part writes reads back as it was meant (R82, R159, R160, R198, R199, R200, R201): a setup copy with its
commit field gives its fields and generation; a head page is VALID with its epoch and erase count; a page of one to thirty
records with rising seqs and its commit field is COMMITTED and gives those records. The CRC has the check value of R200.
The class of a record page (R82): the first test that applies, over its 504 body bytes and its commit field. Consistent
are one to thirty records, walked from offset 16, with a first seq that is not 0, each seq one above the one before it,
and the header's two seqs those of the first and the last. TORN `true` is a corrupt page. The class of a head page (R160):
RETIRED by its retire field, BLANK, VALID, or DAMAGED, by the first test that applies. -/
def Obligations.LayoutsReadBack : Prop :=
  (crc [0x31, 0x32, 0x33, 0x34, 0x35, 0x36, 0x37, 0x38, 0x39] = 0xFC891918
    ∧ (∀ (f : SetupFields) (g : Nat), g < 2 ^ 32 → (∀ i : LineIx, f.line[i].inRange = true) → f.journal.inRange = true →
      setupOfPage (setupBody f g ++ commitField (crc (setupBody f g))) = some (f, g))
    ∧ (∀ epoch count : Nat, 0 < epoch → epoch < 2 ^ 32 → count ≤ 99999 →
      headClass (headFields epoch count ++ List.replicate 492 0xFF) = .valid epoch count 0)
    ∧ ∀ (epoch : Nat) (b : Buffer) (recs : List (List Byte)),
      b.data = recs.flatten → b.count = recs.length → 1 ≤ recs.length → recs.length ≤ 30 → b.data.length ≤ 488 →
      (∀ rec ∈ recs, rec.length = 16 + (byteAt rec 3).toNat ∧ rec.length ≤ 256) →
      (∀ (k : Nat) (h : k < recs.length), recSeq recs[k] = b.firstSeq + k) → 0 < b.firstSeq →
      b.lastSeq = b.firstSeq + recs.length - 1 → b.lastSeq < 2 ^ 32 →
      pageClass (pageBody epoch b ++ commitField (crc (pageBody epoch b))) = .committed
        ∧ pageRecords (pageBody epoch b ++ commitField (crc (pageBody epoch b))) = recs)
  ∧ (∀ (page body field : List Byte) (consistent : Prop) [Decidable consistent],
      page.length = 512 → body = page.take 504 → field = page.drop 504 →
      (consistent ↔ ∃ (recs : List (List Byte)) (rest : List Byte), body.drop 16 = recs.flatten ++ rest
        ∧ recs.length = (byteAt page 6).toNat ∧ 1 ≤ recs.length ∧ recs.length ≤ 30
        ∧ (∀ rec ∈ recs, rec.length = 16 + (byteAt rec 3).toNat ∧ (byteAt rec 3).toNat ≤ 240)
        ∧ recSeq (recs.headD []) ≠ 0
        ∧ (∀ (k : Nat) (h : k + 1 < recs.length), recSeq recs[k + 1] = recSeq recs[k] + 1)
        ∧ fieldAt page 8 4 = recSeq (recs.headD []) ∧ fieldAt page 12 4 = recSeq (recs.getLastD [])) →
      pageClass page =
        if ∀ b ∈ page, b = 0xFF then .erased
        else if ∀ b ∈ field, b = 0xFF then .uncommitted
        else if field.drop 4 ≠ [0x5E, 0x1A, 0x0C, 0x97] then .torn false
        else if beNat (field.take 4) ≠ (crc body).toNat then .torn true
        else if consistent then .committed
        else .torn false)
  ∧ (∀ page : List Byte, page.length = 512 →
      headClass page =
        if page.drop 496 = List.replicate 16 0 then .retired
        else if ∀ b ∈ page, b = 0xFF then .blank
        else if page.take 4 = [0x7A, 0x31, 0xC6, 0xE5] ∧ byteAt page 4 = 0x01 ∧ fieldAt page 8 4 ≠ 0 ∧ fieldAt page 12 4 ≤ 99999
            ∧ fieldAt page 16 4 = (crc (page.take 16)).toNat ∧ ∀ b ∈ page.drop 496, b = 0xFF then
          .valid (fieldAt page 8 4) (fieldAt page 12 4) 0
        else .damaged)

/-- Every step keeps a safe state safe: the array's memory in its canonical form below 1,048,576 (R46), every FIFO within
512 bytes, every queue within 8 descriptors and every lost count within 255 (R12, R14, R15), and the stamp counter within
48 bits with STAMP_SATURATED set at its last value (R26). The counter falls only in a reset, at a load while it is held,
or from its saturated value (R25 to R27). -/
def Obligations.StepsKeepSafe : Prop :=
  ∀ s t : State, step s = .next t →
    (s.memWf ∧ s.linesBounded ∧ s.stampWf → t.memWf ∧ t.linesBounded ∧ t.stampWf)
    ∧ (s.time.counter ≤ t.time.counter ∨ t.inReset = true ∨ s.time.held = true ∨ s.time.counter = 0xFFFFFFFFFFFF)

/-- The values after reset of R24, R45, R64, R83, R105, R125, R143, R157, R175, R177, R180 and R197, block by block, with
PACE active and its pin low, SDO at high impedance, IRQ_N released and the cursor ready with END; and the state is safe.
The last clause is the model's choice and no rule's: that State.reset is a power-on reset in force, with its pins high
(log 14), that its array lists nothing (log 13), and the values of log 15 (next page 1, the values of no piece, command,
copy or report, and the rest), with the two fields of the model's own. -/
def Obligations.ResetIsSafe : Prop :=
  (State.reset.memWf ∧ State.reset.linesBounded ∧ State.reset.stampWf)
  ∧ State.reset.setup =
      { fields :=
          { line := Vector.replicate 4
              { enable := false, divisor := 104, parity := .noParity, mode := .gap, g := 4, e1 := 0x0D, e2 := 0x0A, n := 16,
                maxlen := 240, policy := .split, high := 384, low := 128, polarity := .activeLow }
            journal :=
              { retention := .wrap, floorMode := .noFloor, fixedFloor := 0, k := 0, flushAge := 0, threshold := 1,
                autostart := false } }
        source := .defaults, generation := 0 }
  ∧ (∀ i : LineIx, ∃ p : Piece, State.reset.lines[i] =
      { receiver := .off, idle := none, framer := .waiting, piece := p, pairArmed := false, frameCount := 0, fifo := [],
        queue := [], lost := 0, hysteresis := false }
      ∧ State.reset.paceActive i = true ∧ State.reset.pacePin i = false)
  ∧ State.reset.time = { counter := 0, prescaler := 0, held := true, retimePending := false, saturated := false }
  ∧ (∀ (a : Admission) (filling idle : Buffer), a = State.reset.adm → filling = a.bufP → idle = a.bufQ →
      a.nextSeq = 1 ∧ a.exhausted = false ∧ a.note = none ∧ a.sys = none ∧ filling.role = .filling ∧ filling.data = []
      ∧ filling.count = 0 ∧ idle.role = .idle ∧ idle.data = [] ∧ idle.count = 0)
  ∧ (∀ a : StorageArray, a = State.reset.array → a.op = none ∧ a.erase = none ∧ a.waiting = [] ∧ a.made = [])
  ∧ (∀ c : CommitPath, c = State.reset.commit → c.phase = .idle ∧ c.holding = none ∧ c.target = none ∧ c.lastEpoch = 0
      ∧ c.newestSeq = 0 ∧ c.countSince = 0 ∧ c.drainLoss = false)
  ∧ (∀ j : JSector, State.reset.dir[j] =
      { state := .unknown, epoch := 0, firstSeq := 0, lastSeq := 0, firstStamp := 0, lastStamp := 0, pagesUsed := 0,
        eraseCount := 0, retireMark := false, failCount := 0 })
  ∧ State.reset.dir.oldestRetained = 0 ∧ State.reset.reclaim = { phase := .idle, target := none }
  ∧ State.reset.cursor =
      { target := 0, lastReturned := 0, buffer := .empty, faultSeen := false, pendingToken := .noToken, seek := none,
        store := .empty, withheld := [] }
  ∧ State.reset.nextToken = .endOfJournal
  ∧ (∀ c : Controller, c = State.reset.ctrl → c.state = .recovering ∧ c.stopRequested = false ∧ c.spaceWait = false
      ∧ c.saved = none ∧ c.opKind = .noOp ∧ c.opOutcome = .noOutcome ∧ c.drain = .noDrain ∧ c.hostResetPending = false
      ∧ c.shutdownOutcome = .noOutcome ∧ c.resetCause = .powerOn)
  ∧ (∀ r : RecoveryUnit, r = State.reset.recov → r.phase = .idle ∧ r.scan = none ∧ r.heads = [] ∧ r.accepted = []
      ∧ r.discarded = 0 ∧ r.corrupt = 0 ∧ r.damaged = 0 ∧ r.result = none)
  ∧ (∀ x : SetupStore, x = State.reset.store → x.current = .a ∧ x.nextPage = 16 ∧ x.location = none ∧ x.latest = 0
      ∧ x.issued = 0 ∧ x.phase = .idle)
  ∧ (∀ p : HostPort, p = State.reset.port → p.phase = .idle ∧ p.reply = [] ∧ p.lastResult = .noResult)
  ∧ State.reset.events = { flags := 0, enables := 0 } ∧ State.reset.irqActive = false ∧ State.reset.sdo = none
  ∧ State.reset = { State.reset with
      lines := Vector.replicate 4 { State.reset.lines[0] with
        piece := { openStamp := 0, count := 0, parity := false, framing := false, overrun := false } }
      adm := { State.reset.adm with
        reportOwed := false
        bufP := Buffer.empty .filling
        bufQ := { role := .idle, data := [], count := 0, firstSeq := 0, lastSeq := 0, clock := 0, reachedAge := 0 } }
      array := { State.reset.array with mem := [] }
      commit := { State.reset.commit with nextPage := 1, bodyCrc := 0, leavingBlocked := false }
      ctrl := { State.reset.ctrl with format := .noFormat, formatDone := [], resetAtRise := false }
      recov := { State.reset.recov with choice := none, nextA := 0, nextB := 0 }
      store := { State.reset.store with copy := none, switched := false, seekOwed := false }
      port := { State.reset.port with command := 0, args := [], status := 0 }
      pins := { csN := true, pfwN := true, resetN := true }
      powered := true, inReset := true, setupLoaded := false, freeIx := 0, pending := [] }
end

