-- ==== Sys2Proof/Laws/Calm.lean ====
section
/-! SUPPORT. The operations of the journal's own blocks are calm: each leaves alone the array's contents, the timebase, the line
ports, the working setup, the host port, the recovery unit, the pins, the supply and the queue of commands. -/

namespace Sys2Proof.Machine

theorem Calm.refl (s : State) : Calm s s := by constructor <;> rfl

theorem Calm.trans {s t u : State} (h : Calm s t) (k : Calm t u) : Calm s u where
  pending := k.pending.trans h.pending
  pins := k.pins.trans h.pins
  mem := k.mem.trans h.mem
  time := k.time.trans h.time
  lines := k.lines.trans h.lines
  setup := k.setup.trans h.setup
  port := k.port.trans h.port
  recov := k.recov.trans h.recov
  powered := k.powered.trans h.powered
  inReset := k.inReset.trans h.inReset
  loaded := k.loaded.trans h.loaded

theorem Calm.ite {s t u : State} (c : Prop) [Decidable c] (h : Calm s t) (k : Calm s u) : Calm s (if c then t else u) := by
  split <;> assumption

/-- An operation that is calm at every state. -/
abbrev CalmOp (f : State → State) : Prop := ∀ s, Calm s (f s)

/-! ### Record updates -/

theorem calm_raise (e : Event) : CalmOp (State.raise e) := fun _ => by constructor <;> rfl
theorem calm_request (r : Request) : CalmOp (State.request r) := fun _ => by constructor <;> rfl
theorem calm_withdraw (p : Requester → Bool) : CalmOp (State.withdraw p) := fun _ => by constructor <;> rfl
theorem calm_disown (p : Requester → Bool) : CalmOp (State.disown p) := fun _ => by constructor <;> rfl
theorem calm_withCtrl (f : Controller → Controller) : CalmOp (State.withCtrl f) := fun _ => by constructor <;> rfl
theorem calm_withCommit (f : CommitPath → CommitPath) : CalmOp (State.withCommit f) := fun _ => by constructor <;> rfl
theorem calm_withStore (f : SetupStore → SetupStore) : CalmOp (State.withStore f) := fun _ => by constructor <;> rfl
theorem calm_setEntry (j : JSector) (f : Entry → Entry) : CalmOp (State.setEntry j f) := fun _ => by constructor <;> rfl
theorem calm_dropWithheld (j : JSector) : CalmOp (State.dropWithheld j) := fun _ => by constructor <;> rfl
theorem calm_endHostOp (o : HostOpOutcome) : CalmOp (State.endHostOp o) := fun _ => by constructor <;> rfl
theorem calm_placeStart (c : StartContent) : CalmOp (State.placeStart c) := fun _ => by constructor <;> rfl
theorem calm_reclaimIdle : CalmOp State.reclaimIdle := fun _ => by constructor <;> rfl
theorem calm_eraseGivenUp (j : JSector) : CalmOp (State.eraseGivenUp j) := fun _ => by constructor <;> rfl
theorem calm_endSeek (n : Nat) : CalmOp (State.endSeek n) := fun _ => by constructor <;> rfl
theorem calm_opOver : CalmOp State.opOver := fun _ => by constructor <;> rfl
theorem calm_eraseOver : CalmOp State.eraseOver := fun _ => by constructor <;> rfl
theorem calm_withhold (j : JSector) (p : PageIx) : CalmOp (State.withhold j p) := fun _ => by constructor <;> rfl
theorem calm_storeErased (x : SetupSector) : CalmOp (State.storeErased x) := fun _ => by constructor <;> rfl
theorem calm_storeAdvance (p : PageIx) : CalmOp (State.storeAdvance p) := fun _ => by constructor <;> rfl
theorem calm_storeCommitted (r : Request) : CalmOp (State.storeCommitted r) := fun _ => by constructor <;> rfl
theorem calm_enterErasing (j : JSector) : CalmOp (State.enterErasing j) := fun _ => by constructor <;> rfl
theorem calm_giveUpReads (p : Requester → Bool) : CalmOp (State.giveUpReads p) := fun _ => by constructor <;> rfl
theorem calm_placeCursor (n : Nat) : CalmOp (State.placeCursor n) := fun _ => by constructor <;> rfl
theorem calm_haltCommit : CalmOp State.haltCommit := fun _ => by constructor <;> rfl

theorem calm_setBuf (b : BufId) (v : Buffer) : CalmOp (State.setBuf b v) := fun _ => by cases b <;> constructor <;> rfl

theorem calm_enter (j : JState) : CalmOp (State.enter j) := fun s => by
  unfold State.enter; split
  · exact Calm.refl s
  · constructor <;> rfl

/-! ### Staging and committing -/

theorem calm_writeRecord (b : BufId) (d : Draft) : CalmOp (State.writeRecord b d) := fun s =>
  (calm_setBuf b _ s).trans (by constructor <;> rfl)

theorem calm_spaceBlocked : CalmOp State.spaceBlocked := fun s => by
  unfold State.spaceBlocked
  refine Calm.trans (t := { s with ctrl := { s.ctrl with spaceWait := true } }) (by constructor <;> rfl) ?_
  dsimp only
  split
  · exact calm_enter _ _
  · exact Calm.trans (by constructor <;> rfl) (calm_enter _ _)
  · exact Calm.trans (by constructor <;> rfl) (calm_enter _ _)
  · exact Calm.trans (Calm.trans (by constructor <;> rfl) (calm_enter _ _)) (calm_endHostOp _ _)
  · exact Calm.refl _

theorem calm_reportExhausted : CalmOp State.reportExhausted := fun s => by
  unfold State.reportExhausted
  split
  · exact calm_enter _ _
  · exact Calm.trans (by constructor <;> rfl) (calm_enter _ _)
  · exact Calm.trans (by constructor <;> rfl) (calm_enter _ _)
  · exact Calm.refl _

theorem calm_releaseHeld : CalmOp State.releaseHeld := fun s => by
  unfold State.releaseHeld
  split
  · exact Calm.refl _
  · exact (calm_setBuf _ _ _).trans (by constructor <;> rfl)

theorem calm_startBody (j : JSector) : CalmOp (State.startBody j) := fun s => by
  unfold State.startBody
  split
  · exact Calm.refl _
  · constructor <;> rfl

theorem calm_openSector (j : JSector) : CalmOp (State.openSector j) := fun s => by constructor <;> rfl

theorem calm_block : CalmOp State.block := fun s => by
  unfold State.block
  split
  · exact (calm_releaseHeld s).trans (by constructor <;> rfl)
  all_goals first
    | (constructor <;> rfl)
    | (dsimp only
       split
       · constructor <;> rfl
       · exact Calm.trans (by constructor <;> rfl) (calm_spaceBlocked _))

theorem calm_openOrBlock : CalmOp State.openOrBlock := fun s => by
  unfold State.openOrBlock
  split
  · exact calm_openSector _ _
  · exact calm_block _

theorem calm_seekTarget : CalmOp State.seekTarget := fun s => by
  unfold State.seekTarget
  split
  · exact calm_openOrBlock _
  · split
    · exact calm_startBody _ _
    · exact Calm.trans (by constructor <;> rfl) (calm_openOrBlock _)

theorem calm_takeBuffer (b : BufId) : CalmOp (State.takeBuffer b) := fun s => by
  unfold State.takeBuffer
  refine Calm.trans ((calm_setBuf b _ s).trans (u := { (s.setBuf b { s.adm.buf b with role := .committing }) with
    commit := { (s.setBuf b { s.adm.buf b with role := .committing }).commit with holding := some b } })
    (by constructor <;> rfl)) ?_
  dsimp only
  split
  · exact Calm.refl _
  · split
    · exact calm_releaseHeld _
    · exact calm_seekTarget _

theorem calm_closeFilling : CalmOp State.closeFilling := fun s => by
  unfold State.closeFilling
  split
  · exact Calm.refl _
  · dsimp only
    split
    · exact Calm.refl _
    · split
      · split
        · exact (Calm.trans (calm_setBuf _ _ s) (calm_setBuf _ _ _)).trans (calm_takeBuffer _ _)
        · exact Calm.trans (calm_setBuf _ _ s) (calm_setBuf _ _ _)
      · split
        · exact Calm.trans (calm_setBuf _ _ s) (calm_takeBuffer _ _)
        · exact calm_setBuf _ _ s

theorem calm_takeClosed : CalmOp State.takeClosed := fun s => by
  unfold State.takeClosed
  split
  · exact Calm.refl _
  · split
    · exact calm_takeBuffer _ _
    · split
      · exact calm_takeBuffer _ _
      · exact Calm.refl _

theorem calm_markReached (n : Nat) : CalmOp (State.markReached n) := fun s => by
  unfold State.markReached
  split
  · exact Calm.refl _
  · exact calm_setBuf _ _ _

/-! ### The cursor engine -/

theorem calm_fetchStep : CalmOp State.fetchStep := fun s => by
  unfold State.fetchStep
  split
  · exact Calm.refl _
  · split
    · exact Calm.refl _
    · split <;> constructor <;> rfl

theorem calm_seekChoose (k : SeekState) (l : List JSector) : CalmOp (State.seekChoose k l) := fun s => by
  unfold State.seekChoose
  split
  · exact calm_endSeek _ _
  · split
    · exact calm_endSeek _ _
    · constructor <;> rfl

theorem calm_dropSeekRead : CalmOp State.dropSeekRead := fun s => Calm.ite _ (calm_giveUpReads _ s) (Calm.refl s)

theorem calm_seekLocate : CalmOp State.seekLocate := fun s => by
  unfold State.seekLocate
  split
  · split
    · exact (calm_seekChoose _ _ s).trans (calm_dropSeekRead _)
    · exact Calm.refl _
  · exact Calm.refl _

theorem calm_seekRead : CalmOp State.seekRead := fun s => by
  unfold State.seekRead
  split
  · exact Calm.refl _
  · split
    · exact Calm.refl _
    · split
      · exact Calm.refl _
      · split <;> constructor <;> rfl

theorem calm_cursorWork : CalmOp State.cursorWork := fun s =>
  ((calm_seekLocate s).trans (calm_seekRead _)).trans (calm_fetchStep _)

theorem calm_seekSearch (k : SeekState) (j : JSector) (p : PageIx) (l : List Byte) : CalmOp (State.seekSearch k j p l) :=
  fun s => by
  unfold State.seekSearch
  dsimp only
  split
  · constructor <;> rfl
  · split
    · constructor <;> rfl
    · exact Calm.trans (by constructor <;> rfl) (calm_seekChoose _ _ _)

theorem calm_seekDeliver (j : JSector) (p : PageIx) (l : List Byte) : CalmOp (State.seekDeliver j p l) := fun s => by
  unfold State.seekDeliver
  split
  · exact Calm.refl _
  · dsimp only
    split
    · exact calm_seekSearch _ _ _ _ _
    · constructor <;> rfl

theorem calm_chooseToken : CalmOp State.chooseToken := fun _ => by constructor <;> rfl
theorem calm_finishToken (t : Token) : CalmOp (State.finishToken t) := fun _ => by constructor <;> rfl

theorem calm_cutToken : CalmOp State.cutToken := fun s => by
  unfold State.cutToken
  split <;> constructor <;> rfl

theorem calm_invalidate (j : JSector) : CalmOp (State.invalidate j) := fun s => by
  unfold State.invalidate
  split
  · split <;> constructor <;> rfl
  · split <;> constructor <;> rfl
  · exact Calm.refl _

theorem calm_giveUpSeekRead (j : JSector) : CalmOp (State.giveUpSeekRead j) := fun _ => by constructor <;> rfl

theorem calm_overtake (j : JSector) : CalmOp (State.overtake j) := fun _ => by constructor <;> rfl

/-! ### Reclaim -/

theorem calm_reclaimStart (j : JSector) : CalmOp (State.reclaimStart j) := fun s => by
  unfold State.reclaimStart
  dsimp only
  refine Calm.trans ?_ (calm_request _ _)
  have h : Calm s (({ s with reclaim := { phase := .erase, target := some j } } : State).enterErasing j |>.invalidate j) :=
    Calm.trans (t := ({ s with reclaim := { phase := .erase, target := some j } } : State).enterErasing j)
      (by constructor <;> rfl) (calm_invalidate _ _)
  split
  · exact h.trans (calm_overtake _ _)
  · exact h

theorem calm_reclaimTest : CalmOp State.reclaimTest := fun s => by
  unfold State.reclaimTest
  split
  · split
    · exact calm_reclaimStart _ _
    · exact Calm.refl _
  · exact Calm.refl _

/-! ### The arbiter -/

theorem grant_mem (a : StorageArray) (g : Grant) : (a.grant g).mem = a.mem := by
  unfold StorageArray.grant
  split
  · rfl
  · dsimp only; split <;> rfl

theorem calm_arbitrate (f : Bool) : CalmOp (State.arbitrate f) := fun s => by
  have hm : (s.arbitrate f).array.mem = s.array.mem := by
    unfold State.arbitrate
    dsimp only
    split
    · split
      · simp only [StorageArray.suspendFor, grant_mem]
      · rfl
    · rfl
  exact ⟨rfl, rfl, hm, rfl, rfl, rfl, rfl, rfl, rfl, rfl, rfl⟩

/-! ### The journal controller -/

theorem calm_enterRunning : CalmOp State.enterRunning := fun s => by
  unfold State.enterRunning
  split
  · exact Calm.refl _
  · dsimp only
    have h : ∀ u : State, Calm u (if u.time.retimePending ∧ u.adm.sys.isNone then u.placeStart (u.startContent .retime false) else u) :=
      fun u => Calm.ite _ (calm_placeStart _ u) (Calm.refl u)
    have h' : ∀ u : State, Calm u (if u.flushOwed then u.closeFilling else u) :=
      fun u => Calm.ite _ (calm_closeFilling u) (Calm.refl u)
    exact ((calm_enter .running s).trans (h _)).trans (h' _)

theorem calm_journalFailed : CalmOp State.journalFailed := fun s => by
  unfold State.journalFailed
  split
  all_goals first
    | exact Calm.refl _
    | exact ((calm_enter _ s).trans (calm_withCtrl _ _)).trans (calm_haltCommit _)

theorem calm_fullToStopped : CalmOp State.fullToStopped := fun s =>
  (calm_withCtrl _ s).trans (calm_enter _ _)

theorem calm_spaceBack : CalmOp State.spaceBack := fun s => by
  unfold State.spaceBack
  dsimp only
  split
  · split
    · exact (calm_withCtrl _ s).trans (calm_enterRunning _)
    · split
      · exact (calm_withCtrl _ s).trans (calm_fullToStopped _)
      · exact calm_withCtrl _ s
  · exact calm_withCtrl _ s

theorem calm_sectorFreed : CalmOp State.sectorFreed := fun s => by
  unfold State.sectorFreed
  split
  · dsimp only
    split
    · exact (calm_withCommit _ s).trans (calm_openSector _ _)
    · exact calm_withCommit _ s
  · split
    · exact calm_spaceBack _
    · exact Calm.refl _

theorem calm_markRetired (j : JSector) (n : Nat) : CalmOp (State.markRetired j n) := fun s =>
  (calm_setEntry _ _ s).trans (calm_raise _ _)

theorem calm_usableTest : CalmOp State.usableTest := fun s => Calm.ite _ (calm_journalFailed s) (Calm.refl s)

theorem calm_requestMark (who : Requester) (j : JSector) : CalmOp (State.requestMark who j) := fun s => by
  unfold State.requestMark
  split
  · exact Calm.ite _ (calm_reclaimIdle s) (Calm.refl s)
  · dsimp only
    split
    · exact (calm_request _ s).trans (by constructor <;> rfl)
    · exact Calm.ite _ ((calm_request _ s).trans (calm_withCtrl _ _)) (calm_request _ s)
    · exact calm_request _ s

theorem calm_retire (who : Requester) (j : JSector) (n : Nat) : CalmOp (State.retire who j n) := fun s =>
  ((calm_markRetired j n s).trans (calm_usableTest _)).trans (calm_requestMark who j _)

theorem calm_eraseEnded (who : Requester) (j : JSector) (o : OpOutcome) : CalmOp (State.eraseEnded who j o) := fun s => by
  unfold State.eraseEnded
  dsimp only
  have h : ∀ u : State, Calm u (if who = .reclaim then u.reclaimIdle else u) := fun u =>
    Calm.ite _ (calm_reclaimIdle u) (Calm.refl u)
  split
  · exact calm_retire _ _ _ _
  · split
    · exact (calm_setEntry _ _ s).trans (h _)
    · split
      · exact calm_retire _ _ _ _
      · exact ((calm_setEntry _ _ s).trans (h _)).trans (calm_sectorFreed _)

theorem calm_formatDealt (j : JSector) : CalmOp (State.formatDealt j) := fun s => by
  unfold State.formatDealt
  split
  · split
    · exact calm_withCtrl _ _
    · exact Calm.refl _
  · split
    · exact calm_withCtrl _ _
    · exact Calm.refl _
  · exact Calm.refl _

theorem calm_formatEndsReclaim : CalmOp State.formatEndsReclaim := fun s => by
  unfold State.formatEndsReclaim
  split
  · split
    · exact ((calm_withdraw _ s).trans (calm_eraseGivenUp _ _)).trans (calm_reclaimIdle _)
    · exact Calm.refl _
  · exact Calm.refl _

theorem calm_formatStart : CalmOp State.formatStart := fun s => by
  unfold State.formatStart
  dsimp only
  refine Calm.trans ?_ (calm_placeCursor _ _)
  refine Calm.trans ?_ (calm_formatEndsReclaim _)
  refine Calm.trans (calm_enter .formatting s) ?_
  constructor <;> rfl

/-! ### The commit path's ends -/

theorem calm_programFailed (j : JSector) : CalmOp (State.programFailed j) := fun s => by
  unfold State.programFailed
  dsimp only
  split <;> constructor <;> rfl

theorem calm_publish (j : JSector) (b : Buffer) : CalmOp (State.publish j b) := fun s => by
  unfold State.publish
  dsimp only
  split <;> constructor <;> rfl

/-! ### The setup store -/

theorem calm_storeAbort : CalmOp State.storeAbort := fun _ => by constructor <;> rfl

/-! ### The drain, as far as it neither resets nor restarts recovery -/

theorem calm_placeResume : CalmOp State.placeResume := fun _ => by constructor <;> rfl

theorem calm_returnFailed : CalmOp State.returnFailed := fun s =>
  ((calm_enter _ s).trans (calm_placeResume _)).trans (calm_haltCommit _)

theorem calm_returnTo (r k : Bool) : CalmOp (State.returnTo r k) := fun s => by
  unfold State.returnTo
  split
  · exact ((calm_withCtrl _ s).trans (calm_enter _ _)).trans (calm_placeResume _)
  · split
    · exact (calm_placeResume s).trans (calm_enterRunning _)
    · exact ((calm_withCtrl _ s).trans (calm_enter _ _)).trans (calm_placeResume _)

theorem calm_refuse (r : Request) : CalmOp (State.refuse r) := fun s => by
  unfold State.refuse
  split <;> constructor <;> rfl

theorem calm_foldl_refuse (l : List Request) : CalmOp fun s => l.foldl (fun s r => s.refuse r) s := by
  induction l with
  | nil => exact Calm.refl
  | cons r l ih => exact fun s => (calm_refuse r s).trans (ih _)

theorem calm_refuseWaiting : CalmOp State.refuseWaiting := fun s =>
  (calm_withdraw _ s).trans (calm_foldl_refuse _ _)

theorem calm_eraseAbandoned (e : Erase) : CalmOp (State.eraseAbandoned e) := fun s => by
  unfold State.eraseAbandoned
  split <;> constructor <;> rfl

theorem calm_drainCommit : CalmOp State.drainCommit := fun s => by
  unfold State.drainCommit
  split
  all_goals first
    | exact Calm.refl _
    | exact (calm_releaseHeld s).trans (calm_withCommit _ _)

end Sys2Proof.Machine
end

