-- ==== Sys2Proof/Laws/Formats.lean ====
section
/-! SUPPORT. Big-endian fields, slices of bytes and the commit field: the small lemmas of the layouts of chapter 12. -/

namespace Sys2Proof.Machine

/-- A field of n bytes has n bytes. -/
theorem beBytes_length : ∀ n v, (beBytes n v).length = n := by
  intro n; induction n with
  | zero => intro v; rfl
  | succ n ih => intro v; simp [beBytes, ih]

/-- Reading on from a value shifts it past the bytes read. -/
theorem foldl_bytes (l : List Byte) (a : Nat) : l.foldl (fun acc b => acc * 256 + b.toNat) a = a * 256 ^ l.length + beNat l := by
  induction l generalizing a with
  | nil => simp [beNat]
  | cons b l ih =>
    simp only [beNat, List.foldl_cons, List.length_cons, Nat.zero_mul, Nat.zero_add]
    rw [ih, ih]; ring

/-- A field of n bytes holds its value modulo 256^n (section 1.6). -/
theorem beNat_beBytes (n v : Nat) : beNat (beBytes n v) = v % 256 ^ n := by
  induction n with
  | zero => simp [beBytes, beNat, Nat.mod_one]
  | succ n ih =>
    unfold beBytes
    rw [beNat, List.foldl_cons, foldl_bytes, beBytes_length, ih]
    rw [Nat.zero_mul, Nat.zero_add, BitVec.toNat_ofNat, show 2 ^ 8 = 256 from rfl, Nat.pow_succ, Nat.mod_mul, Nat.add_comm, Nat.mul_comm]

/-- A value that fits its field reads back. -/
theorem beNat_beBytes_of_lt (n v : Nat) (h : v < 256 ^ n) : beNat (beBytes n v) = v := by rw [beNat_beBytes, Nat.mod_eq_of_lt h]

/-- A slice that begins behind the first part. -/
theorem bytesAt_append {l r : List Byte} {off n : Nat} (h : l.length = off) : bytesAt (l ++ r) off n = r.take n := by
  unfold bytesAt; rw [← h, List.drop_left]

/-- A slice that is the middle part. -/
theorem bytesAt_middle {l m r : List Byte} {off n : Nat} (h : l.length = off) (hm : m.length = n) : bytesAt (l ++ (m ++ r)) off n = m := by
  rw [bytesAt_append h, ← hm, List.take_left]

/-- A slice that is the last part. -/
theorem bytesAt_end {l m : List Byte} {off n : Nat} (h : l.length = off) (hm : m.length = n) : bytesAt (l ++ m) off n = m := by
  rw [bytesAt_append h, ← hm, List.take_length]

/-- A slice that is the first part. -/
theorem bytesAt_start {l r : List Byte} {n : Nat} (h : l.length = n) : bytesAt (l ++ r) 0 n = l := by
  unfold bytesAt; rw [List.drop_zero, ← h, List.take_left]

/-- A page of a 504-byte body and its commit field has the mark and the right CRC (R82, R159). -/
theorem commitField_accepted {body : List Byte} (h : body.length = 504) : markExact (body ++ commitField (crc body)) = true ∧ crcMatches (body ++ commitField (crc body)) = true := by
  have e1 : bytesAt (body ++ commitField (crc body)) 508 4 = commitMark := by
    unfold commitField; rw [← List.append_assoc]
    exact bytesAt_end (by simp [beBytes_length, h]) rfl
  have e2 : bytesAt (body ++ commitField (crc body)) 504 4 = beBytes 4 (crc body).toNat := by
    unfold commitField; exact bytesAt_middle h (beBytes_length _ _)
  constructor
  · unfold markExact; rw [e1]; rfl
  · unfold crcMatches fieldAt; rw [e2, bytesAt_start h, beNat_beBytes_of_lt _ _ (crc body).isLt]; simp

/-- A line block has 16 bytes (R201). -/
theorem lineBlock_length (u : LineSetup) : (lineBlock u).length = 16 := by simp [lineBlock, beBytes_length]

/-- A journal block has 12 bytes (R201). -/
theorem journalBlock_length (u : JournalSetup) : (journalBlock u).length = 12 := by simp [journalBlock, beBytes_length]

/-- Erased bytes are FFh. -/
theorem allFF_iff (l : List Byte) : allFF l = true ↔ ∀ b ∈ l, b = 0xFF := by
  unfold allFF; rw [List.all_eq_true]; simp only [beq_iff_eq]

/-- What a walk over the records of a page finds: so many, one behind the other, each as long as its length byte says. -/
theorem walkRecords_spec : ∀ (n : Nat) (l : List Byte) (rs : List (List Byte)), walkRecords n l = some rs →
    rs.length = n ∧ (∃ rest, l = rs.flatten ++ rest) ∧ ∀ r ∈ rs, r.length = 16 + (byteAt r 3).toNat ∧ r.length ≤ 256 := by
  intro n
  induction n with
  | zero => intro l rs h; simp only [walkRecords, Option.some.injEq] at h; subst h; exact ⟨rfl, ⟨l, rfl⟩, by simp⟩
  | succ n ih =>
    intro l rs h
    unfold walkRecords at h
    dsimp only at h
    split at h
    · cases h
    · rename_i hs
      rw [not_or] at hs
      rw [Option.map_eq_some_iff] at h
      obtain ⟨t, ht, rfl⟩ := h
      obtain ⟨h1, ⟨rest, h2⟩, h3⟩ := ih _ _ ht
      have hl : (l.take (16 + (byteAt l 3).toNat)).length = 16 + (byteAt l 3).toNat := by rw [List.length_take]; omega
      have hb : byteAt (l.take (16 + (byteAt l 3).toNat)) 3 = byteAt l 3 := by
        unfold byteAt; rw [List.getD_eq_getElem?_getD, List.getD_eq_getElem?_getD, List.getElem?_take, if_pos (by omega)]
      refine ⟨by simp [h1], ⟨rest, ?_⟩, ?_⟩
      · rw [List.flatten_cons, List.append_assoc, ← h2, List.take_append_drop]
      · intro r hr
        rcases List.mem_cons.1 hr with rfl | hr
        · rw [hb, hl]; exact ⟨rfl, by omega⟩
        · exact h3 r hr

/-- Seqs rise by one. -/
theorem seqsRise_iff : ∀ recs : List (List Byte), seqsRise recs = true ↔ ∀ (k : Nat) (h : k + 1 < recs.length), recSeq recs[k + 1] = recSeq recs[k] + 1 := by
  intro recs
  induction recs with
  | nil => simp [seqsRise]
  | cons a l ih =>
    cases l with
    | nil => simp [seqsRise]
    | cons b l =>
      unfold seqsRise
      rw [Bool.and_eq_true, ih, beq_iff_eq]
      constructor
      · rintro ⟨h1, h2⟩ k hk
        cases k with
        | zero => exact h1
        | succ k => exact h2 k (by simpa using hk)
      · intro h
        exact ⟨h 0 (by simp), fun k hk => h (k + 1) (by simpa using hk)⟩

/-- A byte other than FFh makes a run of bytes not erased. -/
theorem allFF_eq_false {l : List Byte} {b : Byte} (h : b ∈ l) (hb : b ≠ 0xFF) : allFF l = false := by
  unfold allFF; rw [List.all_eq_false]; exact ⟨b, h, by simpa using hb⟩

end Sys2Proof.Machine
end

