-- ==== Sys2Proof/Laws/Memory.lean ====
section
/-! SUPPORT. Laws of the array's memory: what a read gives after a write, and that every memory operation keeps the canonical
form. -/

namespace Sys2Proof.Machine

/-! ### The canonical form -/

/-- The canonical form, said of the whole list. -/
theorem Memory.wf_iff (l : List Host.Cell) :
    Memory.wf l = true ↔ l.Pairwise (fun c d => c.1 < d.1) ∧ ∀ c ∈ l, c.2 ≠ erasedByte ∧ c.1 < 1048576 := by
  induction l with
  | nil => simp [Memory.wf]
  | cons c l ih =>
    cases l with
    | nil => simp [Memory.wf]
    | cons d l =>
      simp only [Memory.wf, Bool.and_eq_true, bne_iff_ne, decide_eq_true_eq, ih, List.pairwise_cons, List.mem_cons,
        forall_eq_or_imp]
      constructor
      · rintro ⟨⟨hc, hcd⟩, ⟨hd, hp⟩, ⟨hd2, hd3⟩, hl⟩
        exact ⟨⟨⟨hcd, fun e he => Nat.lt_trans hcd (hd e he)⟩, hd, hp⟩, ⟨hc, Nat.lt_trans hcd hd3⟩, ⟨hd2, hd3⟩, hl⟩
      · rintro ⟨⟨⟨hcd, _⟩, hd, hp⟩, ⟨hc, _⟩, hdd, hl⟩
        exact ⟨⟨hc, hcd⟩, ⟨hd, hp⟩, hdd, hl⟩

/-- Cells that a filter keeps of a canonical memory are canonical. -/
theorem Memory.wf_filter {l : List Host.Cell} (p : Host.Cell → Bool) (h : Memory.wf l = true) :
    Memory.wf (l.filter p) = true := by
  rw [Memory.wf_iff] at h ⊢
  exact ⟨h.1.filter _, fun c hc => h.2 c ((List.mem_filter.1 hc).1)⟩

/-- Every cell of a run of bytes lies in its range and is not FFh. -/
theorem mem_cellsOf {bytes : List Byte} : ∀ {a : Nat} {c : Host.Cell}, c ∈ cellsOf a bytes →
    a ≤ c.1 ∧ c.1 < a + bytes.length ∧ c.2 ≠ erasedByte := by
  induction bytes with
  | nil => simp [cellsOf]
  | cons b bs ih =>
    intro a c h
    unfold cellsOf at h
    split at h
    · have := ih h; simp only [List.length_cons]; exact ⟨by omega, by omega, this.2.2⟩
    · rcases List.mem_cons.1 h with rfl | h
      · simp_all
      · have := ih h; simp only [List.length_cons]; exact ⟨by omega, by omega, this.2.2⟩

/-- The cells of a run of bytes rise strictly. -/
theorem cellsOf_pairwise (bytes : List Byte) : ∀ a, (cellsOf a bytes).Pairwise fun c d => c.1 < d.1 := by
  induction bytes with
  | nil => simp [cellsOf]
  | cons b bs ih =>
    intro a
    unfold cellsOf
    split
    · exact ih _
    · exact List.pairwise_cons.2 ⟨fun c hc => (mem_cellsOf hc).1, ih _⟩

/-- A write within the address space keeps the canonical form. -/
theorem Memory.wf_memWrite {mem : List Host.Cell} {a : Nat} {bytes : List Byte} (h : Memory.wf mem = true)
    (hb : a + bytes.length ≤ 1048576) : Memory.wf (memWrite mem a bytes) = true := by
  rw [Memory.wf_iff] at h ⊢
  constructor
  · refine List.pairwise_append.2 ⟨List.pairwise_append.2 ⟨h.1.filter _, cellsOf_pairwise _ _, ?_⟩, h.1.filter _, ?_⟩
    · intro c hc d hd
      have h1 := (List.mem_filter.1 hc).2
      have h2 := (mem_cellsOf hd).1
      simp only [decide_eq_true_eq] at h1
      omega
    · intro c hc d hd
      have h2 := (List.mem_filter.1 hd).2
      simp only [decide_eq_true_eq] at h2
      rcases List.mem_append.1 hc with hc | hc
      · have h1 := (List.mem_filter.1 hc).2
        simp only [decide_eq_true_eq] at h1
        omega
      · have h1 := (mem_cellsOf hc).2.1
        omega
  · intro c hc
    simp only [memWrite, List.mem_append] at hc
    rcases hc with (hc | hc) | hc
    · exact h.2 c ((List.mem_filter.1 hc).1)
    · have := mem_cellsOf hc
      exact ⟨this.2.2, by omega⟩
    · exact h.2 c ((List.mem_filter.1 hc).1)

/-! ### Reads after writes -/

theorem memByte_append_left {l r : List Host.Cell} {a : Nat} (h : ∀ c ∈ l, c.1 ≠ a) : memByte (l ++ r) a = memByte r a := by
  induction l with
  | nil => rfl
  | cons c l ih =>
    have h1 := h c (by simp)
    simp only [List.cons_append, memByte, if_neg h1]
    exact ih fun d hd => h d (by simp [hd])

theorem memByte_append_right {l r : List Host.Cell} {a : Nat} (h : ∀ c ∈ r, c.1 ≠ a) : memByte (l ++ r) a = memByte l a := by
  induction l with
  | nil =>
    induction r with
    | nil => rfl
    | cons c r ih =>
      simp only [List.nil_append, memByte, if_neg (h c (by simp))]
      simpa [memByte] using ih fun d hd => h d (by simp [hd])
  | cons c l ih => simp only [List.cons_append, memByte, ih]

theorem memByte_filter {l : List Host.Cell} {a : Nat} (p : Host.Cell → Bool) (h : ∀ c : Host.Cell, c.1 = a → p c = true) :
    memByte (l.filter p) a = memByte l a := by
  induction l with
  | nil => rfl
  | cons c l ih =>
    simp only [List.filter_cons]
    split
    · simp only [memByte, ih]
    · rename_i hp
      have : c.1 ≠ a := fun e => hp (h c e)
      simp only [memByte, if_neg this, ih]

theorem memByte_cellsOf (bytes : List Byte) : ∀ (a i : Nat) (h : i < bytes.length),
    memByte (cellsOf a bytes) (a + i) = bytes[i] := by
  induction bytes with
  | nil => intro a i h; simp at h
  | cons b bs ih =>
    intro a i h
    unfold cellsOf
    cases i with
    | zero =>
      split
      · rename_i hb
        have hn : ∀ c ∈ cellsOf (a + 1) bs, c.1 ≠ a + 0 := fun c hc => by have := (mem_cellsOf hc).1; omega
        have := memByte_append_right (l := []) hn
        simpa [memByte, hb] using this
      · simp [memByte]
    | succ i =>
      have hi : i < bs.length := by simpa using h
      have := ih (a + 1) i hi
      rw [show a + (i + 1) = a + 1 + i by omega]
      split
      · simpa using this
      · simp only [memByte, if_neg (show ¬ a = a + 1 + i by omega)]
        simpa using this

/-- A byte in the range written reads as written. -/
theorem memByte_memWrite_inside (mem : List Host.Cell) (a i : Nat) (bytes : List Byte) (h : i < bytes.length) :
    memByte (memWrite mem a bytes) (a + i) = bytes[i] := by
  unfold memWrite
  rw [memByte_append_right, memByte_append_left, memByte_cellsOf bytes a i h]
  · intro c hc; have := (List.mem_filter.1 hc).2; simp only [decide_eq_true_eq] at this; omega
  · intro c hc; have := (List.mem_filter.1 hc).2; simp only [decide_eq_true_eq] at this; omega

/-- A byte outside the range written reads as before. -/
theorem memByte_memWrite_outside (mem : List Host.Cell) (a x : Nat) (bytes : List Byte)
    (h : x < a ∨ a + bytes.length ≤ x) : memByte (memWrite mem a bytes) x = memByte mem x := by
  have hc : ∀ c ∈ cellsOf a bytes, c.1 ≠ x := fun c hc => by have := mem_cellsOf hc; omega
  unfold memWrite
  rcases h with h | h
  · rw [memByte_append_right, memByte_append_right hc, memByte_filter]
    · intro c hx; simp [hx, h]
    · intro c hc; have := (List.mem_filter.1 hc).2; simp only [decide_eq_true_eq] at this; omega
  · rw [memByte_append_left, memByte_filter]
    · intro c hx; simp [hx, h]
    · intro c hc'
      rcases List.mem_append.1 hc' with h1 | h1
      · have := (List.mem_filter.1 h1).2; simp only [decide_eq_true_eq] at this; omega
      · exact hc c h1

@[simp] theorem memRead_length (mem : List Host.Cell) (a n : Nat) : (memRead mem a n).length = n := by simp [memRead]

theorem memRead_getElem (mem : List Host.Cell) (a n i : Nat) (h : i < (memRead mem a n).length) :
    (memRead mem a n)[i] = memByte mem (a + i) := by simp [memRead]

/-! ### Programs and erases -/

/-- A program ending OK leaves the AND of old and new in its range (R48). -/
theorem memByte_programOk_inside (mem : List Host.Cell) (a i : Nat) (bytes : List Byte) (h : i < bytes.length) :
    memByte (programOk mem a bytes) (a + i) = memByte mem (a + i) &&& bytes[i] := by
  unfold programOk
  rw [memByte_memWrite_inside _ _ _ _ (by simpa using h)]
  simp [memRead_getElem]

/-- A program ending OK changes no byte outside its range (R48). -/
theorem memByte_programOk_outside (mem : List Host.Cell) (a x : Nat) (bytes : List Byte)
    (h : x < a ∨ a + bytes.length ≤ x) : memByte (programOk mem a bytes) x = memByte mem x := by
  unfold programOk
  exact memByte_memWrite_outside _ _ _ _ (by simpa using h)

/-- A failed or cut program leaves each byte of its range between the AND of old and new and the old (R51). -/
theorem memByte_programTorn_inside (ix : Nat) (mem : List Host.Cell) (a i : Nat) (bytes : List Byte) (h : i < bytes.length) :
    memByte (programTorn ix mem a bytes) (a + i)
      = (memByte mem (a + i) &&& bytes[i]) ||| (memByte mem (a + i) &&& Config.cellBits ix (a + i)) := by
  unfold programTorn
  rw [memByte_memWrite_inside _ _ _ _ (by simpa using h)]
  simp [h]

/-- A failed or cut program changes no byte outside its range (R51). -/
theorem memByte_programTorn_outside (ix : Nat) (mem : List Host.Cell) (a x : Nat) (bytes : List Byte)
    (h : x < a ∨ a + bytes.length ≤ x) : memByte (programTorn ix mem a bytes) x = memByte mem x := by
  unfold programTorn
  exact memByte_memWrite_outside _ _ _ _ (by simpa using h)

/-- An address lies in a sector. -/
abbrev inSector (sec : Sector) (x : Nat) : Prop := sectorAddr sec ≤ x ∧ x < sectorAddr sec + 0x2000

/-- An erase ending OK leaves FFh in every byte of its sector (R49). -/
theorem memByte_eraseOk_inside (mem : List Host.Cell) (sec : Sector) (x : Nat) (h : inSector sec x) :
    memByte (eraseOk mem sec) x = 0xFF := by
  have hn : ∀ c ∈ eraseOk mem sec, c.1 ≠ x := fun c hc => by
    have := (List.mem_filter.1 hc).2
    simp only [Bool.or_eq_true, decide_eq_true_eq] at this
    omega
  simpa [memByte, erasedByte] using memByte_append_right (l := []) hn

/-- An erase ending OK changes no other sector (R49). -/
theorem memByte_eraseOk_outside (mem : List Host.Cell) (sec : Sector) (x : Nat) (h : ¬ inSector sec x) :
    memByte (eraseOk mem sec) x = memByte mem x := by
  unfold eraseOk
  refine memByte_filter _ fun c hc => ?_
  simp only [Bool.or_eq_true, decide_eq_true_eq]
  unfold inSector at h
  omega

/-- An erase that does not end OK changes no other sector (R52). -/
theorem memByte_eraseTorn_outside (ix : Nat) (mem : List Host.Cell) (sec : Sector) (x : Nat) (h : ¬ inSector sec x) :
    memByte (eraseTorn ix mem sec) x = memByte mem x := by
  unfold eraseTorn
  refine memByte_memWrite_outside _ _ _ _ ?_
  simp only [List.length_map, List.length_range]
  unfold inSector at h
  omega

/-- An erase that does not end OK leaves every bit of its sector open (R52). -/
theorem memByte_eraseTorn_inside (ix : Nat) (mem : List Host.Cell) (sec : Sector) (x : Nat) (h : inSector sec x) :
    memByte (eraseTorn ix mem sec) x = Config.cellBits ix x := by
  unfold eraseTorn
  obtain ⟨i, rfl⟩ : ∃ i, x = sectorAddr sec + i := ⟨x - sectorAddr sec, by unfold inSector at h; omega⟩
  rw [memByte_memWrite_inside _ _ _ _ (by simp only [List.length_map, List.length_range]; unfold inSector at h; omega)]
  simp

/-- A sector lies in the address space (R46). -/
theorem sectorAddr_le (sec : Sector) : sectorAddr sec + 0x2000 ≤ 1048576 := by
  have := sec.isLt; unfold sectorAddr; omega

/-- The range of a program lies in its page, and so in the address space (R46). -/
theorem request_range_le (r : Request) : r.addr + r.bytes.length ≤ 1048576 := by
  have h1 := r.sector.isLt
  have h2 := r.page.isLt
  have h3 : r.bytes.length ≤ 512 - r.kind.offset := by unfold Request.bytes; rw [List.length_take]; omega
  have h4 : r.kind.offset ≤ 504 := by cases r.kind <;> simp [OpKind.offset]
  unfold Request.addr pageAddr sectorAddr
  omega

theorem wf_programOk {mem : List Host.Cell} (r : Request) (h : Memory.wf mem = true) :
    Memory.wf (programOk mem r.addr r.bytes) = true := by
  refine Memory.wf_memWrite h ?_
  have := request_range_le r
  simpa using this

theorem wf_programTorn {mem : List Host.Cell} (ix : Nat) (r : Request) (h : Memory.wf mem = true) :
    Memory.wf (programTorn ix mem r.addr r.bytes) = true := by
  refine Memory.wf_memWrite h ?_
  have := request_range_le r
  simpa using this

theorem wf_eraseOk {mem : List Host.Cell} (sec : Sector) (h : Memory.wf mem = true) : Memory.wf (eraseOk mem sec) = true :=
  Memory.wf_filter _ h

theorem wf_eraseTorn {mem : List Host.Cell} (ix : Nat) (sec : Sector) (h : Memory.wf mem = true) :
    Memory.wf (eraseTorn ix mem sec) = true := by
  refine Memory.wf_memWrite h ?_
  have := sectorAddr_le sec
  simpa using this

/-- A program keeps the canonical form (R48, R51). -/
theorem wf_program (r : Request) (o : OpOutcome) (s : State) (h : Memory.wf s.array.mem = true) :
    Memory.wf (s.program r o).array.mem = true := by
  cases o
  · exact wf_programOk r h
  · exact wf_programTorn _ r h

/-- An erase keeps the canonical form (R49, R52). -/
theorem wf_eraseSector (sec : Sector) (o : OpOutcome) (s : State) (h : Memory.wf s.array.mem = true) :
    Memory.wf (s.eraseSector sec o).array.mem = true := by
  cases o
  · exact wf_eraseOk sec h
  · exact wf_eraseTorn _ sec h

theorem wf_reset : Memory.wf State.reset.array.mem = true := rfl

end Sys2Proof.Machine
end

