-- ==== Sys2Proof/Laws/Settle.lean ====
section
/-! SUPPORT. What the end of a happening can do (`State.settle`), said once. -/

namespace Sys2Proof.Machine

theorem Settled.refl (s : State) : Settled s s where
  toCalm := Calm.refl s
  adm := rfl
  commit := rfl
  ctrl := rfl
  store := rfl
  enables := rfl
  flags := .inl rfl
  dir := fun _ => .inl rfl
  one := fun _ _ h => absurd rfl h

/-- The entry of a sector after a change of one entry. -/
theorem Directory.update_get (d : Directory) (i j : JSector) (f : Entry → Entry) :
    (d.update i f)[j] = if i = j then f d[j] else d[j] := by
  unfold Directory.update
  by_cases h : i = j
  · subst h; simp [Fin.getElem_fin]
  · have : i.val ≠ j.val := fun e => h (Fin.ext e)
    simp [Fin.getElem_fin, this, h]

/-- Operations that change nothing but the cursor engine, the arbiter's requests and the count of free values. -/
structure CursorOnly (s t : State) : Prop extends Calm s t where
  adm     : t.adm = s.adm
  commit  : t.commit = s.commit
  ctrl    : t.ctrl = s.ctrl
  store   : t.store = s.store
  events  : t.events = s.events
  dir     : t.dir = s.dir
  reclaim : t.reclaim = s.reclaim

theorem CursorOnly.refl (s : State) : CursorOnly s s := ⟨Calm.refl s, rfl, rfl, rfl, rfl, rfl, rfl, rfl⟩

theorem CursorOnly.trans {s t u : State} (h : CursorOnly s t) (k : CursorOnly t u) : CursorOnly s u :=
  ⟨h.toCalm.trans k.toCalm, k.adm.trans h.adm, k.commit.trans h.commit, k.ctrl.trans h.ctrl, k.store.trans h.store,
    k.events.trans h.events, k.dir.trans h.dir, k.reclaim.trans h.reclaim⟩

theorem cursorOnly_seekChoose (k : SeekState) (l : List JSector) (s : State) : CursorOnly s (s.seekChoose k l) := by
  refine ⟨calm_seekChoose k l s, ?_, ?_, ?_, ?_, ?_, ?_, ?_⟩ <;>
  · unfold State.seekChoose
    split
    · rfl
    · split <;> rfl

theorem cursorOnly_dropSeekRead (s : State) : CursorOnly s s.dropSeekRead := by
  unfold State.dropSeekRead
  split
  · exact ⟨calm_giveUpReads _ s, rfl, rfl, rfl, rfl, rfl, rfl, rfl⟩
  · exact CursorOnly.refl _

theorem cursorOnly_seekLocate (s : State) : CursorOnly s s.seekLocate := by
  unfold State.seekLocate
  split
  · split
    · exact (cursorOnly_seekChoose _ _ s).trans (cursorOnly_dropSeekRead _)
    · exact CursorOnly.refl _
  · exact CursorOnly.refl _

theorem cursorOnly_seekRead (s : State) : CursorOnly s s.seekRead := by
  refine ⟨calm_seekRead s, ?_, ?_, ?_, ?_, ?_, ?_, ?_⟩ <;>
  · unfold State.seekRead
    split
    · rfl
    · split
      · rfl
      · split
        · rfl
        · split <;> rfl

theorem cursorOnly_fetchStep (s : State) : CursorOnly s s.fetchStep := by
  refine ⟨calm_fetchStep s, ?_, ?_, ?_, ?_, ?_, ?_, ?_⟩ <;>
  · unfold State.fetchStep
    split
    · rfl
    · split
      · rfl
      · split <;> rfl

/-- The cursor engine's work changes nothing but the cursor engine and its requests (R108, R113). -/
theorem cursorOnly_cursorWork (s : State) : CursorOnly s s.cursorWork :=
  ((cursorOnly_seekLocate s).trans (cursorOnly_seekRead _)).trans (cursorOnly_fetchStep _)

/-- The arbiter changes nothing but the arbiter and the count of free values (R59 to R63). -/
theorem cursorOnly_arbitrate (f : Bool) (s : State) : CursorOnly s (s.arbitrate f) :=
  ⟨calm_arbitrate f s, rfl, rfl, rfl, rfl, rfl, rfl, rfl⟩

/-- The sector a reclaim takes is DIRTY or CLOSED (R94). -/
theorem reclaimCandidate_state {s : State} {j : JSector} (h : s.reclaimCandidate = some j) :
    s.dir[j].state = .dirty ∨ s.dir[j].state = .closed := by
  have hin : ∀ {st : SectorState} {j : JSector}, j ∈ s.dir.inState st → s.dir[j].state = st := fun h => by
    simpa [Directory.inState] using (List.mem_filter.1 h).2
  have hl : ∀ {key : JSector → Nat} {l : List JSector} {j : JSector}, leastBy key l = some j → j ∈ l := by
    intro key l
    induction l with
    | nil => intro j h; simp [leastBy] at h
    | cons a l ih =>
      intro j h
      unfold leastBy at h
      split at h
      · simp_all
      · split at h
        · simp_all
        · rename_i b hb _
          cases h
          exact List.mem_cons_of_mem _ (ih hb)
  unfold State.reclaimCandidate at h
  split at h
  · cases h
    rename_i hd
    exact .inl (hin (List.mem_of_mem_head? (by simp [hd])))
  · cases h
    rename_i hd
    exact .inr (hin (List.mem_filter.1 (hl hd)).1)
  · split at h
    · split at h
      · cases h
        rename_i hd _
        exact .inr (hin (hl hd))
      · cases h
    · cases h

/-- A reclaim's start (R95): one sector enters ERASING, and the cursor may be overtaken. -/
theorem settled_reclaimStart (j : JSector) (s : State) (h : s.dir[j].state = .dirty ∨ s.dir[j].state = .closed) :
    Settled s (s.reclaimStart j) := by
  have hf : ∀ (x : State) (b : Bool),
      let y := (if b then x.overtake j else x).request (eraseRequest .reclaim j)
      y.adm = x.adm ∧ y.commit = x.commit ∧ y.ctrl = x.ctrl ∧ y.store = x.store ∧ y.events.enables = x.events.enables
        ∧ (y.events.flags = x.events.flags ∨ y.events.flags = x.events.flags ||| Event.cursorLost.mask) ∧ y.dir = x.dir := by
    intro x b
    cases b
    · exact ⟨rfl, rfl, rfl, rfl, rfl, .inl rfl, rfl⟩
    · exact ⟨rfl, rfl, rfl, rfl, rfl, .inr rfl, rfl⟩
  have hi : ∀ x : State, (x.invalidate j).adm = x.adm ∧ (x.invalidate j).commit = x.commit ∧ (x.invalidate j).ctrl = x.ctrl
      ∧ (x.invalidate j).store = x.store ∧ (x.invalidate j).events = x.events ∧ (x.invalidate j).dir = x.dir := by
    intro x
    unfold State.invalidate
    split
    · split <;> exact ⟨rfl, rfl, rfl, rfl, rfl, rfl⟩
    · split <;> exact ⟨rfl, rfl, rfl, rfl, rfl, rfl⟩
    · exact ⟨rfl, rfl, rfl, rfl, rfl, rfl⟩
  obtain ⟨a1, a2, a3, a4, a5, a6, a7⟩ := hf
    ((State.enterErasing j { s with reclaim := { phase := .erase, target := some j } }).invalidate j)
    (s.dir[j].firstSeq != 0 && decide (s.cursor.target ≤ s.dir[j].lastSeq))
  obtain ⟨b1, b2, b3, b4, b5, b6⟩ := hi (State.enterErasing j { s with reclaim := { phase := .erase, target := some j } })
  refine ⟨calm_reclaimStart j s, a1.trans b1, a2.trans b2, a3.trans b3, a4.trans b4, a5.trans (by rw [b5]; rfl), ?_, ?_, ?_⟩
  · rcases a6 with a6 | a6
    · exact .inl (a6.trans (by rw [b5]; rfl))
    · exact .inr (a6.trans (by rw [b5]; rfl))
  · intro i
    have : (s.reclaimStart j).dir = s.dir.update j Entry.erasing := a7.trans b6
    rw [this, Directory.update_get]
    split
    · rename_i e; subst e; exact .inr ⟨h, rfl⟩
    · exact .inl rfl
  · have hd : (s.reclaimStart j).dir = s.dir.update j Entry.erasing := a7.trans b6
    have hj : ∀ i : JSector, (s.reclaimStart j).dir[i] ≠ s.dir[i] → i = j := by
      intro i hi
      rw [hd, Directory.update_get] at hi
      by_cases e : j = i
      · exact e.symm
      · simp [e] at hi
    exact fun a b ha hb => (hj a ha).trans (hj b hb).symm

/-- The reclaim test starts one reclaim or changes nothing (R93). -/
theorem settled_reclaimTest (s : State) : Settled s s.reclaimTest := by
  unfold State.reclaimTest
  split
  · split
    · rename_i h
      exact settled_reclaimStart _ _ (reclaimCandidate_state h)
    · exact Settled.refl s
  · exact Settled.refl s

theorem Settled.cursorOnly {s t u : State} (h : Settled s t) (k : CursorOnly t u) : Settled s u where
  toCalm := h.toCalm.trans k.toCalm
  adm := k.adm.trans h.adm
  commit := k.commit.trans h.commit
  ctrl := k.ctrl.trans h.ctrl
  store := k.store.trans h.store
  enables := (congrArg EventUnit.enables k.events).trans h.enables
  flags := by rw [k.events]; exact h.flags
  dir := by rw [k.dir]; exact h.dir
  one := by rw [k.dir]; exact h.one

/-- No result is owed to a requester that has no request waiting and no operation in flight. -/
theorem owesResult_eq_false {a : StorageArray} {who : Requester} :
    a.owesResult who = false ↔ ∀ r ∈ a.op.toList ++ a.waiting ++ a.made, r.requester ≠ who := by
  unfold StorageArray.owesResult
  simp only [List.any_eq_false, beq_iff_eq, ne_eq]

/-- A Format that is not about to choose takes no step. -/
theorem formatStep_of_not_choosing {s : State} (h : ¬ s.choosing) : s.formatStep = s := by
  unfold State.formatStep
  rw [if_neg]
  rintro ⟨a, b, c, d⟩
  exact h ⟨a, b, by simpa using c, owesResult_eq_false.1 (by simpa using d)⟩

/-- The end of a happening at which Format takes no step: `Settled` says everything it can do. -/
theorem settled_settle (f : Bool) {s : State} (hs : s.formatStep = s) : Settled s (s.settle f) := by
  unfold State.settle
  rw [hs]
  exact ((settled_reclaimTest s).cursorOnly (cursorOnly_cursorWork _)).cursorOnly (cursorOnly_arbitrate f _)

/-! ### Requests -/

theorem mem_made_invalidate {r : Request} (hr : r.requester.isCursor = false) (j : JSector) (s : State)
    (h : r ∈ s.array.made) : r ∈ (s.invalidate j).array.made := by
  unfold State.invalidate
  split
  · split <;> exact h
  · split
    · simp only [State.giveUpReads, State.withdraw, State.disown, List.mem_filter]
      refine ⟨h, ?_⟩
      revert hr
      cases r.requester <;> simp [Requester.isCursor]
    · exact h
  · exact h

theorem mem_made_overtake {r : Request} (hr : r.requester.isCursor = false) (j : JSector) (s : State)
    (h : r ∈ s.array.made) : r ∈ (s.overtake j).array.made := by
  simp only [State.overtake, State.raise, State.giveUpSeekRead, List.mem_filter]
  refine ⟨h, ?_⟩
  revert hr
  cases hq : r.requester <;> simp [Requester.isCursor, Request.seeks, hq]

/-- A request made by another requester survives the start of a reclaim. -/
theorem mem_made_reclaimTest {r : Request} (hr : r.requester.isCursor = false) (s : State) (h : r ∈ s.array.made) :
    r ∈ s.reclaimTest.array.made := by
  unfold State.reclaimTest
  split
  · split
    · rename_i j _
      unfold State.reclaimStart
      dsimp only [State.request]
      refine List.mem_append_left _ ?_
      have h1 : r ∈ (State.invalidate j (State.enterErasing j
          { s with reclaim := { phase := .erase, target := some j } })).array.made := mem_made_invalidate hr _ _ h
      split
      · exact mem_made_overtake hr _ _ h1
      · exact h1
    · exact h
  · exact h

theorem mem_made_cursorWork {r : Request} (hr : r.requester.isCursor = false) (s : State) (h : r ∈ s.array.made) : r ∈ s.cursorWork.array.made := by
  have h1 : ∀ u : State, r ∈ u.array.made → r ∈ u.seekLocate.array.made := by
    intro u hu
    unfold State.seekLocate
    split
    · split
      · rename_i k _ _
        have hc : (u.seekChoose k u.dir.ring).array = u.array := by
          unfold State.seekChoose
          split
          · rfl
          · split <;> rfl
        unfold State.dropSeekRead
        split
        · simp only [State.giveUpReads, State.withdraw, State.disown, List.mem_filter, hc]
          refine ⟨hu, ?_⟩
          revert hr
          cases r.requester <;> simp [Requester.isCursor]
        · rw [hc]; exact hu
      · exact hu
    · exact hu
  have h2 : ∀ u : State, r ∈ u.array.made → r ∈ u.seekRead.array.made := by
    intro u hu
    unfold State.seekRead
    split
    · exact hu
    · split
      · exact hu
      · split
        · exact hu
        · split
          all_goals first | exact hu | exact List.mem_append_left _ hu
  have h3 : ∀ u : State, r ∈ u.array.made → r ∈ u.fetchStep.array.made := by
    intro u hu
    unfold State.fetchStep
    split
    · exact hu
    · split
      · exact hu
      · split
        all_goals first | exact hu | exact List.mem_append_left _ hu
  exact h3 _ (h2 _ (h1 _ h))

/-- The arbiter grants a request that was made, or leaves it waiting (R59). -/
theorem hasRequest_arbitrate (f : Bool) {r : Request} (s : State) (h : r ∈ s.array.made) : (s.arbitrate f).hasRequest r := by
  have hg : ∀ g : Grant, (s.array.grant g).op = some r ∨ r ∈ (s.array.grant g).made
      ∨ r.kind = .erase ∧ ∃ e, (s.array.grant g).erase = some e ∧ e.sector = r.sector ∧ e.requester = r.requester := by
    intro g
    cases g with
    | resume => exact .inr (.inl h)
    | request q =>
      by_cases e : q = r
      · subst e
        by_cases hk : q.kind = .erase
        · refine .inr (.inr ⟨hk, ⟨q.sector, q.requester, .running, 0, q.wanted⟩, ?_, rfl, rfl⟩)
          simp [StorageArray.grant, hk]
        · exact .inl (by simp [StorageArray.grant, hk])
      · refine .inr (.inl ?_)
        unfold StorageArray.grant
        dsimp only
        split <;> exact (List.mem_erase_of_ne (Ne.symm e)).2 h
  have hu : ∀ a : StorageArray,
      (a.op = some r ∨ r ∈ a.made
        ∨ r.kind = .erase ∧ ∃ e, a.erase = some e ∧ e.sector = r.sector ∧ e.requester = r.requester) →
      ∀ t : State, t.array.op = (a.suspendFor a.made).op → t.array.waiting = (a.suspendFor a.made).waiting ++ a.made →
        t.array.erase = (a.suspendFor a.made).erase → t.hasRequest r := by
    intro a ha t h1 h2 h3
    rcases ha with ha | ha | ⟨hk, e, he, hs, hq⟩
    · exact .inl (h1.trans ha)
    · exact .inr (.inl (by rw [h2]; exact List.mem_append_right _ ha))
    · refine .inr (.inr ⟨hk, ?_⟩)
      rw [h3]
      unfold StorageArray.suspendFor
      simp only [he, Option.map_some]
      split
      · exact ⟨_, rfl, hs, hq⟩
      · exact ⟨_, rfl, hs, hq⟩
  unfold State.arbitrate
  dsimp only
  split
  · split
    · rename_i g _
      exact hu _ (hg g) _ rfl rfl rfl
    · exact hu _ (.inr (.inl h)) _ rfl rfl rfl
  · exact hu _ (.inr (.inl h)) _ rfl rfl rfl

/-- A request that another requester than the cursor engine made at a happening is granted at its end, or waits. -/
theorem hasRequest_settle (f : Bool) {r : Request} {s : State} (hs : s.formatStep = s) (hr : r.requester.isCursor = false)
    (h : r ∈ s.array.made) : (s.settle f).hasRequest r := by
  unfold State.settle
  rw [hs]
  exact hasRequest_arbitrate f _ (mem_made_cursorWork hr _ (mem_made_reclaimTest hr _ h))

end Sys2Proof.Machine
end

