-- ==== Sys2Proof/Laws/Sane.lean ====
section
/-! SUPPORT. Every operation of the part is sane: it leaves the queue of commands alone, keeps the canonical form of the memory,
the bounds of the line ports and of the stamp counter, and sets the counter back only at a reset, at the load of recovery, or
where Format finds it saturated. -/

namespace Sys2Proof.Machine

/-- What every operation does to the queue of commands, the memory, the line ports and the timebase. -/
structure Sane (s t : State) : Prop where
  pending : t.pending = s.pending
  mem     : s.memWf → t.memWf
  lines   : s.linesBounded → t.linesBounded
  stamp   : s.stampWf → t.stampWf
  inReset : s.inReset = true → t.inReset = true
  counter : t.time.counter = s.time.counter ∧ t.time.held = s.time.held ∨ t.inReset = true ∨ s.time.held = true
              ∨ s.time.counter = Config.stampMax

theorem Sane.refl (s : State) : Sane s s := ⟨rfl, id, id, id, id, .inl ⟨rfl, rfl⟩⟩

theorem Sane.trans {s t u : State} (h : Sane s t) (k : Sane t u) : Sane s u where
  pending := k.pending.trans h.pending
  mem := k.mem ∘ h.mem
  lines := k.lines ∘ h.lines
  stamp := k.stamp ∘ h.stamp
  inReset := k.inReset ∘ h.inReset
  counter := by
    rcases h.counter with ⟨h1, h2⟩ | h1 | h1 | h1
    · rcases k.counter with ⟨k1, k2⟩ | k1 | k1 | k1
      · exact .inl ⟨k1.trans h1, k2.trans h2⟩
      · exact .inr (.inl k1)
      · exact .inr (.inr (.inl (h2 ▸ k1)))
      · exact .inr (.inr (.inr (h1 ▸ k1)))
    · exact .inr (.inl (k.inReset h1))
    · exact .inr (.inr (.inl h1))
    · exact .inr (.inr (.inr h1))

theorem Sane.ite {s t u : State} (c : Prop) [Decidable c] (h : Sane s t) (k : Sane s u) : Sane s (if c then t else u) := by
  split <;> assumption

/-- A calm operation is sane. -/
theorem Calm.sane {s t : State} (h : Calm s t) : Sane s t where
  pending := h.pending
  mem := fun k => by unfold State.memWf at *; rw [h.mem]; exact k
  lines := fun k => by unfold State.linesBounded at *; rw [h.lines]; exact k
  stamp := fun k => by unfold State.stampWf at *; rw [h.time]; exact k
  inReset := fun k => by rw [h.inReset]; exact k
  counter := .inl ⟨by rw [h.time], by rw [h.time]⟩

/-- A change of the blocks that `Sane` does not speak of. -/
theorem Sane.of {s t : State} (h1 : t.pending = s.pending) (h2 : t.array.mem = s.array.mem) (h3 : t.lines = s.lines)
    (h4 : t.time = s.time) (h5 : t.inReset = s.inReset) : Sane s t where
  pending := h1
  mem := fun k => by unfold State.memWf at *; rw [h2]; exact k
  lines := fun k => by unfold State.linesBounded at *; rw [h3]; exact k
  stamp := fun k => by unfold State.stampWf at *; rw [h4]; exact k
  inReset := fun k => by rw [h5]; exact k
  counter := .inl ⟨by rw [h4], by rw [h4]⟩

/-- An operation that is sane at every state. -/
abbrev SaneOp (f : State → State) : Prop := ∀ s, Sane s (f s)

/-! ### Array operations and resets -/

theorem sane_program (r : Request) (o : OpOutcome) : SaneOp fun s => s.program r o := fun s => by
  refine ⟨?_, wf_program r o s, ?_, ?_, ?_, .inl ?_⟩ <;> cases o <;> first | rfl | exact id | exact ⟨rfl, rfl⟩

theorem sane_eraseSector (sec : Sector) (o : OpOutcome) : SaneOp (State.eraseSector sec o) := fun s => by
  refine ⟨?_, wf_eraseSector sec o s, ?_, ?_, ?_, .inl ?_⟩ <;> cases o <;> first | rfl | exact id | exact ⟨rfl, rfl⟩

theorem sane_cutErase : SaneOp State.cutErase := fun s => by
  unfold State.cutErase
  split
  · exact Sane.refl s
  · exact (sane_eraseSector _ _ s).trans (Sane.of rfl rfl rfl rfl rfl)

theorem sane_eraseSuspended (e : Erase) : SaneOp (State.eraseSuspended e) := fun s =>
  (sane_eraseSector _ _ s).trans (Sane.of rfl rfl rfl rfl rfl)

theorem sane_cutOp : SaneOp State.cutOp := fun s => by
  unfold State.cutOp
  split
  · exact Sane.refl s
  · dsimp only
    split
    · exact Sane.of rfl rfl rfl rfl rfl
    · exact (sane_program _ _ s).trans (Sane.of rfl rfl rfl rfl rfl)

theorem sane_cutArray : SaneOp State.cutArray := fun s =>
  ((sane_cutOp s).trans (sane_cutErase _)).trans (Sane.of rfl rfl rfl rfl rfl)

theorem linesBounded_reset : State.reset.linesBounded := fun i => by
  have : State.reset.lines[i] = LinePort.reset := by simp [State.reset]
  rw [this]
  exact ⟨Nat.zero_le _, Nat.zero_le _, Nat.zero_le _⟩

theorem stampWf_reset : State.reset.stampWf := ⟨Nat.zero_le _, fun h => absurd h (by decide)⟩

/-- A reset keeps the queue of commands and leaves the part in reset, with its line ports and timebase at their reset values. -/
theorem sane_takeReset (c : ResetCause) : SaneOp (State.takeReset c) := fun s =>
  ⟨(sane_cutArray s).pending, (sane_cutArray s).mem, fun _ => linesBounded_reset, fun _ => stampWf_reset, fun _ => rfl,
    .inr (.inl rfl)⟩

/-! ### Format and the end of a happening -/

theorem sane_zeroSaturated : SaneOp State.zeroSaturated := fun s => by
  unfold State.zeroSaturated
  split
  · rename_i h
    refine ⟨rfl, id, ?_, ?_, id, .inr (.inr (.inr (by simpa [State.counterSaturated] using h)))⟩
    · intro h i
      have := h i
      simp only [Fin.getElem_fin, Vector.getElem_map] at *
      exact ⟨this.1, by simpa using this.2.1, this.2.2⟩
    · intro _
      exact ⟨Nat.zero_le _, fun h => by simp at h⟩
  · exact Sane.refl s

theorem sane_formatErasesEnd : SaneOp State.formatErasesEnd := fun s => by
  have h : Sane s s.restartNumbers := Sane.of rfl rfl rfl rfl rfl
  unfold State.formatErasesEnd
  split
  · exact h.trans ((calm_enter _ _).trans ((calm_haltCommit _).trans ((calm_withCtrl _ _).trans (calm_endHostOp _ _)))).sane
  · exact (h.trans (sane_zeroSaturated _)).trans ((calm_placeStart _ _).trans (calm_withCtrl _ _)).sane

theorem sane_formatStep : SaneOp State.formatStep := fun s => by
  unfold State.formatStep
  split
  · split
    · exact ((calm_withCtrl _ s).trans ((calm_enterErasing _ _).trans (calm_request _ _))).sane
    · exact sane_formatErasesEnd s
  · exact Sane.refl s

theorem sane_settle (f : Bool) : SaneOp (State.settle f) := fun s =>
  (((sane_formatStep s).trans (calm_reclaimTest _).sane).trans (calm_cursorWork _).sane).trans (calm_arbitrate f _).sane

/-! ### Recovery's beginning, and the return from DRAINED -/

theorem sane_recoverNext (sec : Sector) (p : PageIx) : SaneOp (State.recoverNext sec p) := fun _ => Sane.of rfl rfl rfl rfl rfl
theorem sane_beginRecovery : SaneOp State.beginRecovery := fun _ => Sane.of rfl rfl rfl rfl rfl
theorem sane_withRecov (f : RecoveryUnit → RecoveryUnit) : SaneOp (State.withRecov f) := fun _ => Sane.of rfl rfl rfl rfl rfl

theorem sane_abandonRecovery : SaneOp State.abandonRecovery := fun s => by
  have h1 : Sane s s.abandonLoad := Sane.ite _ (Sane.of rfl rfl rfl rfl rfl) (Sane.refl s)
  have h2 : ∀ u : State, Calm u u.refuseStart := fun u =>
    (Calm.ite _ (calm_releaseHeld u) (Calm.refl u)).trans (calm_withCommit _ _)
  have h3 : ∀ u : State, Sane u u.stopRecovery := fun u => Sane.of rfl rfl rfl rfl rfl
  exact ((h1.trans (h2 _).sane).trans (h3 _)).trans ((calm_withCtrl _ _).trans (calm_enter _ _)).sane

theorem sane_restartRecovery : SaneOp State.restartRecovery := fun s =>
  ((Sane.of rfl rfl rfl rfl rfl : Sane s s.restartBlocks).trans (calm_enter _ _).sane).trans (sane_beginRecovery _)

theorem sane_returnFromDrained : SaneOp State.returnFromDrained := fun s => by
  unfold State.returnFromDrained
  split
  · exact sane_restartRecovery s
  · dsimp only
    have h := (calm_withCtrl (fun c => { c with saved := none }) s).trans
      (calm_withCommit (fun c => { c with drainLoss := false }) _)
    split
    · exact (h.trans (calm_returnFailed _)).sane
    · split
      · exact (h.trans (calm_returnTo _ _ _)).sane
      · exact (h.trans (calm_returnTo _ _ _)).sane
      · exact (h.trans (calm_returnTo _ _ _)).sane
      · split
        · exact (h.trans ((calm_enter _ _).trans (calm_placeResume _))).sane
        · exact (h.trans (calm_returnTo _ _ _)).sane
      · exact (h.trans ((calm_formatStart _).trans (calm_withCtrl _ _))).sane
      · exact (h.trans (calm_returnFailed _)).sane
      all_goals exact h.sane
  · exact Sane.refl s

/-! ### The drain -/

theorem sane_drainEnd (o : ShutdownOutcome) : SaneOp (State.drainEnd o) := fun s => by
  have h : Sane s ((s.drainDone o).enter .drained) :=
    (Sane.of rfl rfl rfl rfl rfl : Sane s (s.drainDone o)).trans (calm_enter _ _).sane
  unfold State.drainEnd
  dsimp only
  split
  · exact h.trans (sane_takeReset _ _)
  · split
    · exact h.trans (sane_returnFromDrained _)
    · exact h

theorem sane_handOver : SaneOp State.handOver := fun s => by
  unfold State.handOver
  dsimp only
  split
  · exact ((calm_withCtrl _ s).trans (calm_closeFilling _)).sane.trans (sane_drainEnd _ _)
  · exact ((calm_withCtrl _ s).trans (calm_closeFilling _)).sane

theorem calm_setSys (r : Option SysRecord) : CalmOp (State.setSys r) := fun _ => by constructor <;> rfl

theorem sane_shutdownUnnumbered : SaneOp State.shutdownUnnumbered := fun s => by
  unfold State.shutdownUnnumbered
  dsimp only
  split
  · exact (calm_withCtrl _ s).sane.trans (sane_handOver _)
  · exact (calm_withCtrl _ s).sane.trans (sane_drainEnd _ _)

theorem sane_shutdownStep : SaneOp State.shutdownStep := fun s => by
  unfold State.shutdownStep
  dsimp only
  split
  · exact (calm_setSys _ s).sane.trans (sane_shutdownUnnumbered _)
  · split
    · exact (calm_setSys _ s).sane.trans (sane_drainEnd _ _)
    · exact ((calm_setSys _ s).trans ((calm_writeRecord _ _ _).trans (calm_setSys _ _))).sane.trans (sane_handOver _)

theorem sane_abandonErase : SaneOp State.abandonErase := fun s => by
  unfold State.abandonErase
  split
  · exact Sane.refl s
  · split
    · exact (sane_cutErase s).trans (calm_eraseAbandoned _ _).sane
    · exact Sane.of rfl rfl rfl rfl rfl

theorem calm_enterDraining : CalmOp State.enterDraining := fun s => by
  unfold State.enterDraining
  dsimp only
  split
  · exact (calm_withCtrl _ s).trans (calm_enter _ _)
  · exact ((calm_withCtrl _ s).trans (calm_enter _ _)).trans (calm_endHostOp _ _)

theorem calm_drainAdmission : CalmOp State.drainAdmission := fun _ => by constructor <;> rfl

theorem calm_dropFormat : CalmOp State.dropFormat := calm_withCtrl _

theorem sane_beginDrain : SaneOp State.beginDrain := fun s => by
  have h := (((calm_enterDraining s).trans (calm_drainAdmission _)).sane.trans (sane_abandonErase _)).trans
    (((calm_refuseWaiting _).trans (calm_storeAbort _)).trans ((calm_dropFormat _).trans (calm_drainCommit _))).sane
  unfold State.beginDrain
  dsimp only
  split
  · exact h.trans (calm_withCtrl _ _).sane
  · exact h.trans (sane_shutdownStep _)

theorem sane_afterRelease (c : Bool) : SaneOp (State.afterRelease c) := fun s => by
  unfold State.afterRelease
  split
  · exact Sane.ite _ (Sane.refl s) (calm_enter _ s).sane
  · exact Sane.ite _ (calm_fullToStopped s).sane (Sane.refl s)
  · exact Sane.ite _ ((calm_enter _ s).trans ((calm_withCtrl _ _).trans (calm_endHostOp _ _))).sane (Sane.refl s)
  · split
    · exact sane_shutdownStep s
    · exact sane_drainEnd _ s
    · exact Sane.refl s
  all_goals exact Sane.refl s

/-! ### The commit path's ends -/

theorem sane_release (c : Bool) : SaneOp (State.release c) := fun s =>
  ((calm_releaseHeld s).trans (calm_takeClosed _)).sane.trans (sane_afterRelease c _)

theorem sane_retryOrLose (w : Bool) : SaneOp (State.retryOrLose w) := fun s => by
  unfold State.retryOrLose
  split
  · exact Sane.refl s
  · exact Sane.ite _ (sane_release _ s) (calm_seekTarget s).sane

theorem sane_headEnded (o : OpOutcome) (r : Request) : SaneOp (State.headEnded o r) := fun s => by
  unfold State.headEnded
  split
  · dsimp only
    split
    · split
      · have h := fun f j => ((calm_withCommit f s).trans (calm_startBody j _))
        exact Sane.ite _ ((h _ _).trans (calm_spaceBack _)).sane (h _ _).sane
      · exact Sane.refl s
    · exact ((calm_setEntry _ _ s).trans (calm_withCommit _ _)).sane.trans (sane_retryOrLose _ _)
  · exact Sane.refl s

theorem sane_bodyEnded (o : OpOutcome) (r : Request) : SaneOp (State.bodyEnded o r) := fun s => by
  unfold State.bodyEnded
  split
  · dsimp only
    split
    · exact Sane.ite _ ((calm_setEntry _ _ s).trans ((calm_withCommit _ _).trans (calm_request _ _))).sane
        (calm_setEntry _ _ s).sane
    · exact ((calm_setEntry _ _ s).trans (calm_programFailed _ _)).sane.trans (sane_retryOrLose _ _)
  · exact Sane.refl s

theorem sane_fieldEnded (o : OpOutcome) (r : Request) : SaneOp (State.fieldEnded o r) := fun s => by
  unfold State.fieldEnded
  split
  · split
    · split
      · exact Sane.ite _ ((calm_publish _ _ s).sane.trans (sane_release _ _)) (Sane.refl s)
      · exact Sane.refl s
    · exact ((calm_withhold _ _ s).trans (calm_programFailed _ _)).sane.trans (sane_retryOrLose _ _)
  · exact Sane.refl s

/-! ### The setup store -/

theorem sane_storeOutcome (o : HostOpOutcome) : SaneOp (State.storeOutcome o) := fun s => by
  unfold State.storeOutcome
  split
  · exact Sane.of rfl rfl rfl rfl rfl
  · exact (calm_raise _ s).sane
  · exact Sane.refl s

theorem sane_storeEnd (o : HostOpOutcome) : SaneOp (State.storeEnd o) := fun s =>
  (sane_storeOutcome o s).trans ((calm_withStore _ _).trans (calm_endHostOp _ _)).sane

theorem sane_storeSeek : SaneOp State.storeSeek := fun s => by
  unfold State.storeSeek
  split
  · exact Sane.refl s
  · split
    · exact ((calm_withStore _ s).trans (calm_request _ _)).sane
    · split
      · exact sane_storeEnd _ s
      · exact ((calm_withStore _ s).trans (calm_request _ _)).sane

theorem sane_storeOwed : SaneOp State.storeOwed := fun s => Sane.ite _ (sane_storeSeek s) (Sane.refl s)

theorem sane_storeStart : SaneOp State.storeStart := fun s => by
  have h : ∀ f : SetupStore → SetupStore,
      Sane s (State.withStore f { s with ctrl := { s.ctrl with opKind := .storeSetup, opOutcome := .noOutcome } }) :=
    fun f => Sane.of rfl rfl rfl rfl rfl
  unfold State.storeStart
  dsimp only
  split
  · exact (h _).trans (sane_storeEnd _ _)
  · split
    · exact (h _).trans ((calm_withStore _ _).trans (calm_withStore _ _)).sane
    · exact ((h _).trans (calm_withStore _ _).sane).trans (sane_storeSeek _)

/-! ### Line ports -/

/-- A change of one line port that keeps its bounds. -/
theorem sane_setLine (i : LineIx) (p : LinePort) (s : State) (h : s.linesBounded → p.bounded) : Sane s (s.setLine i p) where
  pending := rfl
  mem := id
  lines := fun k j => by
    unfold State.setLine
    by_cases e : i = j
    · subst e; simpa [Fin.getElem_fin] using h k
    · have : i.val ≠ j.val := fun x => e (Fin.ext x)
      simpa [Fin.getElem_fin, this] using k j
  stamp := id
  inReset := id
  counter := .inl ⟨rfl, rfl⟩

theorem bounded_pacedRelease (u : LineSetup) (p : LinePort) : (p.pacedRelease u).bounded ↔ p.bounded := by
  unfold LinePort.pacedRelease LinePort.bounded; split <;> exact Iff.rfl

theorem bounded_pacedStore (u : LineSetup) (p : LinePort) : (p.pacedStore u).bounded ↔ p.bounded := by
  unfold LinePort.pacedStore LinePort.bounded; split <;> exact Iff.rfl

theorem bounded_pacedRewrite (u : LineSetup) (p : LinePort) : (p.pacedRewrite u).bounded ↔ p.bounded := by
  unfold LinePort.pacedRewrite; split
  · exact Iff.rfl
  · exact bounded_pacedRelease u p

theorem sane_dropPiece (i : LineIx) : SaneOp (State.dropPiece i) := fun s => by
  unfold State.dropPiece
  refine (sane_setLine i _ s ?_).trans (calm_raise _ _).sane
  intro h
  rw [bounded_pacedRelease]
  have := h i
  exact ⟨Nat.le_trans (List.length_take_le' _ _) this.1, this.2.1, Nat.min_le_right _ _⟩

theorem setLine_get (i : LineIx) (p : LinePort) (s : State) : (s.setLine i p).lines[i] = p := by
  simp [State.setLine, Fin.getElem_fin]

theorem sane_closePiece (i : LineIx) (c : RecFlags) (n : FramerState) : SaneOp (State.closePiece i c n) := fun s => by
  unfold State.closePiece
  dsimp only
  have h0 : Sane s (s.setLine i { s.lines[i] with framer := n }) := sane_setLine i _ s fun h => h i
  split
  · exact h0.trans (sane_dropPiece i _)
  · rename_i hq
    refine h0.trans (sane_setLine i _ _ fun h => ?_)
    have hi := h i
    rw [setLine_get] at hi
    simp only [Bool.or_eq_true, decide_eq_true_eq, not_or, Nat.not_le] at hq
    refine ⟨hi.1, ?_, hi.2.2⟩
    simp only [List.length_append, List.length_cons, List.length_nil]
    exact hq.2

theorem bounded_offer (u : LineSetup) (b : Byte) (p : LinePort) (h : p.bounded) : (p.offer u b).bounded := by
  unfold LinePort.offer
  split
  · exact h
  · split
    · rename_i hf
      rw [bounded_pacedStore]
      exact ⟨by simpa using Nat.succ_le_of_lt hf, h.2.1, h.2.2⟩
    · exact h

theorem bounded_join (u : LineSetup) (t : Nat) (b : Byte) (x y : Bool) (p : LinePort) (h : p.bounded) :
    (p.join u t b x y).bounded := by
  unfold LinePort.join
  refine bounded_offer _ _ _ ?_
  split <;> exact h

theorem sane_closeTest (i : LineIx) (e : Bool) : SaneOp (State.closeTest i e) := fun s => by
  unfold State.closeTest
  dsimp only
  split
  · exact sane_closePiece _ _ _ _
  · split
    · split <;> exact sane_closePiece _ _ _ _
    · exact Sane.refl s

theorem sane_takeCharacter (i : LineIx) (b : Byte) (x y : Bool) : SaneOp (State.takeCharacter i b x y) := fun s => by
  unfold State.takeCharacter
  dsimp only
  split
  · exact sane_setLine i _ s fun h => h i
  · refine Sane.trans (sane_setLine i _ s fun h => ?_) (sane_closeTest _ _ _)
    have k := bounded_join s.setup.fields.line[i] s.time.counter b x y s.lines[i] (h i)
    exact ⟨k.1, k.2.1, k.2.2⟩

theorem sane_takeBreak (i : LineIx) : SaneOp (State.takeBreak i) := fun s => by
  unfold State.takeBreak
  dsimp only
  split
  · exact sane_closePiece _ _ _ _
  · refine Sane.trans (sane_setLine i _ s ?_) (sane_closePiece _ _ _ _)
    exact fun h => h i

theorem sane_takeIdle (i : LineIx) : SaneOp (State.takeIdle i) := fun s => by
  unfold State.takeIdle
  dsimp only
  split
  · exact sane_closePiece _ _ _ _
  · exact Sane.refl s
  all_goals exact sane_setLine i _ s fun h => h i

theorem sane_setReceiver (i : LineIx) (r : Receiver) (n : Option Nat) : SaneOp (State.setReceiver i r n) :=
  fun s => sane_setLine i _ s fun h => h i

theorem sane_disableLine (i : LineIx) : SaneOp (State.disableLine i) := fun s => by
  unfold State.disableLine
  dsimp only
  have h : Sane s (s.setLine i { s.lines[i] with receiver := .off, idle := none, framer := .waiting }) :=
    sane_setLine i _ s fun h => h i
  split
  · exact h.trans (sane_dropPiece i _)
  · exact h

theorem sane_enableLines : SaneOp State.enableLines := fun s => by
  have h : ∀ (i : LineIx) (u : State), Sane u (if u.setup.fields.line[i].enable then u.enableLine i else u) :=
    fun i u => Sane.ite _ (sane_setReceiver _ _ _ u) (Sane.refl u)
  exact (((h 0 s).trans (h 1 _)).trans (h 2 _)).trans (h 3 _)

theorem sane_writeLine (i : LineIx) (u : LineSetup) : SaneOp (State.writeLine i u) := fun s => by
  unfold State.writeLine
  dsimp only
  have h : ∀ f : SetupFields, Sane s { s with setup := { s.setup with fields := f } } := fun f => Sane.of rfl rfl rfl rfl rfl
  have hp : ∀ v : State, Sane v (v.setLine i (v.lines[i].pacedRewrite u)) :=
    fun v => sane_setLine i _ v fun k => (bounded_pacedRewrite _ _).2 (k i)
  split
  · exact ((h _).trans (sane_disableLine _ _)).trans (hp _)
  · split
    · exact ((h _).trans (sane_setReceiver _ _ _ _)).trans (hp _)
    · exact (h _).trans (hp _)

/-! ### Recovery -/

theorem sane_recoveryClose : SaneOp State.recoveryClose := fun s =>
  ((sane_withRecov _ s).trans (sane_enableLines _)).trans (calm_raise _ _).sane

theorem calm_recoveryEnter : CalmOp State.recoveryEnter := fun s => Calm.ite _ (calm_enterRunning s) (calm_enter _ s)

theorem calm_reportTaken : CalmOp State.reportTaken := fun _ => by constructor <;> rfl

theorem calm_oweReport : CalmOp State.oweReport := fun _ => by constructor <;> rfl

theorem sane_recoveryEnd : SaneOp State.recoveryEnd := fun s => by
  have h1 : ∀ u : State, Calm u (if u.commit.phase = .blocked then u.spaceBlocked else u) :=
    fun u => Calm.ite _ (calm_spaceBlocked u) (Calm.refl u)
  have h2 : ∀ u : State, Calm u (if u.adm.exhausted then u.reportExhausted else u) :=
    fun u => Calm.ite _ (calm_reportExhausted u) (Calm.refl u)
  exact ((((calm_reportTaken s).trans (calm_recoveryEnter _)).trans (h1 _)).trans (h2 _)).sane.trans (sane_recoveryClose _)

theorem sane_recoveryFailed : SaneOp State.recoveryFailed := fun s =>
  ((calm_enter _ s).trans (calm_haltCommit _)).sane.trans (sane_recoveryClose _)

theorem sane_rebuild : SaneOp State.rebuild := fun s => by
  refine ⟨rfl, id, id, ?_, id, ?_⟩
  · intro h
    unfold State.rebuild Timebase.load
    dsimp only [State.withCommit, State.stampWf]
    split
    · refine ⟨?_, by simp⟩
      dsimp only
      split
      · exact Nat.min_le_right _ _
      · exact Nat.zero_le _
    · exact h
  · unfold State.rebuild Timebase.load
    dsimp only [State.withCommit]
    split
    · rename_i h; exact .inr (.inr (.inl h))
    · exact .inl ⟨rfl, rfl⟩

theorem sane_finishRecovery : SaneOp State.finishRecovery := fun s => by
  unfold State.finishRecovery
  dsimp only
  have h := fun f => (sane_rebuild s).trans (sane_withRecov f _)
  split
  · exact (h _).trans (sane_recoveryFailed _)
  · split
    · exact ((h _).trans ((calm_recoveryEnter _).trans (calm_reportExhausted _)).sane).trans (sane_recoveryClose _)
    · exact ((h _).trans (calm_placeStart _ _).sane).trans (sane_withRecov _ _)

theorem sane_scanSector (j : Option JSector) : SaneOp (State.scanSector j) := fun s => by
  unfold State.scanSector
  split
  · exact sane_recoverNext _ _ s
  · exact sane_finishRecovery s

theorem sane_scanAfterValid (e : Nat) : SaneOp (State.scanAfterValid e) := fun s => by
  unfold State.scanAfterValid
  split <;> exact sane_scanSector _ s

theorem sane_scanPage (j : JSector) (p : PageIx) (l : List Byte) : SaneOp (State.scanPage j p l) := fun s => by
  unfold State.scanPage
  split
  · dsimp only
    split
    · exact (sane_withRecov _ s).trans (sane_recoverNext _ _ _)
    · exact (sane_withRecov _ s).trans (sane_scanAfterValid _ _)
  · split
    · split
      · exact sane_recoverNext _ _ s
      · exact sane_scanSector _ s
    · exact (sane_withRecov _ s).trans (sane_scanSector _ _)
  · exact Sane.refl s

theorem sane_scanHead (j : JSector) (l : List Byte) : SaneOp (State.scanHead j l) := fun s => by
  unfold State.scanHead
  dsimp only
  split
  · exact (sane_withRecov _ s).trans (sane_recoverNext _ _ _)
  · exact (sane_withRecov _ s).trans ((sane_withRecov _ _).trans (sane_scanAfterValid _ _))

theorem sane_loadSetup : SaneOp State.loadSetup := fun s => by
  unfold State.loadSetup
  split <;> exact Sane.of rfl rfl rfl rfl rfl

theorem sane_scanSetup (sec : Sector) (p : PageIx) (l : List Byte) : SaneOp (State.scanSetup sec p l) := fun s => by
  unfold State.scanSetup
  dsimp only
  split
  · exact (sane_withRecov _ s).trans (sane_recoverNext _ _ _)
  · split
    · exact (sane_withRecov _ s).trans (sane_recoverNext _ _ _)
    · exact (((sane_withRecov _ s).trans (sane_loadSetup _)).trans (sane_withRecov _ _)).trans (sane_recoverNext _ _ _)

theorem sane_recoveryDeliver (sec : Sector) (p : PageIx) (l : List Byte) : SaneOp (State.recoveryDeliver sec p l) := fun s => by
  unfold State.recoveryDeliver
  split
  · exact sane_scanSetup _ _ _ s
  · exact sane_scanHead _ _ s
  · exact sane_scanPage _ _ _ s
  · exact Sane.refl s

/-! ### Admission and the end of a transaction -/

theorem sane_takeCandidate (c : Candidate) : SaneOp (State.takeCandidate c) := fun s => by
  unfold State.takeCandidate
  split
  · exact ⟨rfl, id, id, id, id, .inl ⟨rfl, rfl⟩⟩
  · exact Sane.of rfl rfl rfl rfl rfl
  · refine sane_setLine _ _ s fun h => ?_
    unfold LinePort.takeHead
    rw [bounded_pacedRelease]
    rename_i i d
    have := h i
    refine ⟨?_, ?_, Nat.zero_le _⟩
    · simp only [List.length_drop]; exact Nat.le_trans (Nat.sub_le _ _) this.1
    · simp only [List.length_tail]; exact Nat.le_trans (Nat.sub_le _ _) this.2.1
  · exact Sane.of rfl rfl rfl rfl rfl

theorem sane_closeAfter (c : Bool) : SaneOp (State.closeAfter c) := fun s => Sane.ite _ (calm_closeFilling s).sane (Sane.refl s)

theorem sane_admitReport (j : JState) (c : Bool) : SaneOp (State.admitReport j c) := fun s =>
  Sane.ite _ (Sane.ite _ (calm_oweReport s).sane (Sane.refl s)) (Sane.ite _ (calm_reportExhausted s).sane (Sane.refl s))

theorem sane_admit (b : BufId) (c : Candidate) : SaneOp (State.admitCandidate b c) := fun s =>
  (((sane_takeCandidate c s).trans (calm_writeRecord b (s.draft c) _).sane).trans (sane_closeAfter _ _)).trans
    (sane_admitReport _ _ _)

theorem sane_endTransaction : SaneOp State.endTransaction := fun s => by
  have h : ∀ u : State, Sane u (if u.port.phase = .stream then u.cutToken else u) :=
    fun u => Sane.ite _ (calm_cutToken u).sane (Sane.refl u)
  exact (h s).trans (Sane.of rfl rfl rfl rfl rfl)

theorem sane_hostResetAtRise : SaneOp State.hostResetAtRise := fun s => by
  unfold State.hostResetAtRise
  split
  · exact sane_takeReset _ s
  · split
    · split
      all_goals first | exact Sane.refl s | exact sane_beginDrain s
    · exact Sane.refl s

end Sys2Proof.Machine
end

