-- ==== Sys2Proof/Laws/HostPort.lean ====
section
/-! SUPPORT. What the arrival of a byte does (`State.takeByte`, `State.gather`, `State.answer`), said once. -/

namespace Sys2Proof.Machine

/-- Every row of the table that a byte brings is the arrival of that byte (R188). -/
theorem exec_byte {i : Instr} {b : Byte} {m : BitVec 11} (h : arrivingByte i = some (b, m)) (s : State) :
    exec i s = s.takeByte b m := by
  cases i <;> simp [arrivingByte, hostCommand] at h <;> obtain ⟨rfl, rfl⟩ := h <;> rfl

/-- A byte that the phase ignores is a unit clocked on SDO and nothing else (R187, R189). -/
theorem takeByte_ignored {b : Byte} {m : BitVec 11} {s : State} (h1 : s.powered = true)
    (h2 : s.port.phase = .idle ∨ s.port.phase = .reply ∨ s.port.phase = .stream) : s.takeByte b m = .next s.clocked := by
  unfold State.takeByte State.live State.byteArrives
  rcases h2 with h | h | h <;> simp only [h1, h, if_true]

/-- A command byte that leaves bytes owed, or is whole (R188). -/
theorem takeByte_first {c : Command} {b : Byte} {m : BitVec 11} {s : State} (h : s.atCommand) (hc : commandOf b = some c) :
    s.takeByte b m = .next (s.gather c b [] m) := by
  simp only [State.takeByte, State.live, State.byteArrives, h.1, h.2, hc, if_true]

/-- An argument byte that leaves bytes owed, or is the last (R188). -/
theorem takeByte_next {c : Command} {code b : Byte} {args : List Byte} {m : BitVec 11} {s : State}
    (h : s.atArguments code args) (hc : commandOf code = some c) :
    s.takeByte b m = .next (s.gather c code (args ++ [b]) m) := by
  obtain ⟨hp, hq, rfl, rfl⟩ := h
  simp only [State.takeByte, State.live, State.byteArrives, hp, hq, hc, if_true]

/-- A command that is whole is taken and decided by its rule (R188). -/
theorem gather_whole {c : Command} {code : Byte} {args : List Byte} {m : BitVec 11} {s : State} (h1 : owed c args = 0)
    (h2 : s.ctrl.state ≠ .recovering ∨ c = .readStatus ∨ c = .readIdentity) :
    s.gather c code args m = State.answer code args (c.rule m args s) := by
  rw [State.gather, if_pos h1, Command.decide, if_neg]
  rintro ⟨a, b, c⟩
  rcases h2 with h | h | h <;> contradiction

/-- A command with no argument is taken at its command byte (R188). -/
theorem takeByte_command {c : Command} {code : Byte} {m : BitVec 11} {s : State} (h : s.atCommand) (hc : commandOf code = some c)
    (h1 : owed c [] = 0) (h2 : s.ctrl.state ≠ .recovering ∨ c = .readStatus ∨ c = .readIdentity) :
    s.takeByte code m = .next (State.answer code [] (c.rule m [] s)) := by
  rw [takeByte_first h hc, gather_whole h1 h2]

/-- A command is taken at its last argument byte (R188). -/
theorem takeByte_argument {c : Command} {code : Byte} {args : List Byte} {s : State} {b : Byte} {m : BitVec 11}
    (h : s.atArguments code args) (hc : commandOf code = some c) (h1 : owed c (args ++ [b]) = 0)
    (h2 : s.ctrl.state ≠ .recovering ∨ c = .readStatus ∨ c = .readIdentity) :
    s.takeByte b m = .next (State.answer code (args ++ [b]) (c.rule m (args ++ [b]) s)) := by
  rw [takeByte_next h hc, gather_whole h1 h2]

/-- While the journal is RECOVERING a command other than Read Status and Read Identity is answered NOT_READY (R188). -/
theorem gather_notReady {c : Command} {code : Byte} {args : List Byte} {m : BitVec 11} {s : State} (h1 : owed c args = 0)
    (h2 : s.ctrl.state = .recovering) (h3 : c ≠ .readStatus) (h4 : c ≠ .readIdentity) :
    s.gather c code args m = State.answer code args (s.refuseWith .notReady) := by
  rw [State.gather, if_pos h1, Command.decide, if_pos ⟨h2, h3, h4⟩]

/-- The answer of a command other than Read Status and Read Records (R188, R189). -/
theorem answer_eq_replied {code : Byte} {args data : List Byte} {r : Result} {s : State}
    (hc : commandOf code ≠ some .readStatus) (hd : commandOf code ≠ some .readRecords) :
    State.answer code args (r, data, s) = s.replied code args r (if r = .ok then data else []) := by
  simp only [State.answer, State.replied, hc, hd, if_false, false_and]

/-- A refused command answers its result code and no data, and changes nothing else. -/
theorem answer_refuse {code : Byte} {args : List Byte} {r : Result} {s : State}
    (hc : commandOf code ≠ some .readStatus) (hd : commandOf code ≠ some .readRecords) :
    State.answer code args (s.refuseWith r) = s.replied code args r [] := by
  rw [State.refuseWith, answer_eq_replied hc hd, ite_self]

/-- An accepted command without data answers OK. -/
theorem answer_accept {code : Byte} {args : List Byte} {s : State}
    (hc : commandOf code ≠ some .readStatus) (hd : commandOf code ≠ some .readRecords) :
    State.answer code args s.accept = s.replied code args .ok [] := by
  rw [State.accept, answer_eq_replied hc hd]; rfl

/-- The last byte of a command that is whole with it is gathered with the bytes before it (R188). -/
theorem takeByte_complete {c : Command} {code : Byte} {a : Arrival} {args : List Byte} {m : BitVec 11} {s : State}
    (hp : s.powered = true) (hc : commandOf code = some c) (h : s.port.complete c code a = some args) :
    s.takeByte (a.byte code) m = .next (s.gather c code args m) ∧ owed c args = 0 := by
  cases hq : s.port.phase <;> cases a <;> simp only [HostPort.complete, hq] at h <;> try contradiction
  · split at h
    · rename_i ho; cases h; exact ⟨takeByte_first ⟨hp, hq⟩ hc, ho⟩
    · cases h
  · split at h
    · rename_i ho; cases h; exact ⟨takeByte_next ⟨hp, hq, ho.1, rfl⟩ hc, ho.2.2⟩
    · cases h

end Sys2Proof.Machine
end

