-- ==== Sys2Proof/Laws/State.lean ====
section
/-! SUPPORT. What each update of the state leaves as it was, and what it writes: one lemma for each field. -/

namespace Sys2Proof.Machine

variable (s : State)

/-! A raise (R194): `State.raise`. -/

@[simp] theorem State.raise_setup (e : Event) : (s.raise e).setup = s.setup := rfl
@[simp] theorem State.raise_lines (e : Event) : (s.raise e).lines = s.lines := rfl
@[simp] theorem State.raise_time (e : Event) : (s.raise e).time = s.time := rfl
@[simp] theorem State.raise_adm (e : Event) : (s.raise e).adm = s.adm := rfl
@[simp] theorem State.raise_array (e : Event) : (s.raise e).array = s.array := rfl
@[simp] theorem State.raise_commit (e : Event) : (s.raise e).commit = s.commit := rfl
@[simp] theorem State.raise_dir (e : Event) : (s.raise e).dir = s.dir := rfl
@[simp] theorem State.raise_reclaim (e : Event) : (s.raise e).reclaim = s.reclaim := rfl
@[simp] theorem State.raise_cursor (e : Event) : (s.raise e).cursor = s.cursor := rfl
@[simp] theorem State.raise_ctrl (e : Event) : (s.raise e).ctrl = s.ctrl := rfl
@[simp] theorem State.raise_recov (e : Event) : (s.raise e).recov = s.recov := rfl
@[simp] theorem State.raise_store (e : Event) : (s.raise e).store = s.store := rfl
@[simp] theorem State.raise_port (e : Event) : (s.raise e).port = s.port := rfl
@[simp] theorem State.raise_events (e : Event) :
    (s.raise e).events = { s.events with flags := s.events.flags ||| e.mask } := rfl
@[simp] theorem State.raise_pins (e : Event) : (s.raise e).pins = s.pins := rfl
@[simp] theorem State.raise_powered (e : Event) : (s.raise e).powered = s.powered := rfl
@[simp] theorem State.raise_inReset (e : Event) : (s.raise e).inReset = s.inReset := rfl
@[simp] theorem State.raise_setupLoaded (e : Event) : (s.raise e).setupLoaded = s.setupLoaded := rfl
@[simp] theorem State.raise_freeIx (e : Event) : (s.raise e).freeIx = s.freeIx := rfl
@[simp] theorem State.raise_pending (e : Event) : (s.raise e).pending = s.pending := rfl

/-! A change of the journal controller: `State.withCtrl`. -/

@[simp] theorem State.withCtrl_setup (f : Controller → Controller) : (s.withCtrl f).setup = s.setup := rfl
@[simp] theorem State.withCtrl_lines (f : Controller → Controller) : (s.withCtrl f).lines = s.lines := rfl
@[simp] theorem State.withCtrl_time (f : Controller → Controller) : (s.withCtrl f).time = s.time := rfl
@[simp] theorem State.withCtrl_adm (f : Controller → Controller) : (s.withCtrl f).adm = s.adm := rfl
@[simp] theorem State.withCtrl_array (f : Controller → Controller) : (s.withCtrl f).array = s.array := rfl
@[simp] theorem State.withCtrl_commit (f : Controller → Controller) : (s.withCtrl f).commit = s.commit := rfl
@[simp] theorem State.withCtrl_dir (f : Controller → Controller) : (s.withCtrl f).dir = s.dir := rfl
@[simp] theorem State.withCtrl_reclaim (f : Controller → Controller) : (s.withCtrl f).reclaim = s.reclaim := rfl
@[simp] theorem State.withCtrl_cursor (f : Controller → Controller) : (s.withCtrl f).cursor = s.cursor := rfl
@[simp] theorem State.withCtrl_ctrl (f : Controller → Controller) : (s.withCtrl f).ctrl = f s.ctrl := rfl
@[simp] theorem State.withCtrl_recov (f : Controller → Controller) : (s.withCtrl f).recov = s.recov := rfl
@[simp] theorem State.withCtrl_store (f : Controller → Controller) : (s.withCtrl f).store = s.store := rfl
@[simp] theorem State.withCtrl_port (f : Controller → Controller) : (s.withCtrl f).port = s.port := rfl
@[simp] theorem State.withCtrl_events (f : Controller → Controller) : (s.withCtrl f).events = s.events := rfl
@[simp] theorem State.withCtrl_pins (f : Controller → Controller) : (s.withCtrl f).pins = s.pins := rfl
@[simp] theorem State.withCtrl_powered (f : Controller → Controller) : (s.withCtrl f).powered = s.powered := rfl
@[simp] theorem State.withCtrl_inReset (f : Controller → Controller) : (s.withCtrl f).inReset = s.inReset := rfl
@[simp] theorem State.withCtrl_setupLoaded (f : Controller → Controller) : (s.withCtrl f).setupLoaded = s.setupLoaded := rfl
@[simp] theorem State.withCtrl_freeIx (f : Controller → Controller) : (s.withCtrl f).freeIx = s.freeIx := rfl
@[simp] theorem State.withCtrl_pending (f : Controller → Controller) : (s.withCtrl f).pending = s.pending := rfl

/-! A change of the commit path: `State.withCommit`. -/

@[simp] theorem State.withCommit_setup (f : CommitPath → CommitPath) : (s.withCommit f).setup = s.setup := rfl
@[simp] theorem State.withCommit_lines (f : CommitPath → CommitPath) : (s.withCommit f).lines = s.lines := rfl
@[simp] theorem State.withCommit_time (f : CommitPath → CommitPath) : (s.withCommit f).time = s.time := rfl
@[simp] theorem State.withCommit_adm (f : CommitPath → CommitPath) : (s.withCommit f).adm = s.adm := rfl
@[simp] theorem State.withCommit_array (f : CommitPath → CommitPath) : (s.withCommit f).array = s.array := rfl
@[simp] theorem State.withCommit_commit (f : CommitPath → CommitPath) : (s.withCommit f).commit = f s.commit := rfl
@[simp] theorem State.withCommit_dir (f : CommitPath → CommitPath) : (s.withCommit f).dir = s.dir := rfl
@[simp] theorem State.withCommit_reclaim (f : CommitPath → CommitPath) : (s.withCommit f).reclaim = s.reclaim := rfl
@[simp] theorem State.withCommit_cursor (f : CommitPath → CommitPath) : (s.withCommit f).cursor = s.cursor := rfl
@[simp] theorem State.withCommit_ctrl (f : CommitPath → CommitPath) : (s.withCommit f).ctrl = s.ctrl := rfl
@[simp] theorem State.withCommit_recov (f : CommitPath → CommitPath) : (s.withCommit f).recov = s.recov := rfl
@[simp] theorem State.withCommit_store (f : CommitPath → CommitPath) : (s.withCommit f).store = s.store := rfl
@[simp] theorem State.withCommit_port (f : CommitPath → CommitPath) : (s.withCommit f).port = s.port := rfl
@[simp] theorem State.withCommit_events (f : CommitPath → CommitPath) : (s.withCommit f).events = s.events := rfl
@[simp] theorem State.withCommit_pins (f : CommitPath → CommitPath) : (s.withCommit f).pins = s.pins := rfl
@[simp] theorem State.withCommit_powered (f : CommitPath → CommitPath) : (s.withCommit f).powered = s.powered := rfl
@[simp] theorem State.withCommit_inReset (f : CommitPath → CommitPath) : (s.withCommit f).inReset = s.inReset := rfl
@[simp] theorem State.withCommit_setupLoaded (f : CommitPath → CommitPath) :
    (s.withCommit f).setupLoaded = s.setupLoaded := rfl
@[simp] theorem State.withCommit_freeIx (f : CommitPath → CommitPath) : (s.withCommit f).freeIx = s.freeIx := rfl
@[simp] theorem State.withCommit_pending (f : CommitPath → CommitPath) : (s.withCommit f).pending = s.pending := rfl

/-! A change of the setup store: `State.withStore`. -/

@[simp] theorem State.withStore_setup (f : SetupStore → SetupStore) : (s.withStore f).setup = s.setup := rfl
@[simp] theorem State.withStore_lines (f : SetupStore → SetupStore) : (s.withStore f).lines = s.lines := rfl
@[simp] theorem State.withStore_time (f : SetupStore → SetupStore) : (s.withStore f).time = s.time := rfl
@[simp] theorem State.withStore_adm (f : SetupStore → SetupStore) : (s.withStore f).adm = s.adm := rfl
@[simp] theorem State.withStore_array (f : SetupStore → SetupStore) : (s.withStore f).array = s.array := rfl
@[simp] theorem State.withStore_commit (f : SetupStore → SetupStore) : (s.withStore f).commit = s.commit := rfl
@[simp] theorem State.withStore_dir (f : SetupStore → SetupStore) : (s.withStore f).dir = s.dir := rfl
@[simp] theorem State.withStore_reclaim (f : SetupStore → SetupStore) : (s.withStore f).reclaim = s.reclaim := rfl
@[simp] theorem State.withStore_cursor (f : SetupStore → SetupStore) : (s.withStore f).cursor = s.cursor := rfl
@[simp] theorem State.withStore_ctrl (f : SetupStore → SetupStore) : (s.withStore f).ctrl = s.ctrl := rfl
@[simp] theorem State.withStore_recov (f : SetupStore → SetupStore) : (s.withStore f).recov = s.recov := rfl
@[simp] theorem State.withStore_store (f : SetupStore → SetupStore) : (s.withStore f).store = f s.store := rfl
@[simp] theorem State.withStore_port (f : SetupStore → SetupStore) : (s.withStore f).port = s.port := rfl
@[simp] theorem State.withStore_events (f : SetupStore → SetupStore) : (s.withStore f).events = s.events := rfl
@[simp] theorem State.withStore_pins (f : SetupStore → SetupStore) : (s.withStore f).pins = s.pins := rfl
@[simp] theorem State.withStore_powered (f : SetupStore → SetupStore) : (s.withStore f).powered = s.powered := rfl
@[simp] theorem State.withStore_inReset (f : SetupStore → SetupStore) : (s.withStore f).inReset = s.inReset := rfl
@[simp] theorem State.withStore_setupLoaded (f : SetupStore → SetupStore) :
    (s.withStore f).setupLoaded = s.setupLoaded := rfl
@[simp] theorem State.withStore_freeIx (f : SetupStore → SetupStore) : (s.withStore f).freeIx = s.freeIx := rfl
@[simp] theorem State.withStore_pending (f : SetupStore → SetupStore) : (s.withStore f).pending = s.pending := rfl

/-! A change of the recovery unit: `State.withRecov`. -/

@[simp] theorem State.withRecov_setup (f : RecoveryUnit → RecoveryUnit) : (s.withRecov f).setup = s.setup := rfl
@[simp] theorem State.withRecov_lines (f : RecoveryUnit → RecoveryUnit) : (s.withRecov f).lines = s.lines := rfl
@[simp] theorem State.withRecov_time (f : RecoveryUnit → RecoveryUnit) : (s.withRecov f).time = s.time := rfl
@[simp] theorem State.withRecov_adm (f : RecoveryUnit → RecoveryUnit) : (s.withRecov f).adm = s.adm := rfl
@[simp] theorem State.withRecov_array (f : RecoveryUnit → RecoveryUnit) : (s.withRecov f).array = s.array := rfl
@[simp] theorem State.withRecov_commit (f : RecoveryUnit → RecoveryUnit) : (s.withRecov f).commit = s.commit := rfl
@[simp] theorem State.withRecov_dir (f : RecoveryUnit → RecoveryUnit) : (s.withRecov f).dir = s.dir := rfl
@[simp] theorem State.withRecov_reclaim (f : RecoveryUnit → RecoveryUnit) : (s.withRecov f).reclaim = s.reclaim := rfl
@[simp] theorem State.withRecov_cursor (f : RecoveryUnit → RecoveryUnit) : (s.withRecov f).cursor = s.cursor := rfl
@[simp] theorem State.withRecov_ctrl (f : RecoveryUnit → RecoveryUnit) : (s.withRecov f).ctrl = s.ctrl := rfl
@[simp] theorem State.withRecov_recov (f : RecoveryUnit → RecoveryUnit) : (s.withRecov f).recov = f s.recov := rfl
@[simp] theorem State.withRecov_store (f : RecoveryUnit → RecoveryUnit) : (s.withRecov f).store = s.store := rfl
@[simp] theorem State.withRecov_port (f : RecoveryUnit → RecoveryUnit) : (s.withRecov f).port = s.port := rfl
@[simp] theorem State.withRecov_events (f : RecoveryUnit → RecoveryUnit) : (s.withRecov f).events = s.events := rfl
@[simp] theorem State.withRecov_pins (f : RecoveryUnit → RecoveryUnit) : (s.withRecov f).pins = s.pins := rfl
@[simp] theorem State.withRecov_powered (f : RecoveryUnit → RecoveryUnit) : (s.withRecov f).powered = s.powered := rfl
@[simp] theorem State.withRecov_inReset (f : RecoveryUnit → RecoveryUnit) : (s.withRecov f).inReset = s.inReset := rfl
@[simp] theorem State.withRecov_setupLoaded (f : RecoveryUnit → RecoveryUnit) :
    (s.withRecov f).setupLoaded = s.setupLoaded := rfl
@[simp] theorem State.withRecov_freeIx (f : RecoveryUnit → RecoveryUnit) : (s.withRecov f).freeIx = s.freeIx := rfl
@[simp] theorem State.withRecov_pending (f : RecoveryUnit → RecoveryUnit) : (s.withRecov f).pending = s.pending := rfl

/-! A request made (R58): `State.request`. -/

@[simp] theorem State.request_setup (r : Request) : (s.request r).setup = s.setup := rfl
@[simp] theorem State.request_lines (r : Request) : (s.request r).lines = s.lines := rfl
@[simp] theorem State.request_time (r : Request) : (s.request r).time = s.time := rfl
@[simp] theorem State.request_adm (r : Request) : (s.request r).adm = s.adm := rfl
@[simp] theorem State.request_array (r : Request) :
    (s.request r).array = { s.array with made := s.array.made ++ [r] } := rfl
@[simp] theorem State.request_commit (r : Request) : (s.request r).commit = s.commit := rfl
@[simp] theorem State.request_dir (r : Request) : (s.request r).dir = s.dir := rfl
@[simp] theorem State.request_reclaim (r : Request) : (s.request r).reclaim = s.reclaim := rfl
@[simp] theorem State.request_cursor (r : Request) : (s.request r).cursor = s.cursor := rfl
@[simp] theorem State.request_ctrl (r : Request) : (s.request r).ctrl = s.ctrl := rfl
@[simp] theorem State.request_recov (r : Request) : (s.request r).recov = s.recov := rfl
@[simp] theorem State.request_store (r : Request) : (s.request r).store = s.store := rfl
@[simp] theorem State.request_port (r : Request) : (s.request r).port = s.port := rfl
@[simp] theorem State.request_events (r : Request) : (s.request r).events = s.events := rfl
@[simp] theorem State.request_pins (r : Request) : (s.request r).pins = s.pins := rfl
@[simp] theorem State.request_powered (r : Request) : (s.request r).powered = s.powered := rfl
@[simp] theorem State.request_inReset (r : Request) : (s.request r).inReset = s.inReset := rfl
@[simp] theorem State.request_setupLoaded (r : Request) : (s.request r).setupLoaded = s.setupLoaded := rfl
@[simp] theorem State.request_freeIx (r : Request) : (s.request r).freeIx = s.freeIx := rfl
@[simp] theorem State.request_pending (r : Request) : (s.request r).pending = s.pending := rfl

/-! Requests withdrawn: `State.withdraw`. -/

@[simp] theorem State.withdraw_setup (p : Requester → Bool) : (s.withdraw p).setup = s.setup := rfl
@[simp] theorem State.withdraw_lines (p : Requester → Bool) : (s.withdraw p).lines = s.lines := rfl
@[simp] theorem State.withdraw_time (p : Requester → Bool) : (s.withdraw p).time = s.time := rfl
@[simp] theorem State.withdraw_adm (p : Requester → Bool) : (s.withdraw p).adm = s.adm := rfl
@[simp] theorem State.withdraw_commit (p : Requester → Bool) : (s.withdraw p).commit = s.commit := rfl
@[simp] theorem State.withdraw_dir (p : Requester → Bool) : (s.withdraw p).dir = s.dir := rfl
@[simp] theorem State.withdraw_reclaim (p : Requester → Bool) : (s.withdraw p).reclaim = s.reclaim := rfl
@[simp] theorem State.withdraw_cursor (p : Requester → Bool) : (s.withdraw p).cursor = s.cursor := rfl
@[simp] theorem State.withdraw_ctrl (p : Requester → Bool) : (s.withdraw p).ctrl = s.ctrl := rfl
@[simp] theorem State.withdraw_recov (p : Requester → Bool) : (s.withdraw p).recov = s.recov := rfl
@[simp] theorem State.withdraw_store (p : Requester → Bool) : (s.withdraw p).store = s.store := rfl
@[simp] theorem State.withdraw_port (p : Requester → Bool) : (s.withdraw p).port = s.port := rfl
@[simp] theorem State.withdraw_events (p : Requester → Bool) : (s.withdraw p).events = s.events := rfl
@[simp] theorem State.withdraw_pins (p : Requester → Bool) : (s.withdraw p).pins = s.pins := rfl
@[simp] theorem State.withdraw_powered (p : Requester → Bool) : (s.withdraw p).powered = s.powered := rfl
@[simp] theorem State.withdraw_inReset (p : Requester → Bool) : (s.withdraw p).inReset = s.inReset := rfl
@[simp] theorem State.withdraw_setupLoaded (p : Requester → Bool) : (s.withdraw p).setupLoaded = s.setupLoaded := rfl
@[simp] theorem State.withdraw_freeIx (p : Requester → Bool) : (s.withdraw p).freeIx = s.freeIx := rfl
@[simp] theorem State.withdraw_pending (p : Requester → Bool) : (s.withdraw p).pending = s.pending := rfl

/-! An operation in flight given up: `State.disown`. -/

@[simp] theorem State.disown_setup (p : Requester → Bool) : (s.disown p).setup = s.setup := rfl
@[simp] theorem State.disown_lines (p : Requester → Bool) : (s.disown p).lines = s.lines := rfl
@[simp] theorem State.disown_time (p : Requester → Bool) : (s.disown p).time = s.time := rfl
@[simp] theorem State.disown_adm (p : Requester → Bool) : (s.disown p).adm = s.adm := rfl
@[simp] theorem State.disown_commit (p : Requester → Bool) : (s.disown p).commit = s.commit := rfl
@[simp] theorem State.disown_dir (p : Requester → Bool) : (s.disown p).dir = s.dir := rfl
@[simp] theorem State.disown_reclaim (p : Requester → Bool) : (s.disown p).reclaim = s.reclaim := rfl
@[simp] theorem State.disown_cursor (p : Requester → Bool) : (s.disown p).cursor = s.cursor := rfl
@[simp] theorem State.disown_ctrl (p : Requester → Bool) : (s.disown p).ctrl = s.ctrl := rfl
@[simp] theorem State.disown_recov (p : Requester → Bool) : (s.disown p).recov = s.recov := rfl
@[simp] theorem State.disown_store (p : Requester → Bool) : (s.disown p).store = s.store := rfl
@[simp] theorem State.disown_port (p : Requester → Bool) : (s.disown p).port = s.port := rfl
@[simp] theorem State.disown_events (p : Requester → Bool) : (s.disown p).events = s.events := rfl
@[simp] theorem State.disown_pins (p : Requester → Bool) : (s.disown p).pins = s.pins := rfl
@[simp] theorem State.disown_powered (p : Requester → Bool) : (s.disown p).powered = s.powered := rfl
@[simp] theorem State.disown_inReset (p : Requester → Bool) : (s.disown p).inReset = s.inReset := rfl
@[simp] theorem State.disown_setupLoaded (p : Requester → Bool) : (s.disown p).setupLoaded = s.setupLoaded := rfl
@[simp] theorem State.disown_freeIx (p : Requester → Bool) : (s.disown p).freeIx = s.freeIx := rfl
@[simp] theorem State.disown_pending (p : Requester → Bool) : (s.disown p).pending = s.pending := rfl

/-! The read or program in flight is over: `State.opOver`. -/

@[simp] theorem State.opOver_setup : (s.opOver).setup = s.setup := rfl
@[simp] theorem State.opOver_lines : (s.opOver).lines = s.lines := rfl
@[simp] theorem State.opOver_time : (s.opOver).time = s.time := rfl
@[simp] theorem State.opOver_adm : (s.opOver).adm = s.adm := rfl
@[simp] theorem State.opOver_array : (s.opOver).array = { s.array with op := none } := rfl
@[simp] theorem State.opOver_commit : (s.opOver).commit = s.commit := rfl
@[simp] theorem State.opOver_dir : (s.opOver).dir = s.dir := rfl
@[simp] theorem State.opOver_reclaim : (s.opOver).reclaim = s.reclaim := rfl
@[simp] theorem State.opOver_cursor : (s.opOver).cursor = s.cursor := rfl
@[simp] theorem State.opOver_ctrl : (s.opOver).ctrl = s.ctrl := rfl
@[simp] theorem State.opOver_recov : (s.opOver).recov = s.recov := rfl
@[simp] theorem State.opOver_store : (s.opOver).store = s.store := rfl
@[simp] theorem State.opOver_port : (s.opOver).port = s.port := rfl
@[simp] theorem State.opOver_events : (s.opOver).events = s.events := rfl
@[simp] theorem State.opOver_pins : (s.opOver).pins = s.pins := rfl
@[simp] theorem State.opOver_powered : (s.opOver).powered = s.powered := rfl
@[simp] theorem State.opOver_inReset : (s.opOver).inReset = s.inReset := rfl
@[simp] theorem State.opOver_setupLoaded : (s.opOver).setupLoaded = s.setupLoaded := rfl
@[simp] theorem State.opOver_freeIx : (s.opOver).freeIx = s.freeIx := rfl
@[simp] theorem State.opOver_pending : (s.opOver).pending = s.pending := rfl

/-! The erase is over: `State.eraseOver`. -/

@[simp] theorem State.eraseOver_setup : (s.eraseOver).setup = s.setup := rfl
@[simp] theorem State.eraseOver_lines : (s.eraseOver).lines = s.lines := rfl
@[simp] theorem State.eraseOver_time : (s.eraseOver).time = s.time := rfl
@[simp] theorem State.eraseOver_adm : (s.eraseOver).adm = s.adm := rfl
@[simp] theorem State.eraseOver_array : (s.eraseOver).array = { s.array with erase := none } := rfl
@[simp] theorem State.eraseOver_commit : (s.eraseOver).commit = s.commit := rfl
@[simp] theorem State.eraseOver_dir : (s.eraseOver).dir = s.dir := rfl
@[simp] theorem State.eraseOver_reclaim : (s.eraseOver).reclaim = s.reclaim := rfl
@[simp] theorem State.eraseOver_cursor : (s.eraseOver).cursor = s.cursor := rfl
@[simp] theorem State.eraseOver_ctrl : (s.eraseOver).ctrl = s.ctrl := rfl
@[simp] theorem State.eraseOver_recov : (s.eraseOver).recov = s.recov := rfl
@[simp] theorem State.eraseOver_store : (s.eraseOver).store = s.store := rfl
@[simp] theorem State.eraseOver_port : (s.eraseOver).port = s.port := rfl
@[simp] theorem State.eraseOver_events : (s.eraseOver).events = s.events := rfl
@[simp] theorem State.eraseOver_pins : (s.eraseOver).pins = s.pins := rfl
@[simp] theorem State.eraseOver_powered : (s.eraseOver).powered = s.powered := rfl
@[simp] theorem State.eraseOver_inReset : (s.eraseOver).inReset = s.inReset := rfl
@[simp] theorem State.eraseOver_setupLoaded : (s.eraseOver).setupLoaded = s.setupLoaded := rfl
@[simp] theorem State.eraseOver_freeIx : (s.eraseOver).freeIx = s.freeIx := rfl
@[simp] theorem State.eraseOver_pending : (s.eraseOver).pending = s.pending := rfl

/-! A directory entry changed (R84): `State.setEntry`. -/

@[simp] theorem State.setEntry_setup (j : JSector) (f : Entry → Entry) : (s.setEntry j f).setup = s.setup := rfl
@[simp] theorem State.setEntry_lines (j : JSector) (f : Entry → Entry) : (s.setEntry j f).lines = s.lines := rfl
@[simp] theorem State.setEntry_time (j : JSector) (f : Entry → Entry) : (s.setEntry j f).time = s.time := rfl
@[simp] theorem State.setEntry_adm (j : JSector) (f : Entry → Entry) : (s.setEntry j f).adm = s.adm := rfl
@[simp] theorem State.setEntry_array (j : JSector) (f : Entry → Entry) : (s.setEntry j f).array = s.array := rfl
@[simp] theorem State.setEntry_commit (j : JSector) (f : Entry → Entry) : (s.setEntry j f).commit = s.commit := rfl
@[simp] theorem State.setEntry_dir (j : JSector) (f : Entry → Entry) : (s.setEntry j f).dir = s.dir.update j f := rfl
@[simp] theorem State.setEntry_reclaim (j : JSector) (f : Entry → Entry) : (s.setEntry j f).reclaim = s.reclaim := rfl
@[simp] theorem State.setEntry_cursor (j : JSector) (f : Entry → Entry) : (s.setEntry j f).cursor = s.cursor := rfl
@[simp] theorem State.setEntry_ctrl (j : JSector) (f : Entry → Entry) : (s.setEntry j f).ctrl = s.ctrl := rfl
@[simp] theorem State.setEntry_recov (j : JSector) (f : Entry → Entry) : (s.setEntry j f).recov = s.recov := rfl
@[simp] theorem State.setEntry_store (j : JSector) (f : Entry → Entry) : (s.setEntry j f).store = s.store := rfl
@[simp] theorem State.setEntry_port (j : JSector) (f : Entry → Entry) : (s.setEntry j f).port = s.port := rfl
@[simp] theorem State.setEntry_events (j : JSector) (f : Entry → Entry) : (s.setEntry j f).events = s.events := rfl
@[simp] theorem State.setEntry_pins (j : JSector) (f : Entry → Entry) : (s.setEntry j f).pins = s.pins := rfl
@[simp] theorem State.setEntry_powered (j : JSector) (f : Entry → Entry) : (s.setEntry j f).powered = s.powered := rfl
@[simp] theorem State.setEntry_inReset (j : JSector) (f : Entry → Entry) : (s.setEntry j f).inReset = s.inReset := rfl
@[simp] theorem State.setEntry_setupLoaded (j : JSector) (f : Entry → Entry) :
    (s.setEntry j f).setupLoaded = s.setupLoaded := rfl
@[simp] theorem State.setEntry_freeIx (j : JSector) (f : Entry → Entry) : (s.setEntry j f).freeIx = s.freeIx := rfl
@[simp] theorem State.setEntry_pending (j : JSector) (f : Entry → Entry) : (s.setEntry j f).pending = s.pending := rfl

/-! A line port replaced: `State.setLine`. -/

@[simp] theorem State.setLine_setup (i : LineIx) (p : LinePort) : (s.setLine i p).setup = s.setup := rfl
@[simp] theorem State.setLine_lines (i : LineIx) (p : LinePort) : (s.setLine i p).lines = s.lines.set i p := rfl
@[simp] theorem State.setLine_time (i : LineIx) (p : LinePort) : (s.setLine i p).time = s.time := rfl
@[simp] theorem State.setLine_adm (i : LineIx) (p : LinePort) : (s.setLine i p).adm = s.adm := rfl
@[simp] theorem State.setLine_array (i : LineIx) (p : LinePort) : (s.setLine i p).array = s.array := rfl
@[simp] theorem State.setLine_commit (i : LineIx) (p : LinePort) : (s.setLine i p).commit = s.commit := rfl
@[simp] theorem State.setLine_dir (i : LineIx) (p : LinePort) : (s.setLine i p).dir = s.dir := rfl
@[simp] theorem State.setLine_reclaim (i : LineIx) (p : LinePort) : (s.setLine i p).reclaim = s.reclaim := rfl
@[simp] theorem State.setLine_cursor (i : LineIx) (p : LinePort) : (s.setLine i p).cursor = s.cursor := rfl
@[simp] theorem State.setLine_ctrl (i : LineIx) (p : LinePort) : (s.setLine i p).ctrl = s.ctrl := rfl
@[simp] theorem State.setLine_recov (i : LineIx) (p : LinePort) : (s.setLine i p).recov = s.recov := rfl
@[simp] theorem State.setLine_store (i : LineIx) (p : LinePort) : (s.setLine i p).store = s.store := rfl
@[simp] theorem State.setLine_port (i : LineIx) (p : LinePort) : (s.setLine i p).port = s.port := rfl
@[simp] theorem State.setLine_events (i : LineIx) (p : LinePort) : (s.setLine i p).events = s.events := rfl
@[simp] theorem State.setLine_pins (i : LineIx) (p : LinePort) : (s.setLine i p).pins = s.pins := rfl
@[simp] theorem State.setLine_powered (i : LineIx) (p : LinePort) : (s.setLine i p).powered = s.powered := rfl
@[simp] theorem State.setLine_inReset (i : LineIx) (p : LinePort) : (s.setLine i p).inReset = s.inReset := rfl
@[simp] theorem State.setLine_setupLoaded (i : LineIx) (p : LinePort) : (s.setLine i p).setupLoaded = s.setupLoaded := rfl
@[simp] theorem State.setLine_freeIx (i : LineIx) (p : LinePort) : (s.setLine i p).freeIx = s.freeIx := rfl
@[simp] theorem State.setLine_pending (i : LineIx) (p : LinePort) : (s.setLine i p).pending = s.pending := rfl

/-! A receiver changed: `State.setReceiver`. -/

@[simp] theorem State.setReceiver_setup (i : LineIx) (r : Receiver) (n : Option Nat) :
    (s.setReceiver i r n).setup = s.setup := rfl
@[simp] theorem State.setReceiver_time (i : LineIx) (r : Receiver) (n : Option Nat) :
    (s.setReceiver i r n).time = s.time := rfl
@[simp] theorem State.setReceiver_adm (i : LineIx) (r : Receiver) (n : Option Nat) :
    (s.setReceiver i r n).adm = s.adm := rfl
@[simp] theorem State.setReceiver_array (i : LineIx) (r : Receiver) (n : Option Nat) :
    (s.setReceiver i r n).array = s.array := rfl
@[simp] theorem State.setReceiver_commit (i : LineIx) (r : Receiver) (n : Option Nat) :
    (s.setReceiver i r n).commit = s.commit := rfl
@[simp] theorem State.setReceiver_dir (i : LineIx) (r : Receiver) (n : Option Nat) :
    (s.setReceiver i r n).dir = s.dir := rfl
@[simp] theorem State.setReceiver_reclaim (i : LineIx) (r : Receiver) (n : Option Nat) :
    (s.setReceiver i r n).reclaim = s.reclaim := rfl
@[simp] theorem State.setReceiver_cursor (i : LineIx) (r : Receiver) (n : Option Nat) :
    (s.setReceiver i r n).cursor = s.cursor := rfl
@[simp] theorem State.setReceiver_ctrl (i : LineIx) (r : Receiver) (n : Option Nat) :
    (s.setReceiver i r n).ctrl = s.ctrl := rfl
@[simp] theorem State.setReceiver_recov (i : LineIx) (r : Receiver) (n : Option Nat) :
    (s.setReceiver i r n).recov = s.recov := rfl
@[simp] theorem State.setReceiver_store (i : LineIx) (r : Receiver) (n : Option Nat) :
    (s.setReceiver i r n).store = s.store := rfl
@[simp] theorem State.setReceiver_port (i : LineIx) (r : Receiver) (n : Option Nat) :
    (s.setReceiver i r n).port = s.port := rfl
@[simp] theorem State.setReceiver_events (i : LineIx) (r : Receiver) (n : Option Nat) :
    (s.setReceiver i r n).events = s.events := rfl
@[simp] theorem State.setReceiver_pins (i : LineIx) (r : Receiver) (n : Option Nat) :
    (s.setReceiver i r n).pins = s.pins := rfl
@[simp] theorem State.setReceiver_powered (i : LineIx) (r : Receiver) (n : Option Nat) :
    (s.setReceiver i r n).powered = s.powered := rfl
@[simp] theorem State.setReceiver_inReset (i : LineIx) (r : Receiver) (n : Option Nat) :
    (s.setReceiver i r n).inReset = s.inReset := rfl
@[simp] theorem State.setReceiver_setupLoaded (i : LineIx) (r : Receiver) (n : Option Nat) :
    (s.setReceiver i r n).setupLoaded = s.setupLoaded := rfl
@[simp] theorem State.setReceiver_freeIx (i : LineIx) (r : Receiver) (n : Option Nat) :
    (s.setReceiver i r n).freeIx = s.freeIx := rfl
@[simp] theorem State.setReceiver_pending (i : LineIx) (r : Receiver) (n : Option Nat) :
    (s.setReceiver i r n).pending = s.pending := rfl

/-! The system slot replaced: `State.setSys`. -/

@[simp] theorem State.setSys_setup (r : Option SysRecord) : (s.setSys r).setup = s.setup := rfl
@[simp] theorem State.setSys_lines (r : Option SysRecord) : (s.setSys r).lines = s.lines := rfl
@[simp] theorem State.setSys_time (r : Option SysRecord) : (s.setSys r).time = s.time := rfl
@[simp] theorem State.setSys_adm (r : Option SysRecord) : (s.setSys r).adm = { s.adm with sys := r } := rfl
@[simp] theorem State.setSys_array (r : Option SysRecord) : (s.setSys r).array = s.array := rfl
@[simp] theorem State.setSys_commit (r : Option SysRecord) : (s.setSys r).commit = s.commit := rfl
@[simp] theorem State.setSys_dir (r : Option SysRecord) : (s.setSys r).dir = s.dir := rfl
@[simp] theorem State.setSys_reclaim (r : Option SysRecord) : (s.setSys r).reclaim = s.reclaim := rfl
@[simp] theorem State.setSys_cursor (r : Option SysRecord) : (s.setSys r).cursor = s.cursor := rfl
@[simp] theorem State.setSys_ctrl (r : Option SysRecord) : (s.setSys r).ctrl = s.ctrl := rfl
@[simp] theorem State.setSys_recov (r : Option SysRecord) : (s.setSys r).recov = s.recov := rfl
@[simp] theorem State.setSys_store (r : Option SysRecord) : (s.setSys r).store = s.store := rfl
@[simp] theorem State.setSys_port (r : Option SysRecord) : (s.setSys r).port = s.port := rfl
@[simp] theorem State.setSys_events (r : Option SysRecord) : (s.setSys r).events = s.events := rfl
@[simp] theorem State.setSys_pins (r : Option SysRecord) : (s.setSys r).pins = s.pins := rfl
@[simp] theorem State.setSys_powered (r : Option SysRecord) : (s.setSys r).powered = s.powered := rfl
@[simp] theorem State.setSys_inReset (r : Option SysRecord) : (s.setSys r).inReset = s.inReset := rfl
@[simp] theorem State.setSys_setupLoaded (r : Option SysRecord) : (s.setSys r).setupLoaded = s.setupLoaded := rfl
@[simp] theorem State.setSys_freeIx (r : Option SysRecord) : (s.setSys r).freeIx = s.freeIx := rfl
@[simp] theorem State.setSys_pending (r : Option SysRecord) : (s.setSys r).pending = s.pending := rfl

/-! A page buffer replaced: `State.setBuf`. -/

@[simp] theorem State.setBuf_setup (b : BufId) (v : Buffer) : (s.setBuf b v).setup = s.setup := by cases b <;> rfl
@[simp] theorem State.setBuf_lines (b : BufId) (v : Buffer) : (s.setBuf b v).lines = s.lines := by cases b <;> rfl
@[simp] theorem State.setBuf_time (b : BufId) (v : Buffer) : (s.setBuf b v).time = s.time := by cases b <;> rfl
@[simp] theorem State.setBuf_array (b : BufId) (v : Buffer) : (s.setBuf b v).array = s.array := by cases b <;> rfl
@[simp] theorem State.setBuf_commit (b : BufId) (v : Buffer) : (s.setBuf b v).commit = s.commit := by cases b <;> rfl
@[simp] theorem State.setBuf_dir (b : BufId) (v : Buffer) : (s.setBuf b v).dir = s.dir := by cases b <;> rfl
@[simp] theorem State.setBuf_reclaim (b : BufId) (v : Buffer) : (s.setBuf b v).reclaim = s.reclaim := by cases b <;> rfl
@[simp] theorem State.setBuf_cursor (b : BufId) (v : Buffer) : (s.setBuf b v).cursor = s.cursor := by cases b <;> rfl
@[simp] theorem State.setBuf_ctrl (b : BufId) (v : Buffer) : (s.setBuf b v).ctrl = s.ctrl := by cases b <;> rfl
@[simp] theorem State.setBuf_recov (b : BufId) (v : Buffer) : (s.setBuf b v).recov = s.recov := by cases b <;> rfl
@[simp] theorem State.setBuf_store (b : BufId) (v : Buffer) : (s.setBuf b v).store = s.store := by cases b <;> rfl
@[simp] theorem State.setBuf_port (b : BufId) (v : Buffer) : (s.setBuf b v).port = s.port := by cases b <;> rfl
@[simp] theorem State.setBuf_events (b : BufId) (v : Buffer) : (s.setBuf b v).events = s.events := by cases b <;> rfl
@[simp] theorem State.setBuf_pins (b : BufId) (v : Buffer) : (s.setBuf b v).pins = s.pins := by cases b <;> rfl
@[simp] theorem State.setBuf_powered (b : BufId) (v : Buffer) : (s.setBuf b v).powered = s.powered := by cases b <;> rfl
@[simp] theorem State.setBuf_inReset (b : BufId) (v : Buffer) : (s.setBuf b v).inReset = s.inReset := by cases b <;> rfl
@[simp] theorem State.setBuf_setupLoaded (b : BufId) (v : Buffer) :
    (s.setBuf b v).setupLoaded = s.setupLoaded := by cases b <;> rfl
@[simp] theorem State.setBuf_freeIx (b : BufId) (v : Buffer) : (s.setBuf b v).freeIx = s.freeIx := by cases b <;> rfl
@[simp] theorem State.setBuf_pending (b : BufId) (v : Buffer) : (s.setBuf b v).pending = s.pending := by cases b <;> rfl

/-! The level of CS_N: `State.setCsN`. -/

@[simp] theorem State.setCsN_setup (v : Bool) : (s.setCsN v).setup = s.setup := rfl
@[simp] theorem State.setCsN_lines (v : Bool) : (s.setCsN v).lines = s.lines := rfl
@[simp] theorem State.setCsN_time (v : Bool) : (s.setCsN v).time = s.time := rfl
@[simp] theorem State.setCsN_adm (v : Bool) : (s.setCsN v).adm = s.adm := rfl
@[simp] theorem State.setCsN_array (v : Bool) : (s.setCsN v).array = s.array := rfl
@[simp] theorem State.setCsN_commit (v : Bool) : (s.setCsN v).commit = s.commit := rfl
@[simp] theorem State.setCsN_dir (v : Bool) : (s.setCsN v).dir = s.dir := rfl
@[simp] theorem State.setCsN_reclaim (v : Bool) : (s.setCsN v).reclaim = s.reclaim := rfl
@[simp] theorem State.setCsN_cursor (v : Bool) : (s.setCsN v).cursor = s.cursor := rfl
@[simp] theorem State.setCsN_ctrl (v : Bool) : (s.setCsN v).ctrl = s.ctrl := rfl
@[simp] theorem State.setCsN_recov (v : Bool) : (s.setCsN v).recov = s.recov := rfl
@[simp] theorem State.setCsN_store (v : Bool) : (s.setCsN v).store = s.store := rfl
@[simp] theorem State.setCsN_port (v : Bool) : (s.setCsN v).port = s.port := rfl
@[simp] theorem State.setCsN_events (v : Bool) : (s.setCsN v).events = s.events := rfl
@[simp] theorem State.setCsN_pins (v : Bool) : (s.setCsN v).pins = { s.pins with csN := v } := rfl
@[simp] theorem State.setCsN_powered (v : Bool) : (s.setCsN v).powered = s.powered := rfl
@[simp] theorem State.setCsN_inReset (v : Bool) : (s.setCsN v).inReset = s.inReset := rfl
@[simp] theorem State.setCsN_setupLoaded (v : Bool) : (s.setCsN v).setupLoaded = s.setupLoaded := rfl
@[simp] theorem State.setCsN_freeIx (v : Bool) : (s.setCsN v).freeIx = s.freeIx := rfl
@[simp] theorem State.setCsN_pending (v : Bool) : (s.setCsN v).pending = s.pending := rfl

/-! The level of PFW_N: `State.setPfwN`. -/

@[simp] theorem State.setPfwN_setup (v : Bool) : (s.setPfwN v).setup = s.setup := rfl
@[simp] theorem State.setPfwN_lines (v : Bool) : (s.setPfwN v).lines = s.lines := rfl
@[simp] theorem State.setPfwN_time (v : Bool) : (s.setPfwN v).time = s.time := rfl
@[simp] theorem State.setPfwN_adm (v : Bool) : (s.setPfwN v).adm = s.adm := rfl
@[simp] theorem State.setPfwN_array (v : Bool) : (s.setPfwN v).array = s.array := rfl
@[simp] theorem State.setPfwN_commit (v : Bool) : (s.setPfwN v).commit = s.commit := rfl
@[simp] theorem State.setPfwN_dir (v : Bool) : (s.setPfwN v).dir = s.dir := rfl
@[simp] theorem State.setPfwN_reclaim (v : Bool) : (s.setPfwN v).reclaim = s.reclaim := rfl
@[simp] theorem State.setPfwN_cursor (v : Bool) : (s.setPfwN v).cursor = s.cursor := rfl
@[simp] theorem State.setPfwN_ctrl (v : Bool) : (s.setPfwN v).ctrl = s.ctrl := rfl
@[simp] theorem State.setPfwN_recov (v : Bool) : (s.setPfwN v).recov = s.recov := rfl
@[simp] theorem State.setPfwN_store (v : Bool) : (s.setPfwN v).store = s.store := rfl
@[simp] theorem State.setPfwN_port (v : Bool) : (s.setPfwN v).port = s.port := rfl
@[simp] theorem State.setPfwN_events (v : Bool) : (s.setPfwN v).events = s.events := rfl
@[simp] theorem State.setPfwN_pins (v : Bool) : (s.setPfwN v).pins = { s.pins with pfwN := v } := rfl
@[simp] theorem State.setPfwN_powered (v : Bool) : (s.setPfwN v).powered = s.powered := rfl
@[simp] theorem State.setPfwN_inReset (v : Bool) : (s.setPfwN v).inReset = s.inReset := rfl
@[simp] theorem State.setPfwN_setupLoaded (v : Bool) : (s.setPfwN v).setupLoaded = s.setupLoaded := rfl
@[simp] theorem State.setPfwN_freeIx (v : Bool) : (s.setPfwN v).freeIx = s.freeIx := rfl
@[simp] theorem State.setPfwN_pending (v : Bool) : (s.setPfwN v).pending = s.pending := rfl

/-! The level of RESET_N: `State.setResetN`. -/

@[simp] theorem State.setResetN_setup (v : Bool) : (s.setResetN v).setup = s.setup := rfl
@[simp] theorem State.setResetN_lines (v : Bool) : (s.setResetN v).lines = s.lines := rfl
@[simp] theorem State.setResetN_time (v : Bool) : (s.setResetN v).time = s.time := rfl
@[simp] theorem State.setResetN_adm (v : Bool) : (s.setResetN v).adm = s.adm := rfl
@[simp] theorem State.setResetN_array (v : Bool) : (s.setResetN v).array = s.array := rfl
@[simp] theorem State.setResetN_commit (v : Bool) : (s.setResetN v).commit = s.commit := rfl
@[simp] theorem State.setResetN_dir (v : Bool) : (s.setResetN v).dir = s.dir := rfl
@[simp] theorem State.setResetN_reclaim (v : Bool) : (s.setResetN v).reclaim = s.reclaim := rfl
@[simp] theorem State.setResetN_cursor (v : Bool) : (s.setResetN v).cursor = s.cursor := rfl
@[simp] theorem State.setResetN_ctrl (v : Bool) : (s.setResetN v).ctrl = s.ctrl := rfl
@[simp] theorem State.setResetN_recov (v : Bool) : (s.setResetN v).recov = s.recov := rfl
@[simp] theorem State.setResetN_store (v : Bool) : (s.setResetN v).store = s.store := rfl
@[simp] theorem State.setResetN_port (v : Bool) : (s.setResetN v).port = s.port := rfl
@[simp] theorem State.setResetN_events (v : Bool) : (s.setResetN v).events = s.events := rfl
@[simp] theorem State.setResetN_pins (v : Bool) : (s.setResetN v).pins = { s.pins with resetN := v } := rfl
@[simp] theorem State.setResetN_powered (v : Bool) : (s.setResetN v).powered = s.powered := rfl
@[simp] theorem State.setResetN_inReset (v : Bool) : (s.setResetN v).inReset = s.inReset := rfl
@[simp] theorem State.setResetN_setupLoaded (v : Bool) : (s.setResetN v).setupLoaded = s.setupLoaded := rfl
@[simp] theorem State.setResetN_freeIx (v : Bool) : (s.setResetN v).freeIx = s.freeIx := rfl
@[simp] theorem State.setResetN_pending (v : Bool) : (s.setResetN v).pending = s.pending := rfl

/-! Withheld pages that leave the list (R107): `State.dropWithheld`. -/

@[simp] theorem State.dropWithheld_setup (j : JSector) : (s.dropWithheld j).setup = s.setup := rfl
@[simp] theorem State.dropWithheld_lines (j : JSector) : (s.dropWithheld j).lines = s.lines := rfl
@[simp] theorem State.dropWithheld_time (j : JSector) : (s.dropWithheld j).time = s.time := rfl
@[simp] theorem State.dropWithheld_adm (j : JSector) : (s.dropWithheld j).adm = s.adm := rfl
@[simp] theorem State.dropWithheld_array (j : JSector) : (s.dropWithheld j).array = s.array := rfl
@[simp] theorem State.dropWithheld_commit (j : JSector) : (s.dropWithheld j).commit = s.commit := rfl
@[simp] theorem State.dropWithheld_dir (j : JSector) : (s.dropWithheld j).dir = s.dir := rfl
@[simp] theorem State.dropWithheld_reclaim (j : JSector) : (s.dropWithheld j).reclaim = s.reclaim := rfl
@[simp] theorem State.dropWithheld_ctrl (j : JSector) : (s.dropWithheld j).ctrl = s.ctrl := rfl
@[simp] theorem State.dropWithheld_recov (j : JSector) : (s.dropWithheld j).recov = s.recov := rfl
@[simp] theorem State.dropWithheld_store (j : JSector) : (s.dropWithheld j).store = s.store := rfl
@[simp] theorem State.dropWithheld_port (j : JSector) : (s.dropWithheld j).port = s.port := rfl
@[simp] theorem State.dropWithheld_events (j : JSector) : (s.dropWithheld j).events = s.events := rfl
@[simp] theorem State.dropWithheld_pins (j : JSector) : (s.dropWithheld j).pins = s.pins := rfl
@[simp] theorem State.dropWithheld_powered (j : JSector) : (s.dropWithheld j).powered = s.powered := rfl
@[simp] theorem State.dropWithheld_inReset (j : JSector) : (s.dropWithheld j).inReset = s.inReset := rfl
@[simp] theorem State.dropWithheld_setupLoaded (j : JSector) : (s.dropWithheld j).setupLoaded = s.setupLoaded := rfl
@[simp] theorem State.dropWithheld_freeIx (j : JSector) : (s.dropWithheld j).freeIx = s.freeIx := rfl
@[simp] theorem State.dropWithheld_pending (j : JSector) : (s.dropWithheld j).pending = s.pending := rfl

/-! The end of a host operation (R135): `State.endHostOp`. -/

@[simp] theorem State.endHostOp_setup (o : HostOpOutcome) : (s.endHostOp o).setup = s.setup := rfl
@[simp] theorem State.endHostOp_lines (o : HostOpOutcome) : (s.endHostOp o).lines = s.lines := rfl
@[simp] theorem State.endHostOp_time (o : HostOpOutcome) : (s.endHostOp o).time = s.time := rfl
@[simp] theorem State.endHostOp_adm (o : HostOpOutcome) : (s.endHostOp o).adm = s.adm := rfl
@[simp] theorem State.endHostOp_array (o : HostOpOutcome) : (s.endHostOp o).array = s.array := rfl
@[simp] theorem State.endHostOp_commit (o : HostOpOutcome) : (s.endHostOp o).commit = s.commit := rfl
@[simp] theorem State.endHostOp_dir (o : HostOpOutcome) : (s.endHostOp o).dir = s.dir := rfl
@[simp] theorem State.endHostOp_reclaim (o : HostOpOutcome) : (s.endHostOp o).reclaim = s.reclaim := rfl
@[simp] theorem State.endHostOp_cursor (o : HostOpOutcome) : (s.endHostOp o).cursor = s.cursor := rfl
@[simp] theorem State.endHostOp_ctrl (o : HostOpOutcome) :
    (s.endHostOp o).ctrl = { s.ctrl with opKind := .noOp, opOutcome := o } := rfl
@[simp] theorem State.endHostOp_recov (o : HostOpOutcome) : (s.endHostOp o).recov = s.recov := rfl
@[simp] theorem State.endHostOp_store (o : HostOpOutcome) : (s.endHostOp o).store = s.store := rfl
@[simp] theorem State.endHostOp_port (o : HostOpOutcome) : (s.endHostOp o).port = s.port := rfl
@[simp] theorem State.endHostOp_events (o : HostOpOutcome) :
    (s.endHostOp o).events = { s.events with flags := s.events.flags ||| Event.opDone.mask } := rfl
@[simp] theorem State.endHostOp_pins (o : HostOpOutcome) : (s.endHostOp o).pins = s.pins := rfl
@[simp] theorem State.endHostOp_powered (o : HostOpOutcome) : (s.endHostOp o).powered = s.powered := rfl
@[simp] theorem State.endHostOp_inReset (o : HostOpOutcome) : (s.endHostOp o).inReset = s.inReset := rfl
@[simp] theorem State.endHostOp_setupLoaded (o : HostOpOutcome) : (s.endHostOp o).setupLoaded = s.setupLoaded := rfl
@[simp] theorem State.endHostOp_freeIx (o : HostOpOutcome) : (s.endHostOp o).freeIx = s.freeIx := rfl
@[simp] theorem State.endHostOp_pending (o : HostOpOutcome) : (s.endHostOp o).pending = s.pending := rfl

/-! The reclaim engine idle: `State.reclaimIdle`. -/

@[simp] theorem State.reclaimIdle_setup : (s.reclaimIdle).setup = s.setup := rfl
@[simp] theorem State.reclaimIdle_lines : (s.reclaimIdle).lines = s.lines := rfl
@[simp] theorem State.reclaimIdle_time : (s.reclaimIdle).time = s.time := rfl
@[simp] theorem State.reclaimIdle_adm : (s.reclaimIdle).adm = s.adm := rfl
@[simp] theorem State.reclaimIdle_array : (s.reclaimIdle).array = s.array := rfl
@[simp] theorem State.reclaimIdle_commit : (s.reclaimIdle).commit = s.commit := rfl
@[simp] theorem State.reclaimIdle_dir : (s.reclaimIdle).dir = s.dir := rfl
@[simp] theorem State.reclaimIdle_reclaim : (s.reclaimIdle).reclaim = { phase := .idle, target := none } := rfl
@[simp] theorem State.reclaimIdle_cursor : (s.reclaimIdle).cursor = s.cursor := rfl
@[simp] theorem State.reclaimIdle_ctrl : (s.reclaimIdle).ctrl = s.ctrl := rfl
@[simp] theorem State.reclaimIdle_recov : (s.reclaimIdle).recov = s.recov := rfl
@[simp] theorem State.reclaimIdle_store : (s.reclaimIdle).store = s.store := rfl
@[simp] theorem State.reclaimIdle_port : (s.reclaimIdle).port = s.port := rfl
@[simp] theorem State.reclaimIdle_events : (s.reclaimIdle).events = s.events := rfl
@[simp] theorem State.reclaimIdle_pins : (s.reclaimIdle).pins = s.pins := rfl
@[simp] theorem State.reclaimIdle_powered : (s.reclaimIdle).powered = s.powered := rfl
@[simp] theorem State.reclaimIdle_inReset : (s.reclaimIdle).inReset = s.inReset := rfl
@[simp] theorem State.reclaimIdle_setupLoaded : (s.reclaimIdle).setupLoaded = s.setupLoaded := rfl
@[simp] theorem State.reclaimIdle_freeIx : (s.reclaimIdle).freeIx = s.freeIx := rfl
@[simp] theorem State.reclaimIdle_pending : (s.reclaimIdle).pending = s.pending := rfl

/-! The end of a program (R48, R51): `State.program`. -/

@[simp] theorem State.program_setup (r : Request) (o : OpOutcome) : (s.program r o).setup = s.setup := by cases o <;> rfl
@[simp] theorem State.program_lines (r : Request) (o : OpOutcome) : (s.program r o).lines = s.lines := by cases o <;> rfl
@[simp] theorem State.program_time (r : Request) (o : OpOutcome) : (s.program r o).time = s.time := by cases o <;> rfl
@[simp] theorem State.program_adm (r : Request) (o : OpOutcome) : (s.program r o).adm = s.adm := by cases o <;> rfl
@[simp] theorem State.program_commit (r : Request) (o : OpOutcome) : (s.program r o).commit = s.commit := by cases o <;> rfl
@[simp] theorem State.program_dir (r : Request) (o : OpOutcome) : (s.program r o).dir = s.dir := by cases o <;> rfl
@[simp] theorem State.program_reclaim (r : Request) (o : OpOutcome) :
    (s.program r o).reclaim = s.reclaim := by cases o <;> rfl
@[simp] theorem State.program_cursor (r : Request) (o : OpOutcome) : (s.program r o).cursor = s.cursor := by cases o <;> rfl
@[simp] theorem State.program_ctrl (r : Request) (o : OpOutcome) : (s.program r o).ctrl = s.ctrl := by cases o <;> rfl
@[simp] theorem State.program_recov (r : Request) (o : OpOutcome) : (s.program r o).recov = s.recov := by cases o <;> rfl
@[simp] theorem State.program_store (r : Request) (o : OpOutcome) : (s.program r o).store = s.store := by cases o <;> rfl
@[simp] theorem State.program_port (r : Request) (o : OpOutcome) : (s.program r o).port = s.port := by cases o <;> rfl
@[simp] theorem State.program_events (r : Request) (o : OpOutcome) : (s.program r o).events = s.events := by cases o <;> rfl
@[simp] theorem State.program_pins (r : Request) (o : OpOutcome) : (s.program r o).pins = s.pins := by cases o <;> rfl
@[simp] theorem State.program_powered (r : Request) (o : OpOutcome) :
    (s.program r o).powered = s.powered := by cases o <;> rfl
@[simp] theorem State.program_inReset (r : Request) (o : OpOutcome) :
    (s.program r o).inReset = s.inReset := by cases o <;> rfl
@[simp] theorem State.program_setupLoaded (r : Request) (o : OpOutcome) :
    (s.program r o).setupLoaded = s.setupLoaded := by cases o <;> rfl
@[simp] theorem State.program_pending (r : Request) (o : OpOutcome) :
    (s.program r o).pending = s.pending := by cases o <;> rfl

/-! The end of an erase (R49, R52): `State.eraseSector`. -/

@[simp] theorem State.eraseSector_setup (sec : Sector) (o : OpOutcome) :
    (s.eraseSector sec o).setup = s.setup := by cases o <;> rfl
@[simp] theorem State.eraseSector_lines (sec : Sector) (o : OpOutcome) :
    (s.eraseSector sec o).lines = s.lines := by cases o <;> rfl
@[simp] theorem State.eraseSector_time (sec : Sector) (o : OpOutcome) :
    (s.eraseSector sec o).time = s.time := by cases o <;> rfl
@[simp] theorem State.eraseSector_adm (sec : Sector) (o : OpOutcome) :
    (s.eraseSector sec o).adm = s.adm := by cases o <;> rfl
@[simp] theorem State.eraseSector_commit (sec : Sector) (o : OpOutcome) :
    (s.eraseSector sec o).commit = s.commit := by cases o <;> rfl
@[simp] theorem State.eraseSector_dir (sec : Sector) (o : OpOutcome) :
    (s.eraseSector sec o).dir = s.dir := by cases o <;> rfl
@[simp] theorem State.eraseSector_reclaim (sec : Sector) (o : OpOutcome) :
    (s.eraseSector sec o).reclaim = s.reclaim := by cases o <;> rfl
@[simp] theorem State.eraseSector_cursor (sec : Sector) (o : OpOutcome) :
    (s.eraseSector sec o).cursor = s.cursor := by cases o <;> rfl
@[simp] theorem State.eraseSector_ctrl (sec : Sector) (o : OpOutcome) :
    (s.eraseSector sec o).ctrl = s.ctrl := by cases o <;> rfl
@[simp] theorem State.eraseSector_recov (sec : Sector) (o : OpOutcome) :
    (s.eraseSector sec o).recov = s.recov := by cases o <;> rfl
@[simp] theorem State.eraseSector_store (sec : Sector) (o : OpOutcome) :
    (s.eraseSector sec o).store = s.store := by cases o <;> rfl
@[simp] theorem State.eraseSector_port (sec : Sector) (o : OpOutcome) :
    (s.eraseSector sec o).port = s.port := by cases o <;> rfl
@[simp] theorem State.eraseSector_events (sec : Sector) (o : OpOutcome) :
    (s.eraseSector sec o).events = s.events := by cases o <;> rfl
@[simp] theorem State.eraseSector_pins (sec : Sector) (o : OpOutcome) :
    (s.eraseSector sec o).pins = s.pins := by cases o <;> rfl
@[simp] theorem State.eraseSector_powered (sec : Sector) (o : OpOutcome) :
    (s.eraseSector sec o).powered = s.powered := by cases o <;> rfl
@[simp] theorem State.eraseSector_inReset (sec : Sector) (o : OpOutcome) :
    (s.eraseSector sec o).inReset = s.inReset := by cases o <;> rfl
@[simp] theorem State.eraseSector_setupLoaded (sec : Sector) (o : OpOutcome) :
    (s.eraseSector sec o).setupLoaded = s.setupLoaded := by cases o <;> rfl
@[simp] theorem State.eraseSector_pending (sec : Sector) (o : OpOutcome) :
    (s.eraseSector sec o).pending = s.pending := by cases o <;> rfl

/-! A command answered (R188, R189): `State.replied`. -/

@[simp] theorem State.replied_setup (code : Byte) (args : List Byte) (r : Result) (data : List Byte) :
    (s.replied code args r data).setup = s.setup := rfl
@[simp] theorem State.replied_lines (code : Byte) (args : List Byte) (r : Result) (data : List Byte) :
    (s.replied code args r data).lines = s.lines := rfl
@[simp] theorem State.replied_time (code : Byte) (args : List Byte) (r : Result) (data : List Byte) :
    (s.replied code args r data).time = s.time := rfl
@[simp] theorem State.replied_adm (code : Byte) (args : List Byte) (r : Result) (data : List Byte) :
    (s.replied code args r data).adm = s.adm := rfl
@[simp] theorem State.replied_array (code : Byte) (args : List Byte) (r : Result) (data : List Byte) :
    (s.replied code args r data).array = s.array := rfl
@[simp] theorem State.replied_commit (code : Byte) (args : List Byte) (r : Result) (data : List Byte) :
    (s.replied code args r data).commit = s.commit := rfl
@[simp] theorem State.replied_dir (code : Byte) (args : List Byte) (r : Result) (data : List Byte) :
    (s.replied code args r data).dir = s.dir := rfl
@[simp] theorem State.replied_reclaim (code : Byte) (args : List Byte) (r : Result) (data : List Byte) :
    (s.replied code args r data).reclaim = s.reclaim := rfl
@[simp] theorem State.replied_cursor (code : Byte) (args : List Byte) (r : Result) (data : List Byte) :
    (s.replied code args r data).cursor = s.cursor := rfl
@[simp] theorem State.replied_ctrl (code : Byte) (args : List Byte) (r : Result) (data : List Byte) :
    (s.replied code args r data).ctrl = s.ctrl := rfl
@[simp] theorem State.replied_recov (code : Byte) (args : List Byte) (r : Result) (data : List Byte) :
    (s.replied code args r data).recov = s.recov := rfl
@[simp] theorem State.replied_store (code : Byte) (args : List Byte) (r : Result) (data : List Byte) :
    (s.replied code args r data).store = s.store := rfl
@[simp] theorem State.replied_port (code : Byte) (args : List Byte) (r : Result) (data : List Byte) :
    (s.replied code args r data).port = { s.port with phase := .reply, command := code, args := args, reply := r.code :: data, lastResult := r } := rfl
@[simp] theorem State.replied_events (code : Byte) (args : List Byte) (r : Result) (data : List Byte) :
    (s.replied code args r data).events = s.events := rfl
@[simp] theorem State.replied_pins (code : Byte) (args : List Byte) (r : Result) (data : List Byte) :
    (s.replied code args r data).pins = s.pins := rfl
@[simp] theorem State.replied_powered (code : Byte) (args : List Byte) (r : Result) (data : List Byte) :
    (s.replied code args r data).powered = s.powered := rfl
@[simp] theorem State.replied_inReset (code : Byte) (args : List Byte) (r : Result) (data : List Byte) :
    (s.replied code args r data).inReset = s.inReset := rfl
@[simp] theorem State.replied_setupLoaded (code : Byte) (args : List Byte) (r : Result) (data : List Byte) :
    (s.replied code args r data).setupLoaded = s.setupLoaded := rfl
@[simp] theorem State.replied_freeIx (code : Byte) (args : List Byte) (r : Result) (data : List Byte) :
    (s.replied code args r data).freeIx = s.freeIx := rfl
@[simp] theorem State.replied_pending (code : Byte) (args : List Byte) (r : Result) (data : List Byte) :
    (s.replied code args r data).pending = s.pending := rfl

/-! One byte clocked (R187, R189): `State.clocked`. -/

@[simp] theorem State.clocked_setup : (s.clocked).setup = s.setup := rfl
@[simp] theorem State.clocked_lines : (s.clocked).lines = s.lines := rfl
@[simp] theorem State.clocked_time : (s.clocked).time = s.time := rfl
@[simp] theorem State.clocked_adm : (s.clocked).adm = s.adm := rfl
@[simp] theorem State.clocked_array : (s.clocked).array = s.array := rfl
@[simp] theorem State.clocked_commit : (s.clocked).commit = s.commit := rfl
@[simp] theorem State.clocked_dir : (s.clocked).dir = s.dir := rfl
@[simp] theorem State.clocked_reclaim : (s.clocked).reclaim = s.reclaim := rfl
@[simp] theorem State.clocked_cursor : (s.clocked).cursor = s.cursor := rfl
@[simp] theorem State.clocked_ctrl : (s.clocked).ctrl = s.ctrl := rfl
@[simp] theorem State.clocked_recov : (s.clocked).recov = s.recov := rfl
@[simp] theorem State.clocked_store : (s.clocked).store = s.store := rfl
@[simp] theorem State.clocked_port : (s.clocked).port = s.port.clocked := rfl
@[simp] theorem State.clocked_events : (s.clocked).events = s.events := rfl
@[simp] theorem State.clocked_pins : (s.clocked).pins = s.pins := rfl
@[simp] theorem State.clocked_powered : (s.clocked).powered = s.powered := rfl
@[simp] theorem State.clocked_inReset : (s.clocked).inReset = s.inReset := rfl
@[simp] theorem State.clocked_setupLoaded : (s.clocked).setupLoaded = s.setupLoaded := rfl
@[simp] theorem State.clocked_freeIx : (s.clocked).freeIx = s.freeIx := rfl
@[simp] theorem State.clocked_pending : (s.clocked).pending = s.pending := rfl

/-! The bytes of a token sent (R115): `State.sendToken`. -/

@[simp] theorem State.sendToken_setup : (s.sendToken).setup = s.setup := rfl
@[simp] theorem State.sendToken_lines : (s.sendToken).lines = s.lines := rfl
@[simp] theorem State.sendToken_time : (s.sendToken).time = s.time := rfl
@[simp] theorem State.sendToken_adm : (s.sendToken).adm = s.adm := rfl
@[simp] theorem State.sendToken_array : (s.sendToken).array = s.array := rfl
@[simp] theorem State.sendToken_commit : (s.sendToken).commit = s.commit := rfl
@[simp] theorem State.sendToken_dir : (s.sendToken).dir = s.dir := rfl
@[simp] theorem State.sendToken_reclaim : (s.sendToken).reclaim = s.reclaim := rfl
@[simp] theorem State.sendToken_cursor : (s.sendToken).cursor = s.cursor := rfl
@[simp] theorem State.sendToken_ctrl : (s.sendToken).ctrl = s.ctrl := rfl
@[simp] theorem State.sendToken_recov : (s.sendToken).recov = s.recov := rfl
@[simp] theorem State.sendToken_store : (s.sendToken).store = s.store := rfl
@[simp] theorem State.sendToken_events : (s.sendToken).events = s.events := rfl
@[simp] theorem State.sendToken_pins : (s.sendToken).pins = s.pins := rfl
@[simp] theorem State.sendToken_powered : (s.sendToken).powered = s.powered := rfl
@[simp] theorem State.sendToken_inReset : (s.sendToken).inReset = s.inReset := rfl
@[simp] theorem State.sendToken_setupLoaded : (s.sendToken).setupLoaded = s.setupLoaded := rfl
@[simp] theorem State.sendToken_freeIx : (s.sendToken).freeIx = s.freeIx := rfl
@[simp] theorem State.sendToken_pending : (s.sendToken).pending = s.pending := rfl

/-! The report of the recovery START made (R170): `State.oweReport`. -/

@[simp] theorem State.oweReport_setup : (s.oweReport).setup = s.setup := rfl
@[simp] theorem State.oweReport_lines : (s.oweReport).lines = s.lines := rfl
@[simp] theorem State.oweReport_time : (s.oweReport).time = s.time := rfl
@[simp] theorem State.oweReport_adm : (s.oweReport).adm = { s.adm with reportOwed := true } := rfl
@[simp] theorem State.oweReport_array : (s.oweReport).array = s.array := rfl
@[simp] theorem State.oweReport_commit : (s.oweReport).commit = s.commit := rfl
@[simp] theorem State.oweReport_dir : (s.oweReport).dir = s.dir := rfl
@[simp] theorem State.oweReport_reclaim : (s.oweReport).reclaim = s.reclaim := rfl
@[simp] theorem State.oweReport_cursor : (s.oweReport).cursor = s.cursor := rfl
@[simp] theorem State.oweReport_ctrl : (s.oweReport).ctrl = s.ctrl := rfl
@[simp] theorem State.oweReport_recov : (s.oweReport).recov = s.recov := rfl
@[simp] theorem State.oweReport_store : (s.oweReport).store = s.store := rfl
@[simp] theorem State.oweReport_port : (s.oweReport).port = s.port := rfl
@[simp] theorem State.oweReport_events : (s.oweReport).events = s.events := rfl
@[simp] theorem State.oweReport_pins : (s.oweReport).pins = s.pins := rfl
@[simp] theorem State.oweReport_powered : (s.oweReport).powered = s.powered := rfl
@[simp] theorem State.oweReport_inReset : (s.oweReport).inReset = s.inReset := rfl
@[simp] theorem State.oweReport_setupLoaded : (s.oweReport).setupLoaded = s.setupLoaded := rfl
@[simp] theorem State.oweReport_freeIx : (s.oweReport).freeIx = s.freeIx := rfl
@[simp] theorem State.oweReport_pending : (s.oweReport).pending = s.pending := rfl

/-! The report of the recovery START taken (R170): `State.reportTaken`. -/

@[simp] theorem State.reportTaken_setup : (s.reportTaken).setup = s.setup := rfl
@[simp] theorem State.reportTaken_lines : (s.reportTaken).lines = s.lines := rfl
@[simp] theorem State.reportTaken_time : (s.reportTaken).time = s.time := rfl
@[simp] theorem State.reportTaken_adm : (s.reportTaken).adm = { s.adm with reportOwed := false } := rfl
@[simp] theorem State.reportTaken_commit : (s.reportTaken).commit = s.commit := rfl
@[simp] theorem State.reportTaken_dir : (s.reportTaken).dir = s.dir := rfl
@[simp] theorem State.reportTaken_reclaim : (s.reportTaken).reclaim = s.reclaim := rfl
@[simp] theorem State.reportTaken_cursor : (s.reportTaken).cursor = s.cursor := rfl
@[simp] theorem State.reportTaken_ctrl : (s.reportTaken).ctrl = s.ctrl := rfl
@[simp] theorem State.reportTaken_recov : (s.reportTaken).recov = s.recov := rfl
@[simp] theorem State.reportTaken_store : (s.reportTaken).store = s.store := rfl
@[simp] theorem State.reportTaken_port : (s.reportTaken).port = s.port := rfl
@[simp] theorem State.reportTaken_events : (s.reportTaken).events = s.events := rfl
@[simp] theorem State.reportTaken_pins : (s.reportTaken).pins = s.pins := rfl
@[simp] theorem State.reportTaken_powered : (s.reportTaken).powered = s.powered := rfl
@[simp] theorem State.reportTaken_inReset : (s.reportTaken).inReset = s.inReset := rfl
@[simp] theorem State.reportTaken_setupLoaded : (s.reportTaken).setupLoaded = s.setupLoaded := rfl
@[simp] theorem State.reportTaken_freeIx : (s.reportTaken).freeIx = s.freeIx := rfl
@[simp] theorem State.reportTaken_pending : (s.reportTaken).pending = s.pending := rfl

/-! The reads of a seek in a sector given up (R114): `State.giveUpSeekRead`. -/

@[simp] theorem State.giveUpSeekRead_setup (j : JSector) : (s.giveUpSeekRead j).setup = s.setup := rfl
@[simp] theorem State.giveUpSeekRead_lines (j : JSector) : (s.giveUpSeekRead j).lines = s.lines := rfl
@[simp] theorem State.giveUpSeekRead_time (j : JSector) : (s.giveUpSeekRead j).time = s.time := rfl
@[simp] theorem State.giveUpSeekRead_adm (j : JSector) : (s.giveUpSeekRead j).adm = s.adm := rfl
@[simp] theorem State.giveUpSeekRead_commit (j : JSector) : (s.giveUpSeekRead j).commit = s.commit := rfl
@[simp] theorem State.giveUpSeekRead_dir (j : JSector) : (s.giveUpSeekRead j).dir = s.dir := rfl
@[simp] theorem State.giveUpSeekRead_reclaim (j : JSector) : (s.giveUpSeekRead j).reclaim = s.reclaim := rfl
@[simp] theorem State.giveUpSeekRead_cursor (j : JSector) : (s.giveUpSeekRead j).cursor = s.cursor := rfl
@[simp] theorem State.giveUpSeekRead_ctrl (j : JSector) : (s.giveUpSeekRead j).ctrl = s.ctrl := rfl
@[simp] theorem State.giveUpSeekRead_recov (j : JSector) : (s.giveUpSeekRead j).recov = s.recov := rfl
@[simp] theorem State.giveUpSeekRead_store (j : JSector) : (s.giveUpSeekRead j).store = s.store := rfl
@[simp] theorem State.giveUpSeekRead_port (j : JSector) : (s.giveUpSeekRead j).port = s.port := rfl
@[simp] theorem State.giveUpSeekRead_events (j : JSector) : (s.giveUpSeekRead j).events = s.events := rfl
@[simp] theorem State.giveUpSeekRead_pins (j : JSector) : (s.giveUpSeekRead j).pins = s.pins := rfl
@[simp] theorem State.giveUpSeekRead_powered (j : JSector) : (s.giveUpSeekRead j).powered = s.powered := rfl
@[simp] theorem State.giveUpSeekRead_inReset (j : JSector) : (s.giveUpSeekRead j).inReset = s.inReset := rfl
@[simp] theorem State.giveUpSeekRead_setupLoaded (j : JSector) : (s.giveUpSeekRead j).setupLoaded = s.setupLoaded := rfl
@[simp] theorem State.giveUpSeekRead_freeIx (j : JSector) : (s.giveUpSeekRead j).freeIx = s.freeIx := rfl
@[simp] theorem State.giveUpSeekRead_pending (j : JSector) : (s.giveUpSeekRead j).pending = s.pending := rfl

end Sys2Proof.Machine
end

