-- ==== Sys2Proof/Laws/Ops.lean ====
section
/-! SUPPORT. What the shared operations do: the arbiter, the directory, the ends of operations, cuts and resets. -/

namespace Sys2Proof.Machine

/-- With supply a meaning runs. -/
theorem live_of_powered {s : State} {k : State → Answer} (h : s.powered = true) : s.live k = k s := if_pos h

/-- What the arbiter picks is a grantable request of the list (R59, R61). -/
theorem bestGrant_spec {j : JState} {e : Option Erase} {l : List Request} {r : Request} (h : bestGrant j e l = some (.request r)) : r ∈ l ∧ grantable j e r = true := by
  have hf : ∀ p : Request → Bool, (l.filter (grantable j e)).find? p = some r → r ∈ l ∧ grantable j e r = true := fun p hp => by
    have := List.mem_of_find?_eq_some hp
    exact List.mem_filter.1 this
  unfold bestGrant at h
  dsimp only at h
  repeat' split at h
  all_goals first
    | (cases h; done)
    | (cases h; first | (exact hf _ (by assumption)) )

/-- What the arbiter grants is waiting or just made, and grantable. -/
theorem chooseGrant_spec {f ix j} {a : StorageArray} {r : Request} (h : chooseGrant f ix j a = some (.request r)) : r ∈ a.waiting ++ a.made ∧ grantable j a.erase r = true := by
  have hw : bestGrant j a.erase a.waiting = some (.request r) → r ∈ a.waiting ++ a.made ∧ grantable j a.erase r = true := fun h => by
    have := bestGrant_spec h; exact ⟨by simp [this.1], this.2⟩
  unfold chooseGrant at h
  dsimp only at h
  split at h
  · exact hw h
  · rename_i hm; have := bestGrant_spec h; rw [hm]; exact ⟨List.mem_append_right _ this.1, this.2⟩
  · split at h
    · split at h
      · cases h
        rename_i hb
        have := bestGrant_spec hb
        refine ⟨?_, this.2⟩
        have h1 := this.1
        simp only [List.mem_append, List.mem_filter] at h1 ⊢
        tauto
      · rw [Option.map_eq_some_iff] at h
        obtain ⟨r', h1, h2⟩ := h
        cases h2
        have h3 := List.find?_some h1
        have h4 := List.mem_of_find?_eq_some h1
        exact ⟨by simp [h4], h3⟩
    · split at h
      · cases h; exact hw (by assumption)
      · cases h
        rename_i _ h1
        have h3 := List.find?_some h1
        have h4 := List.mem_of_find?_eq_some h1
        simp only [List.mem_filter] at h4
        exact ⟨by simp [h4.1], h3⟩
      · rw [Option.map_eq_some_iff] at h
        obtain ⟨r', h1, h2⟩ := h
        cases h2
        have h3 := List.find?_some h1
        have h4 := List.mem_of_find?_eq_some h1
        exact ⟨by simp [h4], h3⟩

/-- There is no least element of the empty list alone. -/
theorem leastBy_eq_none {α} {key : α → Nat} {l : List α} : leastBy key l = none ↔ l = [] := by
  cases l with
  | nil => simp [leastBy]
  | cons a l =>
    simp only [leastBy]
    constructor
    · intro h; split at h <;> (try split at h) <;> cases h
    · intro h; cases h

/-- The first element of least key. -/
theorem leastBy_spec (key : JSector → Nat) : ∀ {l : List JSector}, l.Pairwise (fun a b => a.val < b.val) → ∀ j, leastBy key l = some j ↔ j ∈ l ∧ ∀ i ∈ l, key j < key i ∨ key j = key i ∧ j.val ≤ i.val := by
  intro l
  induction l with
  | nil => simp [leastBy]
  | cons a l ih =>
    intro hp j
    rw [List.pairwise_cons] at hp
    simp only [leastBy]
    have ih := ih hp.2
    cases hb : leastBy key l with
    | none =>
      rw [leastBy_eq_none] at hb; subst hb
      simp only [Option.some.injEq, List.mem_singleton, forall_eq]
      constructor
      · rintro rfl; simp
      · rintro ⟨rfl, _⟩; rfl
    | some b =>
      have hb' := (ih b).1 hb
      dsimp only
      have hab := hp.1 b hb'.1
      split
      · rename_i hle
        simp only [Option.some.injEq]
        constructor
        · rintro rfl
          refine ⟨by simp, fun i hi => ?_⟩
          rcases List.mem_cons.1 hi with rfl | hi
          · right; simp
          · have := hb'.2 i hi
            have := hp.1 i hi
            omega
        · rintro ⟨hj, hall⟩
          rcases List.mem_cons.1 hj with rfl | hj
          · rfl
          · have h1 := hall a (by simp)
            have h2 := hb'.2 j hj
            have h3 := hp.1 j hj
            omega
      · rename_i hle
        simp only [Option.some.injEq]
        constructor
        · rintro rfl
          refine ⟨by simp [hb'.1], fun i hi => ?_⟩
          rcases List.mem_cons.1 hi with rfl | hi
          · left; omega
          · exact hb'.2 i hi
        · rintro ⟨hj, hall⟩
          rcases List.mem_cons.1 hj with rfl | hj
          · have h1 := hall b (by simp [hb'.1])
            omega
          · have : leastBy key l = some j := (ih j).2 ⟨hj, fun i hi => hall i (by simp [hi])⟩
            rw [hb] at this; exact Option.some.inj this

/-- Sectors in a state are listed in ascending index. -/
theorem inState_pairwise (d : Directory) (st) : (d.inState st).Pairwise (fun a b => a.val < b.val) := by
  unfold Directory.inState allSectors
  exact (List.pairwise_lt_finRange 126).filter _

/-- The list of sectors in a state. -/
theorem mem_inState {d : Directory} {st} {j : JSector} : j ∈ d.inState st ↔ d[j].state = st := by
  simp [Directory.inState, allSectors]

/-- Every entry changed by its index. -/
theorem mapAll_getElem (d : Directory) (f : JSector → Entry → Entry) (j : JSector) : (d.mapAll f)[j] = f j d[j] := by
  unfold Directory.mapAll
  simp [Fin.getElem_fin]

/-- A journal sector is the journal sector of its sector. -/
theorem journalOf_sectorOf (j : JSector) : journalOf (sectorOf j) = some j := by
  unfold journalOf sectorOf
  rw [dif_pos j.isLt]

/-- The end of a program of the requester and kind a happening names. -/
theorem programEnds_eq {s : State} {r : Request} {p : Requester → OpKind → Bool} {o : OpOutcome} {f : Request → State → State} (h1 : s.array.op = some r) (h2 : p r.requester r.kind = true) :
    s.programEnds p o f = .next ((f r (s.program r o).opOver).settle true) := by
  unfold State.programEnds StorageArray.ending
  rw [h1]; dsimp only; rw [if_pos h2]

/-- The end of an erase of the requester a happening names. -/
theorem eraseEnds_eq {s : State} {e : Erase} {who : Requester} {o : OpOutcome} {f : Erase → State → State} (h1 : s.array.erase = some e) (h2 : e.requester = who) (h3 : e.cond ≠ .suspended) :
    s.eraseEnds who o f = .next ((f e (s.eraseSector e.sector o).eraseOver).settle true) := by
  unfold State.eraseEnds StorageArray.endingErase
  rw [h1]; dsimp only; rw [if_pos ⟨h2, h3⟩]

/-- The end of a read of the requester a happening names. -/
theorem readEnds_eq {s : State} {r : Request} {who : Requester} {f : Request → List Byte → State → State} (h1 : s.array.op = some r) (h2 : r.requester = who) :
    s.readEnds who f = .next ((f r (readPage s.array.mem r.sector r.page) s.opOver).settle true) := by
  unfold State.readEnds StorageArray.ending
  rw [h1]; dsimp only; rw [if_pos (by simp [h2])]

/-- The buffer that was replaced. -/
theorem setBuf_buf (b : BufId) (v : Buffer) (s : State) : (s.setBuf b v).adm.buf b = v := by cases b <;> rfl

/-- The line ports after one is replaced. -/
theorem setLine_getElem (v : State) (a i : LineIx) (p : LinePort) : (v.setLine a p).lines[i] = if a = i then p else v.lines[i] := by
  show (v.lines.set a p)[i] = _
  simp only [Fin.getElem_fin, Vector.getElem_set]
  by_cases h : a = i
  · simp [h]
  · rw [if_neg (fun hh => h (Fin.ext hh)), if_neg h]

/-- The enabled lines start unsettled (R22). -/
theorem enableLines_eq (s : State) : s.enableLines = { s with lines := Vector.ofFn fun i => if s.setup.fields.line[i].enable then { s.lines[i] with receiver := .unsettled, idle := none } else s.lines[i] } := by
  have key : ∀ (l : List LineIx) (v : State), (l.Nodup) → l.foldl (fun (s : State) (i : LineIx) => if s.setup.fields.line[i].enable then s.enableLine i else s) v = { v with lines := Vector.ofFn fun i => if i ∈ l ∧ v.setup.fields.line[i].enable then { v.lines[i] with receiver := .unsettled, idle := none } else v.lines[i] } := by
    intro l
    induction l with
    | nil => intro v _; simp
    | cons a l ih =>
      intro v hn
      rw [List.nodup_cons] at hn
      rw [List.foldl_cons, ih _ hn.2]
      by_cases he : v.setup.fields.line[a].enable = true
      · rw [if_pos he]
        have hl : ∀ i : LineIx, (v.enableLine a).lines[i] = if a = i then { v.lines[a] with receiver := .unsettled, idle := none } else v.lines[i] := fun i => setLine_getElem v a i _
        have hs : (v.enableLine a).setup = v.setup := rfl
        have : (Vector.ofFn fun i => if i ∈ l ∧ (v.enableLine a).setup.fields.line[i].enable then { (v.enableLine a).lines[i] with receiver := .unsettled, idle := none } else (v.enableLine a).lines[i]) = (Vector.ofFn fun i => if i ∈ a :: l ∧ v.setup.fields.line[i].enable then { v.lines[i] with receiver := .unsettled, idle := none } else v.lines[i]) := by
          congr 1; funext i
          rw [hl, hs]
          by_cases hai : a = i
          · subst hai
            rw [if_neg (fun h => hn.1 h.1), if_pos rfl, if_pos ⟨by simp, he⟩]
          · rw [if_neg hai]
            have : (i ∈ a :: l) = (i ∈ l) := by simp [Ne.symm hai]
            simp only [this]
        rw [this]; rfl
      · rw [if_neg he]
        have : (Vector.ofFn fun i => if i ∈ l ∧ v.setup.fields.line[i].enable then { v.lines[i] with receiver := .unsettled, idle := none } else v.lines[i]) = (Vector.ofFn fun i => if i ∈ a :: l ∧ v.setup.fields.line[i].enable then { v.lines[i] with receiver := .unsettled, idle := none } else v.lines[i]) := by
          congr 1; funext i
          by_cases hai : a = i
          · subst hai
            rw [if_neg (fun h => he h.2), if_neg (fun h => he h.2)]
          · have : (i ∈ a :: l) = (i ∈ l) := by simp [Ne.symm hai]
            simp only [this]
        rw [this]
  have := key [0, 1, 2, 3] s (by decide)
  unfold State.enableLines; rw [this]
  congr 1; congr 1; funext i
  have : i ∈ ([0,1,2,3] : List LineIx) := by revert i; decide
  simp only [this, true_and]

/-- What an overtaking changes (R114). -/
theorem overtake_eq (j : JSector) (y : State) : y.overtake j = { y with
        cursor := { y.cursor with target := y.resumePoint, pendingToken := .lost y.resumePoint, faultSeen := false,
                                  store := (match y.cursor.store with | .kept _ _ => .empty | o => o),
                                  seek := y.cursor.seek.map fun k => ⟨k.stamp, none, k.outstanding && !y.array.seekReads j⟩ }
        events := { y.events with flags := y.events.flags ||| Event.cursorLost.mask }
        array := (y.giveUpSeekRead j).array } := by
  have n : ∀ r : Nat, y.resumePoint = r → y.overtake j = State.raise .cursorLost { y.giveUpSeekRead j with cursor := { y.cursor with
      target := r, pendingToken := .lost r, faultSeen := false, store := (match y.cursor.store with | .kept _ _ => .empty | o => o), seek := y.cursor.seek.map fun k => ⟨k.stamp, none, k.outstanding && !y.array.seekReads j⟩ } } := by
    intro r hr; subst hr; rfl
  rw [n _ rfl]
  generalize y.resumePoint = r
  rfl

/-- A cut leaves every byte outside the range in flight and the sector of the erase (R64). -/
theorem memByte_cutArray (s : State) (a : Nat) (h1 : ∀ r, s.array.op = some r → r.kind ≠ .read → a < r.addr ∨ r.addr + r.bytes.length ≤ a)
    (h2 : ∀ e, s.array.erase = some e → a < e.sector.val * 0x2000 ∨ e.sector.val * 0x2000 + 0x2000 ≤ a) :
    memByte s.cutArray.array.mem a = memByte s.array.mem a := by
  show memByte s.cutOp.cutErase.array.mem a = _
  have e1 : s.cutOp.array.erase = s.array.erase := by
    unfold State.cutOp; cases s.array.op with
    | none => rfl
    | some r => dsimp only; split <;> rfl
  have m1 : memByte s.cutOp.array.mem a = memByte s.array.mem a := by
    unfold State.cutOp
    cases h : s.array.op with
    | none => rfl
    | some r =>
      dsimp only
      split
      · rfl
      · rename_i hk; exact memByte_programTorn_outside _ _ _ _ _ (h1 r h hk)
  rw [← m1]
  unfold State.cutErase
  rw [e1]
  cases h : s.array.erase with
  | none => rfl
  | some e =>
    dsimp only
    refine memByte_eraseTorn_outside _ _ _ _ ?_
    have := h2 e h
    unfold inSector sectorAddr; omega

/-- A cut of the operation in flight changes the array and the count of free values alone. -/
theorem cutOp_frame (s : State) : s.cutOp = { s with array := s.cutOp.array, freeIx := s.cutOp.freeIx } := by
  unfold State.cutOp
  cases h1 : s.array.op with
  | none => rfl
  | some r => dsimp only; split <;> rfl

/-- A cut of the erase changes the array and the count of free values alone. -/
theorem cutErase_frame (s : State) : s.cutErase = { s with array := s.cutErase.array, freeIx := s.cutErase.freeIx } := by
  unfold State.cutErase
  cases h1 : s.array.erase with
  | none => rfl
  | some r => rfl

/-- A cut changes the array and the count of free values alone. -/
theorem cutArray_frame (s : State) : s.cutArray = { s with array := s.cutArray.array, freeIx := s.cutArray.freeIx } := by
  have h : s.cutOp.cutErase = { s with array := s.cutOp.cutErase.array, freeIx := s.cutOp.cutErase.freeIx } :=
    (cutErase_frame s.cutOp).trans (congrArg (fun w : State => { w with array := s.cutOp.cutErase.array, freeIx := s.cutOp.cutErase.freeIx }) (cutOp_frame s))
  exact congrArg (fun w : State => { w with array := { w.array with waiting := [], made := [] } }) h

/-- What a reset sets and what it keeps (R153). -/
theorem takeReset_eq (c : ResetCause) (s : State) : s.takeReset c = { State.reset with
    array := { State.reset.array with mem := s.cutArray.array.mem }
    ctrl := Controller.reset c
    pins := s.pins
    freeIx := s.cutArray.freeIx
    pending := s.pending } := by
  unfold State.takeReset
  have h1 : s.cutArray.pins = s.pins := by rw [cutArray_frame]
  have h2 : s.cutArray.pending = s.pending := by rw [cutArray_frame]
  dsimp only
  rw [h1, h2]

/-- Inserting keeps what is listed. -/
theorem insertBy_perm (key : JSector → Nat) (a : JSector) (l : List JSector) : (insertBy key a l).Perm (a :: l) := by
  induction l with
  | nil => exact List.Perm.refl _
  | cons b l ih =>
    unfold insertBy; split
    · exact List.Perm.refl _
    · exact (ih.cons b).trans (List.Perm.swap a b l)

/-- Inserting keeps the order of the keys. -/
theorem insertBy_sorted (key : JSector → Nat) (a : JSector) (l : List JSector) (h : l.Pairwise fun i j => key i ≤ key j) :
    (insertBy key a l).Pairwise fun i j => key i ≤ key j := by
  induction l with
  | nil => exact List.pairwise_singleton _ _
  | cons b l ih =>
    have h' := h
    rw [List.pairwise_cons] at h
    unfold insertBy; split
    · rename_i hk
      rw [List.pairwise_cons]
      refine ⟨fun i hi => ?_, h'⟩
      rcases List.mem_cons.1 hi with rfl | hi
      · exact hk
      · have := h.1 i hi; omega
    · rename_i hk
      rw [List.pairwise_cons]
      refine ⟨fun i hi => ?_, ih h.2⟩
      rcases List.mem_cons.1 ((insertBy_perm key a l).mem_iff.1 hi) with rfl | hi
      · omega
      · exact h.1 i hi

/-- Sorting by a key keeps what is listed and orders the keys; the ring rests on it (R86). -/
theorem sortBy_spec (key : JSector → Nat) (l : List JSector) : (l.foldr (insertBy key) []).Perm l ∧ (l.foldr (insertBy key) []).Pairwise fun i j => key i ≤ key j := by
  induction l with
  | nil => exact ⟨List.Perm.refl _, List.Pairwise.nil⟩
  | cons a l ih => exact ⟨(insertBy_perm key a _).trans (ih.1.cons a), insertBy_sorted key a _ ih.2⟩

/-- The journal sectors are the sectors of the journal (R46). -/
theorem journalOf_eq_some {x : Sector} {j : JSector} : journalOf x = some j ↔ x = sectorOf j := by
  unfold journalOf sectorOf
  constructor
  · intro h; split at h
    · cases h; rfl
    · cases h
  · intro h; subst h; rw [dif_pos j.isLt]

/-- The entries after one becomes DIRTY. -/
theorem update_dirty (d : Directory) (i j : JSector) : (d.update i fun x => { x with state := .dirty })[j] = if i = j then { d[j] with state := .dirty } else d[j] := by
  rw [Directory.update_get]

/-- What the refusal of a waiting request changes (R63, R99, R102, R110, R114). -/
theorem refuse_eq (r : Request) (s : State) : s.refuse r = { s with
      dir := (s.refuse r).dir
      reclaim := if r.requester == .reclaim then ⟨.idle, none⟩ else s.reclaim
      cursor := { s.cursor with
        buffer := if r.requester == .cursorFetch then .empty else s.cursor.buffer
        seek := s.cursor.seek.map fun k => ⟨k.stamp, k.position, k.outstanding && !(r.requester == .cursorSeek)⟩ } }
    ∧ ∀ j : JSector, (s.refuse r).dir[j] = if r.kind == .erase && (r.requester == .reclaim || r.requester == .format) && r.sector == sectorOf j then { s.dir[j] with state := .dirty } else s.dir[j] := by
  have sk : s.cursor.seek.map (fun k => (⟨k.stamp, k.position, k.outstanding && !false⟩ : SeekState)) = s.cursor.seek := by
    cases s.cursor.seek <;> simp
  have skt : s.cursor.seek.map (fun k => (⟨k.stamp, k.position, k.outstanding && !true⟩ : SeekState)) = s.cursor.seek.map fun k => { k with outstanding := false } := by
    cases s.cursor.seek <;> simp
  have hne : ∀ j, r.kind = .erase → journalOf r.sector = none → (r.sector == sectorOf j) = false := by
    intro j _ h; simp only [beq_eq_false_iff_ne]; intro h2; rw [journalOf_eq_some.mpr h2] at h; cases h
  obtain ⟨who, kind, sec, page, data, gen, wanted⟩ := r
  have give : ∀ j : JSector, kind = .erase → (match journalOf sec with | some i => s.eraseGivenUp i | none => s).dir[j] = if (sec == sectorOf j) = true then { s.dir[j] with state := .dirty } else s.dir[j] := by
    intro j hk
    cases hj : journalOf sec with
    | none => dsimp only; rw [hne j hk hj]; rfl
    | some i =>
      dsimp only
      have hs := journalOf_eq_some.mp hj
      show (s.dir.update i fun x => { x with state := .dirty })[j] = _
      rw [update_dirty]
      by_cases h : i = j
      · subst h; rw [if_pos rfl, if_pos (by rw [hs]; exact beq_self_eq_true _)]
      · rw [if_neg h, if_neg]
        intro hh; apply h
        have hh := (beq_iff_eq.mp hh)
        rw [hs] at hh
        unfold sectorOf at hh; injection hh with hh; exact Fin.ext hh
  have rec1 : ∀ w : State, w = { s with dir := w.dir } → w.reclaimIdle = { s with dir := w.dir, reclaim := ⟨.idle, none⟩ } := by
    intro w h; unfold State.reclaimIdle; rw [h]
  have skn : ∀ b : Bool, b = false → s.cursor.seek.map (fun k => (⟨k.stamp, k.position, k.outstanding && !b⟩ : SeekState)) = s.cursor.seek := by
    intro b hb; subst hb; exact sk
  cases who with
  | commit =>
    have e : State.refuse ⟨.commit, kind, sec, page, data, gen, wanted⟩ s = s := rfl
    refine ⟨?_, fun j => ?_⟩
    · rw [e]; dsimp only; rw [skn (Requester.commit == .cursorSeek) rfl]; rfl
    · rw [e, if_neg (by cases kind <;> simp)]
  | setup =>
    have e : State.refuse ⟨.setup, kind, sec, page, data, gen, wanted⟩ s = s := rfl
    refine ⟨?_, fun j => ?_⟩
    · rw [e]; dsimp only; rw [skn (Requester.setup == .cursorSeek) rfl]; rfl
    · rw [e, if_neg (by cases kind <;> simp)]
  | recovery =>
    have e : State.refuse ⟨.recovery, kind, sec, page, data, gen, wanted⟩ s = s := rfl
    refine ⟨?_, fun j => ?_⟩
    · rw [e]; dsimp only; rw [skn (Requester.recovery == .cursorSeek) rfl]; rfl
    · rw [e, if_neg (by cases kind <;> simp)]
  | cursorFetch =>
    have e : State.refuse ⟨.cursorFetch, kind, sec, page, data, gen, wanted⟩ s = { s with cursor := { s.cursor with buffer := .empty } } := rfl
    refine ⟨?_, fun j => ?_⟩
    · rw [e]; dsimp only; rw [skn (Requester.cursorFetch == .cursorSeek) rfl]; rfl
    · rw [e, if_neg (by cases kind <;> simp)]
  | cursorSeek =>
    have e : State.refuse ⟨.cursorSeek, kind, sec, page, data, gen, wanted⟩ s = { s with cursor := { s.cursor with seek := s.cursor.seek.map fun k => { k with outstanding := false } } } := rfl
    refine ⟨?_, fun j => ?_⟩
    · rw [e, ← skt]; rfl
    · rw [e, if_neg (by cases kind <;> simp)]
  | format =>
    by_cases hk : kind = .erase
    · subst hk
      have e : State.refuse ⟨.format, .erase, sec, page, data, gen, wanted⟩ s = (match journalOf sec with | some i => s.eraseGivenUp i | none => s) := by
        unfold State.refuse; cases journalOf sec <;> rfl
      refine ⟨?_, fun j => ?_⟩
      · rw [e]; dsimp only; rw [skn (Requester.format == .cursorSeek) rfl]; cases journalOf sec <;> rfl
      · rw [e]; refine (give j rfl).trans ?_; rfl
    · have e : State.refuse ⟨.format, kind, sec, page, data, gen, wanted⟩ s = s := by cases kind <;> first | rfl | exact absurd rfl hk
      refine ⟨?_, fun j => ?_⟩
      · rw [e]; dsimp only; rw [skn (Requester.format == .cursorSeek) rfl]; rfl
      · rw [e, if_neg (by cases kind <;> first | exact absurd rfl hk | simp)]; try rfl
  | reclaim =>
    by_cases hk : kind = .erase
    · subst hk
      have e : State.refuse ⟨.reclaim, .erase, sec, page, data, gen, wanted⟩ s = (match journalOf sec with | some i => s.eraseGivenUp i | none => s).reclaimIdle := by
        unfold State.refuse; cases journalOf sec <;> rfl
      refine ⟨?_, fun j => ?_⟩
      · rw [e]; dsimp only; rw [skn (Requester.reclaim == .cursorSeek) rfl]; cases journalOf sec <;> rfl
      · rw [e]; refine (give j rfl).trans ?_; rfl
    · have e : State.refuse ⟨.reclaim, kind, sec, page, data, gen, wanted⟩ s = s.reclaimIdle := by cases kind <;> first | rfl | exact absurd rfl hk
      refine ⟨?_, fun j => ?_⟩
      · rw [e]; dsimp only; rw [skn (Requester.reclaim == .cursorSeek) rfl]; rfl
      · rw [e, if_neg (by cases kind <;> first | exact absurd rfl hk | simp)]; try rfl

/-- What the refusal of the START buffer's request changes (R81). -/
theorem refuseStart_eq (w : State) : w.refuseStart = { w with
    commit := { w.commit with holding := none, phase := .idle, leavingBlocked := if w.commit.holding = none then w.commit.leavingBlocked else false }
    adm := { w.adm with
      bufP := if w.commit.holding = some .p then Buffer.empty (if w.adm.bufQ.role = .filling then .idle else .filling) else w.adm.bufP
      bufQ := if w.commit.holding = some .q then Buffer.empty (if w.adm.bufP.role = .filling then .idle else .filling) else w.adm.bufQ } } := by
  unfold State.refuseStart State.releaseHeld
  cases h : w.commit.holding with
  | none => simp [State.withCommit, h]
  | some b => cases b <;> simp [State.withCommit, State.setBuf, BufId.other, Admission.buf] <;> rfl

/-- What the commit path does at the start of a drain (R78). -/
theorem drainCommit_eq (w : State) : w.drainCommit = if w.commit.phase = .blocked ∨ w.commit.phase = .halted then { w with
        adm := { w.adm with
          bufP := if w.commit.holding = some .p then Buffer.empty (if w.adm.bufQ.role = .filling then .idle else .filling) else w.adm.bufP
          bufQ := if w.commit.holding = some .q then Buffer.empty (if w.adm.bufP.role = .filling then .idle else .filling) else w.adm.bufQ }
        commit := { w.commit with holding := none, phase := .idle, drainLoss := true, leavingBlocked := false } } else w := by
      unfold State.drainCommit State.releaseHeld
      cases hp : w.commit.phase <;> dsimp only
      all_goals first
        | (rw [if_neg (by decide)])
        | (rw [if_pos (by decide)]; cases h : w.commit.holding with
           | none => simp [State.withCommit, h]
           | some b => cases b <;> simp [State.withCommit, State.setBuf, BufId.other, Admission.buf] <;> rfl)

/-- What giving up the erase in existence changes (R57). -/
theorem abandonErase_frame (s : State) : ∃ (m : List Host.Cell) (n : Nat) (d : Directory),
    s.abandonErase = { s with
      array := { s.array with mem := m, erase := s.array.erase.bind fun e => if e.cond = .suspended then none else some { e with cond := .stopPending } }
      freeIx := n, dir := d
      reclaim := if s.array.erase.any (fun e => e.cond == .suspended && e.requester == .reclaim && decide (e.sector.val < 126)) then ⟨.idle, none⟩ else s.reclaim }
    ∧ (∀ j : JSector, d[j] = if s.array.erase.any (fun e => e.cond == .suspended && (e.requester == .reclaim || e.requester == .format)
                && e.sector == sectorOf j) then { s.dir[j] with state := .dirty } else s.dir[j])
    ∧ ∀ a, (∀ x, s.array.erase = some x → x.cond = .suspended → a < x.sector.val * 0x2000 ∨ x.sector.val * 0x2000 + 0x2000 ≤ a) →
        memByte m a = memByte s.array.mem a := by
  unfold State.abandonErase
  cases h : s.array.erase with
  | none =>
    refine ⟨s.array.mem, s.freeIx, s.dir, ?_, fun j => rfl, fun a _ => rfl⟩
    simp only [Option.bind_none, Option.any_none, Bool.false_eq_true, if_false]; rw [← h]
  | some x =>
    dsimp only
    by_cases hc : x.cond = .suspended
    · rw [if_pos hc]
      have hcut : s.cutErase = { s with array := { s.array with mem := eraseTorn s.freeIx s.array.mem x.sector, erase := none }, freeIx := s.freeIx + 1 } := by
        unfold State.cutErase; rw [h]; rfl
      rw [hcut]
      generalize hz : ({ s with array := { s.array with mem := eraseTorn s.freeIx s.array.mem x.sector, erase := none }, freeIx := s.freeIx + 1 } : State) = z
      refine ⟨eraseTorn s.freeIx s.array.mem x.sector, s.freeIx + 1, (State.eraseAbandoned x z).dir, ?_, ?_, ?_⟩
      · have hlt : ∀ i, journalOf x.sector = some i → x.sector.val < 126 := by
          intro i hi; rw [journalOf_eq_some.mp hi]; exact i.isLt
        have hge : journalOf x.sector = none → ¬ x.sector.val < 126 := by
          intro hi hh; unfold journalOf at hi; rw [dif_pos hh] at hi; cases hi
        simp only [Option.bind_some, Option.any_some, hc]
        unfold State.eraseAbandoned
        cases hr : x.requester <;> cases hj : journalOf x.sector <;> subst hz <;> simp [State.reclaimIdle, State.eraseGivenUp, State.setEntry]
        · have := hge hj; intro hh; omega
        · have := hlt _ hj; omega
      · intro j
        simp only [Option.any_some, hc]
        have hs : ∀ j, (x.sector == sectorOf j) = decide (journalOf x.sector = some j) := by
          intro j; rw [Bool.eq_iff_iff]; simp only [beq_iff_eq, decide_eq_true_eq]; exact journalOf_eq_some.symm
        rw [hs]
        have hd : z.dir = s.dir := by subst hz; rfl
        have hu : ∀ i j : JSector, (z.eraseGivenUp i).dir[j] = if i = j then { s.dir[j] with state := .dirty } else s.dir[j] := by
          intro i j; rw [← hd]; exact update_dirty _ _ _
        unfold State.eraseAbandoned
        cases hr : x.requester <;> cases hj : journalOf x.sector <;> first
          | (simp [hd]; done)
          | (dsimp only [State.reclaimIdle]; rw [hu]; simp)
      · intro a ha
        refine memByte_eraseTorn_outside _ _ _ _ ?_
        have := ha x rfl hc
        unfold inSector sectorAddr; omega
    · rw [if_neg hc]
      have hcb : (x.cond == .suspended) = false := by simpa using hc
      refine ⟨s.array.mem, s.freeIx, s.dir, ?_, ?_, fun a _ => rfl⟩
      · simp only [Option.bind_some, Option.any_some, if_neg hc, hcb, Bool.false_and, Bool.false_eq_true, if_false]
      · intro j; simp [hcb]

end Sys2Proof.Machine
end

