-- ==== Sys2Proof/WellFormed.lean ====
section
/-! DEFINITION. Which terms of Instr are happenings of the part. The operand types leave little to check: a line number is
below 4 by its type. What is left is that the byte of an UNKNOWN_COMMAND names no command (R188, R202). -/

namespace Sys2Proof

/-- The term stands for a happening of the table. -/
def Instr.wellFormed (i : Instr) : Bool :=
  match i with
  | .unknownCommand b => (Machine.commandOf b).isNone
  | _ => true

end Sys2Proof
end

