-- ==== Sys2Proof/Tests/Slice0.lean ====
section
/-! SUPPORT. Tests of one step each, with results taken from the manual, and for every statement with hypotheses a concrete
state and operands that meet them. -/

namespace Sys2Proof.Tests

open Sys2Proof.Machine

set_option Elab.async false

/-! ### Small states -/

/-- A part out of reset, RUNNING, with every sector FREE and the cursor at seq 1. -/
def up : State :=
  { State.reset with
    inReset := false
    setupLoaded := true
    ctrl := { State.reset.ctrl with state := .running }
    time := { State.reset.time with held := false }
    dir := Vector.replicate 126 (Entry.blank .free)
    cursor := { CursorEngine.reset with target := 1 } }

/-- The journal state replaced. -/
def inState (j : JState) (s : State) : State := s.withCtrl fun c => { c with state := j }

/-- A transaction open, its command byte still to come. -/
def atCmd (s : State) : State := { s.setCsN false with port := { s.port with phase := .command } }

/-- A transaction open, with a command byte and some arguments received. -/
def atArgs (code : Byte) (l : List Byte) (s : State) : State :=
  { s.setCsN false with port := { s.port with phase := .arguments, command := code, args := l } }

/-- A transaction open in STREAM. -/
def atStream (s : State) : State := { s.setCsN false with port := { s.port with phase := .stream } }

/-- A read or program in flight. -/
def flying (r : Request) (s : State) : State := { s with array := { s.array with op := some r } }

/-- An erase in existence. -/
def erasing (who : Requester) (c : EraseCond) (sec : Sector) (s : State) : State :=
  { s with array := { s.array with erase := some { sector := sec, requester := who, cond := c, runMicros := 0, wanted := true } } }

/-- A request with nothing to write. -/
def req (who : Requester) (k : OpKind) (sec : Sector) (p : PageIx) : Request :=
  { requester := who, kind := k, sector := sec, page := p, data := [], generation := 0, wanted := true }

/-- A line port changed. -/
def onLine (f : LinePort → LinePort) (s : State) : State := s.setLine 0 (f s.lines[0])

/-- The first line with a setup. -/
def withLine (f : LineSetup → LineSetup) (s : State) : State :=
  { s with setup := { s.setup with fields := { s.setup.fields with line := s.setup.fields.line.set 0 (f s.setup.fields.line[0]) } } }

/-- Journal fields changed. -/
def withJournal (f : JournalSetup → JournalSetup) (s : State) : State := s.setJournal (f s.setup.fields.journal)

/-- A filling buffer with one 17-byte record (a NOTE of one byte) in it. -/
def oneRecord : Buffer :=
  { Buffer.empty .filling with data := recHeader 2 0 0 0 1 1 5 0 ++ [0x55], count := 1, firstSeq := 1, lastSeq := 1 }

/-- The part with that buffer. -/
def filled (s : State) : State := { s with adm := { s.adm with bufP := oneRecord, nextSeq := 2 } }

/-- The commit path holding that buffer, in a phase of its work on sector 0 page 1. -/
def committing (ph : CommitPhase) (s : State) : State :=
  { s with
    adm := { s.adm with bufP := { oneRecord with role := .committing }, bufQ := Buffer.empty .filling, nextSeq := 2 }
    commit := { s.commit with phase := ph, holding := some .p, target := some 0, nextPage := 1, lastEpoch := 1 }
    dir := s.dir.update 0 fun x => { x with state := .opened, epoch := 1 } }

/-- What a field holds in the next state, none after a fault or a refusal. -/
def look (a : Answer) (f : State → α) : Option α :=
  match a with
  | .next t => some (f t)
  | _ => none

/-- A page of 512 bytes that ends in the given ones. -/
def endsIn (l : List Byte) : List Byte := List.replicate (512 - l.length) 0xFF ++ l

/-! ### Well-formedness, bytes and words -/

/-- R188: a Write Line Setup with 16 of its 17 argument bytes owes one; an Append Note of 3 bytes with 1 of them owes two. -/
theorem test_owed : owed .writeLineSetup (List.replicate 16 0) = 1 ∧ owed .appendNote [3, 0] = 2 := by decide

/-- 20h names Run, so it is no UNKNOWN_COMMAND; 00h names nothing (R202). -/
theorem test_wellFormed : Instr.wellFormed (.unknownCommand 0x20) = false ∧ Instr.wellFormed (.unknownCommand 0x00) = true := by
  decide

/-- The check value of R200: the CRC of "123456789". -/
theorem test_crc : crc [0x31, 0x32, 0x33, 0x34, 0x35, 0x36, 0x37, 0x38, 0x39] = 0xFC891918 := by decide +kernel

/-- No row of the table has bits. -/
theorem test_decode : decodeTableWord 16 0x20 = none := rfl

/-! ### One step of each happening -/

/-- R4, R12: the first character opens a piece and is stored. -/
theorem test_character_opens :
    look (exec (.characterDelivered 0 0x41 false true) (up |> onLine fun p => { p with receiver := .receiving }))
      (fun t => (t.lines[0].framer, t.lines[0].fifo, t.lines[0].receiver)) = some (.opened, [0x41], .ready) := by decide +kernel

/-- R7, R14: with COUNT and N = 1 the character closes its piece, with the parity mark of an EVEN line (41h has two ones). -/
theorem test_character_counts :
    look (exec (.characterDelivered 0 0x41 true true)
        (up |> withLine (fun u => { u with mode := .count, n := 1, parity := .even }) |> onLine fun p => { p with receiver := .receiving }))
      (fun t => t.lines[0].queue.map fun d => (d.length, d.flags.parity, d.flags.framing)) = some [(1, true, false)] := by
  decide +kernel

/-- R2: the line rises before step 16, and the held character is delivered as 00h. -/
theorem test_lineReturnsHigh :
    look (exec (.lineReturnsHigh 0) (up |> onLine fun p => { p with receiver := .held false }))
      (fun t => (t.lines[0].fifo, t.lines[0].piece.framing, t.lines[0].idle)) = some ([0x00], true, some 0) := by decide +kernel

/-- R8: a break with no open piece is a piece of length 0 with BREAK. -/
theorem test_break :
    look (exec (.breakRecognised 0) (up |> onLine fun p => { p with receiver := .held false }))
      (fun t => t.lines[0].queue.map fun d => (d.length, d.flags.brk)) = some [(0, true)] := by decide +kernel

/-- R5: idle step G closes the open piece in GAP mode, without OPEN_END. -/
theorem test_idleStep :
    look (exec (.idleStep 0) (up |> onLine fun p =>
        { p with receiver := .ready, idle := some 3, framer := .opened, fifo := [0x41], piece := { p.piece with count := 1 } }))
      (fun t => t.lines[0].queue.map fun d => (d.length, d.flags.openEnd)) = some [(1, false)] := by decide +kernel

/-- R3: the measurement stays at 255. -/
theorem test_idleStep_last :
    look (exec (.idleStep 0) (up |> onLine fun p => { p with receiver := .ready, idle := some 255 }))
      (fun t => t.lines[0].idle) = some (some 255) := by decide +kernel

/-- R20: the receiver of a settled line is ready, and the measurement starts. -/
theorem test_lineSettled :
    look (exec (.lineSettled 0) (up |> onLine fun p => { p with receiver := .unsettled }))
      (fun t => (t.lines[0].receiver, t.lines[0].idle)) = some (.ready, some 0) := by decide +kernel

/-- R1: a confirmed start bit begins a character; an unconfirmed one is no character. -/
theorem test_startEdge :
    look (exec (.startEdge 0 true) (up |> onLine fun p => { p with receiver := .ready, idle := some 2 }))
        (fun t => (t.lines[0].receiver, t.lines[0].idle)) = some (.receiving, none)
      ∧ look (exec (.startEdge 0 false) (up |> onLine fun p => { p with receiver := .ready, idle := some 2 }))
        (fun t => (t.lines[0].receiver, t.lines[0].idle)) = some (.ready, some 2) := by decide +kernel

/-- R26: the counter saturates at 2^48-1 and stays there. -/
theorem test_stampTick :
    look (exec .stampTick { up with time := { up.time with counter := 0xFFFFFFFFFFFE } })
        (fun t => (t.time.counter, t.time.saturated)) = some (0xFFFFFFFFFFFF, true)
      ∧ look (exec .stampTick { up with time := { up.time with counter := 0xFFFFFFFFFFFF, saturated := true } })
        (fun t => t.time.counter) = some 0xFFFFFFFFFFFF := by decide +kernel

/-- R37: the flush age closes the filling buffer, and the commit path opens the first FREE sector (R67). -/
theorem test_flushAge :
    look (exec .flushAgeReached (up |> filled |> withJournal fun j => { j with flushAge := 1 }))
      (fun t => (t.adm.bufP.role, t.commit.phase, t.commit.lastEpoch, t.array.op.map (·.kind)))
      = some (.committing, .head, 1, some .headProgram) := by decide +kernel

/-- R32, R33: a NOTE of one byte with stamp 5 is record 1. -/
theorem test_admission :
    look (exec .admission { up with adm := { up.adm with note := some { payload := [0x55], stamp := 5 } } })
      (fun t => (t.adm.bufP.data, t.adm.nextSeq, t.adm.note))
      = some ([0x20, 0, 0, 1, 0, 0, 0, 1, 0, 0, 0, 0, 0, 5, 0, 0, 0x55], 2, none) := by decide +kernel

/-- R29, R31: outside RUNNING a note is not admissible. -/
theorem test_admission_waits :
    look (exec .admission (inState .stopped { up with adm := { up.adm with note := some { payload := [0x55], stamp := 5 } } }))
      (fun t => (t.adm.bufP.count, t.adm.nextSeq)) = some (0, 1) := by decide +kernel

/-- A recovery in CLOSING, its START in the system slot. -/
def closing : State :=
  { inState .recovering up with
    recov := { RecoveryUnit.reset with phase := .closing }
    adm := { up.adm with sys := some (.start ⟨.powerOn, false, 0, .defaults, 0, 0, 0, 0, 0⟩ 0) } }

/-- R170: the START's admission leaves the report, and the next ADMISSION takes it; a fall of PFW_N taken first finds the START
admitted, and the report has no effect (R81, R173). -/
theorem test_admission_reports :
    (match exec .admission closing with
     | .next t =>
       (look (exec .admission t) fun u => (u.ctrl.state, u.adm.reportOwed, u.commit.holding),
         look (exec .pfwNFall t) fun u => (u.ctrl.state, u.adm.reportOwed, u.commit.holding, u.adm.bufP.count))
     | _ => (none, none))
    = (some (.stopping, false, some .p), some (.drained, false, none, 0)) := by decide +kernel

/-- R70: a head program OK is followed by the body of page 1. -/
theorem test_headProgramEnd :
    look (exec (.headProgramEnd .ok) (up |> committing .head |> flying (req .commit .headProgram 0 0)))
      (fun t => (t.commit.phase, t.array.op.map fun r => (r.kind, r.page))) = some (.body, some (.bodyProgram, 1)) := by
  decide +kernel

/-- R71: a head program FAIL makes the sector DIRTY, to be retired, and another is opened. -/
theorem test_headProgramEnd_fails :
    look (exec (.headProgramEnd .fail) (up |> committing .head |> flying (req .commit .headProgram 0 0)))
      (fun t => (t.dir[0].state, t.dir[0].retireMark, t.commit.target)) = some (.dirty, true, some 1) := by decide +kernel

/-- R73: a body program OK is followed by its commit field, which ends in the commit mark. -/
theorem test_bodyProgramEnd :
    look (exec (.bodyProgramEnd .ok) (up |> committing .body |> flying (req .commit .bodyProgram 0 1)))
      (fun t => (t.dir[0].pagesUsed, t.array.op.map fun r => (r.kind, r.data.drop 4)))
      = some (1, some (.fieldProgram, [0x5E, 0x1A, 0x0C, 0x97])) := by decide +kernel

/-- R74: a commit field OK publishes the records, and with threshold 1 raises COMMITTED (event bit 4). -/
theorem test_commitFieldEnd :
    look (exec (.commitFieldEnd .ok) (up |> committing .field |> flying (req .commit .fieldProgram 0 1)))
      (fun t => (t.commit.newestSeq, t.dir[0].firstSeq, t.dir[0].lastStamp, t.adm.bufP.role, t.flagSet .committed))
      = some (1, 1, 5, .idle, true) := by decide +kernel

/-- R75: a commit field FAIL withholds the page and counts against the sector. -/
theorem test_commitFieldEnd_fails :
    look (exec (.commitFieldEnd .fail) (up |> committing .field |> flying (req .commit .fieldProgram 0 1)))
      (fun t => (t.cursor.withheld, t.dir[0].failCount, t.commit.nextPage)) = some ([(0, 1)], 1, 2) := by decide +kernel

/-- R55, R56: a suspension takes effect. With nothing else to grant the standing resume is granted at once (R59). -/
theorem test_suspend :
    look (exec .eraseSuspendEffect (up |> erasing .reclaim .suspendPending 5 |> committing .body |> fun s =>
        { s with array := { s.array with waiting := [req .commit .bodyProgram 0 1] } }))
      (fun t => (t.array.erase.map (·.cond), t.array.op.map (·.kind))) = some (some .suspended, some .bodyProgram) := by
  decide +kernel

/-- R52, R55: a suspended erase leaves its sector's bits by a free value. -/
theorem test_suspend_contents (s : State) (e : Erase) (a : Nat) (h : inSector e.sector a) :
    memByte (s.eraseSuspended e).array.mem a = Config.cellBits s.freeIx a :=
  memByte_eraseTorn_inside _ _ _ _ h

/-- R57, R99: a stopped reclaim erase leaves its sector DIRTY. -/
theorem test_stopEffect :
    look (exec .eraseStopEffect (inState .draining (up |> erasing .reclaim .stopPending 5)))
      (fun t => (t.array.erase, t.dir[5].state)) = some (none, .dirty) := by decide +kernel

/-- R96: an erase OK makes the sector FREE with its count raised. -/
theorem test_reclaimEraseEnd :
    look (exec (.reclaimEraseEnd .ok) (up |> erasing .reclaim .running 5))
      (fun t => (t.array.erase, t.dir[5].state, t.dir[5].eraseCount)) = some (none, .free, 1) := by decide +kernel

/-- R96, R97: an erase FAIL retires the sector, and its retire mark is requested. -/
theorem test_reclaimEraseEnd_fails :
    look (exec (.reclaimEraseEnd .fail) (up |> erasing .reclaim .running 5))
      (fun t => (t.dir[5].state, t.array.op.map fun r => (r.kind, r.data.length))) = some (.retired, some (.retireMark, 16)) := by
  decide +kernel

/-- R97: after the mark the engine is idle. -/
theorem test_retireMarkEnd :
    look (exec (.retireMarkEnd .fail) { (up |> flying (req .reclaim .retireMark 5 0)) with
        reclaim := { phase := .mark, target := some 5 } })
      (fun t => (t.reclaim.phase, t.reclaim.target)) = some (.idle, none) := by decide +kernel

/-- R137: the Format goes on with the next sector, lowest index first. -/
theorem test_formatEraseEnd :
    look (exec (.formatEraseEnd .ok) (up |> erasing .format .running 0 |> fun s =>
        s.withCtrl fun c => { c with state := .formatting, format := .erasing 0, opKind := .format }))
      (fun t => (t.ctrl.format, t.dir[0].state, t.array.erase.map (·.sector))) = some (.erasing 1, .free, some 1) := by
  decide +kernel

/-- A Store Setup at work. -/
def storing (ph : StorePhase) (s : State) : State :=
  { s.withCtrl fun c => { c with opKind := .storeSetup } with
    store := { SetupStore.reset with phase := ph, nextPage := 3, copy := some (s.setup.fields, 1), issued := 1 } }

/-- R182: after the erase the copy goes to page 0 of the erased sector B. -/
theorem test_setupEraseEnd :
    look (exec (.setupEraseEnd .ok) (up |> storing .erase |> erasing .setup .running 127))
      (fun t => (t.store.current, t.array.op.map fun r => (r.kind, r.sector, r.page))) = some (.b, some (.setupBody, 127, 0)) := by
  decide +kernel

/-- R183: a body OK is followed by its commit field. -/
theorem test_setupBodyEnd :
    look (exec (.setupBodyEnd .ok) (up |> storing .body |> flying (req .setup .setupBody 126 3)))
      (fun t => (t.store.phase, t.store.nextPage, t.array.op.map (·.kind))) = some (.field, 4, some .setupField) := by
  decide +kernel

/-- R183: a commit field OK puts the copy in force and ends the operation OK. -/
theorem test_setupFieldEnd :
    look (exec (.setupFieldEnd .ok) (up |> storing .field |> flying { req .setup .setupField 126 3 with generation := 1 }))
      (fun t => (t.store.location, t.setup.source, t.setup.generation, t.ctrl.opOutcome))
      = some (some (.a, 3), .stored, 1, .ok) := by decide +kernel

/-- R114: a page of another sector than a restarted seek asks for is read for nothing. -/
theorem test_seekReadEnd_mismatch :
    look (exec .seekReadEnd { (up |> flying (req .cursorSeek .read 5 1)) with
        cursor := { up.cursor with seek := some { stamp := 9, position := some (6, 1), outstanding := true } }
        dir := up.dir.update 6 fun x => { x with state := .opened, epoch := 1, pagesUsed := 1, firstSeq := 1, lastSeq := 1, lastStamp := 9 }
        commit := { up.commit with newestSeq := 1 } })
      (fun t => (t.cursor.seek, t.array.op.map (·.sector))) = some (some ⟨9, some (6, 1), true⟩, some 6) := by decide +kernel

/-- R109: the page fetched is HELD with its 512 bytes. -/
theorem test_cursorReadEnd :
    look (exec .cursorReadEnd (up |> flying (req .cursorFetch .read 5 1)))
      (fun t => match t.cursor.buffer with | .held j p b => some (j, p, b.length) | _ => none) = some (some (5, 1, 512)) := by
  decide +kernel

/-- R113: after the last page in use of the last ring sector the seek ends one above the newest seq. -/
theorem test_seekReadEnd :
    look (exec .seekReadEnd { (up |> flying (req .cursorSeek .read 5 1)) with
        cursor := { up.cursor with seek := some { stamp := 9, position := some (5, 1), outstanding := true } }
        dir := up.dir.update 5 fun x => { x with state := .opened, epoch := 1, pagesUsed := 1, firstSeq := 1, lastSeq := 1 }
        commit := { up.commit with newestSeq := 1 } })
      (fun t => (t.cursor.target, t.cursor.seek)) = some (2, none) := by decide +kernel

/-- R158: the setup pages are read in order. -/
theorem test_recoveryReadEnd :
    look (exec .recoveryReadEnd { (inState .recovering up |> flying (req .recovery .read 126 15)) with
        recov := { RecoveryUnit.reset with phase := .loading, scan := some (126, 15) } })
      (fun t => (t.recov.scan, t.array.op.map fun r => (r.sector, r.page))) = some (some (127, 0), some (127, 0)) := by
  decide +kernel

/-- R77: a body program that ends while the path is HALTED is recorded, and nothing follows. -/
theorem test_halted :
    look (exec (.bodyProgramEnd .ok) (inState .failed (up |> committing .halted |> flying (req .commit .bodyProgram 0 1))))
      (fun t => (t.dir[0].pagesUsed, t.commit.phase, t.array.op)) = some (1, .halted, none) := by decide +kernel

/-- R116: with nothing committed the token is END. -/
theorem test_tokenChoice :
    look (exec .tokenChoice (atStream up)) (fun t => t.cursor.store) = some (.transfer .endOfJournal) := by decide +kernel

/-- R117: a RECORD sent moves the target past it. -/
theorem test_tokenEnd :
    look (exec .tokenEnd { (atStream up) with cursor := { up.cursor with store := .transfer (.record 7 []) } })
      (fun t => (t.cursor.lastReturned, t.cursor.target, t.cursor.store)) = some (7, 8, .empty) := by decide +kernel

/-- R187, R189: SDO in each phase; the fill byte FFh follows the reply. -/
theorem test_sdo :
    up.sdo = none ∧ (atCmd { up with port := { up.port with status := 0x12 } }).sdo = some 0x12
      ∧ (atArgs 0x30 [2] up).sdo = some 0xFF
      ∧ look (exec (.unknownCommand 0x00) (atCmd up)) (fun t => t.sdo) = some (some 0x04)
      ∧ (match exec (.unknownCommand 0x00) (atCmd up) with
         | .next t => look (exec (.argumentByteReceived 0) t) (·.sdo)
         | _ => none) = some (some 0xFF)
      ∧ look (exec .tokenChoice (atStream up)) (fun t => t.sdo) = some (some 0xA2) := by decide +kernel

/-- R24: the pin is low until a setup is loaded, whatever the polarity; then it follows it. -/
theorem test_pacePin :
    ({ up |> withLine (fun u => { u with polarity := .activeHigh }) with setupLoaded := false }.pacePin 0,
      (inState .stopped up |> withLine fun u => { u with polarity := .activeHigh }).pacePin 0, up.pacePin 0) = (false, true, true) := by
  decide +kernel

/-- R172: in RECOVERING the status byte shows cursor ready 1. -/
theorem test_statusByte_recovering : ({ inState .recovering up with cursor := CursorEngine.reset }).statusByte = 0x02 := by decide +kernel

/-- R190: the status byte of RUNNING with nothing to read: state code 1, cursor ready (END). -/
theorem test_csNFall :
    look (exec .csNFall up) (fun t => (t.port.phase, t.port.status, t.pins.csN)) = some (.command, 0x12, false) := by
  decide +kernel

/-- R188: an unfinished command is discarded, and the last result is INCOMPLETE. -/
theorem test_csNRise :
    look (exec .csNRise (atArgs 0x30 [2] up)) (fun t => (t.port.phase, t.port.lastResult, t.pins.csN))
      = some (.idle, .incomplete, true) := by decide +kernel

/-- R188, R202: UNKNOWN is 04h. -/
theorem test_unknownCommand :
    look (exec (.unknownCommand 0x00) (atCmd up)) (fun t => (t.port.phase, t.port.reply)) = some (.reply, [0x04]) := by
  decide +kernel

/-- R188: the first byte of a command with arguments; a byte while CS_N is high is ignored. -/
theorem test_argumentByteReceived :
    look (exec (.argumentByteReceived 0x30) (atCmd up)) (fun t => (t.port.phase, t.port.command)) = some (.arguments, 0x30)
      ∧ look (exec (.argumentByteReceived 0x30) up) (fun t => t.port.phase) = some .idle := by decide +kernel

/-- R192: result OK, status byte, and the last result NO_RESULT (08h) left as it was. -/
theorem test_readStatus :
    look (exec .readStatus (atCmd up)) (fun t => (t.port.reply, t.port.lastResult)) = some ([0x00, 0x12, 0x08], .noResult) := by
  decide +kernel

/-- R192, R202: the identity fields. -/
theorem test_readIdentity :
    look (exec .readIdentity (atCmd up)) (fun t => t.port.reply)
      = some [0x00, 0x48, 0x04, 0x10, 0x01, 0x01, 0x7E, 0x0F, 0x02, 0x00] := by decide +kernel

/-- R193: 33 data bytes; 126 FREE sectors stand at offset 22. -/
theorem test_readJournalSummary :
    look (exec .readJournalSummary (atCmd up)) (fun t => (t.port.reply.length, t.port.reply.getD 1 0, t.port.reply.getD 23 0))
      = some (34, 0x10, 126) := by decide +kernel

/-- R23: a line after reset, in RUNNING; line 4 does not exist. -/
theorem test_readLineState :
    look (exec (.readLineState 0) (atArgs 0x04 [] up)) (fun t => t.port.reply) = some [0, 0, 0, 0, 0, 0, 0]
      ∧ look (exec (.readLineState 4) (atArgs 0x04 [] up)) (fun t => t.port.reply) = some [0x03] := by decide +kernel

/-- R103: sector 125 is the last. -/
theorem test_readDirectoryEntry :
    look (exec (.readDirectoryEntry 125) (atArgs 0x05 [] up)) (fun t => (t.port.reply.length, t.port.reply.getD 1 0)) = some (32, 0x01)
      ∧ look (exec (.readDirectoryEntry 126) (atArgs 0x05 [] up)) (fun t => t.port.reply) = some [0x03] := by decide +kernel

/-- R201: the default block of line 0 with the enable set, written out, enables it (R19, R20). -/
theorem test_writeLineSetup :
    look (exec (.writeLineSetup 0) (atArgs 0x10 [0, 1, 0, 104, 0, 0, 4, 0x0D, 0x0A, 16, 240, 0, 0x01, 0x80, 0, 0x80] up))
      (fun t => (t.port.reply, t.lines[0].receiver, t.setup.fields.line[0] == { LineSetup.default with enable := true }))
      = some ([0x00], .unsettled, true) := by decide +kernel

/-- R28, R179: k changes in STOPPED alone. -/
theorem test_writeJournalSetup :
    look (exec (.writeJournalSetup 0) (atArgs 0x11 [0, 0, 0, 0, 0, 0, 3, 0, 0, 0, 1] up)) (fun t => t.port.reply) = some [0x02]
      ∧ look (exec (.writeJournalSetup 0) (atArgs 0x11 [0, 0, 0, 0, 0, 0, 3, 0, 0, 0, 1] (inState .stopped up)))
          (fun t => (t.port.reply, t.setup.fields.journal.k, t.time.retimePending)) = some ([0x00], 3, true) := by decide +kernel

/-- R182: with nothing stored and sector A used up after reset, sector B is erased. -/
theorem test_storeSetup :
    look (exec .storeSetup (atCmd up)) (fun t => (t.ctrl.opKind, t.array.erase.map (·.sector))) = some (.storeSetup, some 127) := by
  decide +kernel

/-- R128: Run ends a stop. -/
theorem test_run :
    look (exec .run (atCmd (inState .stopped up))) (fun t => (t.ctrl.state, t.flagSet .state)) = some (.running, true) := by
  decide +kernel

/-- R127: STOPPED with nothing staged, STOPPING with records staged. -/
theorem test_stop :
    look (exec .stop (atCmd up)) (fun t => t.ctrl.state) = some .stopped
      ∧ look (exec .stop (atCmd (filled up))) (fun t => (t.ctrl.state, t.adm.bufP.role)) = some (.stopping, .committing) := by
  decide +kernel

/-- R129: Flush closes a buffer that holds records. -/
theorem test_flush :
    look (exec .flush (atCmd (filled up))) (fun t => (t.adm.bufP.role, t.adm.bufQ.role)) = some (.committing, .filling) := by
  decide +kernel

/-- R42: the note takes the counter as its stamp; a length of 0 is refused. -/
theorem test_appendNote :
    look (exec (.appendNote 0x55) (atArgs 0x23 [1] up)) (fun t => t.adm.note) = some (some { payload := [0x55], stamp := 0 })
      ∧ look (exec (.appendNote 0) (atArgs 0x23 [] up)) (fun t => t.port.reply) = some [0x03] := by decide +kernel

/-- R91: FIXED 256. -/
theorem test_setRetainFloor :
    look (exec (.setRetainFloor 0) (atArgs 0x24 [1, 0, 0, 1] up))
      (fun t => (t.setup.fields.journal.floorMode, t.setup.fields.journal.fixedFloor)) = some (.fixed, 256) := by decide +kernel

/-- R111, R112: BY_SEQ below the resume point gives the resume point; kind 4 is undefined. -/
theorem test_seek :
    look (exec (.seek 0) (atArgs 0x30 [2, 0, 0, 0] up)) (fun t => t.cursor.target) = some 1
      ∧ look (exec (.seek 4) (atArgs 0x30 [] up)) (fun t => t.port.reply) = some [0x03] := by decide +kernel

/-- R189: Read Records enters STREAM. -/
theorem test_readRecords :
    look (exec .readRecords (atCmd up)) (fun t => (t.port.phase, t.port.reply)) = some (.stream, [0x00]) := by decide +kernel

/-- R195: flags, then enables, most significant byte first. -/
theorem test_readEvents :
    look (exec .readEvents (atCmd { up with events := { flags := 0x401, enables := 0x010 } })) (fun t => t.port.reply)
      = some [0x00, 0x04, 0x01, 0x00, 0x10] := by decide +kernel

/-- R195: only the masked flag is cleared. -/
theorem test_clearEvents :
    look (exec (.clearEvents ⟨0x01, 0⟩) (atArgs 0x41 [0x00] { up with events := { flags := 0x401, enables := 0x010 } }))
      (fun t => t.events) = some { flags := 0x400, enables := 0x010 } := by decide +kernel

/-- R195: recovery's end and Clear Events come together; taken first, the raise of RECOVERY_DONE (bit 7) outlives the clear. -/
theorem test_clearEvents_together :
    look (exec (.clearEvents ⟨0xFF, 0x080⟩) (atArgs 0x41 [0x07] { up with events := { flags := 0x481, enables := 0 } }))
      (fun t => t.events.flags) = some 0x080 := by decide +kernel

/-- R195, R203: the enables are replaced, the reserved bits ignored. -/
theorem test_writeEventEnables :
    look (exec (.writeEventEnables 0x01) (atArgs 0x42 [0xFC] { up with events := { flags := 0x401, enables := 0x010 } }))
      (fun t => t.events) = some { flags := 0x401, enables := 0x401 } := by decide +kernel

/-- R136: Format in STOPPED erases sector 0 first; in RUNNING it is refused with STATE. -/
theorem test_format :
    look (exec .format (atCmd (inState .stopped up))) (fun t => (t.ctrl.state, t.array.erase.map (·.sector), t.dir[0].state))
        = some (.formatting, some 0, .erasing)
      ∧ look (exec .format (atCmd up)) (fun t => t.port.reply) = some [0x02] := by decide +kernel

/-- R154: the reset is only marked at the taking. -/
theorem test_resetDevice :
    look (exec .resetDevice (atCmd up)) (fun t => (t.ctrl.hostResetPending, t.ctrl.state)) = some (true, .running) := by
  decide +kernel

/-- R144, R148: with nothing staged the SHUTDOWN record goes at once to the commit path: kind 4, eight payload bytes. -/
theorem test_pfwNFall :
    look (exec .pfwNFall up) (fun t => (t.ctrl.state, t.ctrl.saved, t.adm.bufP.data.take 4, t.adm.bufP.role))
      = some (.draining, some .running, [0x40, 0, 0, 8], .committing) := by decide +kernel

/-- R142, R151: the return to RUNNING places a RESUME START, clean when the SHUTDOWN was committed. -/
theorem test_pfwNRise :
    look (exec .pfwNRise { (inState .drained up).setPfwN false with
        ctrl := { (inState .drained up).ctrl with saved := some .running, shutdownOutcome := .committed } })
      (fun t => (t.ctrl.state, match t.adm.sys with | some (.start c _) => some (c.cause, c.clean) | _ => none))
      = some (.running, some (.resume, true)) := by decide +kernel

/-- R153: a power-on reset takes every block to its reset values. -/
theorem test_powerOnReset :
    look (exec .powerOnReset { filled up with powered := false })
      (fun t => (t.powered, t.inReset, t.ctrl.state, t.ctrl.resetCause, t.adm.bufP.count, t.adm.nextSeq))
      = some (true, true, .recovering, .powerOn, 0, 1) := by decide +kernel

/-- R155: the cause is RESET_PIN, and the array's contents stay. -/
theorem test_resetNFall :
    look (exec .resetNFall { up with array := { up.array with mem := [(7, 0x00)] } })
      (fun t => (t.ctrl.resetCause, t.array.mem, t.inReset)) = some (.resetPin, [(7, 0x00)], true) := by decide +kernel

/-- R144, R158: recovery begins with page 0 of sector 126; with PFW_N low the journal is DRAINED (R173). -/
theorem test_resetEnd :
    look (exec .resetEnd State.reset) (fun t => (t.inReset, t.ctrl.state, t.array.op.map fun r => (r.sector, r.page)))
        = some (false, .recovering, some (126, 0))
      ∧ look (exec .resetEnd (State.reset.setPfwN false)) (fun t => (t.ctrl.state, t.ctrl.saved, t.dir[0].state))
        = some (.drained, some .recovering, .dirty) := by decide +kernel

/-- R64: the program in flight is gone, and the part has no supply; what comes then is a fault of the model. -/
theorem test_powerLoss :
    look (exec .powerLoss (up |> flying (req .commit .headProgram 0 0))) (fun t => (t.powered, t.array.op)) = some (false, none)
      ∧ (match exec .stampTick { up with powered := false } with | .fault .unpowered => true | _ => false) = true := by
  decide +kernel

/-- With no program in flight the end of one changes nothing. -/
theorem test_absentHappening : look (exec (.headProgramEnd .ok) up) id = some up := by decide +kernel

/-- R188: a byte is what it is, whichever row names it: 01h as a command byte is Read Status. -/
theorem test_oneByte : 
    look (exec (.readLineState 0x01) (atCmd up)) id = look (exec .readStatus (atCmd up)) id := by decide +kernel

/-- With no token in the transmit store the end of one only clears what was still to be sent. -/
theorem test_tokenEnd_gone :
    look (exec .tokenEnd { (atStream up) with port := { (atStream up).port with reply := [1, 2] } }) id = some (atStream up) := by
  decide +kernel

/-- R131: the space-blocked report in RUNNING, STOPPED and FORMATTING. -/
theorem test_spaceBlocked :
    [JState.running, .stopped, .formatting].map (fun j => (fun t : State =>
        (t.ctrl.state, t.ctrl.spaceWait, t.ctrl.stopRequested, t.flagSet .opDone)) (inState j up).spaceBlocked)
      = [(.full, true, false, false), (.full, true, true, false), (.full, true, true, true)] := by decide +kernel

/-- R133: exhausted numbers in RUNNING, STOPPING and FAILED. -/
theorem test_reportExhausted :
    [JState.running, .stopping, .failed].map (fun j => (fun t : State =>
        (t.ctrl.state, t.ctrl.stopRequested, t.flagSet .state)) (inState j up).reportExhausted)
      = [(.full, false, true), (.full, true, true), (.failed, false, false)] := by decide +kernel

/-- R82: ERASED, UNCOMMITTED, and TORN without the mark. -/
theorem test_pageClass :
    [endsIn [], List.replicate 504 0 ++ List.replicate 8 0xFF, endsIn [0]].map pageClass
      = [.erased, .uncommitted, .torn false] := by decide +kernel

/-- R160: RETIRED, BLANK and DAMAGED heads. -/
theorem test_headClass :
    [endsIn (List.replicate 16 0), endsIn [], endsIn [0]].map headClass = [.retired, .blank, .damaged] := by decide +kernel

/-- A step takes the front of the queue and leaves the rest. -/
theorem test_step :
    look (step { up with pending := [.stampTick, .admission] }) (fun t => (t.time.counter, t.pending)) = some (1, [.admission]) := by
  decide +kernel

/-! ### Witnesses: states and operands that meet the hypotheses of the statements, clause by clause -/

theorem witness_EndOfHappeningFrame : ¬ up.choosing := fun h => by cases h.1

/-- An open transaction whose store has a token in transfer. -/
def sending (k : Token) : State := { atStream up with cursor := { up.cursor with store := .transfer k } }

theorem witness_Transactions :
    (up.powered = true ∧ up.inReset = false ∧ up.pins.csN = true)
    ∧ (∀ k, (sending k).powered = true ∧ (sending k).inReset = false ∧ (sending k).pins.csN = false
        ∧ (sending k).ctrl.resetAtRise = false ∧ (sending k).ctrl.hostResetPending = false ∧ (sending k).port.phase = .stream
        ∧ (sending k).cursor.store = .transfer k ∧ (sending k).cursor.target = 1)
    ∧ ((atArgs 0x30 [2] up).pins.csN = false ∧ (atArgs 0x30 [2] up).port.phase ≠ .stream)
    ∧ (∀ t, (atStream up).cursor.store ≠ .transfer t)
    ∧ (State.reset.pins.csN = true ∧ State.reset.inReset = true) ∧ { atCmd up with powered := false }.pins.csN = false :=
  ⟨by decide +kernel, fun _ => ⟨rfl, rfl, rfl, rfl, rfl, rfl, rfl, rfl⟩, by decide +kernel, (fun _ h => by cases h), by decide +kernel⟩

theorem witness_StatusAndOutputs (s : List Byte) :
    up.port.phase = .idle ∧ (atCmd up).port.phase = .command ∧ (atArgs 0x30 [2] up).port.phase = .arguments
    ∧ { atStream up with port := { (atStream up).port with reply := s } }.port.reply = s ∧ (atStream up).port.phase = .stream
    ∧ up.powered = true ∧ up.inReset = false ∧ up.setupLoaded = true ∧ State.reset.setupLoaded = false :=
  ⟨rfl, rfl, rfl, rfl, rfl, rfl, rfl, rfl, rfl⟩

theorem witness_TransactionBytes :
    (atCmd up).atCommand ∧ commandOf 0x30 = some .seek ∧ owed .seek [] ≠ 0
    ∧ (atArgs 0x30 [2, 0, 0] up).atArguments 0x30 [2, 0, 0] ∧ owed .seek [2, 0, 0, 0] ≠ 0
    ∧ commandOf 0x00 = none ∧ commandOf 0xFF = none
    ∧ up.powered = true ∧ up.port.phase = .idle ∧ (atStream up).port.phase = .stream
    ∧ arrivingByte .readStatus = some (0x01, 0) ∧ arrivingByte (.seek 0x01) = some (0x01, 0)
    ∧ arrivingByte (.clearEvents ⟨1, 0⟩) = some (1, 0) := by
  unfold State.atCommand State.atArguments; decide +kernel

theorem witness_NotReadyWhileRecovering :
    hostCommand .run = some (.run, 0x20, .command) ∧ (atCmd (inState .recovering up)).powered = true
    ∧ (atCmd (inState .recovering up)).ctrl.state = .recovering
    ∧ (atCmd (inState .recovering up)).port.complete .run 0x20 .command = some []
    ∧ hostCommand (.clearEvents ⟨1, 0⟩) = some (.clearEvents, 0x41, .argument 1)
    ∧ (atArgs 0x41 [0] (inState .recovering up)).port.complete .clearEvents 0x41 (.argument 1) = some [0, 1] := by decide +kernel

/-- A command without arguments in any journal state: what Read Status, Read Identity, Read Journal Summary, Read Events, Store
Setup, Run, Stop, Flush, Read Records, Format and Reset Device ask for. -/
theorem witness_atCommand (j : JState) : (atCmd (inState j up)).atCommand ∧ (atCmd (inState j up)).ctrl.state = j := ⟨⟨rfl, rfl⟩, rfl⟩

/-- Directories without a readable record, and with one in sector 5. -/
theorem witness_ReadJournalSummaryReply :
    (∀ j ∈ up.dir.ring, up.dir[j].firstSeq = 0)
    ∧ (up.dir.update 5 fun x => { x with state := .opened, epoch := 1, firstSeq := 1 }).ring = [] ++ (5 : JSector) :: []
    ∧ (up.dir.update 5 fun x => { x with state := .opened, epoch := 1, firstSeq := 1 })[(5 : JSector)].firstSeq ≠ 0 := by
  decide +kernel

theorem witness_ReadLineStateReply :
    (atArgs 0x04 [] up).atArguments 0x04 [] ∧ (atArgs 0x04 [] up).ctrl.state ≠ .recovering ∧ (atArgs 0x04 [] up).linesBounded
    ∧ 4 ≤ (4 : Byte).toNat ∧ (3 : Byte).toNat = (3 : LineIx).val := by
  unfold State.atArguments State.linesBounded LinePort.bounded; decide +kernel

theorem witness_ReadDirectoryEntryReply (j : JState) :
    (atArgs 0x05 [] (inState j up)).atArguments 0x05 [] ∧ (atArgs 0x05 [] (inState j up)).ctrl.state = j
    ∧ 126 ≤ (126 : Byte).toNat ∧ (125 : Byte).toNat = (125 : JSector).val := ⟨⟨rfl, rfl, rfl, rfl⟩, rfl, by decide, by decide⟩

theorem witness_EventCommands (a : Byte) : (atArgs 0x41 [a] up).atArguments 0x41 [a] ∧ (atArgs 0x42 [a] up).atArguments 0x42 [a] :=
  ⟨⟨rfl, rfl, rfl, rfl⟩, rfl, rfl, rfl, rfl⟩

theorem witness_AppendNoteRule :
    ((atArgs 0x23 [1] (inState .stopped up)).atArguments 0x23 [1] ∧ owed .appendNote [1] = 1 ∧ owed .appendNote [1, 7] = 0)
    ∧ ((atArgs 0x23 [] up).atArguments 0x23 [] ∧ up.ctrl.state = .running ∧ (0 : Byte).toNat = 0 ∧ 240 < (241 : Byte).toNat)
    ∧ (atArgs 0x23 [1] up).atArguments 0x23 [1] ∧ ([] : List Byte).length + 1 = (1 : Byte).toNat
    ∧ (240 : Byte).toNat ≤ 240 ∧ (List.replicate 239 (0 : Byte)).length + 1 = (240 : Byte).toNat := by
  unfold State.atArguments; decide +kernel

theorem witness_SetRetainFloorRule :
    (atArgs 0x24 [3, 0, 0, 1] up).atArguments 0x24 [3, 0, 0, 1] ∧ 2 < (3 : Byte).toNat
    ∧ (atArgs 0x24 [2, 0, 0, 1] up).atArguments 0x24 [2, 0, 0, 1] ∧ (2 : Byte).toNat = FloorMode.cursor.code := by
  unfold State.atArguments; decide +kernel

/-- Journal blocks at the ends of the ranges: k 7, flush age 60,000, threshold 65,535. -/
def lastBlock : List Byte := [1, 2, 0xFF, 0xFF, 0xFF, 0xFF, 7, 0xEA, 0x60, 0xFF, 0xFF]

theorem witness_WriteJournalSetupRule :
    ((atArgs 0x11 lastBlock up).atArguments 0x11 lastBlock ∧ lastBlock.length = 11 ∧ journalOfBlock (lastBlock ++ [2]) = none)
    ∧ journalOfBlock (lastBlock ++ [1]) = some ⟨.halt, .cursor, 0xFFFFFFFF, 7, 60000, 65535, true⟩
    ∧ (7 ≠ up.setup.fields.journal.k ∧ up.ctrl.state ≠ .stopped) ∧ (inState .stopped up).ctrl.state = .stopped
    ∧ journalOfBlock [0, 0, 0, 0, 0, 0, 0, 0, 0, 0, 1, 0] = some JournalSetup.default := by
  unfold State.atArguments; decide +kernel

/-- A buffer holding records, its clock as given, and a flush age of 9 ms in force with k = 0: the age of 2 ms is certainly
reached at 2001 microseconds and certainly not at 1999. -/
def aged (clock reached : Nat) : State :=
  { filled up with adm := { (filled up).adm with bufP := { oneRecord with clock := clock, reachedAge := reached } } }
    |> withJournal fun j => { j with flushAge := 9 }

theorem witness_FlushAgePassed :
    { up.adm with bufP := Buffer.empty .closed, bufQ := Buffer.empty .committing }.filling = none
    ∧ up.adm.filling = some .p ∧ (up.adm.buf .p).count = 0
    ∧ (aged 2001 0).adm.filling = some .p ∧ 2 ≠ (aged 2001 0).setup.fields.journal.flushAge ∧ ((aged 2001 0).adm.buf .p).count ≠ 0
    ∧ 2 * 1000 + 2 ^ (aged 2001 0).setup.fields.journal.k ≤ ((aged 2001 0).adm.buf .p).clock
    ∧ 2 ≤ ((aged 0 2).adm.buf .p).reachedAge
    ∧ ((aged 1999 1).adm.buf .p).reachedAge < 2
    ∧ ((aged 1999 1).adm.buf .p).clock + 2 ^ (aged 1999 1).setup.fields.journal.k ≤ 2 * 1000 := by decide +kernel

/-- A line block at the ends of the ranges, its polarity still to come. -/
def lastLine : List Byte := [1, 0x0F, 0xFF, 2, 2, 255, 0, 0xFF, 240, 240, 1, 0x01, 0xFF, 0x01, 0xFE]

theorem witness_WriteLineSetupRule :
    ((atArgs 0x10 (3 :: lastLine) up).atArguments 0x10 (3 :: lastLine) ∧ lastLine.length = 15)
    ∧ (4 ≤ (4 : Byte).toNat ∧ lineOfBlock (lastLine ++ [2]) = none)
    ∧ lineOfBlock (lastLine ++ [1])
        = some ⟨true, 4095, .odd, .count, 255, 0, 0xFF, 240, 240, .cut, 511, 510, .activeHigh⟩
    ∧ (3 : Byte).toNat = (3 : LineIx).val ∧ up.lines[(3 : LineIx)].receiver = .off
    ∧ (up |> onLine fun p => { p with receiver := .ready }).lines[(0 : LineIx)].receiver ≠ .off := by
  unfold State.atArguments; decide +kernel

theorem witness_StoreSetupRule :
    (storing .body up).ctrl.opKind ≠ .noOp ∧ (inState .draining up).ctrl.opKind = .noOp ∧ (inState .draining up).ctrl.state = .draining
    ∧ up.ctrl.opKind = .noOp ∧ up.ctrl.state ≠ .draining ∧ up.ctrl.state ≠ .drained
    ∧ ¬ Config.max32 ≤ up.store.issued ∧ up.storeOutstanding = false ∧ ¬ up.store.nextPage ≤ 15
    ∧ (up |> flying (req .setup .setupBody 126 3)).storeOutstanding = true := by decide +kernel

theorem witness_RunRule : (inState .stopped up).ctrl.state ≠ .running := by decide

theorem witness_SeekRule :
    (atArgs 0x30 [] up).atArguments 0x30 [] ∧ 3 < (4 : Byte).toNat ∧ up.ctrl.state ≠ .recovering
    ∧ (atArgs 0x30 [2, 0, 0, 0] up).atArguments 0x30 [2, 0, 0, 0]
    ∧ (atArgs 0x30 [3, 0, 0, 0, 0, 0] up).atArguments 0x30 [3, 0, 0, 0, 0, 0]
    ∧ (up |> flying (req .cursorFetch .read 5 1)).array.op = some (req .cursorFetch .read 5 1) := by
  unfold State.atArguments; decide +kernel

theorem witness_ResetDeviceRule (a p : Bool) :
    ((atCmd up).withCtrl fun c => { c with resetAtRise := a, hostResetPending := p }).powered = true
    ∧ ((atCmd up).withCtrl fun c => { c with resetAtRise := a, hostResetPending := p }).inReset = false
    ∧ ((atCmd up).withCtrl fun c => { c with resetAtRise := a, hostResetPending := p }).pins.csN = false
    ∧ ((atCmd up).withCtrl fun c => { c with resetAtRise := a, hostResetPending := p }).ctrl.resetAtRise = a
    ∧ ((atCmd up).withCtrl fun c => { c with resetAtRise := a, hostResetPending := p }).ctrl.hostResetPending = p :=
  ⟨rfl, rfl, rfl, rfl, rfl⟩

theorem witness_CharacterAtStopBit (r : Receiver) (n : Option Nat) (f : FramerState) :
    up.powered = true ∧ (up |> onLine fun p => { p with receiver := r, idle := n, framer := f }).lines[(0 : LineIx)].receiver = r
    ∧ (up |> onLine fun p => { p with receiver := r, idle := n, framer := f }).lines[(0 : LineIx)].idle = n
    ∧ (up |> onLine fun p => { p with receiver := r, idle := n, framer := f }).lines[(0 : LineIx)].framer = f := ⟨rfl, rfl, rfl, rfl⟩

/-- A note that waits. -/
def oneNote : State := { up with adm := { up.adm with note := some { payload := [1], stamp := 5 } } }

/-- Descriptors of empty pieces. -/
def queued (n : Nat) : List Descriptor := List.replicate n { line := 0, length := 0, flags := RecFlags.empty, close := 0, span := 0 }

/-- A descriptor at the head of a queue, and a waiting note: what bounds the system stamp. -/
theorem witness_SystemStampLeast :
    ((up |> onLine fun p => { p with queue := queued 7 }).lines[(0 : LineIx)].queue.head?.map (·.close)) = some 0
    ∧ oneNote.adm.note = some { payload := [1], stamp := 5 } := by decide +kernel

theorem witness_ClosingPiece :
    up.lines[(0 : LineIx)].piece.overrun = false ∧ (queued 7).length < 8 ∧ 8 ≤ (queued 8).length
    ∧ (up |> onLine fun p => { p with queue := queued 7 }).lines[(0 : LineIx)].queue.length = 7
    ∧ (up |> onLine fun p => { p with queue := queued 8 }).lines[(0 : LineIx)].queue.length = 8 := by decide +kernel

theorem witness_FlushAndClosing :
    (filled up).powered = true ∧ (filled up).adm.filling = some .p ∧ ((filled up).adm.buf .p).count ≠ 0
    ∧ (filled up |> withJournal fun j => { j with flushAge := 1 }).setup.fields.journal.flushAge = 1
    ∧ ((filled up).adm.buf .p).reachedAge < 1 ∧ (up.adm.buf .p).count = 0
    ∧ { up.adm with bufP := Buffer.empty .closed, bufQ := Buffer.empty .committing }.filling = none := by decide +kernel

/-- A note and a system record of one stamp. -/
def twoCandidates : State :=
  { up with adm := { up.adm with note := some { payload := [1], stamp := 5 }, sys := some (.shutdown 5) } }

theorem witness_AdmissionRule :
    (up.adm.reportOwed = false ∧ { up.adm with reportOwed := true }.reportOwed = true)
    ∧ up.powered = true ∧ up.admissible = [] ∧ twoCandidates.adm.filling = some .p
    ∧ twoCandidates.admissible = [] ++ .sys (.shutdown 5) :: [.note { payload := [1], stamp := 5 }]
    ∧ ∀ x ∈ [Candidate.note { payload := [1], stamp := 5 }], (Candidate.sys (.shutdown 5)).stamp ≤ x.stamp := by decide +kernel

theorem witness_AdmittedRecord :
    (twoCandidates.draft (.note { payload := [1], stamp := 0xFFFFFFFFFFFF })).payload.length < 256
    ∧ { twoCandidates.adm with nextSeq := 0xFFFFFFFF }.nextSeq < 2 ^ 32
    ∧ (Candidate.note { payload := [1], stamp := 0xFFFFFFFFFFFF }).stamp < 2 ^ 48
    ∧ (twoCandidates.draft (.line 0 { line := 0, length := 0, flags := RecFlags.empty, close := 5, span := 0 })).payload.length < 256
    ∧ (twoCandidates.draft (.sys (.shutdown 5))).payload.length < 256 := by decide +kernel

theorem witness_ArrayEffects :
    (readPage up.array.mem 127 15).length = 512 ∧ (req .commit .headProgram 127 15).addr = 127 * 0x2000 + 15 * 0x200 := by
  decide +kernel

/-- A read just made while a reclaim's erase runs. -/
def suspends : State := (up |> erasing .reclaim .running 5).request (req .cursorFetch .read 6 1)

theorem witness_ArbiterRules :
    (suspends.array.erase = some ⟨5, .reclaim, .running, 0, true⟩ ∧ suspends.array.free = false
      ∧ ∃ r ∈ suspends.array.made, r.requester.cls ≤ 2)
    ∧ (suspends.array.free = false ∧ up.array.free = true ∧ (up |> erasing .reclaim .suspended 5).array.free = true)
    ∧ (up.request (req .commit .headProgram 0 0)).ctrl.format ≠ .choosing ∧ (req .commit .headProgram 0 0).requester.isCursor = false
    ∧ req .commit .headProgram 0 0 ∈ (up.request (req .commit .headProgram 0 0)).array.made := by
  decide +kernel

/-- The three outcomes of the arbiter: nothing to grant in DRAINED, a resume, and a grant (R59, R63). -/
theorem witness_ArbiterGrants :
    ((inState .drained up).arbitrate false).array.op = none
    ∧ ((up |> erasing .reclaim .suspended 5).arbitrate false).array.erase = some ⟨5, .reclaim, .running, 0, true⟩
    ∧ ((up.request (req .setup .setupBody 126 0)).arbitrate false).array.op = some (req .setup .setupBody 126 0)
    ∧ ((up.request (req .reclaim .erase 5 0)).arbitrate false).array.erase = some ⟨5, .reclaim, .running, 0, true⟩
    ∧ (State.arbitrate true { (up |> erasing .reclaim .suspended 5) with array :=
        { (up |> erasing .reclaim .suspended 5).array with waiting := [req .setup .setupBody 126 0, req .commit .headProgram 0 0] } }).array.op
        = some (req .commit .headProgram 0 0) := by decide +kernel

/-- The part with the first `n` sectors FREE and the rest RETIRED. -/
def usableOnly (n : Nat) (s : State) : State :=
  { s with dir := Vector.ofFn fun j => Entry.blank (if j.val < n then .free else .retired) }

theorem witness_SeekingTarget :
    ((committing .body up).commit.target = some 0 ∧ (committing .body up).commit.nextPage ≤ 15
      ∧ (committing .body up).commit.holding = some .p)
    ∧ ({ (committing .body up).commit with nextPage := 15 }.nextPage ≤ 15 ∧ 15 < { (committing .body up).commit with nextPage := 16 }.nextPage)
    ∧ (up.commit.target = none ∧ up.dir.poolFirst = some 0 ∧ up.commit.lastEpoch < 0xFFFFFFFF
      ∧ { up.commit with lastEpoch := 0xFFFFFFFE }.lastEpoch < 0xFFFFFFFF)
    ∧ (usableOnly 0 up).dir.poolFirst = none ∧ (usableOnly 0 up).commit.target = none := by decide +kernel

/-- R131: with nothing FREE a path reports space blocked in RUNNING, and not in FAILED; in DRAINING it loses the buffer (R79). -/
theorem test_block :
    [JState.running, .failed, .draining].map (fun j => (fun t : State => (t.ctrl.state, t.ctrl.spaceWait, t.commit.phase, t.commit.drainLoss))
        (inState j (usableOnly 0 up)).seekTarget)
      = [(.full, true, .blocked, false), (.failed, false, .blocked, false), (.draining, false, .idle, true)] := by decide +kernel

theorem witness_CommitPrograms (ph : CommitPhase) (k : OpKind) (p : PageIx) :
    (committing ph up |> flying (req .commit k 0 p)).powered = true
    ∧ (committing ph up |> flying (req .commit k 0 p)).array.op = some (req .commit k 0 p)
    ∧ (req .commit k 0 p).requester = .commit ∧ (req .commit k 0 p).kind = k ∧ (req .commit k 0 p).wanted = true
    ∧ (req .commit k 0 p).sector = sectorOf 0 ∧ (committing ph up |> flying (req .commit k 0 p)).commit.phase = ph
    ∧ (committing ph up |> flying (req .commit k 0 p)).commit.holding = some .p
    ∧ { req .commit k 0 p with wanted := false }.wanted = false ∧ up.commit.holding = none :=
  ⟨rfl, rfl, rfl, rfl, rfl, rfl, rfl, rfl, rfl, rfl⟩

theorem witness_ReleasingBuffer (j : JState) :
    (committing .field up).commit.holding = some .p ∧ (inState j up).ctrl.state = j := ⟨rfl, rfl⟩

theorem witness_EraseSuspendedOrStopped (who : Requester) (c : EraseCond) :
    (up |> erasing who c (sectorOf 125)).array.erase = some ⟨sectorOf 125, who, c, 0, true⟩ ∧ up.powered = true := ⟨rfl, rfl⟩

/-- A running erase of sector 0 with an erase count, in a journal of `n` usable sectors. -/
def erased (n count : Nat) (who : Requester) : State :=
  { (usableOnly n up |> erasing who .running 0) with dir := (usableOnly n up).dir.update 0 fun x => { x with eraseCount := count } }

theorem witness_JournalEraseEnd :
    ((erased 5 99998 .reclaim).array.erase = some ⟨0, .reclaim, .running, 0, true⟩ ∧ (0 : Sector) = sectorOf 0
      ∧ (erased 5 99998 .reclaim).dir[(0 : JSector)].eraseCount + 1 < 100000
      ∧ (erased 5 99998 .reclaim).dir[(0 : JSector)].retireMark = false)
    ∧ 100000 ≤ (erased 5 99999 .format).dir[(0 : JSector)].eraseCount + 1
    ∧ 4 ≤ ((erased 5 99999 .format).dir.update 0 fun x => { x with state := .retired }).usable
    ∧ ((erased 4 99999 .reclaim).dir.update 0 fun x => { x with state := .retired }).usable < 4
    ∧ ((erased 4 99999 .reclaim).ctrl.state = .running ∧ (inState .drained (erased 5 1 .reclaim)).ctrl.state = .drained)
    ∧ (up |> flying (req .reclaim .retireMark 5 0)).array.op = some (req .reclaim .retireMark 5 0)
    ∧ (req .format .retireMark 5 0).sector = sectorOf 5 := by decide +kernel

theorem witness_UsableAndSpace :
    ((usableOnly 3 up).dir.usable < 4 ∧ ¬ (usableOnly 4 up).dir.usable < 4)
    ∧ { up.commit with phase := .blocked }.phase = .blocked ∧ up.dir.poolFirst = some 0
    ∧ up.commit.phase = .idle ∧ up.ctrl.spaceWait = false ∧ { up.ctrl with spaceWait := true }.spaceWait = true := by decide +kernel

theorem witness_FormatStarts :
    (storing .body up).ctrl.opKind ≠ .noOp ∧ (inState .running up).ctrl.state ∉ [JState.stopped, .full, .failed]
    ∧ (inState .stopped up).ctrl.state ∈ [JState.stopped, .full, .failed] ∧ (inState .stopped up).ctrl.opKind = .noOp
    ∧ (inState .stopped up).ctrl.state ≠ .formatting
    ∧ (up |> flying (req .commit .bodyProgram 0 1)).array.op = some (req .commit .bodyProgram 0 1) := by
  decide +kernel

/-- A Format about to choose, with a DIRTY sector of epoch 3 at index 7. -/
def choosingState (n : Nat) : State :=
  { (usableOnly n up).withCtrl fun c => { c with state := .formatting, format := .choosing } with
    dir := if n = 0 then (usableOnly 0 up).dir
           else (usableOnly n up).dir.update 7 fun x => { x with state := .dirty, epoch := 3 } }

/-- R58, R97: a Format that starts again waits for the retire-mark program of its own still in flight, and chooses at its end. -/
theorem test_retireMarkEnd_format :
    ((choosingState 126 |> flying (req .format .retireMark 0 0)).settle false).ctrl.format = .choosing
      ∧ look (exec (.retireMarkEnd .ok) (choosingState 126 |> flying (req .format .retireMark 0 0)))
        (fun t => (t.ctrl.format, t.array.erase.map (·.sector))) = some (.erasing 7, some 7) := by decide +kernel

/-- R58: it waits as well for one that is still waiting to be granted, which the arbiter grants here. -/
theorem test_settle_format_waits :
    (fun t : State => (t.ctrl.format, t.array.waiting, t.array.op.map (·.kind))) (State.settle true { choosingState 126 with
        array := { (choosingState 126).array with waiting := [req .format .retireMark 0 0] } })
      = (.choosing, [], some .retireMark) := by decide +kernel

/-- A Format that waits: for an erase, and for its own retire mark. -/
theorem witness_FormatWaits :
    (choosingState 126 |> erasing .reclaim .running 5).array.erase = some ⟨5, .reclaim, .running, 0, true⟩
    ∧ req .format .retireMark 0 0 ∈ (choosingState 126 |> flying (req .format .retireMark 0 0)).array.op.toList
    ∧ (choosingState 126).ctrl.format = .choosing ∧ (choosingState 126).ctrl.state = .formatting := by decide +kernel

theorem witness_FormatErases :
    (choosingState 126).choosing ∧ (choosingState 0).choosing
    ∧ ((7 : JSector) ∉ (choosingState 126).ctrl.formatDone ∧ (choosingState 126).dir[(7 : JSector)].state = .dirty
      ∧ (choosingState 126).dir[(7 : JSector)].epoch ≠ 0)
    ∧ (∀ i : JSector, (choosingState 0).dir[i].state ≠ .dirty ∧ (choosingState 0).dir[i].state ≠ .free) := by
  unfold State.choosing
  decide +kernel

theorem witness_SetupStoreRules (sec : Sector) (k : OpKind) :
    (storing .body up).store.copy = some (up.setup.fields, 1) ∧ up.powered = true
    ∧ (storing .erase up |> erasing .setup .running 127).array.erase = some ⟨127, .setup, .running, 0, true⟩
    ∧ (storing .body up |> flying (req .setup k sec 3)).array.op = some (req .setup k sec 3)
    ∧ (req .setup k sec 3).requester = .setup ∧ (req .setup k sec 3).kind = k := ⟨rfl, rfl, rfl, rfl, rfl, rfl⟩

/-- One committed record in sector 5, and the cursor at it. -/
def readable : State :=
  { up with
    dir := up.dir.update 5 fun x =>
      { x with state := .opened, epoch := 1, pagesUsed := 1, firstSeq := 1, lastSeq := 1, firstStamp := 5, lastStamp := 5 }
    commit := { up.commit with newestSeq := 1, lastEpoch := 1, target := some 5, nextPage := 2 } }

theorem witness_CursorFetches :
    (readable.cursor.target ≠ 0 ∧ readable.cursor.seek = none ∧ 1 ≤ readable.commit.newestSeq ∧ readable.returnable = []
      ∧ readable.cursor.buffer = .empty ∧ readable.array.op = none ∧ readable.ctrl.state ≠ .recovering)
    ∧ (readable.dir.ring.find? fun i => readable.dir[i].firstSeq != 0 && decide (1 ≤ readable.dir[i].lastSeq)).map
        (fun i => (i, (1 : PageIx))) = some (5, 1)
    ∧ (up.dir.ring.find? fun i => up.dir[i].firstSeq != 0 && decide (1 ≤ up.dir[i].lastSeq)) = none
    ∧ up.commit.newestSeq < up.cursor.target ∧ (inState .recovering readable).ctrl.state = .recovering := by decide +kernel

theorem witness_CursorReads :
    (readable |> flying (req .cursorFetch .read 5 1)).array.op = some (req .cursorFetch .read 5 1)
    ∧ (req .cursorSeek .read 5 1).sector = sectorOf 5 ∧ some ((6 : JSector), (1 : PageIx)) ≠ some (5, 1)
    ∧ { readable.cursor with seek := some ⟨5, some (5, 1), true⟩ }.seek = some ⟨5, some (5, 1), true⟩
    ∧ (∀ i ∈ [(4 : JSector)], readable.dir[i].firstSeq = 0 ∨ readable.dir[i].lastStamp < 5)
    ∧ [(4 : JSector), 5, 6] = [4] ++ 5 :: [6] ∧ readable.dir[(5 : JSector)].firstSeq ≠ 0
    ∧ 5 ≤ readable.dir[(5 : JSector)].lastStamp
    ∧ ∀ i ∈ [(5 : JSector)], readable.dir[i].firstSeq = 0 ∨ readable.dir[i].lastStamp < 6 := by decide +kernel

theorem witness_Tokens (k : Token) :
    up.powered = true ∧ (atStream up).port.phase = .stream ∧ (∀ x, (atStream up).cursor.store ≠ .transfer x)
    ∧ (sending k).port.phase = .stream ∧ (sending k).cursor.store = .transfer k :=
  ⟨rfl, rfl, (fun _ h => by cases h), rfl, rfl⟩

/-- One FREE sector, sector 1 as given, and the rest RETIRED. -/
def reclaimable (x : Entry) : State := { usableOnly 2 up with dir := (usableOnly 2 up).dir.update 1 fun _ => x }

theorem witness_ReclaimCandidates :
    ((reclaimable (Entry.blank .dirty)).dir[(1 : JSector)].state = .dirty
      ∧ ∀ i : JSector, (reclaimable (Entry.blank .dirty)).dir[i].state = .dirty → (1 : JSector).val ≤ i.val)
    ∧ ((∀ i : JSector, (reclaimable (Entry.blank .closed)).dir[i].state ≠ .dirty)
      ∧ (reclaimable (Entry.blank .closed)).dir[(1 : JSector)].firstSeq = 0
      ∧ ∀ i : JSector, (reclaimable (Entry.blank .closed)).dir[i].state = .closed → i = 1)
    ∧ (∀ i : JSector, (reclaimable { Entry.blank .closed with firstSeq := 1, lastSeq := 1 }).dir[i].state = .closed →
        (reclaimable { Entry.blank .closed with firstSeq := 1, lastSeq := 1 }).dir[i].firstSeq ≠ 0) := by decide +kernel

theorem witness_ReclaimStarts :
    up.reclaim.phase = .idle ∧ 2 ≤ up.dir.countOf .free ∧ (reclaimable (Entry.blank .dirty)).dir.countOf .free < 2
    ∧ (reclaimable (Entry.blank .dirty)).ctrl.state ∈ [JState.running, .stopping, .stopped, .full, .failed]
    ∧ (reclaimable (Entry.blank .dirty)).reclaimCandidate = some 1
    ∧ (reclaimable { Entry.blank .closed with firstSeq := 1, lastSeq := 1 }).reclaimCandidate = some 1 := by decide +kernel

/-- A recovery at work on a read, with its head table. -/
def recovering (ph : RecoveryPhase) (sec : Sector) (p : PageIx) (heads : List HeadInfo) : State :=
  { (inState .recovering up |> flying (req .recovery .read sec p)) with
    recov := { RecoveryUnit.reset with phase := ph, scan := some (sec, p), heads := heads } }

theorem witness_RecoveryReads (ph : RecoveryPhase) (sec : Sector) (p : PageIx) (hs : List HeadInfo) :
    (recovering ph sec p hs).powered = true ∧ (recovering ph sec p hs).array.op = some (req .recovery .read sec p)
    ∧ (req .recovery .read sec p).requester = .recovery ∧ (req .recovery .read sec p).wanted = true
    ∧ (recovering ph sec p hs).recov.phase = ph ∧ (req .recovery .read (sectorOf 125) p).sector = sectorOf 125
    ∧ (recovering ph sec p hs).recov.choice = none := ⟨rfl, rfl, rfl, rfl, rfl, rfl, rfl⟩

theorem witness_SetupLoad :
    setupOfPage (readPage up.array.mem 126 0) = none
    ∧ setupOfPage (setupBody up.setup.fields 1 ++ commitField (crc (setupBody up.setup.fields 1)))
        = some (up.setup.fields, 1) := by
  have h := commitField_accepted (body := setupBody up.setup.fields 1) (by decide +kernel)
  refine ⟨by decide +kernel, ?_⟩
  unfold setupOfPage
  rw [h.1, h.2]
  decide +kernel

/-- Heads of one epoch, of a higher one and a BLANK one. -/
def headTable : List HeadInfo := [.valid 1 2 0, .valid 1 3 0, .valid 4 2 0, .blank]

/-- R161: of the heads that share an epoch the one of the higher index stays; then the order of the scan (R162). -/
theorem witness_ScanOrder :
    damageShared headTable = [.damaged, .valid 1 3 0, .valid 4 2 0, .blank] ∧ headTable[0]? = some (.valid 1 2 0)
    ∧ (recovering .pages 1 15 headTable).recov.head 2 = .valid 4 2 0 ∧ (recovering .pages 2 15 headTable).recov.nextBlank 0 = some 3
    ∧ ((recovering .pages 1 15 (damageShared headTable)).scanAfterValid 1).recov.scan = some (2, 1)
    ∧ ((recovering .pages 2 15 (damageShared headTable)).scanAfterValid 4).recov.scan = some (3, 1) := by decide +kernel

/-- A page accepted by recovery. -/
def acceptedPage : AcceptedPage :=
  { sector := 0, page := 1, firstSeq := 1, lastSeq := 1, firstStamp := 5, lastStamp := 5, lastKind := 2 }

theorem witness_RecoveryRebuilds :
    (recovering .pages 0 1 [.valid 1 2 0]).recov.head 0 = .valid 1 2 0 ∧ (recovering .pages 0 1 [.blank]).recov.head 0 = .blank
    ∧ (recovering .pages 0 1 [.damaged]).recov.head 0 = .damaged ∧ (recovering .pages 0 1 [.retired]).recov.head 0 = .retired
    ∧ [acceptedPage].filter (fun a => a.sector == (0 : JSector)) = [acceptedPage]
    ∧ [acceptedPage].head? = some acceptedPage ∧ [acceptedPage].getLast? = some acceptedPage
    ∧ [acceptedPage].filter (fun a => a.sector == (1 : JSector)) = [] := by decide +kernel

/-- R166: the sector of highest epoch with pages in use is OPEN and the target; the one below it is CLOSED; the others inherit
the highest erase count. -/
theorem witness_RebuildChoices :
    (fun t : State => (t.commit.target, t.commit.nextPage, t.dir[0].state, t.dir[1].state, t.dir[2].state, t.dir[3].eraseCount))
      (State.rebuild (recovering .pages 0 1 [.valid 1 2 3, .valid 4 7 5, .valid 5 1 0, .blank]))
    = (some 1, 6, .closed, .opened, .dirty, 7) := by decide +kernel

theorem witness_RecoveryFinishes :
    (recovering .pages 125 15 (List.replicate 126 .retired)).rebuild.dir.usable < 4
    ∧ 4 ≤ (recovering .pages 125 15 (List.replicate 4 .blank ++ List.replicate 122 .retired)).rebuild.dir.usable
    ∧ (recovering .pages 125 15 (List.replicate 126 .blank)).rebuild.adm.exhausted = false
    ∧ (State.rebuild { recovering .pages 125 15 (List.replicate 126 .blank) with
        recov := { RecoveryUnit.reset with
          heads := List.replicate 126 .blank
          accepted := [{ acceptedPage with lastSeq := 0xFFFFFFFF }] } }).adm.exhausted = true := by decide +kernel

theorem witness_Resets :
    (∃ t, exec .powerOnReset up = .next t) ∧ (∃ t, exec .resetNFall up = .next t) ∧ up.pins.resetN = true ∧ up.powered = true
    ∧ State.reset.inReset = true ∧ State.reset.powered = true ∧ State.reset.pins.pfwN = true
    ∧ (State.reset.setPfwN false).pins.pfwN = false := ⟨⟨_, rfl⟩, ⟨_, rfl⟩, rfl, rfl, rfl, rfl, rfl, rfl⟩

theorem witness_PowerFailFalls (j : JState) (c : EraseCond) :
    (committing .blocked up).commit.phase = .blocked ∧ up.commit.phase = .idle ∧ up.pins.pfwN = true ∧ up.powered = true ∧ up.inReset = false ∧ (inState j up).ctrl.state = j
    ∧ (up |> erasing .reclaim c (sectorOf 125)).array.erase = some ⟨sectorOf 125, .reclaim, c, 0, true⟩ :=
  ⟨rfl, rfl, rfl, rfl, rfl, rfl, rfl⟩

/-- R63, R99: the refused erase of a reclaim leaves its sector DIRTY, and the engine idle. -/
theorem test_pfwNFall_refuses :
    look (exec .pfwNFall { up with
        reclaim := { phase := .erase, target := some 5 }
        dir := up.dir.update 5 fun x => { x with state := .erasing }
        array := { up.array with waiting := [req .reclaim .erase 5 0] } })
      (fun t => (t.dir[5].state, t.reclaim.phase, t.array.waiting)) = some (.dirty, .idle, []) := by decide +kernel

/-- DRAINED with PFW_N low and a saved state. -/
def drainedFrom (x : JState) (s : State) : State :=
  { (inState .drained s).setPfwN false with ctrl := { (inState .drained s).ctrl with saved := some x } }

theorem witness_DrainAndReturn :
    (up.adm.exhausted = false ∧ up.adm.filling = some .p ∧ { up.adm with exhausted := true }.exhausted = true)
    ∧ (inState .draining up).ctrl.state = .draining
    ∧ (∀ x ∈ [JState.recovering, .running, .stopping, .stopped, .full, .formatting, .failed],
        (drainedFrom x up).pins.pfwN = false ∧ (drainedFrom x up).powered = true ∧ (drainedFrom x up).inReset = false
        ∧ (drainedFrom x up).ctrl.state = .drained ∧ (drainedFrom x up).ctrl.saved = some x)
    ∧ 4 ≤ (drainedFrom .running (usableOnly 4 up)).dir.usable ∧ (drainedFrom .running (usableOnly 3 up)).dir.usable < 4
    ∧ (drainedFrom .full up).ctrl.spaceWait = false ∧ (drainedFrom .full up).ctrl.stopRequested = false := by decide +kernel

theorem witness_LayoutsReadBack :
    ((∀ i : LineIx, up.setup.fields.line[i].inRange = true) ∧ up.setup.fields.journal.inRange = true ∧ 0xFFFFFFFF < 2 ^ 32)
    ∧ (0 < 1 ∧ 0xFFFFFFFF < 2 ^ 32 ∧ 99999 ≤ 99999)
    ∧ oneRecord.data = [oneRecord.data].flatten ∧ oneRecord.count = [oneRecord.data].length ∧ oneRecord.data.length ≤ 488
    ∧ (∀ rec ∈ [oneRecord.data], rec.length = 16 + (byteAt rec 3).toNat ∧ rec.length ≤ 256)
    ∧ recSeq oneRecord.data = oneRecord.firstSeq + 0 ∧ 0 < oneRecord.firstSeq
    ∧ oneRecord.lastSeq = oneRecord.firstSeq + 1 - 1 ∧ oneRecord.lastSeq < 2 ^ 32 := by decide +kernel

/-- A consistent page, and one whose commit field has no mark. -/
theorem witness_PageClasses :
    (pageBody 1 oneRecord ++ commitField (crc (pageBody 1 oneRecord))).length = 512 ∧ (endsIn [0]).length = 512
    ∧ pageConsistent (pageBody 1 oneRecord ++ commitField (crc (pageBody 1 oneRecord))) = true
    ∧ pageConsistent (endsIn []) = false := by decide +kernel

theorem witness_StepsKeepSafe :
    (∃ t, step { up with pending := [.stampTick] } = .next t) ∧ up.memWf ∧ up.linesBounded ∧ up.stampWf := by
  unfold State.memWf State.linesBounded LinePort.bounded State.stampWf
  exact ⟨⟨_, rfl⟩, by decide +kernel⟩

/-- The other hypotheses of the statements on QueueAndSupply. -/
theorem witness_QueueAndSupply :
    up.pending = [] ∧ (∃ t, exec .stampTick up = .next t) ∧ exec .stampTick { up with powered := false } = .fault .unpowered :=
  ⟨rfl, ⟨_, rfl⟩, rfl⟩

end Sys2Proof.Tests
end

/-! SUPPORT. Line capture (chapter 1) and its commands: one rule for each operation of a line port, the reading of a line
block, the switching of a line, the values after reset; and the statements they settle. -/

namespace Sys2Proof.Machine

/-! ### Line ports: the state's own rules -/

/-- Of two replacements of the same line port the second stands. -/
@[simp] theorem State.setLine_setLine (i : LineIx) (p q : LinePort) (s : State) :
    (s.setLine i p).setLine i q = s.setLine i q := by
  simp [State.setLine]

/-- What a receiver's change writes, as a replacement of the line port. -/
theorem State.setReceiver_eq_setLine (i : LineIx) (r : Receiver) (n : Option Nat) (s : State) :
    s.setReceiver i r n = s.setLine i { s.lines[i] with receiver := r, idle := n } := rfl

/-! ### Pacing (R17) -/

/-- A store sets the hysteresis or leaves it, by the HIGH mark alone. -/
theorem LinePort.pacedStore_eq (u : LineSetup) (p : LinePort) :
    p.pacedStore u = { p with hysteresis := p.hysteresis || decide (u.high < p.fifo.length) } := by
  unfold LinePort.pacedStore
  split <;> simp [*]

/-- A release clears the hysteresis or leaves it, by the LOW mark alone. -/
theorem LinePort.pacedRelease_eq (u : LineSetup) (p : LinePort) :
    p.pacedRelease u = { p with hysteresis := p.hysteresis && decide (u.low < p.fifo.length) } := by
  unfold LinePort.pacedRelease
  split
  · next h => simp [Nat.not_lt.2 h]
  · next h => simp [Nat.not_le.1 h]

/-- A rewrite of the marks judges the hysteresis by both. -/
theorem LinePort.pacedRewrite_eq (u : LineSetup) (p : LinePort) :
    p.pacedRewrite u = { p with hysteresis :=
      if u.high < p.fifo.length then true else if p.fifo.length ≤ u.low then false else p.hysteresis } := by
  unfold LinePort.pacedRewrite LinePort.pacedRelease
  split
  · rfl
  · split <;> rfl

/-! ### Closing and dropping pieces (R9, R14, R15) -/

/-- The span is 0 while the counter stands saturated, and the ticks since the open stamp up to FFFFh otherwise; it is 0 too
where the counter stands below the open stamp, by the subtraction of `Nat`. -/
theorem State.spanFrom_eq (s : State) (openStamp : Nat) :
    s.spanFrom openStamp
      = if s.time.counter = 0xFFFFFFFFFFFF then 0 else min (s.time.counter - openStamp) 0xFFFF := by
  simp only [State.spanFrom, State.counterSaturated, beq_iff_eq]
  split
  · rfl
  · split
    · omega
    · rfl

/-- What a dropped piece leaves of its line port, but for the hysteresis (R15). -/
def LinePort.dropped (p : LinePort) : LinePort :=
  { p with fifo := p.fifo.take p.queuedBytes, lost := min (p.lost + 1) 255, piece := Piece.empty }

/-- Dropping a piece writes what it leaves of its line port, paced as a release, and raises LINE_FAULT (R15, R17). -/
theorem State.dropPiece_eq (i : LineIx) (s : State) :
    s.dropPiece i = (s.setLine i (s.lines[i].dropped.pacedRelease s.setup.fields.line[i])).raise (.lineFault i) := rfl

/-- An overrun piece, and one that finds 8 queued, is dropped whole (R14, R15). -/
theorem State.closePiece_of_dropped {i : LineIx} {s : State} (cause : RecFlags) (next : FramerState)
    (h : s.lines[i].piece.overrun = true ∨ 8 ≤ s.lines[i].queue.length) :
    s.closePiece i cause next = (s.setLine i { s.lines[i] with framer := next }).dropPiece i := by
  rw [State.closePiece, if_pos (by simpa using h)]

/-- Any other piece joins the queue (R9, R14). -/
theorem State.closePiece_of_queued {i : LineIx} {s : State} (cause : RecFlags) (next : FramerState)
    (ho : s.lines[i].piece.overrun = false) (hq : s.lines[i].queue.length < 8) :
    s.closePiece i cause next = s.setLine i { s.lines[i] with
      framer := next
      piece := Piece.empty
      queue := s.lines[i].queue ++ [
        { line := i, length := s.lines[i].piece.count,
          flags := { cause with parity := s.lines[i].piece.parity, framing := s.lines[i].piece.framing },
          close := s.time.counter, span := s.spanFrom s.lines[i].piece.openStamp }] } := by
  have keeps : ¬ (s.lines[i].piece.overrun || decide (Config.queueSize ≤ s.lines[i].queue.length)) = true := by
    rw [ho, Bool.false_or, decide_eq_true_iff]
    exact Nat.not_le.2 hq
  rw [State.closePiece, if_neg keeps, State.setLine_setLine]
  rfl

/-! ### The receiver -/

/-- No parity bit was sampled high (R1, R2). -/
theorem parityLow_iff (u : LineSetup) (parityBit : Bool) :
    parityLow u parityBit = true ↔ u.parity = .noParity ∨ parityBit = false := by
  simp [parityLow]

/-- A character in progress at its stop bit: delivered with a high stop bit, held with every bit low, and delivered with
FRAMING otherwise (R1, R2, R3). -/
theorem exec_characterDelivered {i : LineIx} {s : State} (data : Byte) (parityBit stopBit : Bool)
    (hp : s.powered = true) (hr : s.lines[i].receiver = .receiving) :
    exec (.characterDelivered i data parityBit stopBit) s = .next
      (if stopBit then
        (s.setReceiver i .ready (some 0)).takeCharacter i data (parityMark s.setup.fields.line[i] data parityBit) false
       else if data = 0 ∧ (s.setup.fields.line[i].parity = .noParity ∨ parityBit = false) then
        s.setReceiver i (.held (parityMark s.setup.fields.line[i] data parityBit)) none
       else
        (s.setReceiver i .lowStop none).takeCharacter i data
          (parityMark s.setup.fields.line[i] data parityBit) true) := by
  have low : (data == 0 && parityLow s.setup.fields.line[i] parityBit) = true
      ↔ data = 0 ∧ (s.setup.fields.line[i].parity = .noParity ∨ parityBit = false) := by
    rw [Bool.and_eq_true, beq_iff_eq, parityLow_iff]
  simp only [exec, execCharacterDelivered, live_of_powered hp, State.ifArises, hr, BEq.rfl, if_true, low]

/-! ### The framer -/

/-- The tracking of a character that a line port takes (R6, R7): a frame that begins with it has neither an armed pair nor
characters counted. -/
def LinePort.tracked (u : LineSetup) (data : Byte) (p : LinePort) : Bool × Bool × Nat :=
  track u data (!(p.framer == .waiting) && p.pairArmed) (if p.framer == .waiting then 0 else p.frameCount)

/-- What the tracking answers: the end condition by the mode (R4), pair-armed, and the frame character count. -/
theorem LinePort.tracked_eq {u : LineSetup} {data : Byte} {p : LinePort} {armed ends : Bool} {n : Nat}
    (harmed : armed = (p.pairArmed && p.framer != .waiting))
    (hn : n = (if p.framer = .waiting then 0 else p.frameCount) + 1)
    (hends : ends = match u.mode with
      | .gap => false
      | .pair => armed && data == u.e2
      | .count => decide (n = u.n)) :
    p.tracked u data = (ends, if u.mode = .pair ∧ ends = false then data == u.e1 else armed, n) := by
  have ha : (!(p.framer == .waiting) && p.pairArmed) = armed := by rw [harmed, Bool.and_comm]; rfl
  have hc : (if p.framer == .waiting then 0 else p.frameCount) + 1 = n := by rw [hn]; simp only [beq_iff_eq]
  rw [LinePort.tracked, ha, track, hc, hends]
  cases u.mode with
  | gap => rfl
  | pair => cases armed && data == u.e2 <;> simp
  | count => rfl

/-- The piece a character joins or opens (R4). -/
def LinePort.pieceWith (stamp : Nat) (parity framing : Bool) (p : LinePort) : Piece :=
  if p.framer = .opened then
    { p.piece with count := p.piece.count + 1, parity := p.piece.parity || parity,
                   framing := p.piece.framing || framing }
  else { openStamp := stamp, count := 1, parity := parity, framing := framing, overrun := false }

/-- The FIFO stores a byte offered for the piece in progress (R13). -/
def LinePort.stores (p : LinePort) : Bool := !p.piece.overrun && decide (p.fifo.length < 512)

/-- What an offered byte leaves of a line port: stored, or the piece overrun (R13, R17). -/
theorem LinePort.offer_eq (u : LineSetup) (data : Byte) (p : LinePort) :
    p.offer u data = { p with
      piece := { p.piece with overrun := !p.stores }
      fifo := if p.stores then p.fifo ++ [data] else p.fifo
      hysteresis := p.hysteresis || (p.stores && decide (u.high < p.fifo.length + 1)) } := by
  obtain ⟨_, _, _, ⟨_, _, _, _, overrun⟩, _, _, fifo, _, _, _⟩ := p
  unfold LinePort.offer LinePort.stores
  cases overrun with
  | true => simp
  | false => by_cases h : fifo.length < 512 <;> simp [h, LinePort.pacedStore_eq]

/-- A character joins the piece in progress or opens one, and is offered to the FIFO (R4, R13). -/
theorem LinePort.join_eq (u : LineSetup) (stamp : Nat) (data : Byte) (parity framing : Bool) (p : LinePort) :
    p.join u stamp data parity framing
      = LinePort.offer u data { p with framer := .opened, piece := p.pieceWith stamp parity framing } := by
  obtain ⟨_, _, framer, _, _, _, _, _, _, _⟩ := p
  cases framer <;> rfl

/-- In DISCARDING a character is thrown away (R11). -/
theorem State.takeCharacter_of_discarding {i : LineIx} {s : State} {data : Byte} (parity framing : Bool)
    {ends armed : Bool} {n : Nat} (hf : s.lines[i].framer = .discarding)
    (ht : s.lines[i].tracked s.setup.fields.line[i] data = (ends, armed, n)) :
    s.takeCharacter i data parity framing = s.setLine i { s.lines[i] with
      framer := if ends then .waiting else .discarding
      pairArmed := armed
      frameCount := if s.setup.fields.line[i].mode = .count then n else s.lines[i].frameCount } := by
  rw [LinePort.tracked, hf] at ht
  simp only [State.takeCharacter, hf, LinePort.discard]
  rw [show track s.setup.fields.line[i] data s.lines[i].pairArmed s.lines[i].frameCount = _ from ht]

/-- In any other state a character joins or opens a piece, and the tests for a close follow (R4). -/
theorem State.takeCharacter_of_not_discarding {i : LineIx} {s : State} {data : Byte} (parity framing : Bool)
    {ends armed : Bool} {n : Nat} (hf : s.lines[i].framer ≠ .discarding)
    (ht : s.lines[i].tracked s.setup.fields.line[i] data = (ends, armed, n)) :
    s.takeCharacter i data parity framing =
      (s.setLine i { s.lines[i].join s.setup.fields.line[i] s.time.counter data parity framing with
        pairArmed := armed, frameCount := n }).closeTest i ends := by
  unfold State.takeCharacter
  dsimp only
  split
  · contradiction
  · rw [LinePort.tracked] at ht
    simp only [ht]

/-! ### The receiver's other happenings -/

/-- A line port replaced by itself. -/
theorem State.setLine_self (i : LineIx) (s : State) : s.setLine i s.lines[i] = s := by
  simp [State.setLine]

/-- A change of the idle measurement alone: the receiver's condition stays. -/
theorem State.setReceiver_same {i : LineIx} {r : Receiver} (n : Option Nat) {s : State} (h : s.lines[i].receiver = r) :
    s.setReceiver i r n = s.setLine i { s.lines[i] with idle := n } := by
  subst h
  rfl

/-- A break closes the open piece, or an empty one that opens with it (R8). -/
theorem State.takeBreak_eq (i : LineIx) (s : State) :
    s.takeBreak i = (s.setLine i { s.lines[i] with
        piece := if s.lines[i].framer = .opened then s.lines[i].piece
                 else { Piece.empty with openStamp := s.time.counter } }).closePiece i
      { RecFlags.empty with brk := true } .waiting := by
  unfold State.takeBreak
  dsimp only
  split
  · next h => rw [if_pos h, State.setLine_self]
  · next h => rw [if_neg h]

/-- A character of all low bits that is held becomes a break when the line stays low (R2, R8). -/
theorem exec_breakRecognised {i : LineIx} {s : State} {mark : Bool} (hp : s.powered = true)
    (hr : s.lines[i].receiver = .held mark) :
    exec (.breakRecognised i) s = .next ((s.setReceiver i .breaking none).takeBreak i) := by
  simp only [exec, execBreakRecognised, live_of_powered hp, hr]

/-- The idle measurement stops at 255 (R3). -/
theorem exec_idleStep_of_full {i : LineIx} {s : State} {n : Nat} (hp : s.powered = true)
    (hr : s.lines[i].receiver = .ready) (hi : s.lines[i].idle = some n) (hn : 255 ≤ n) :
    exec (.idleStep i) s = .next s := by
  simp only [exec, execIdleStep, live_of_powered hp, hr, hi, if_pos hn]

/-- Below 255 the idle measurement counts, and step G is delivered to the framer (R3, R5). -/
theorem exec_idleStep_of_counting {i : LineIx} {s : State} {n : Nat} (hp : s.powered = true)
    (hr : s.lines[i].receiver = .ready) (hi : s.lines[i].idle = some n) (hn : n < 255) :
    exec (.idleStep i) s = .next
      (if n + 1 = s.setup.fields.line[i].g then (s.setLine i { s.lines[i] with idle := some (n + 1) }).takeIdle i
       else s.setLine i { s.lines[i] with idle := some (n + 1) }) := by
  simp only [exec, execIdleStep, live_of_powered hp, hr, hi, if_neg (Nat.not_le.2 hn), State.setReceiver_same _ hr,
    State.setLine_setup]

/-- A settled receiver with nothing in force takes a confirmed start edge, and no other does (R1, R3). -/
theorem exec_startEdge (i : LineIx) (confirmed : Bool) {s : State} (hp : s.powered = true) :
    exec (.startEdge i confirmed) s = .next
      (if s.lines[i].receiver = .ready ∧ confirmed = true then s.setReceiver i .receiving none else s) := by
  simp only [exec, execStartEdge, live_of_powered hp]
  split
  · next h => simp only [h, true_and]
  · next h => rw [if_neg fun hc => h hc.1]

/-- A return to high delivers a held character, ends a break, and sets the origin of the idle measurement; in any other
condition of the receiver it has no effect (R2, R3). -/
theorem exec_lineReturnsHigh (i : LineIx) {s : State} (hp : s.powered = true) :
    exec (.lineReturnsHigh i) s = .next
      (match s.lines[i].receiver with
       | .held mark => (s.setReceiver i .ready (some 0)).takeCharacter i 0 mark true
       | .breaking | .lowStop => s.setReceiver i .ready (some 0)
       | .off | .unsettled | .ready | .receiving => s) := by
  simp only [exec, execLineReturnsHigh, live_of_powered hp]
  cases s.lines[i].receiver <;> rfl

/-- The settling of a line that waits for it (R20). -/
theorem exec_lineSettled {i : LineIx} {s : State} (hp : s.powered = true) (hr : s.lines[i].receiver = .unsettled) :
    exec (.lineSettled i) s = .next (s.setLine i { s.lines[i] with
      receiver := .ready, idle := some 0, framer := .waiting, pairArmed := false, frameCount := 0 }) := by
  simp only [exec, execLineSettled, live_of_powered hp, State.ifArises, hr, BEq.rfl, if_true]

/-- What step G does in each state of the framer, once the measurement has counted it (R5, R6, R7, R11). -/
theorem State.takeIdle_setLine_idle (i : LineIx) (n : Nat) (s : State) :
    (s.setLine i { s.lines[i] with idle := some n }).takeIdle i =
      match s.lines[i].framer with
      | .waiting => s.setLine i { s.lines[i] with idle := some n }
      | .continuing | .discarding => s.setLine i { s.lines[i] with idle := some n, framer := .waiting }
      | .opened => (s.setLine i { s.lines[i] with idle := some n }).closePiece i
          { RecFlags.empty with openEnd := s.setup.fields.line[i].mode != .gap } .waiting := by
  unfold State.takeIdle
  simp only [setLine_get, State.setLine_setLine]
  cases s.lines[i].framer <;> rfl

/-! ### Read Line State (R23) -/

/-- A byte below 4 names its line. -/
theorem lineOf_of_eq {b : Byte} {i : LineIx} (h : b.toNat = i.val) : lineOf b = some i := by
  have hb : b.toNat < 4 := h ▸ i.isLt
  rw [lineOf, dif_pos hb]
  exact congrArg some (Fin.ext h)

/-- A byte above 3 names none. -/
theorem lineOf_of_le {b : Byte} (h : 4 ≤ b.toNat) : lineOf b = none := dif_neg (Nat.not_lt.2 h)

/-- Read Line State is taken at its line number and decided by its rule (R23). -/
theorem exec_readLineState {s : State} (b : Byte) (h : s.atArguments 0x04 []) (hr : s.ctrl.state ≠ .recovering) :
    exec (.readLineState b) s = .next (State.answer 0x04 [b] (s.readLineStateRule [b])) :=
  takeByte_argument (c := .readLineState) h rfl rfl (.inl hr)

/-- A number below 256 survives its byte. -/
theorem toNat_ofNat_byte {n : Nat} (h : n < 256) : (BitVec.ofNat 8 n).toNat = n := by
  rw [BitVec.toNat_ofNat, Nat.mod_eq_of_lt h]

/-- PACE is active by the hysteresis, by a full queue, or outside RUNNING (R18). -/
theorem State.paceActive_eq (s : State) (i : LineIx) :
    s.paceActive i
      = (s.lines[i].hysteresis || decide (s.lines[i].queue.length = 8) || s.ctrl.state != .running) := rfl

/-! ### Reset -/

/-- After reset every line port stands at its reset values (R24). -/
theorem State.reset_lines (i : LineIx) : State.reset.lines[i] = LinePort.reset := by simp [State.reset]

/-- After reset every directory entry is UNKNOWN with its fields 0 (R105). -/
theorem State.reset_dir (j : JSector) : State.reset.dir[j] = Entry.blank .unknown := by simp [State.reset]

/-- Where every sector is in one state, none is in another. -/
theorem Directory.inState_eq_nil {d : Directory} {a b : SectorState} (h : ∀ j : JSector, d[j].state = a) (hab : a ≠ b) :
    d.inState b = [] :=
  List.filter_eq_nil_iff.2 fun j _ => by rw [h j, beq_iff_eq]; exact hab

/-- After reset the ring is empty, and so nothing is retained (R86, R88). -/
theorem State.reset_oldestRetained : State.reset.dir.oldestRetained = 0 := by
  have unknown : ∀ j : JSector, State.reset.dir[j].state = .unknown := fun j => by rw [State.reset_dir]; rfl
  have ring : State.reset.dir.ring = [] := by
    rw [Directory.ring, Directory.inState_eq_nil unknown (by decide), Directory.inState_eq_nil unknown (by decide)]
    rfl
  rw [Directory.oldestRetained, Directory.holders, ring]
  rfl

/-! ### The line block (R19, R201) -/

/-- A number is no code of a parity, or the code of the one it names (R201). -/
theorem Parity.ofCode_cases : ∀ n : Nat,
    2 < n ∧ Parity.ofCode n = none ∨ n ≤ 2 ∧ ∃ p : Parity, p.code = n ∧ Parity.ofCode n = some p
  | 0 => .inr ⟨by omega, .noParity, rfl, rfl⟩
  | 1 => .inr ⟨by omega, .even, rfl, rfl⟩
  | 2 => .inr ⟨by omega, .odd, rfl, rfl⟩
  | n + 3 => .inl ⟨by omega, rfl⟩

/-- A number is no code of a framing mode, or the code of the one it names (R201). -/
theorem FrameMode.ofCode_cases : ∀ n : Nat,
    2 < n ∧ FrameMode.ofCode n = none ∨ n ≤ 2 ∧ ∃ m : FrameMode, m.code = n ∧ FrameMode.ofCode n = some m
  | 0 => .inr ⟨by omega, .gap, rfl, rfl⟩
  | 1 => .inr ⟨by omega, .pair, rfl, rfl⟩
  | 2 => .inr ⟨by omega, .count, rfl, rfl⟩
  | n + 3 => .inl ⟨by omega, rfl⟩

/-- A number is no code of an overflow policy, or the code of the one it names (R201). -/
theorem Overflow.ofCode_cases : ∀ n : Nat,
    1 < n ∧ Overflow.ofCode n = none ∨ n ≤ 1 ∧ ∃ o : Overflow, o.code = n ∧ Overflow.ofCode n = some o
  | 0 => .inr ⟨by omega, .split, rfl, rfl⟩
  | 1 => .inr ⟨by omega, .cut, rfl, rfl⟩
  | n + 2 => .inl ⟨by omega, rfl⟩

/-- A number is no code of a polarity, or the code of the one it names (R201). -/
theorem Polarity.ofCode_cases : ∀ n : Nat,
    1 < n ∧ Polarity.ofCode n = none ∨ n ≤ 1 ∧ ∃ o : Polarity, o.code = n ∧ Polarity.ofCode n = some o
  | 0 => .inr ⟨by omega, .activeLow, rfl, rfl⟩
  | 1 => .inr ⟨by omega, .activeHigh, rfl, rfl⟩
  | n + 2 => .inl ⟨by omega, rfl⟩

/-- The bytes of a line block carry these fields (R201), whether or not they are in range. -/
def LineSetup.carriedBy (l : List Byte) (u : LineSetup) : Prop :=
  u.enable = (byteAt l 0).getLsbD 0 ∧ u.divisor = fieldAt l 1 2 ∧ u.parity.code = (byteAt l 3).toNat
    ∧ u.mode.code = (byteAt l 4).toNat ∧ u.g = (byteAt l 5).toNat ∧ u.e1 = byteAt l 6 ∧ u.e2 = byteAt l 7
    ∧ u.n = (byteAt l 8).toNat ∧ u.maxlen = (byteAt l 9).toNat ∧ u.policy.code = (byteAt l 10).toNat
    ∧ u.high = fieldAt l 11 2 ∧ u.low = fieldAt l 13 2 ∧ u.polarity.code = (byteAt l 15).toNat

/-- The fields of a line block's bytes, its codes already read (R201). -/
def LineSetup.ofBytes (l : List Byte) (parity : Parity) (mode : FrameMode) (policy : Overflow) (polarity : Polarity) :
    LineSetup :=
  { enable := (byteAt l 0).getLsbD 0, divisor := fieldAt l 1 2, parity := parity, mode := mode,
    g := (byteAt l 5).toNat, e1 := byteAt l 6, e2 := byteAt l 7, n := (byteAt l 8).toNat,
    maxlen := (byteAt l 9).toNat, policy := policy, high := fieldAt l 11 2, low := fieldAt l 13 2,
    polarity := polarity }

/-- Every code of a line block is defined (R201). -/
def codesDefined (l : List Byte) : Prop :=
  (byteAt l 3).toNat ≤ 2 ∧ (byteAt l 4).toNat ≤ 2 ∧ (byteAt l 10).toNat ≤ 1 ∧ (byteAt l 15).toNat ≤ 1

/-- A line block is refused for an undefined code; with every code defined it carries fields, and their ranges decide. -/
theorem lineOfBlock_cases (l : List Byte) :
    ¬ codesDefined l ∧ lineOfBlock l = none
    ∨ codesDefined l ∧ ∃ u : LineSetup, u.carriedBy l ∧ lineOfBlock l = if u.inRange then some u else none := by
  unfold codesDefined
  rcases Parity.ofCode_cases (byteAt l 3).toNat with ⟨h3, e3⟩ | ⟨h3, parity, hparity, e3⟩
  · exact .inl ⟨by omega, by simp only [lineOfBlock, e3]⟩
  rcases FrameMode.ofCode_cases (byteAt l 4).toNat with ⟨h4, e4⟩ | ⟨h4, mode, hmode, e4⟩
  · exact .inl ⟨by omega, by simp only [lineOfBlock, e3, e4]⟩
  rcases Overflow.ofCode_cases (byteAt l 10).toNat with ⟨h10, e10⟩ | ⟨h10, policy, hpolicy, e10⟩
  · exact .inl ⟨by omega, by simp only [lineOfBlock, e3, e4, e10]⟩
  rcases Polarity.ofCode_cases (byteAt l 15).toNat with ⟨h15, e15⟩ | ⟨h15, polarity, hpolarity, e15⟩
  · exact .inl ⟨by omega, by simp only [lineOfBlock, e3, e4, e10, e15]⟩
  have carried : (LineSetup.ofBytes l parity mode policy polarity).carriedBy l :=
    ⟨rfl, rfl, hparity, hmode, rfl, rfl, rfl, rfl, rfl, hpolicy, rfl, rfl, hpolarity⟩
  exact .inr ⟨⟨h3, h4, h10, h15⟩, _, carried, by rw [lineOfBlock, e3, e4, e10, e15]; rfl⟩

/-- The fields that a line block is read as are those its bytes carry. -/
theorem lineOfBlock_carries {l : List Byte} {u : LineSetup} (h : lineOfBlock l = some u) : u.carriedBy l := by
  rcases lineOfBlock_cases l with ⟨_, hnone⟩ | ⟨_, v, hv, hsome⟩
  · rw [hnone] at h
    cases h
  · rw [hsome] at h
    split at h
    · cases h; exact hv
    · cases h

/-- The ranges of R19, said of the bytes that carry the fields. -/
theorem LineSetup.inRange_of_carriedBy {l : List Byte} {u : LineSetup} (h : u.carriedBy l) :
    u.inRange = true ↔
      1 ≤ fieldAt l 1 2 ∧ fieldAt l 1 2 ≤ 4095 ∧ 2 ≤ (byteAt l 5).toNat ∧ 1 ≤ (byteAt l 8).toNat
        ∧ (byteAt l 8).toNat ≤ 240 ∧ 1 ≤ (byteAt l 9).toNat ∧ (byteAt l 9).toNat ≤ 240 ∧ 1 ≤ fieldAt l 11 2
        ∧ fieldAt l 11 2 ≤ 511 ∧ fieldAt l 13 2 < fieldAt l 11 2 := by
  obtain ⟨-, hdivisor, -, -, hg, -, -, hn, hmaxlen, -, hhigh, hlow, -⟩ := h
  have hbyte : (byteAt l 5).toNat < 256 := (byteAt l 5).isLt
  rw [LineSetup.inRange, decide_eq_true_iff, hdivisor, hg, hn, hmaxlen, hhigh, hlow]
  omega

/-- Exactly when a line block is refused (R19, R201). -/
theorem lineOfBlock_eq_none_iff (l : List Byte) :
    lineOfBlock l = none ↔
      fieldAt l 1 2 = 0 ∨ 4095 < fieldAt l 1 2 ∨ 2 < (byteAt l 3).toNat ∨ 2 < (byteAt l 4).toNat ∨ (byteAt l 5).toNat < 2
        ∨ (byteAt l 8).toNat = 0 ∨ 240 < (byteAt l 8).toNat ∨ (byteAt l 9).toNat = 0 ∨ 240 < (byteAt l 9).toNat
        ∨ 1 < (byteAt l 10).toNat ∨ fieldAt l 11 2 = 0 ∨ 511 < fieldAt l 11 2 ∨ fieldAt l 11 2 ≤ fieldAt l 13 2
        ∨ 1 < (byteAt l 15).toNat := by
  rcases lineOfBlock_cases l with ⟨hcodes, hnone⟩ | ⟨hcodes, u, hu, hsome⟩ <;> unfold codesDefined at hcodes
  · simp only [hnone, true_iff]
    omega
  · have refused : lineOfBlock l = none ↔ ¬ u.inRange = true := by rw [hsome]; simp
    rw [refused, LineSetup.inRange_of_carriedBy hu]
    omega

/-! ### Enabling and disabling a line (R19 to R21) -/

/-- What disabling leaves of a line port, but for its open piece (R21). -/
def LinePort.disabled (p : LinePort) : LinePort := { p with receiver := .off, idle := none, framer := .waiting }

/-- Disabling a line with an open piece drops the piece, paced as a release (R15, R17, R21). -/
theorem State.disableLine_of_opened {i : LineIx} {s : State} (h : s.lines[i].framer = .opened) :
    s.disableLine i
      = (s.setLine i (s.lines[i].disabled.dropped.pacedRelease s.setup.fields.line[i])).raise (.lineFault i) := by
  rw [State.disableLine, if_pos h, State.dropPiece_eq, setLine_get, State.setLine_setLine]
  rfl

/-- Disabling a line without one only stops it (R21). -/
theorem State.disableLine_of_not_opened {i : LineIx} {s : State} (h : s.lines[i].framer ≠ .opened) :
    s.disableLine i = s.setLine i s.lines[i].disabled := by
  rw [State.disableLine, if_neg h]
  rfl

/-- Judging the hysteresis by the marks leaves nothing of a release judged just before by the same marks. -/
theorem LinePort.pacedRewrite_pacedRelease (u : LineSetup) (p : LinePort) :
    (p.pacedRelease u).pacedRewrite u = p.pacedRewrite u := by
  rw [LinePort.pacedRelease_eq, LinePort.pacedRewrite_eq, LinePort.pacedRewrite_eq]
  by_cases h : u.low < p.fifo.length
  · simp [h]
  · simp [Nat.not_lt.1 h]

/-- The working setup with the fields of one line replaced. -/
def State.withLineSetup (i : LineIx) (u : LineSetup) (s : State) : State :=
  { s with setup := { s.setup with fields := { s.setup.fields with line := s.setup.fields.line.set i u } } }

theorem State.withLineSetup_line (i : LineIx) (u : LineSetup) (s : State) :
    (s.withLineSetup i u).setup.fields.line[i] = u := by
  simp [State.withLineSetup]

/-- The hysteresis of a line judged anew by its marks (R17). -/
def State.judged (i : LineIx) (u : LineSetup) (s : State) : State := s.setLine i (s.lines[i].pacedRewrite u)

theorem State.judged_setLine (i : LineIx) (u : LineSetup) (p : LinePort) (s : State) :
    (s.setLine i p).judged i u = s.setLine i (p.pacedRewrite u) := by
  rw [State.judged, setLine_get, State.setLine_setLine]

theorem State.judged_raise (i : LineIx) (u : LineSetup) (e : Event) (s : State) :
    (s.raise e).judged i u = (s.judged i u).raise e := rfl

/-- A line is enabled exactly while its receiver is not off (R19). -/
theorem State.lineEnabled_iff (s : State) (i : LineIx) : s.lineEnabled i = true ↔ s.lines[i].receiver ≠ .off :=
  bne_iff_ne

/-- A part DRAINED with recovery abandoned enables no line (R22). -/
theorem State.drainedRecovering_eq (s : State) :
    s.drainedRecovering = decide (s.ctrl.state = .drained ∧ s.ctrl.saved = some .recovering) := by
  simp [State.drainedRecovering, Bool.beq_eq_decide_eq]

/-- An accepted Write Line Setup replaces the fields, switches the line, and judges its hysteresis anew (log entry 35). -/
theorem State.writeLine_eq (i : LineIx) (u : LineSetup) (s : State) :
    s.writeLine i u = State.judged i u
      (if s.lineEnabled i ∧ !u.enable then (s.withLineSetup i u).disableLine i
       else if !s.lineEnabled i ∧ u.enable ∧ !s.drainedRecovering then (s.withLineSetup i u).enableLine i
       else s.withLineSetup i u) := rfl

/-- A write that disables a line with an open piece (R15, R17, R21). -/
theorem State.writeLine_of_dropping {i : LineIx} {u : LineSetup} {s : State} (hr : s.lines[i].receiver ≠ .off)
    (hu : u.enable = false) (hf : s.lines[i].framer = .opened) :
    s.writeLine i u
      = ((s.withLineSetup i u).setLine i (s.lines[i].disabled.dropped.pacedRewrite u)).raise (.lineFault i) := by
  rw [State.writeLine_eq, if_pos ⟨(s.lineEnabled_iff i).2 hr, by rw [hu]; rfl⟩,
    State.disableLine_of_opened (s := s.withLineSetup i u) hf, State.withLineSetup_line, State.judged_raise,
    State.judged_setLine, LinePort.pacedRewrite_pacedRelease]
  rfl

/-- A write that disables a line without an open piece (R17, R21). -/
theorem State.writeLine_of_disabling {i : LineIx} {u : LineSetup} {s : State} (hr : s.lines[i].receiver ≠ .off)
    (hu : u.enable = false) (hf : s.lines[i].framer ≠ .opened) :
    s.writeLine i u = (s.withLineSetup i u).setLine i (s.lines[i].disabled.pacedRewrite u) := by
  rw [State.writeLine_eq, if_pos ⟨(s.lineEnabled_iff i).2 hr, by rw [hu]; rfl⟩,
    State.disableLine_of_not_opened (s := s.withLineSetup i u) hf, State.judged_setLine]
  rfl

/-- A write that enables a line (R17, R20). -/
theorem State.writeLine_of_enabling {i : LineIx} {u : LineSetup} {s : State} (hr : s.lines[i].receiver = .off)
    (ho : (u.enable && !s.drainedRecovering) = true) :
    s.writeLine i u = (s.withLineSetup i u).setLine i
      (LinePort.pacedRewrite u { s.lines[i] with receiver := .unsettled, idle := none }) := by
  have off : s.lineEnabled i = false := by rw [State.lineEnabled, hr]; rfl
  rw [Bool.and_eq_true] at ho
  rw [State.writeLine_eq, off, if_neg (fun h => absurd h.1 Bool.false_ne_true), if_pos ⟨rfl, ho⟩, State.enableLine,
    State.setReceiver_eq_setLine, State.judged_setLine]
  rfl

/-- A write that leaves a disabled line disabled (R17, R19, R22). -/
theorem State.writeLine_of_off {i : LineIx} {u : LineSetup} {s : State} (hr : s.lines[i].receiver = .off)
    (ho : (u.enable && !s.drainedRecovering) = false) :
    s.writeLine i u = (s.withLineSetup i u).setLine i (s.lines[i].pacedRewrite u) := by
  have off : s.lineEnabled i = false := by rw [State.lineEnabled, hr]; rfl
  have stays : ¬ ((!false) = true ∧ u.enable = true ∧ (!s.drainedRecovering) = true) := fun h => by
    rw [h.2.1, h.2.2] at ho
    cases ho
  rw [State.writeLine_eq, off, if_neg (fun h => absurd h.1 Bool.false_ne_true), if_neg stays]
  rfl

/-- The write of a line's fields, in the terms of R19 to R21: whether the line is on, opens, or drops its piece. -/
theorem State.writeLine_eq_switched {i : LineIx} {u : LineSetup} {s : State} {on opens drops : Bool} {p : LinePort}
    (hu : u.enable = true → s.lines[i].receiver = .off)
    (hon : on = decide (s.lines[i].receiver ≠ .off))
    (hopens : opens = (u.enable && !decide (s.ctrl.state = .drained ∧ s.ctrl.saved = some .recovering)))
    (hdrops : drops = (on && decide (s.lines[i].framer = .opened)))
    (hp : p = { s.lines[i] with
      receiver := if opens then .unsettled else .off
      idle := if on ∨ opens then none else s.lines[i].idle
      framer := if on then .waiting else s.lines[i].framer
      fifo := if drops then s.lines[i].fifo.take s.lines[i].queuedBytes else s.lines[i].fifo
      lost := if drops then min (s.lines[i].lost + 1) 255 else s.lines[i].lost
      piece := if drops then Piece.empty else s.lines[i].piece }) :
    s.writeLine i u =
      { (s.withLineSetup i u).setLine i (p.pacedRewrite u) with
        events := { s.events with
          flags := if drops then s.events.flags ||| (Event.lineFault i).mask else s.events.flags } } := by
  rw [← State.drainedRecovering_eq] at hopens
  by_cases hr : s.lines[i].receiver = .off
  · obtain rfl : on = false := by rw [hon, hr]; rfl
    obtain rfl : drops = false := hdrops
    cases opens with
    | true =>
      rw [State.writeLine_of_enabling hr hopens.symm, hp]
      rfl
    | false =>
      obtain rfl : p = s.lines[i] := by rw [hp, ← hr]; rfl
      rw [State.writeLine_of_off hr hopens.symm]
      rfl
  · have disables : u.enable = false := by rw [← Bool.not_eq_true]; exact fun h => hr (hu h)
    obtain rfl : on = true := by rw [hon, decide_eq_true hr]
    obtain rfl : opens = false := by rw [hopens, disables]; rfl
    by_cases hf : s.lines[i].framer = .opened
    · obtain rfl : drops = true := by rw [hdrops, hf]; rfl
      rw [State.writeLine_of_dropping hr disables hf, hp]
      rfl
    · obtain rfl : drops = false := by rw [hdrops, decide_eq_false hf]; rfl
      rw [State.writeLine_of_disabling hr disables hf, hp]
      rfl

/-- Write Line Setup is taken at its last argument byte and decided by its rule (R19, R178). -/
theorem exec_writeLineSetup {s : State} {n : Byte} {block : List Byte} (b : Byte) (h : s.atArguments 0x10 (n :: block))
    (hl : block.length = 15) (hr : s.ctrl.state ≠ .recovering) :
    exec (.writeLineSetup b) s
      = .next (State.answer 0x10 (n :: block ++ [b]) (s.writeLineSetupRule (n :: block ++ [b]))) :=
  takeByte_argument (c := .writeLineSetup) h rfl (by simp [owed, hl]) (.inl hr)

/-- A line above 3 and a refused block are answered BAD_ARG (R19). -/
theorem State.writeLineSetupRule_of_refused {s : State} {n : Byte} {block : List Byte}
    (h : 4 ≤ n.toNat ∨ lineOfBlock block = none) : s.writeLineSetupRule (n :: block) = s.refuseWith .badArg := by
  rw [State.writeLineSetupRule, show byteAt (n :: block) 0 = n from rfl, show (n :: block).drop 1 = block from rfl]
  rcases h with h | h
  · simp only [lineOf_of_le h]
  · cases lineOf n <;> simp only [h]

/-- A block that is read is refused with STATE where it enables an enabled line, and else written (R19). -/
theorem State.writeLineSetupRule_of_read {s : State} {n : Byte} {block : List Byte} {i : LineIx} {u : LineSetup}
    (hn : n.toNat = i.val) (hu : lineOfBlock block = some u) :
    s.writeLineSetupRule (n :: block)
      = if u.enable ∧ s.lineEnabled i then s.refuseWith .state else (s.writeLine i u).accept := by
  rw [State.writeLineSetupRule, show byteAt (n :: block) 0 = n from rfl, show (n :: block).drop 1 = block from rfl,
    lineOf_of_eq hn, hu]

/-! ### The statements settled -/

/-- Settles O11: the six bytes one by one, each value within its field by the bounds of the line port. -/
theorem readLineStateReply : Obligations.ReadLineStateReply := by
  intro s b h hr hb
  have hc : commandOf 0x04 ≠ some .readStatus ∧ commandOf 0x04 ≠ some .readRecords := by decide
  rw [exec_readLineState b h hr, State.readLineStateRule]
  refine ⟨fun hn => ?_, fun i hi => ⟨s.lineState i, ?_, rfl, ?_, ?_, ?_, ?_, ?_, fun _ => rfl⟩⟩
  · rw [show byteAt [b] 0 = b from rfl, lineOf_of_le hn]
    exact congrArg _ (answer_refuse hc.1 hc.2)
  · rw [show byteAt [b] 0 = b from rfl, lineOf_of_eq hi]
    exact congrArg _ (answer_eq_replied hc.1 hc.2)
  all_goals obtain ⟨hfifo, hqueue, hlost⟩ :
    s.lines[i].fifo.length ≤ 512 ∧ s.lines[i].queue.length ≤ 8 ∧ s.lines[i].lost ≤ 255 := hb i
  · exact toNat_ofNat_byte (Nat.lt_trans (Bool.toNat_lt _) (by decide))
  · exact beNat_beBytes_of_lt 2 _ (by omega)
  · exact toNat_ofNat_byte (by omega)
  · rw [← State.paceActive_eq]
    exact toNat_ofNat_byte (Nat.lt_trans (Bool.toNat_lt _) (by decide))
  · exact toNat_ofNat_byte (by omega)

/-- Settles O17: the block's reading, the refusals, and `State.writeLine_eq_switched`. -/
theorem writeLineSetupRule : Obligations.WriteLineSetupRule := by
  refine ⟨fun l _ => ⟨lineOfBlock_eq_none_iff l, fun u hu => lineOfBlock_carries hu⟩, fun s n block b h hl hr => ?_⟩
  have hc : commandOf 0x10 ≠ some .readStatus ∧ commandOf 0x10 ≠ some .readRecords := by decide
  rw [exec_writeLineSetup b h hl hr, List.cons_append]
  refine ⟨fun hbad => ?_, fun i u hn hu => ?_⟩
  · rw [State.writeLineSetupRule_of_refused hbad, answer_refuse hc.1 hc.2]
  · rw [State.writeLineSetupRule_of_read hn hu]
    refine ⟨fun he hon => ?_, fun he on opens drops p q hon hopens hdrops hp hq => ?_⟩
    · rw [if_pos ⟨he, (s.lineEnabled_iff i).2 hon⟩, answer_refuse hc.1 hc.2]
    · have allowed : ¬ (u.enable = true ∧ s.lineEnabled i = true) := fun ⟨h1, h2⟩ =>
        (s.lineEnabled_iff i).1 h2 (he h1)
      have judged : q = p.pacedRewrite u := by rw [LinePort.pacedRewrite_eq, hq, hp]
      rw [if_neg allowed, answer_accept hc.1 hc.2, State.writeLine_eq_switched he hon hopens hdrops hp, judged]
      rfl

/-- Settles O23: `exec_characterDelivered`, with the mark and the receiver's change written out. -/
theorem characterAtStopBit : Obligations.CharacterAtStopBit := by
  intro i data parityBit stopBit mark s hp hr hm
  obtain rfl : mark = parityMark s.setup.fields.line[i] data parityBit := by
    rw [hm, parityMark]
    cases s.setup.fields.line[i].parity <;> rfl
  exact exec_characterDelivered data parityBit stopBit hp hr

/-- Settles O24: the two rules of `State.takeCharacter`, with the tracking, the piece and the FIFO written out. -/
theorem framerTakesCharacter : Obligations.FramerTakesCharacter := by
  rintro i data parity framing s u p rfl rfl armed ends n harmed hn hends q rfl
  have ht := LinePort.tracked_eq harmed hn hends
  refine ⟨fun hf => ?_, fun piece stored r hf hpiece hstored hr v hv => ?_⟩
  · exact State.takeCharacter_of_discarding parity framing hf ht
  · subst hpiece hstored hr hv
    rw [State.takeCharacter_of_not_discarding parity framing hf ht, LinePort.join_eq, LinePort.offer_eq,
      State.closeTest, setLine_get]
    rfl

/-- Settles O25: the two ways a piece can close. -/
theorem closingPiece : Obligations.ClosingPiece := by
  rintro i cause next s p rfl
  refine ⟨fun ho hq => ?_, fun h kept hk => ?_⟩
  · rw [State.closePiece_of_queued cause next ho hq, State.spanFrom_eq]
    rfl
  · rw [State.closePiece_of_dropped cause next h, State.dropPiece_eq, setLine_get, State.setLine_setLine,
      LinePort.pacedRelease_eq, hk]
    rfl

/-- Settles O26: one rule for each of the line's happenings. -/
theorem lineHappenings : Obligations.LineHappenings := by
  refine ⟨fun i s mark hp hr => ?_, fun i s n hp hr hi => ⟨fun hn => ?_, fun hn u hu => ?_⟩,
    fun i s p hp hl => ⟨fun confirmed => ?_, ?_, fun hr => ?_⟩⟩
  · rw [exec_breakRecognised hp hr, State.takeBreak_eq, State.setReceiver_eq_setLine, setLine_get,
      State.setLine_setLine]
    rfl
  · exact exec_idleStep_of_full hp hr hi hn
  · rw [exec_idleStep_of_counting hp hr hi hn, State.takeIdle_setLine_idle, hu]
    cases s.lines[i].framer <;> rfl
  · subst hl
    exact exec_startEdge i confirmed hp
  · subst hl
    rw [exec_lineReturnsHigh i hp]
    cases s.lines[i].receiver <;> rfl
  · subst hl
    exact exec_lineSettled hp hr

/-- Settles O60: the state is safe, and its values are read off block by block. -/
theorem resetIsSafe : Obligations.ResetIsSafe := by
  refine ⟨⟨rfl, linesBounded_reset, stampWf_reset⟩, rfl,
    fun i => ⟨Piece.empty, State.reset_lines i, Bool.or_true _, rfl⟩, rfl, ?adm, ?array, ?commit,
    State.reset_dir, State.reset_oldestRetained, rfl, rfl, rfl, ?ctrl, ?recov, ?store, ?port, rfl, rfl, rfl, rfl⟩
  case adm => rintro a filling idle rfl rfl rfl; exact ⟨rfl, rfl, rfl, rfl, rfl, rfl, rfl, rfl, rfl, rfl⟩
  case array => rintro a rfl; exact ⟨rfl, rfl, rfl, rfl⟩
  case commit => rintro c rfl; exact ⟨rfl, rfl, rfl, rfl, rfl, rfl, rfl⟩
  case ctrl => rintro c rfl; exact ⟨rfl, rfl, rfl, rfl, rfl, rfl, rfl, rfl, rfl, rfl⟩
  case recov => rintro r rfl; exact ⟨rfl, rfl, rfl, rfl, rfl, rfl, rfl, rfl⟩
  case store => rintro x rfl; exact ⟨rfl, rfl, rfl, rfl, rfl, rfl⟩
  case port => rintro p rfl; exact ⟨rfl, rfl, rfl⟩

end Sys2Proof.Machine

/-! SUPPORT. The timebase, staging and admission (chapter 2) with the fall of PFW_N (R141): one rule for each operation of
the note slot, the clocks, the page buffers, the admission unit and the drain's beginning; and the statements they settle. -/

namespace Sys2Proof.Machine

/-! ### The note slot (R42) -/

/-- The command is taken at its last byte and decided by its rule (R42, R188). -/
theorem exec_appendNote {s : State} {args : List Byte} (b : Byte) (h : s.atArguments 0x23 args)
    (ho : owed .appendNote (args ++ [b]) = 0) (hr : s.ctrl.state ≠ .recovering) :
    exec (.appendNote b) s = .next (State.answer 0x23 (args ++ [b]) (s.appendNoteRule (args ++ [b]))) :=
  takeByte_argument (c := .appendNote) h rfl ho (.inl hr)

/-- A length outside 1 to 240 leaves no byte owed (R188). -/
theorem owed_appendNote_of_bad {b : Byte} (h : b.toNat = 0 ∨ 240 < b.toNat) : owed .appendNote [b] = 0 :=
  if_neg (by omega)

/-- The note is whole with as many payload bytes as its length says (R188). -/
theorem owed_appendNote_of_whole {len : Byte} {payload : List Byte} (h : payload.length = len.toNat) :
    owed .appendNote (len :: payload) = 0 := by
  rw [owed, h, Nat.sub_self, ite_self]

/-- Outside RUNNING the note is refused, whatever its length (R42). -/
theorem State.appendNoteRule_of_not_running {s : State} (args : List Byte) (h : s.ctrl.state ≠ .running) :
    s.appendNoteRule args = s.refuseWith .state := if_pos h

/-- In RUNNING a length outside 1 to 240 is refused (R42). -/
theorem State.appendNoteRule_of_bad {s : State} {b : Byte} (h : s.ctrl.state = .running)
    (hb : b.toNat = 0 ∨ 240 < b.toNat) : s.appendNoteRule [b] = s.refuseWith .badArg := by
  have bad : (byteAt [b] 0).toNat < 1 ∨ 240 < (byteAt [b] 0).toNat := hb.imp_left Nat.lt_one_iff.2
  rw [State.appendNoteRule, if_neg (not_not.2 h), if_pos bad]

/-- In RUNNING the slot decides about a note of good length (R42). -/
theorem State.appendNoteRule_of_good {s : State} {len : Byte} {payload : List Byte} (h : s.ctrl.state = .running)
    (h1 : 1 ≤ len.toNat) (h2 : len.toNat ≤ 240) :
    s.appendNoteRule (len :: payload) = match s.adm.note with
      | some _ => s.refuseWith .busy
      | none => State.accept
        { s with adm := { s.adm with note := some { payload := payload, stamp := s.time.counter } } } := by
  have good : ¬ ((byteAt (len :: payload) 0).toNat < 1 ∨ 240 < (byteAt (len :: payload) 0).toNat) :=
    not_or.2 ⟨Nat.not_lt.2 h1, Nat.not_lt.2 h2⟩
  rw [State.appendNoteRule, if_neg (not_not.2 h), if_neg good]
  cases s.adm.note <;> rfl

/-- Settles O14: the three rules of `State.appendNoteRule`. -/
theorem appendNoteRule : Obligations.AppendNoteRule := by
  intro s b hr
  have hc : commandOf 0x23 ≠ some .readStatus ∧ commandOf 0x23 ≠ some .readRecords := by decide
  refine ⟨fun args h _ ho hs => ?_, fun h hs hb => ?_, fun len payload h hs hmax hlen => ?_⟩
  · rw [exec_appendNote b h ho hr, State.appendNoteRule_of_not_running _ hs, answer_refuse hc.1 hc.2]
  · rw [exec_appendNote b h (owed_appendNote_of_bad hb) hr, List.nil_append, State.appendNoteRule_of_bad hs hb,
      answer_refuse hc.1 hc.2]
  · have whole : owed .appendNote (len :: payload ++ [b]) = 0 :=
      owed_appendNote_of_whole (List.length_append.trans hlen)
    rw [exec_appendNote b h whole hr, List.cons_append, State.appendNoteRule_of_good hs (by omega) hmax]
    cases s.adm.note with
    | some _ => exact congrArg _ (answer_refuse hc.1 hc.2)
    | none => exact congrArg _ (answer_accept hc.1 hc.2)

/-! ### The stamp tick (R25, R26, R37, R54) -/

/-- The counter rises by 1 below the value at which it saturates (R26). -/
theorem tickValue_eq (n : Nat) : tickValue n = if n < 0xFFFFFFFFFFFF then n + 1 else n := by
  unfold tickValue Config.stampMax
  split <;> split <;> omega

/-- The clock of a buffer without records stands (R37). -/
theorem Buffer.runClock_eq (micros : Nat) (b : Buffer) :
    b.runClock micros = { b with clock := b.clock + if b.count = 0 then 0 else micros } := by
  unfold Buffer.runClock
  split <;> rfl

/-- The running time of a SUSPENDED erase stands (R54). -/
theorem Erase.run_eq (micros : Nat) (e : Erase) :
    e.run micros = { e with runMicros := e.runMicros + if e.cond = .suspended then 0 else micros } := by
  unfold Erase.run
  split <;> rfl

/-- Settles O27: the tick's value, and the clocks that run on with it. -/
theorem stampTickRule : Obligations.StampTickRule := by
  rintro s n run hp hn rfl
  rw [← tickValue_eq] at hn
  subst hn
  have herase (m : Nat) : Erase.run m = fun e =>
      { e with runMicros := e.runMicros + if e.cond = .suspended then 0 else m } := funext (Erase.run_eq m)
  have run : execStampTick s = _ := live_of_powered hp
  rw [exec, run]
  simp only [Buffer.runClock_eq, herase]
  split <;> rfl

/-! ### The page buffers (R36) -/

/-- A page buffer keeps its content when the other one is replaced. -/
theorem State.setBuf_buf_other (b : BufId) (v : Buffer) (s : State) :
    (s.setBuf b v).adm.buf b.other = s.adm.buf b.other := by cases b <;> rfl

/-- A page buffer and the other one are the two of the admission unit. -/
theorem State.setBuf_eq (b : BufId) (v : Buffer) (s : State) :
    s.setBuf b v = { s with adm := { s.adm with bufP := (s.setBuf b v).adm.bufP, bufQ := (s.setBuf b v).adm.bufQ } } := by
  cases b <;> rfl

/-- The roles of the two buffers say which one is FILLING (R36). -/
theorem Admission.filling_congr {a c : Admission} (hp : a.bufP.role = c.bufP.role) (hq : a.bufQ.role = c.bufQ.role) :
    a.filling = c.filling := by
  rw [Admission.filling, hp, hq, Admission.filling]

/-- What stands FILLING after a replacement that keeps the buffer's role (R36). -/
theorem State.setBuf_filling {b : BufId} {v : Buffer} {s : State} (h : v.role = (s.adm.buf b).role) :
    (s.setBuf b v).adm.filling = s.adm.filling := by
  cases b
  · exact Admission.filling_congr h rfl
  · exact Admission.filling_congr rfl h

/-! ### The flush age (R37) -/

/-- The flush-age clock of the filling buffer passes the flush age (R37). -/
theorem exec_flushAgeReached {s u : State} {b : BufId} (hp : s.powered = true) (hf : s.adm.filling = some b)
    (hc : (s.adm.buf b).count ≠ 0) (ha : s.setup.fields.journal.flushAge ≠ 0)
    (hr : (s.adm.buf b).reachedAge < s.setup.fields.journal.flushAge)
    (hu : u = s.setBuf b { s.adm.buf b with reachedAge := s.setup.fields.journal.flushAge }) :
    exec .flushAgeReached s = .next ((if s.ctrl.state = .running then u.closeFilling else u).settle false) := by
  have arises : (s.fillingHolds && s.setup.fields.journal.flushAge != 0
      && decide (s.fillingReached < s.setup.fields.journal.flushAge)) = true := by
    simp only [State.fillingHolds, State.fillingReached, hf, hr, bne_iff_ne.2 hc, bne_iff_ne.2 ha, decide_true,
      Bool.and_self]
  have marked : s.markReached s.setup.fields.journal.flushAge = u := by
    rw [State.markReached, hf, hu]
    dsimp only
    rw [max_eq_right (Nat.le_of_lt hr)]
  have state : s.ctrl.state = u.ctrl.state := by rw [hu, State.setBuf_ctrl]
  have run : execFlushAgeReached s = _ := live_of_powered hp
  rw [exec, run, State.ifArises, if_pos arises, marked, state]

/-- A filling buffer that holds records and has reached the flush age owes its close (R37). -/
theorem State.flushOwed_of_reached {s : State} {b : BufId} (hf : s.adm.filling = some b)
    (hc : (s.adm.buf b).count ≠ 0) (ha : s.setup.fields.journal.flushAge ≠ 0)
    (hr : s.setup.fields.journal.flushAge ≤ (s.adm.buf b).reachedAge) : s.flushOwed = true := by
  simp only [State.flushOwed, hf, bne_iff_ne.2 hc, bne_iff_ne.2 ha, hr, decide_true, Bool.and_self]

/-! ### Closing, taking and releasing a buffer (R36, R65, R77, R78) -/

/-- The buffer is COMMITTING, and the commit path holds it (R65). -/
def State.taken (b : BufId) (s : State) : State :=
  State.setBuf b { s.adm.buf b with role := .committing } { s with commit := { s.commit with holding := some b } }

/-- What follows the taking of a buffer (R65, R77, R78). -/
theorem State.takeBuffer_eq (b : BufId) (s : State) :
    s.takeBuffer b = if s.commit.phase = .halted then s.taken b
      else if s.commit.drainLoss then (s.taken b).releaseHeld else (s.taken b).seekTarget := by
  cases b <;> rfl

/-- The buffer is CLOSED, and an IDLE other one FILLING (R36). -/
def State.closed (b : BufId) (s : State) : State :=
  (s.setBuf b { s.adm.buf b with role := .closed }).setBuf b.other
    { s.adm.buf b.other with
      role := if (s.adm.buf b.other).role = .idle then .filling else (s.adm.buf b.other).role }

/-- The commit path does not see a buffer closed. -/
theorem State.closed_commit (b : BufId) (s : State) : (s.closed b).commit = s.commit := by cases b <;> rfl

/-- With no buffer FILLING there is nothing to close (R36). -/
theorem State.closeFilling_of_none {s : State} (h : s.adm.filling = none) : s.closeFilling = s := by
  rw [State.closeFilling, h]

/-- An empty buffer is not closed (R36). -/
theorem State.closeFilling_of_empty {s : State} {b : BufId} (hf : s.adm.filling = some b)
    (hc : (s.adm.buf b).count = 0) : s.closeFilling = s := by
  rw [State.closeFilling, hf]
  exact if_pos hc

/-- A buffer that holds records is closed, and taken where the commit path holds none (R36, R65). -/
theorem State.closeFilling_of_records {s : State} {b : BufId} (hf : s.adm.filling = some b)
    (hc : (s.adm.buf b).count ≠ 0) :
    s.closeFilling = if s.commit.holding = none then (s.closed b).takeBuffer b else s.closed b := by
  have idle : (if (s.adm.buf b.other).role = .idle
        then (s.setBuf b { s.adm.buf b with role := .closed }).setBuf b.other { s.adm.buf b.other with role := .filling }
        else s.setBuf b { s.adm.buf b with role := .closed }) = s.closed b := by
    unfold State.closed
    split
    · rfl
    · cases b <;> rfl
  have holds : (s.closed b).commit.holding.isNone = true ↔ s.commit.holding = none := by
    rw [State.closed_commit, Option.isNone_iff_eq_none]
  rw [State.closeFilling, hf]
  dsimp only
  rw [if_neg hc, State.setBuf_buf_other, idle]
  exact if_congr holds rfl rfl

/-- The buffer the commit path holds is emptied and given its role, and the path is free (R36, R77; log entry 44). -/
theorem State.releaseHeld_of_holding {s : State} {b : BufId} (h : s.commit.holding = some b) :
    s.releaseHeld = State.setBuf b (Buffer.empty (if (s.adm.buf b.other).role = .filling then .idle else .filling))
      { s with commit := { s.commit with holding := none, leavingBlocked := false,
                                         phase := if s.commit.phase = .halted then .halted else .idle } } := by
  rw [State.releaseHeld, h]
  cases b <;> rfl

/-- Where the commit path holds nothing and one buffer is not CLOSED, the other one is taken if it is, but not in HALTED
(R65, R77). -/
theorem State.takeClosed_of_not_closed {s : State} {b : BufId} (hh : s.commit.holding = none)
    (hb : (s.adm.buf b).role ≠ .closed) :
    s.takeClosed = if s.commit.phase ≠ .halted ∧ (s.adm.buf b.other).role = .closed
      then s.takeBuffer b.other else s := by
  rw [State.takeClosed, hh]
  by_cases hp : s.commit.phase = .halted
  · rw [if_pos (Or.inl hp), if_neg fun h => h.1 hp]
  · rw [if_neg (not_or.2 ⟨hp, nofun⟩)]
    cases b with
    | p =>
      rw [if_neg (show s.adm.bufP.role ≠ .closed from hb)]
      exact if_congr (and_iff_right hp).symm rfl rfl
    | q =>
      rw [if_neg (show s.adm.bufQ.role ≠ .closed from hb)]
      exact if_congr (and_iff_right hp).symm rfl rfl

/-- After a release the other buffer is taken if it is CLOSED, but not in HALTED (R65, R77). -/
theorem State.takeClosed_releaseHeld {s : State} {b : BufId} (h : s.commit.holding = some b) :
    s.releaseHeld.takeClosed = if s.commit.phase ≠ .halted ∧ (s.adm.buf b.other).role = .closed
      then s.releaseHeld.takeBuffer b.other else s.releaseHeld := by
  have released := State.releaseHeld_of_holding h
  have free : s.releaseHeld.commit.holding = none := by rw [released, State.setBuf_commit]
  have emptied : (s.releaseHeld.adm.buf b).role ≠ .closed := by
    rw [released, setBuf_buf, Buffer.empty]
    split <;> exact nofun
  have phase : s.releaseHeld.commit.phase ≠ .halted ↔ s.commit.phase ≠ .halted := by
    rw [released, State.setBuf_commit]
    by_cases hp : s.commit.phase = .halted <;> simp [hp]
  have other : s.releaseHeld.adm.buf b.other = s.adm.buf b.other := by rw [released, State.setBuf_buf_other]
  rw [State.takeClosed_of_not_closed free emptied, other]
  exact if_congr (and_congr_left' phase) rfl rfl

/-- Settles O28: the flush age reached, and the four ways the filling buffer can be dealt with. -/
theorem flushAndClosing : Obligations.FlushAndClosing := by
  refine ⟨?_, fun s => ⟨State.closeFilling_of_none, fun b hf => ⟨State.closeFilling_of_empty hf, fun hc => ?_⟩⟩⟩
  · rintro s u b age hp hf hc rfl ha hr rfl
    refine ⟨exec_flushAgeReached hp hf hc ha hr rfl, State.flushOwed_of_reached (b := b) ?_ ?_ ?_ ?_⟩
    · exact (State.setBuf_filling (by rfl)).trans hf
    · rwa [setBuf_buf]
    · rwa [State.setBuf_setup]
    · rw [State.setBuf_setup, setBuf_buf]
  · rw [State.closeFilling_of_records hf hc]
    cases hh : s.commit.holding with
    | none =>
      refine ⟨(s.closed b).taken b, ?_⟩
      rw [if_pos rfl, State.takeBuffer_eq, State.closed_commit]
      have free : (none : Option BufId) ≠ none ∨ s.commit.phase = .halted ↔ s.commit.phase = .halted :=
        or_iff_right (not_not.2 rfl)
      cases b <;> exact ⟨rfl, rfl, rfl, rfl, rfl, rfl, rfl, (if_congr free rfl rfl).symm⟩
    | some held =>
      have same : { s.commit with holding := some held } = s.commit := by rw [← hh]
      refine ⟨s.closed b, ?_⟩
      rw [if_neg (nofun : ¬ some held = none), if_pos (Or.inl nofun)]
      cases b <;> exact ⟨rfl, rfl, rfl, rfl, rfl, rfl, by simp only [Option.getD_some, same]; rfl, rfl⟩

/-! ### What a release tells the journal controller (R130, R132, R139, R146, R149) -/

/-- A change to another state writes it and raises STATE (R126). -/
theorem State.enter_of_ne {j : JState} {s : State} (h : s.ctrl.state ≠ j) :
    s.enter j = { s with ctrl := { s.ctrl with state := j }
                         events := { s.events with flags := s.events.flags ||| Event.state.mask } } := if_neg h

/-- The end of a stop (R130). -/
theorem State.afterRelease_stopping {s : State} (committed : Bool) (h : s.ctrl.state = .stopping) :
    s.afterRelease committed = if s.staged then s else s.enter .stopped := by
  simp only [State.afterRelease, h]

/-- The end of a stop in FULL (R132). -/
theorem State.afterRelease_full {s : State} (committed : Bool) (h : s.ctrl.state = .full) :
    s.afterRelease committed =
      if s.ctrl.stopRequested ∧ !s.ctrl.spaceWait ∧ !s.adm.exhausted ∧ !s.staged then s.fullToStopped else s := by
  simp only [State.afterRelease, h]

/-- The end of a Format (R139). -/
theorem State.afterRelease_formatting {s : State} (committed : Bool) (h : s.ctrl.state = .formatting) :
    s.afterRelease committed =
      if committed ∧ s.ctrl.format = .starting then
        ((s.enter .stopped).withCtrl fun c => { c with format := .noFormat, formatDone := [] }).endHostOp .ok
      else s := by
  simp only [State.afterRelease, h]

/-- The buffer that a drain waited for is released, and the SHUTDOWN step follows (R146). -/
theorem State.afterRelease_finishing {s : State} (committed : Bool) (h : s.ctrl.state = .draining)
    (hd : s.ctrl.drain = .finishing) : s.afterRelease committed = s.shutdownStep := by
  simp only [State.afterRelease, h, hd]

/-- The SHUTDOWN's buffer is released, and the drain ends (R149). -/
theorem State.afterRelease_closing {s : State} (committed : Bool) (h : s.ctrl.state = .draining)
    (hd : s.ctrl.drain = .closing) :
    s.afterRelease committed = s.drainEnd (if committed then .committed else .lost) := by
  simp only [State.afterRelease, h, hd]

/-- Without a drain in progress DRAINING makes no test. -/
theorem State.afterRelease_noDrain {s : State} (committed : Bool) (h : s.ctrl.state = .draining)
    (hd : s.ctrl.drain = .noDrain) : s.afterRelease committed = s := by
  simp only [State.afterRelease, h, hd]

/-- The other states make no test. -/
theorem State.afterRelease_other {s : State} (committed : Bool)
    (h : s.ctrl.state ∈ [JState.recovering, .running, .stopped, .drained, .failed]) : s.afterRelease committed = s := by
  simp only [List.mem_cons, List.not_mem_nil, or_false] at h
  rcases h with h | h | h | h | h <;> simp only [State.afterRelease, h]

/-- Settles O39: the release with what it takes, and the controller's tests state by state. -/
theorem releasingBuffer : Obligations.ReleasingBuffer := by
  refine ⟨fun s b committed h => ⟨s.releaseHeld, rfl, ?_, ?_, ?_, ?_, ?_, ?_⟩, fun s committed => ⟨?_, ?_, ?_, ?_, ?_⟩⟩
  · rw [State.releaseHeld_of_holding h, State.setBuf_eq]
  · rw [State.releaseHeld_of_holding h, State.setBuf_eq]
  · rw [State.releaseHeld_of_holding h, setBuf_buf]
  · rw [State.releaseHeld_of_holding h, State.setBuf_buf_other]
  · rw [State.release, State.takeClosed_releaseHeld h]
  · rintro x y o rfl
    exact State.takeBuffer_eq o x
  · intro h
    rw [State.afterRelease_stopping committed h, State.enter_of_ne (by rw [h]; exact nofun)]
  · intro h
    rw [State.afterRelease_full committed h]
    refine if_congr (by simp [and_assoc]) ?_ rfl
    exact State.enter_of_ne (by rw [State.withCtrl_ctrl, h]; exact nofun)
  · intro h
    rw [State.afterRelease_formatting committed h, State.enter_of_ne (by rw [h]; exact nofun)]
    rfl
  · intro h
    cases hd : s.ctrl.drain with
    | finishing => exact State.afterRelease_finishing committed h hd
    | closing => exact State.afterRelease_closing committed h hd
    | noDrain => exact State.afterRelease_noDrain committed h hd
  · exact State.afterRelease_other committed

/-! ### Who may be admitted (R29, R30, R31) -/

/-- The states in which the system slot is admissible (R30). -/
theorem JState.admitsSystem_iff (j : JState) : j.admitsSystem = true ↔
    j ∈ [JState.recovering, .running, .stopping, .stopped, .formatting, .draining] := by
  cases j <;> decide

/-- The line candidates are the heads of the queues (R29). -/
theorem State.mem_lineCandidates {s : State} {c : Candidate} :
    c ∈ s.lineCandidates ↔ ∃ (i : LineIx) (d : Descriptor), s.lines[i].queue.head? = some d ∧ c = .line i d := by
  simp only [State.lineCandidates, List.mem_filterMap, List.mem_finRange, true_and, Option.map_eq_some_iff,
    eq_comm (a := c)]

/-- Without seq numbers nothing is admissible (R30). -/
theorem State.admissible_of_exhausted {s : State} (h : s.adm.exhausted = true) : s.admissible = [] := if_pos h

/-- The three parts of the list of admissible candidates (R29, R30). -/
theorem State.mem_admissible {s : State} {c : Candidate} : c ∈ s.admissible ↔ s.adm.exhausted = false ∧
    ((s.ctrl.state.admitsSystem = true ∧ ∃ r, s.adm.sys = some r ∧ c = .sys r)
      ∨ s.ctrl.state = .running ∧ ((∃ (i : LineIx) (d : Descriptor), s.lines[i].queue.head? = some d ∧ c = .line i d)
          ∨ ∃ n, s.adm.note = some n ∧ c = .note n)) := by
  have part {p : Prop} [Decidable p] {l : List Candidate} : c ∈ (if p then l else []) ↔ p ∧ c ∈ l := by
    split <;> simp [*]
  cases he : s.adm.exhausted
  · simp only [State.admissible, he, Bool.false_eq_true, if_false, List.mem_append, part, List.mem_map,
      State.mem_lineCandidates, Option.mem_toList, true_and, eq_comm (b := c)]
  · simp [State.admissible_of_exhausted he]

/-- Where a candidate stands in the order that settles equal stamps (R31): the system slot, lines L0 to L3, the note slot. -/
def Candidate.rank : Candidate → Nat
  | .sys _ => 0
  | .line i _ => i.val + 1
  | .note _ => 5

/-- The line candidates stand in line order (R31). -/
theorem State.lineCandidates_pairwise (s : State) :
    s.lineCandidates.Pairwise fun a b => a.rank < b.rank := by
  refine List.pairwise_filterMap.2 ((List.pairwise_lt_finRange 4).imp ?_)
  simp only [Option.map_eq_some_iff]
  rintro i j hij _ ⟨d, _, rfl⟩ _ ⟨e, _, rfl⟩
  exact Nat.succ_lt_succ hij

/-- The admissible candidates stand in the order that settles equal stamps (R31). -/
theorem State.admissible_pairwise (s : State) : s.admissible.Pairwise fun a b => a.rank < b.rank := by
  have single {α : Type} (o : Option α) (f : α → Candidate) :
      (o.toList.map f).Pairwise fun a b => a.rank < b.rank := by cases o <;> simp
  have working : (s.lineCandidates ++ s.adm.note.toList.map Candidate.note).Pairwise fun a b => a.rank < b.rank := by
    refine List.pairwise_append.2 ⟨s.lineCandidates_pairwise, single _ _, fun a ha b hb => ?_⟩
    obtain ⟨i, d, _, rfl⟩ := State.mem_lineCandidates.1 ha
    obtain ⟨n, _, rfl⟩ := List.mem_map.1 hb
    exact Nat.succ_lt_succ i.isLt
  unfold State.admissible
  split
  · exact .nil
  · refine List.pairwise_append.2 ⟨?_, ?_, fun a ha b hb => ?_⟩
    · split
      · exact single _ _
      · exact .nil
    · split
      · exact working
      · exact .nil
    · split at ha
      · obtain ⟨r, _, rfl⟩ := List.mem_map.1 ha
        split at hb
        · rcases List.mem_append.1 hb with hb | hb
          · obtain ⟨i, d, _, rfl⟩ := State.mem_lineCandidates.1 hb
            exact Nat.succ_pos _
          · obtain ⟨n, _, rfl⟩ := List.mem_map.1 hb
            exact Nat.succ_pos _
        · cases hb
      · cases ha

/-! ### The selected candidate (R31) -/

/-- What is least by a key is in the list. -/
theorem mem_of_leastBy {α : Type} {key : α → Nat} {l : List α} {a : α} (h : leastBy key l = some a) : a ∈ l := by
  induction l with
  | nil => cases h
  | cons b l ih =>
    rw [leastBy] at h
    cases hl : leastBy key l with
    | none => rw [hl] at h; cases h; exact List.mem_cons_self
    | some m =>
      rw [hl] at h
      dsimp only at h
      split at h
      · cases h; exact List.mem_cons_self
      · cases h; exact List.mem_cons_of_mem _ (ih hl)

/-- The first element of least key is the least of the list. -/
theorem leastBy_of_first {α : Type} {key : α → Nat} {a : α} {l r : List α} (hl : ∀ x ∈ l, key a < key x)
    (hr : ∀ x ∈ r, key a ≤ key x) : leastBy key (l ++ a :: r) = some a := by
  induction l with
  | nil =>
    rw [List.nil_append, leastBy]
    cases hm : leastBy key r with
    | none => rfl
    | some m => exact if_pos (hr m (mem_of_leastBy hm))
  | cons b l ih =>
    rw [List.cons_append, leastBy, ih fun x hx => hl x (List.mem_cons_of_mem _ hx)]
    exact if_neg (Nat.not_le.2 (hl b List.mem_cons_self))

/-- The fill limit of a record (R35): a SHUTDOWN may use the whole record area. -/
theorem Buffer.fits_iff (b : Buffer) (s : State) (c : Candidate) : b.fits (s.draft c) = true ↔
    b.data.length + 16 + (s.draft c).payload.length ≤ match c with | .sys (.shutdown _) => 488 | _ => 464 := by
  rw [Buffer.fits, decide_eq_true_iff]
  rcases c with (⟨k, t⟩ | t) | ⟨i, d⟩ | n <;> rfl

/-- An ADMISSION takes the report that stands (R170; log entry 45). -/
theorem exec_admission_of_report {s : State} (hp : s.powered = true) (h : s.adm.reportOwed = true) :
    exec .admission s = .next (s.recoveryEnd.settle false) := by
  have run : execAdmission s = _ := live_of_powered hp
  rw [exec, run, if_pos h]

/-- With no buffer FILLING, or no candidate, an ADMISSION changes nothing (R31). -/
theorem exec_admission_of_none {s : State} (hp : s.powered = true) (h : s.adm.reportOwed = false)
    (hn : s.adm.filling = none ∨ s.selected = none) : exec .admission s = .next s := by
  have run : execAdmission s = _ := live_of_powered hp
  rw [exec, run, if_neg (Bool.eq_false_iff.1 h)]
  rcases hn with hn | hn
  · rw [hn]
  · rw [hn]
    cases s.adm.filling <;> rfl

/-- The selected candidate is admitted if it fits, and otherwise the buffer is closed (R31, R35, R37). -/
theorem exec_admission_of_selected {s : State} {b : BufId} {c : Candidate} (hp : s.powered = true)
    (h : s.adm.reportOwed = false) (hf : s.adm.filling = some b) (hs : s.selected = some c) :
    exec .admission s = .next
      ((if (s.adm.buf b).fits (s.draft c) then s.admitCandidate b c else s.closeFilling).settle false) := by
  have run : execAdmission s = _ := live_of_powered hp
  rw [exec, run, if_neg (Bool.eq_false_iff.1 h), hf, hs]

/-- Settles O29: membership and order of the candidates, and the three things an ADMISSION can be. -/
theorem admissionRule : Obligations.AdmissionRule := by
  refine ⟨fun s => ⟨fun c => ?_, ?_⟩, fun s hp => ⟨exec_admission_of_report hp, fun h hn => ?_, ?_⟩⟩
  · rw [State.mem_admissible, JState.admitsSystem_iff]
    refine and_congr_right fun _ => ?_
    cases c <;> simp [and_comm]
  · refine List.pairwise_map.2 (s.admissible_pairwise.imp ?_)
    intro a b h
    cases a <;> cases b <;> exact h
  · exact exec_admission_of_none hp h (hn.imp_right fun hn => by rw [State.selected, hn, leastBy])
  · intro b c l r h hf hl hbefore hbehind
    have first : s.selected = some c := by rw [State.selected, hl, leastBy_of_first hbefore hbehind]
    rw [exec_admission_of_selected hp h hf first]
    exact congrArg (fun t => Host.Outcome.next (State.settle false t)) (if_congr (Buffer.fits_iff _ s c) rfl rfl)

/-! ### What an admission causes beside its record (R34, R39, R126, R133, R170) -/

/-- A START closes its buffer by its cause, and outside RUNNING whatever its cause (R39). -/
theorem Candidate.closes_start (j : JState) (k : StartContent) (t : Nat) : (Candidate.sys (.start k t)).closes j =
    (decide (k.cause ∈ [StartCause.powerOn, .resetPin, .hostReset, .format]) || j != .running) := by
  obtain ⟨cause, _⟩ := k
  cases cause <;> rfl

/-- Exhausted numbers are reported in RUNNING, STOPPING and STOPPED (R126, R133). -/
theorem State.reportExhausted_eq (s : State) : s.reportExhausted = match s.ctrl.state with
    | .running => s.enter .full
    | .stopping | .stopped => (s.withCtrl fun c => { c with stopRequested := true }).enter .full
    | _ => s := by
  unfold State.reportExhausted
  cases s.ctrl.state <;> rfl

/-- Settles O31: the close by `Candidate.closes_start`, and the reports by journal state. -/
theorem admissionCloses : Obligations.AdmissionCloses := by
  refine ⟨?_, fun s => ?_⟩
  · rintro s u b c closes hcloses rfl
    obtain rfl : closes = c.closes s.ctrl.state := by
      rw [hcloses]
      rcases c with (⟨k, t⟩ | t) | ⟨i, d⟩ | n
      · exact (Candidate.closes_start _ k t).symm
      all_goals rfl
    rw [State.admitCandidate, State.closeAfter, State.admitReport]
    simp only [Bool.or_eq_true]
    rfl
  · rw [State.reportExhausted_eq]
    cases h : s.ctrl.state
    case running => exact State.enter_of_ne (by rw [h]; exact nofun)
    case stopping | stopped => exact State.enter_of_ne (by rw [State.withCtrl_ctrl, h]; exact nofun)
    all_goals rfl

/-! ### The bytes of a record (R33, R148, R198) -/

/-- The payload stands behind the header (R198). -/
theorem Draft.bytes_drop (d : Draft) (seq : Nat) : (d.bytes seq).drop 16 = d.payload := rfl

/-- A record has its 16 header bytes and its payload (R198). -/
theorem Draft.bytes_length (d : Draft) (seq : Nat) : (d.bytes seq).length = 16 + d.payload.length := by
  rw [Draft.bytes, List.length_append]
  rfl

/-- The seq of a record reads back (R198). -/
theorem Draft.recSeq_bytes (d : Draft) {seq : Nat} (h : seq < 2 ^ 32) : recSeq (d.bytes seq) = seq :=
  beNat_beBytes_of_lt 4 seq h

/-- The stamp of a record reads back (R198). -/
theorem Draft.recStamp_bytes {d : Draft} (seq : Nat) (h : d.stamp < 2 ^ 48) : recStamp (d.bytes seq) = d.stamp :=
  beNat_beBytes_of_lt 6 d.stamp h

/-- The span of a record reads back (R198). -/
theorem Draft.span_bytes {d : Draft} (seq : Nat) (h : d.span < 2 ^ 16) : fieldAt (d.bytes seq) 14 2 = d.span :=
  beNat_beBytes_of_lt 2 d.span h

/-- The length of a payload reads back (R198). -/
theorem Draft.payloadLength_bytes {d : Draft} (seq : Nat) (h : d.payload.length < 256) :
    (byteAt (d.bytes seq) 3).toNat = d.payload.length := toNat_ofNat_byte h

/-- A SHUTDOWN's payload has 8 bytes, two for each line: its queued count and its lost count (R148). -/
theorem shutdownPayload_bytes (lines : Vector LinePort 4) : (shutdownPayload lines).length = 8
    ∧ ∀ i : LineIx, byteAt (shutdownPayload lines) (2 * i.val) = BitVec.ofNat 8 lines[i].queue.length
        ∧ byteAt (shutdownPayload lines) (2 * i.val + 1) = BitVec.ofNat 8 lines[i].lost := by
  have split : lines = #v[lines[0], lines[1], lines[2], lines[3]] := by
    ext i hi
    interval_cases i <;> rfl
  rw [split]
  refine ⟨rfl, fun i => ?_⟩
  fin_cases i <;> exact ⟨rfl, rfl⟩

/-! ### The record an admission writes (R32, R33, R34) -/

/-- The stamp of a record is its candidate's (R33). -/
theorem State.draft_stamp (s : State) (c : Candidate) : (s.draft c).stamp = c.stamp := by
  rcases c with (⟨k, t⟩ | t) | ⟨i, d⟩ | n <;> rfl

/-- The seq after a seq of 32 bits (R34). -/
theorem seqAfter_eq {n : Nat} (h : n < 2 ^ 32) : seqAfter n = if n = 0xFFFFFFFF then 0 else n + 1 :=
  if_congr (show 0xFFFFFFFF ≤ n ↔ n = 0xFFFFFFFF by omega) rfl rfl

/-- A candidate that leaves its place leaves the page buffers and the numbers alone (R32). -/
theorem State.takeCandidate_adm (c : Candidate) (s : State) : (s.takeCandidate c).adm =
    { s.adm with note := (s.takeCandidate c).adm.note, sys := (s.takeCandidate c).adm.sys } := by
  rcases c with (⟨k, t⟩ | t) | ⟨i, d⟩ | n <;> rfl

/-- The buffer has one more record (R32). -/
theorem State.admitted_buf (b : BufId) (c : Candidate) (s : State) :
    (s.admitted b c).adm.buf b = (s.adm.buf b).append s.adm.nextSeq ((s.draft c).bytes s.adm.nextSeq) := by
  rw [State.admitted, State.writeRecord, State.takeCandidate_adm]
  cases b <;> rfl

/-- What an admission writes beside its record's buffer and the lines (R28, R32, R34). -/
theorem State.admitted_eq (b : BufId) (c : Candidate) (s : State) : s.admitted b c = { s with
    adm := { (s.takeCandidate c).adm with
      nextSeq := seqAfter s.adm.nextSeq
      exhausted := s.adm.exhausted || decide (Config.max32 ≤ s.adm.nextSeq)
      bufP := match b with | .p => (s.admitted b c).adm.buf b | .q => s.adm.bufP
      bufQ := match b with | .p => s.adm.bufQ | .q => (s.admitted b c).adm.buf b }
    lines := (s.takeCandidate c).lines
    time := (s.takeCandidate c).time } := by
  rcases c with (⟨k, t⟩ | t) | ⟨i, d⟩ | n <;> cases b <;> rfl

/-- Settles O30: the record's buffer, the rest of the state, and the record's bytes kind by kind. -/
theorem admittedRecord : Obligations.AdmittedRecord := by
  rintro s b c seq old new rfl rfl rfl hlen hseq hstamp
  have last : Config.max32 ≤ s.adm.nextSeq ↔ s.adm.nextSeq = 0xFFFFFFFF := by
    unfold Config.max32
    omega
  have lines : (s.admitted b c).lines = (s.takeCandidate c).lines := by rw [State.admitted_eq]
  refine ⟨(s.draft c).bytes s.adm.nextSeq, State.admitted_buf b c s, ?frame, Draft.bytes_drop _ _,
    Draft.recSeq_bytes _ hseq, ?stamp, Draft.payloadLength_bytes _ hlen, Draft.bytes_length _ _, ?kind⟩
  case frame =>
    conv_lhs => rw [State.admitted_eq, seqAfter_eq hseq, decide_eq_decide.2 last]
    rw [lines]
    rcases c with (⟨k, t⟩ | t) | ⟨i, d⟩ | n <;> rfl
  case stamp =>
    rw [Draft.recStamp_bytes _ (by rwa [State.draft_stamp]), State.draft_stamp]
  case kind =>
    rw [lines]
    rcases c with (⟨k, t⟩ | t) | ⟨i, d⟩ | n
    · refine ⟨rfl, rfl, rfl, rfl, Draft.span_bytes _ (Nat.two_pow_pos 16), rfl, ?_, ?_, rfl, rfl,
        beNat_beBytes 4 _, beNat_beBytes 2 _, beNat_beBytes 2 _, rfl, rfl, rfl⟩
      · obtain ⟨cause, _⟩ := k
        cases cause <;> rfl
      · obtain ⟨_, _, _, source, _⟩ := k
        cases source <;> rfl
    · obtain ⟨hl, hi⟩ := shutdownPayload_bytes s.lines
      refine ⟨rfl, rfl, rfl, rfl, Draft.span_bytes _ (Nat.two_pow_pos 16),
        (Draft.bytes_length _ _).trans (congrArg (16 + ·) hl), fun i => ?_⟩
      have counts := hi i
      fin_cases i <;> exact counts
    · refine ⟨?_, rfl, toNat_ofNat_byte (show 16 * 1 + i.val < 256 by omega), rfl, rfl,
        fun h => Draft.span_bytes _ h⟩
      rw [State.takeCandidate, LinePort.takeHead, LinePort.pacedRelease_eq]
      rfl
    · exact ⟨rfl, rfl, rfl, rfl, Draft.span_bytes _ (Nat.two_pow_pos 16), rfl⟩

/-! ### A fall of PFW_N (R141, R144) -/

/-- A part that takes no notice of the pin, or is draining or drained already, keeps everything but the pin (R141, R153). -/
theorem exec_pfwNFall_of_unheard {s : State} (h : s.pins.pfwN = true)
    (hu : s.powered = false ∨ s.inReset = true ∨ s.ctrl.state = .draining ∨ s.ctrl.state = .drained) :
    exec .pfwNFall s = .next (s.setPfwN false) := by
  rw [exec, execPfwNFall, State.ifArises, if_pos h]
  dsimp only
  refine congrArg _ ?_
  split
  · rfl
  · next hd =>
    rw [State.deaf, State.setPfwN_powered, State.setPfwN_inReset, Bool.or_eq_true, not_or, Bool.not_eq_true',
      Bool.not_eq_false, Bool.not_eq_true] at hd
    have hs : s.ctrl.state = .draining ∨ s.ctrl.state = .drained := by simpa [hd] using hu
    rw [State.setPfwN_ctrl]
    rcases hs with hs | hs <;> rw [hs]

/-- A part with supply and out of reset heeds the pin (R153). -/
theorem State.not_deaf {s : State} (hp : s.powered = true) (hr : s.inReset = false) : s.deaf = false := by
  rw [State.deaf, hp, hr]
  rfl

/-- In RECOVERING recovery is abandoned (R141, R173). -/
theorem exec_pfwNFall_of_recovering {s : State} (h : s.pins.pfwN = true) (hp : s.powered = true)
    (hr : s.inReset = false) (hs : s.ctrl.state = .recovering) :
    exec .pfwNFall s = .next ((s.setPfwN false).abandonRecovery.settle false) := by
  have heard : (s.setPfwN false).deaf = false := State.not_deaf hp hr
  rw [exec, execPfwNFall, State.ifArises, if_pos h]
  dsimp only
  rw [heard, State.setPfwN_ctrl, hs]
  rfl

/-- In a working state the drain begins (R141). -/
theorem exec_pfwNFall_of_working {s : State} (h : s.pins.pfwN = true) (hp : s.powered = true)
    (hr : s.inReset = false) (hs : s.ctrl.state ∉ [JState.recovering, .draining, .drained]) :
    exec .pfwNFall s = .next ((s.setPfwN false).beginDrain.settle false) := by
  have heard : (s.setPfwN false).deaf = false := State.not_deaf hp hr
  rw [exec, execPfwNFall, State.ifArises, if_pos h]
  dsimp only
  rw [heard, State.setPfwN_ctrl]
  cases hj : s.ctrl.state
  case recovering | draining | drained => exact absurd (by rw [hj]; decide) hs
  all_goals rfl

/-! ### Recovery abandoned (R81, R105, R173) -/

/-- The working setup after an abandon (R173, R177). -/
theorem State.abandonLoad_eq (s : State) : s.abandonLoad =
    { s with setup := if s.recov.phase = .loading then WorkingSetup.default else s.setup } := by
  unfold State.abandonLoad
  split <;> rfl

/-- The entries still UNKNOWN become DIRTY (R105). -/
theorem Directory.unknownToDirty_getElem (d : Directory) (j : JSector) :
    d.unknownToDirty[j] = if d[j].state = .unknown then Entry.blank .dirty else d[j] :=
  mapAll_getElem d _ j

/-- A requester's operation in flight is no longer wanted (R58). -/
theorem State.disown_eq (who : Requester) (s : State) : s.disown (· == who) = { s with array := { s.array with
    op := s.array.op.map fun r => if r.requester = who then { r with wanted := false } else r } } := by
  simp only [State.disown, beq_iff_eq]

/-- What an abandoned recovery leaves (R81, R105, R173; log entries 33, 45 and 52). -/
theorem State.abandonRecovery_eq {s : State} (h : s.ctrl.state = .recovering) : s.abandonRecovery = { s with
    ctrl := { s.ctrl with state := .drained, saved := some .recovering }
    events := { s.events with flags := s.events.flags ||| Event.state.mask }
    recov := RecoveryUnit.reset
    setup := if s.recov.phase = .loading then WorkingSetup.default else s.setup
    commit := { s.commit with
      holding := none, phase := .idle
      leavingBlocked := if s.commit.holding = none then s.commit.leavingBlocked else false }
    adm := { s.adm with
      sys := none, reportOwed := false
      bufP := if s.commit.holding = some .p then
        Buffer.empty (if s.adm.bufQ.role = .filling then .idle else .filling) else s.adm.bufP
      bufQ := if s.commit.holding = some .q then
        Buffer.empty (if s.adm.bufP.role = .filling then .idle else .filling) else s.adm.bufQ }
    array := { s.array with
      waiting := [], made := []
      op := s.array.op.map fun r => if r.requester = .recovery then { r with wanted := false } else r }
    dir := s.dir.unknownToDirty } := by
  rw [State.abandonRecovery, State.abandonLoad_eq, refuseStart_eq, State.stopRecovery, State.disown_eq,
    State.enter_of_ne]
  · rfl
  · show s.ctrl.state ≠ .drained
    rw [h]
    exact nofun

/-! ### The beginning of a drain (R141, R145) -/

/-- The journal controller at the beginning of a drain (R135, R141, R145). -/
theorem State.enterDraining_eq {s : State} (h : s.ctrl.state ≠ .draining) : s.enterDraining = { s with
    ctrl := { s.ctrl with
      state := .draining, saved := some s.ctrl.state, shutdownOutcome := .noOutcome, opKind := .noOp
      opOutcome := if s.ctrl.opKind = .noOp then s.ctrl.opOutcome else .aborted }
    events := { s.events with flags := s.events.flags ||| Event.state.mask
      ||| if s.ctrl.opKind = .noOp then 0 else Event.opDone.mask } } := by
  rw [State.enterDraining, State.enter_of_ne (by exact h)]
  by_cases ho : s.ctrl.opKind = .noOp
  · simp only [State.withCtrl, ho, if_true, BitVec.ofNat_eq_ofNat, BitVec.or_zero]
  · simp only [State.withCtrl, ho, if_false]
    rfl

/-- A request whose refusal leaves this sector DIRTY (R99, R102). -/
def Request.dirties (j : JSector) (r : Request) : Bool :=
  r.kind == .erase && (r.requester == .reclaim || r.requester == .format) && r.sector == sectorOf j

/-- Of two happenings that leave the same value, either leaves it. -/
theorem ite_ite_or {α : Type} (a b : Bool) (x y : α) :
    (if a then x else if b then x else y) = if b || a then x else y := by cases a <;> cases b <;> rfl

/-- A sector that becomes DIRTY twice is DIRTY once (R99). -/
theorem ite_dirty_or (a b : Bool) (x : Entry) :
    (if a then { (if b then { x with state := .dirty } else x) with state := .dirty }
      else if b then { x with state := .dirty } else x)
      = if b || a then { x with state := .dirty } else x := by cases a <;> cases b <;> rfl

/-- Of two happenings that end the read of a seek, either ends it (R114). -/
theorem SeekState.map_not_map_not (a b : Bool) (o : Option SeekState) :
    (o.map fun k => { k with outstanding := k.outstanding && !a }).map
        (fun k => { k with outstanding := k.outstanding && !b })
      = o.map fun k => { k with outstanding := k.outstanding && !(a || b) } := by
  rw [Option.map_map]
  refine congrArg (Option.map · o) (funext fun k => ?_)
  rw [Function.comp_apply, Bool.not_or, Bool.and_assoc]

/-- What refusing requests one after the other changes (R63, R99, R102, R110, R114). -/
theorem State.foldl_refuse_eq (l : List Request) (s : State) : ∃ d : Directory,
    l.foldl (fun s r => s.refuse r) s = { s with
      dir := d
      reclaim := if l.any (fun r => r.requester == .reclaim) then ⟨.idle, none⟩ else s.reclaim
      cursor := { s.cursor with
        buffer := if l.any (fun r => r.requester == .cursorFetch) then .empty else s.cursor.buffer
        seek := s.cursor.seek.map fun k =>
          ⟨k.stamp, k.position, k.outstanding && !l.any fun r => r.requester == .cursorSeek⟩ } }
    ∧ ∀ j : JSector, d[j] = if l.any (Request.dirties j) then { s.dir[j] with state := .dirty } else s.dir[j] := by
  induction l generalizing s with
  | nil =>
    refine ⟨s.dir, ?_, fun j => rfl⟩
    cases h : s.cursor.seek <;> simp [← h]
  | cons r l ih =>
    obtain ⟨d, hl, hd⟩ := ih (s.refuse r)
    obtain ⟨hr, hj⟩ := refuse_eq r s
    refine ⟨d, ?_, fun j => ?_⟩
    · rw [List.foldl_cons, hl, hr]
      dsimp only
      rw [ite_ite_or, ite_ite_or, SeekState.map_not_map_not]
      rfl
    · rw [hd, hj, List.any_cons]
      exact ite_dirty_or _ _ _

/-- What refusing the waiting requests changes (R63). -/
theorem State.refuseWaiting_eq {s : State} {refused : List Request}
    (h : refused = (s.array.waiting ++ s.array.made).filter fun r => r.requester != .commit) : ∃ d : Directory,
    s.refuseWaiting = { s with
      array := { s.array with waiting := s.array.waiting.filter fun r => r.requester == .commit
                              made := s.array.made.filter fun r => r.requester == .commit }
      dir := d
      reclaim := if refused.any (fun r => r.requester == .reclaim) then ⟨.idle, none⟩ else s.reclaim
      cursor := { s.cursor with
        buffer := if refused.any (fun r => r.requester == .cursorFetch) then .empty else s.cursor.buffer
        seek := s.cursor.seek.map fun k =>
          ⟨k.stamp, k.position, k.outstanding && !refused.any fun r => r.requester == .cursorSeek⟩ } }
    ∧ ∀ j : JSector, d[j] = if refused.any (Request.dirties j) then { s.dir[j] with state := .dirty } else s.dir[j] := by
  obtain ⟨d, hl, hd⟩ := State.foldl_refuse_eq refused (s.withdraw (· != .commit))
  have kept : (fun r : Request => !(r.requester != .commit)) = fun r => r.requester == .commit :=
    funext fun r => Bool.not_not _
  refine ⟨d, ?_, hd⟩
  rw [State.refuseWaiting, ← h, hl, State.withdraw, kept]

/-- The setup store at the beginning of a drain (R185). -/
theorem State.storeAbort_eq (s : State) : s.storeAbort = { s with
    array := { s.array with
      op := s.array.op.map fun r => if r.requester = .setup then { r with wanted := false } else r
      erase := s.array.erase.map fun e => { e with wanted := e.wanted && e.requester != .setup } }
    store := { s.store with phase := .idle, copy := none, seekOwed := false } } := by
  have erase : (fun e : Erase => if e.requester = .setup then { e with wanted := false } else e)
      = fun e => { e with wanted := e.wanted && e.requester != .setup } := by
    funext e
    split
    · next h => simp [h]
    · next h => rw [bne_iff_ne.2 h, Bool.and_true]
  rw [State.storeAbort, erase, State.disown_eq]
  rfl

/-- The part at the beginning of a drain, before the commit path takes its effects (R40, R57, R63, R140, R141, R185). -/
def State.drainOpened (s : State) : State :=
  s.enterDraining.drainAdmission.abandonErase.refuseWaiting.storeAbort.dropFormat

/-- A page buffer as the drain finds it beside the other one: a CLOSED one reopens, and an empty FILLING one beside a CLOSED
one becomes IDLE (R40; log entry 22). -/
def Buffer.reopened (b o : Buffer) : Buffer :=
  if b.role = .closed then { b with role := .filling }
  else if o.role = .closed ∧ b.role = .filling ∧ b.count = 0 then { b with role := .idle } else b

/-- The admission unit at the beginning of a drain (R40). -/
theorem State.drainAdmission_eq (s : State) : s.drainAdmission = { s with adm := { s.adm with
    note := none, sys := none
    bufP := s.adm.bufP.reopened s.adm.bufQ, bufQ := s.adm.bufQ.reopened s.adm.bufP } } := rfl

/-- What a drain leaves of the erase in existence: nothing of a SUSPENDED one, and any other is to stop, for the setup store
unwanted (R57, R185). -/
def Erase.drained (e : Erase) : Option Erase :=
  if e.cond = .suspended then none else some { e with cond := .stopPending, wanted := e.wanted && e.requester != .setup }

/-- The drain stops the erase first, and the setup store then gives it up (R57, R185). -/
theorem Erase.map_unwanted_bind_stopped (o : Option Erase) :
    (o.bind fun e => if e.cond = .suspended then none else some { e with cond := .stopPending }).map
      (fun e => { e with wanted := e.wanted && e.requester != .setup }) = o.bind Erase.drained := by
  cases o with
  | none => rfl
  | some e =>
    simp only [Option.bind_some, Erase.drained]
    split <;> rfl

/-- What the beginning of a drain changes before the commit path's effects. -/
theorem State.drainOpened_eq {s : State} {refused : List Request} (h : s.ctrl.state ≠ .draining)
    (hr : refused = (s.array.waiting ++ s.array.made).filter fun r => r.requester != .commit) :
    ∃ (m : List Host.Cell) (n : Nat) (d : Directory),
    s.drainOpened = { s with
      ctrl := { s.enterDraining.ctrl with format := .noFormat, formatDone := [] }
      events := s.enterDraining.events
      adm := s.drainAdmission.adm
      array := { s.array with
        mem := m
        waiting := s.array.waiting.filter fun r => r.requester == .commit
        made := s.array.made.filter fun r => r.requester == .commit
        op := s.array.op.map fun r => if r.requester = .setup then { r with wanted := false } else r
        erase := s.array.erase.bind Erase.drained }
      freeIx := n
      dir := d
      reclaim := if refused.any (fun r => r.requester == .reclaim) || s.array.erase.any (fun e => e.cond == .suspended
          && e.requester == .reclaim && decide (e.sector.val < 126)) then ⟨.idle, none⟩ else s.reclaim
      cursor := { s.cursor with
        buffer := if refused.any (fun r => r.requester == .cursorFetch) then .empty else s.cursor.buffer
        seek := s.cursor.seek.map fun k =>
          ⟨k.stamp, k.position, k.outstanding && !refused.any fun r => r.requester == .cursorSeek⟩ }
      store := { s.store with phase := .idle, copy := none, seekOwed := false } }
    ∧ (∀ j : JSector, d[j] = if refused.any (Request.dirties j)
          || s.array.erase.any (fun e => e.cond == .suspended && (e.requester == .reclaim || e.requester == .format)
            && e.sector == sectorOf j)
        then { s.dir[j] with state := .dirty } else s.dir[j])
    ∧ ∀ a, (∀ e, s.array.erase = some e → e.cond = .suspended →
          a < e.sector.val * 0x2000 ∨ e.sector.val * 0x2000 + 0x2000 ≤ a) →
        memByte m a = memByte s.array.mem a := by
  have entered : s.enterDraining.drainAdmission = { s with
      ctrl := s.enterDraining.ctrl, events := s.enterDraining.events, adm := s.drainAdmission.adm } := by
    rw [State.enterDraining_eq h]
    rfl
  obtain ⟨m, n, d, herase, hdir, hmem⟩ := abandonErase_frame s.enterDraining.drainAdmission
  rw [entered] at herase hdir hmem
  have same : refused = (s.enterDraining.drainAdmission.abandonErase.array.waiting
      ++ s.enterDraining.drainAdmission.abandonErase.array.made).filter fun r => r.requester != .commit := by
    rw [entered, herase, hr]
  obtain ⟨d', hwaiting, hdir'⟩ := State.refuseWaiting_eq same
  have earlier : s.enterDraining.drainAdmission.abandonErase.dir = d := by rw [entered, herase]
  refine ⟨m, n, d', ?_, fun j => ?_, hmem⟩
  · rw [State.drainOpened, State.storeAbort_eq, hwaiting, entered, herase]
    dsimp only
    rw [Erase.map_unwanted_bind_stopped, ite_ite_or, Bool.or_comm]
    rfl
  · rw [hdir', earlier, hdir, Bool.or_comm]
    exact ite_dirty_or _ _ _

/-- What the commit path does at the beginning of a drain: BLOCKED or HALTED it gives its buffer up (R78). -/
theorem State.drainCommit_of_iff {w : State} {gives : Bool}
    (h : gives = true ↔ w.commit.phase = .blocked ∨ w.commit.phase = .halted) : w.drainCommit = { w with
      adm := { w.adm with
        bufP := if gives ∧ w.commit.holding = some .p then
          Buffer.empty (if w.adm.bufQ.role = .filling then .idle else .filling) else w.adm.bufP
        bufQ := if gives ∧ w.commit.holding = some .q then
          Buffer.empty (if w.adm.bufP.role = .filling then .idle else .filling) else w.adm.bufQ }
      commit := if gives then
        { w.commit with holding := none, phase := .idle, drainLoss := true, leavingBlocked := false } else w.commit } := by
  rw [drainCommit_eq]
  cases gives with
  | false => rw [if_neg (mt h.2 nofun)]; simp
  | true => rw [if_pos (h.1 rfl)]; simp

/-- The drain waits for the buffer that the commit path holds, or goes on to the SHUTDOWN record (R146, R147). -/
theorem State.beginDrain_eq (s : State) : s.beginDrain = if s.drainOpened.drainCommit.commit.holding = none
    then s.drainOpened.drainCommit.shutdownStep
    else s.drainOpened.drainCommit.withCtrl fun c => { c with drain := .finishing } := by
  rw [State.beginDrain]
  change (if s.drainOpened.drainCommit.commit.holding.isSome then _ else _) = _
  cases s.drainOpened.drainCommit.commit.holding <;> rfl

/-- Settles O56: the pin unheard, recovery abandoned, and the drain's beginning operation by operation. -/
theorem powerFailFalls : Obligations.PowerFailFalls := by
  intro s u hpin hu
  obtain rfl : u = s.setPfwN false := hu
  refine ⟨exec_pfwNFall_of_unheard hpin, fun hp hr hs => ?_, fun hp hr hs => ?_⟩
  · have abandoned := State.abandonRecovery_eq (s := s.setPfwN false) hs
    refine ⟨_, exec_pfwNFall_of_recovering hpin hp hr hs, rfl, ?_, fun j => ?_⟩
    · rw [abandoned]
      rfl
    · rw [abandoned]
      exact Directory.unknownToDirty_getElem s.dir j
  · rintro refused again p q gives hrefused rfl rfl rfl hgives
    have hd : (s.setPfwN false).ctrl.state ≠ .draining := fun h =>
      hs (by rw [show s.ctrl.state = .draining from h]; decide)
    obtain ⟨m, n, d, hopened, hdir, hmem⟩ := State.drainOpened_eq hd hrefused
    have begun := State.drainCommit_of_iff (w := (s.setPfwN false).drainOpened) (gives := gives)
      (by rw [hopened]; exact hgives)
    rw [hopened, State.enterDraining_eq hd, State.drainAdmission_eq] at begun
    refine ⟨_, exec_pfwNFall_of_working hpin hp hr hs, State.beginDrain_eq _, ?_, ?_, ?_⟩
    all_goals rw [hopened, State.enterDraining_eq hd, State.drainAdmission_eq, begun]
    exacts [rfl, hdir, hmem]

end Sys2Proof.Machine

/-! SUPPORT. Every happening of the part is sane, chapter by chapter, but for the stamp tick, which counts, and the end of a
reset, which takes the part out of reset; and so every step keeps a safe state safe. -/

namespace Sys2Proof.Machine

/-! ### Answers -/

/-- Where a meaning has a next state, it got there sanely. -/
def SaneAnswer (s : State) (a : Answer) : Prop := ∀ t, a = .next t → Sane s t

theorem SaneAnswer.next {s t : State} (h : Sane s t) : SaneAnswer s (.next t) := by
  rintro _ ⟨⟩
  exact h

/-- A happening that changes nothing. -/
theorem SaneAnswer.idle (s : State) : SaneAnswer s (.next s) := .next (Sane.refl s)

/-- A happening after which the blocks take up their work. -/
theorem SaneAnswer.settled {s t : State} (freed : Bool) (h : Sane s t) : SaneAnswer s (.next (t.settle freed)) :=
  .next (h.trans (sane_settle freed t))

theorem SaneAnswer.live {s : State} {k : State → Answer} (h : SaneAnswer s (k s)) : SaneAnswer s (s.live k) := by
  unfold State.live
  split
  · exact h
  · intro t ht
    cases ht

theorem SaneAnswer.ifArises {s : State} {arises : Bool} {k : Answer} (h : SaneAnswer s k) :
    SaneAnswer s (s.ifArises arises k) := by
  unfold State.ifArises
  split
  · exact h
  · exact .idle s

/-! ### Lines (chapter 1) -/

theorem sane_startEdge (i : LineIx) (confirmed : Bool) (s : State) :
    SaneAnswer s (execStartEdge i confirmed s) := by
  refine .live ?_
  split
  · exact .next (.ite _ (sane_setReceiver i _ _ s) (.refl s))
  · exact .idle s

/-- The character at its stop bit is delivered or held (R1, R2). -/
theorem sane_characterDelivered (i : LineIx) (data : Byte) (parityBit stopBit : Bool) (s : State) :
    SaneAnswer s (execCharacterDelivered i data parityBit stopBit s) := by
  have delivered (r n mark framing) : Sane s ((s.setReceiver i r n).takeCharacter i data mark framing) :=
    (sane_setReceiver i r n s).trans (sane_takeCharacter i data mark framing _)
  exact .live (.ifArises (.next (.ite _ (delivered ..) (.ite _ (sane_setReceiver i _ _ s) (delivered ..)))))

theorem sane_lineReturnsHigh (i : LineIx) (s : State) : SaneAnswer s (execLineReturnsHigh i s) := by
  refine .live ?_
  split
  · exact .next ((sane_setReceiver i _ _ s).trans (sane_takeCharacter i _ _ _ _))
  · exact .next (sane_setReceiver i _ _ s)
  · exact .next (sane_setReceiver i _ _ s)
  · exact .idle s

theorem sane_breakRecognised (i : LineIx) (s : State) : SaneAnswer s (execBreakRecognised i s) := by
  refine .live ?_
  split
  · exact .next ((sane_setReceiver i _ _ s).trans (sane_takeBreak i _))
  · exact .idle s

theorem sane_idleStep (i : LineIx) (s : State) : SaneAnswer s (execIdleStep i s) := by
  refine .live ?_
  split
  · split
    · exact .idle s
    · have counted := sane_setReceiver i
      exact .next (.ite _ ((counted _ _ s).trans (sane_takeIdle i _)) (counted _ _ s))
  · exact .idle s

theorem sane_lineSettled (i : LineIx) (s : State) : SaneAnswer s (execLineSettled i s) :=
  .live (.ifArises (.next (sane_setLine i _ s fun h => h i)))

/-! ### The flush age and admissions (chapter 2) -/

theorem sane_flushAgeReached (s : State) : SaneAnswer s (execFlushAgeReached s) :=
  .live (.ifArises (.settled false
    ((calm_markReached _ s).trans (.ite _ (calm_closeFilling _) (.refl _))).sane))

theorem sane_admission (s : State) : SaneAnswer s (execAdmission s) := by
  refine .live ?_
  split
  · exact .settled false (sane_recoveryEnd s)
  · split
    · exact .settled false (.ite _ (sane_admit _ _ s) (calm_closeFilling s).sane)
    · exact .idle s

/-! ### Array operations (chapters 3 to 6, 9 and 10) -/

/-- A program ends and its requester hears the outcome (R48, R51). -/
theorem sane_programEnds {p : Requester → OpKind → Bool} {o : OpOutcome} {hears : Request → State → State}
    (h : ∀ r, SaneOp (hears r)) (s : State) : SaneAnswer s (s.programEnds p o hears) := by
  unfold State.programEnds
  split
  · exact .settled true (((sane_program _ o s).trans (calm_opOver _).sane).trans (h _ _))
  · exact .idle s

/-- An erase ends and its requester hears the outcome (R49, R52). -/
theorem sane_eraseEnds {who : Requester} {o : OpOutcome} {hears : Erase → State → State}
    (h : ∀ e, SaneOp (hears e)) (s : State) : SaneAnswer s (s.eraseEnds who o hears) := by
  unfold State.eraseEnds
  split
  · exact .settled true (((sane_eraseSector _ o s).trans (calm_eraseOver _).sane).trans (h _ _))
  · exact .idle s

/-- A read ends and its page goes to its requester (R47). -/
theorem sane_readEnds {who : Requester} {hears : Request → List Byte → State → State}
    (h : ∀ r page, SaneOp (hears r page)) (s : State) : SaneAnswer s (s.readEnds who hears) := by
  unfold State.readEnds
  split
  · exact .settled true ((calm_opOver s).sane.trans (h _ _ _))
  · exact .idle s

theorem sane_headProgramEnd (o : OpOutcome) (s : State) : SaneAnswer s (execHeadProgramEnd o s) :=
  .live (sane_programEnds (sane_headEnded o) s)

theorem sane_bodyProgramEnd (o : OpOutcome) (s : State) : SaneAnswer s (execBodyProgramEnd o s) :=
  .live (sane_programEnds (sane_bodyEnded o) s)

theorem sane_commitFieldEnd (o : OpOutcome) (s : State) : SaneAnswer s (execCommitFieldEnd o s) :=
  .live (sane_programEnds (sane_fieldEnded o) s)

theorem sane_eraseSuspendEffect (s : State) : SaneAnswer s (execEraseSuspendEffect s) := by
  refine .live ?_
  split
  · exact .ifArises (.settled true (sane_eraseSuspended _ s))
  · exact .idle s

theorem sane_eraseStopEffect (s : State) : SaneAnswer s (execEraseStopEffect s) := by
  refine .live ?_
  split
  · exact .ifArises (.settled true
      (((sane_cutErase s).trans (calm_eraseAbandoned _ _).sane).trans (sane_storeOwed _)))
  · exact .idle s

theorem sane_reclaimEraseEnd (o : OpOutcome) (s : State) : SaneAnswer s (execReclaimEraseEnd o s) := by
  refine .live (sane_eraseEnds (fun e u => ?_) s)
  split
  · exact (calm_eraseEnded _ _ o u).sane
  · exact .refl u

theorem sane_retireMarkEnd (o : OpOutcome) (s : State) : SaneAnswer s (execRetireMarkEnd o s) := by
  refine .live (sane_programEnds (fun r u => ?_) s)
  split
  · exact (calm_reclaimIdle u).sane
  · exact (calm_formatDealt _ u).sane
  · exact .refl u

theorem sane_formatEraseEnd (o : OpOutcome) (s : State) : SaneAnswer s (execFormatEraseEnd o s) := by
  refine .live (sane_eraseEnds (fun e u => ?_) s)
  split
  · exact ((calm_eraseEnded _ _ o u).trans (.ite _ (calm_formatDealt _ _) (.refl _))).sane
  · exact .refl u

theorem sane_setupEraseEnd (o : OpOutcome) (s : State) : SaneAnswer s (execSetupEraseEnd o s) := by
  refine .live (sane_eraseEnds (fun e u => ?_) s)
  split
  · exact (calm_storeErased _ u).sane.trans (sane_storeSeek _)
  · exact sane_storeEnd _ u
  · exact (calm_storeErased _ u).sane.trans (sane_storeOwed _)
  · exact sane_storeOwed u

theorem sane_setupBodyEnd (o : OpOutcome) (s : State) : SaneAnswer s (execSetupBodyEnd o s) := by
  refine .live (sane_programEnds (fun r u => ?_) s)
  have advanced : Sane u (u.storeAdvance r.page) := (calm_storeAdvance _ u).sane
  split
  · exact advanced.trans ((calm_withStore _ _).trans (calm_request _ _)).sane
  · exact advanced.trans (sane_storeSeek _)
  · exact advanced.trans (sane_storeOwed _)

theorem sane_setOrigin (g : Nat) : SaneOp (State.setOrigin g) := fun _ => .of rfl rfl rfl rfl rfl

theorem sane_setupFieldEnd (o : OpOutcome) (s : State) : SaneAnswer s (execSetupFieldEnd o s) := by
  refine .live (sane_programEnds (fun r u => ?_) s)
  have committed : Sane u (u.storeCommitted r) := (calm_storeCommitted r u).sane
  split
  · exact committed.trans (sane_storeEnd _ _)
  · exact sane_storeSeek u
  · exact (committed.trans (sane_setOrigin _ _)).trans (sane_storeOwed _)
  · exact sane_storeOwed u

theorem sane_cursorReadEnd (s : State) : SaneAnswer s (execCursorReadEnd s) := by
  refine .live (sane_readEnds (fun r page u => ?_) s)
  split
  · exact .of rfl rfl rfl rfl rfl
  · exact .refl u

theorem sane_seekReadEnd (s : State) : SaneAnswer s (execSeekReadEnd s) := by
  refine .live (sane_readEnds (fun r page u => ?_) s)
  split
  · exact (calm_seekDeliver _ _ _ u).sane
  · exact .refl u

theorem sane_recoveryReadEnd (s : State) : SaneAnswer s (execRecoveryReadEnd s) := by
  refine .live ?_
  split
  · exact .ifArises (.settled true
      ((calm_opOver s).sane.trans (.ite _ (sane_recoveryDeliver _ _ _ _) (.refl _))))
  · exact .idle s

/-! ### Commands (chapter 11) -/

theorem sane_setJournal (j : JournalSetup) : SaneOp (State.setJournal j) := fun _ => .of rfl rfl rfl rfl rfl

theorem sane_writeLineSetupRule (args : List Byte) (s : State) : Sane s (s.writeLineSetupRule args).2.2 := by
  unfold State.writeLineSetupRule
  split
  · split
    · exact .refl s
    · exact sane_writeLine _ _ s
  · exact .refl s

theorem calm_newFlushAge (past : Bool) (age : Nat) : CalmOp (State.newFlushAge past age) := fun s =>
  .ite _ ((calm_markReached age s).trans (.ite _ (calm_closeFilling _) (.refl _))) (.refl s)

/-- A changed tick exponent leaves the counter as it stands (R28). -/
theorem sane_writeJournal (j : JournalSetup) : SaneOp (State.writeJournal j) := fun s => by
  have retimed (u : State) : Sane u (if j.k = s.setup.fields.journal.k then u
      else { u with time := { u.time with prescaler := 0, retimePending := true } }) :=
    .ite _ (.refl u) ⟨rfl, id, id, id, id, .inl ⟨rfl, rfl⟩⟩
  exact (((sane_setJournal _ s).trans (retimed _)).trans (calm_newFlushAge _ _ _).sane).trans (sane_settle false _)

theorem sane_writeJournalSetupRule (args : List Byte) (s : State) : Sane s (s.writeJournalSetupRule args).2.2 := by
  unfold State.writeJournalSetupRule
  split
  · exact .refl s
  · split
    · exact .refl s
    · exact sane_writeJournal _ s

theorem sane_storeSetupRule (s : State) : Sane s s.storeSetupRule.2.2 := by
  unfold State.storeSetupRule
  split
  · exact .refl s
  · split
    · exact .refl s
    · exact (sane_storeStart s).trans (sane_settle false _)

theorem sane_setRetainFloorRule (args : List Byte) (s : State) : Sane s (s.setRetainFloorRule args).2.2 := by
  unfold State.setRetainFloorRule
  split
  · exact .refl s
  · exact (sane_setJournal _ s).trans (sane_settle false _)

theorem sane_runRule (s : State) : Sane s s.runRule.2.2 := by
  unfold State.runRule
  split
  · exact (calm_enterRunning s).sane.trans (sane_settle false _)
  · exact (calm_enterRunning s).sane.trans (sane_settle false _)
  · exact .refl s
  · exact ((calm_withCtrl _ s).trans (.ite _ (calm_enterRunning _) (.refl _))).sane.trans (sane_settle false _)
  · exact .refl s

theorem sane_stopRule (s : State) : Sane s s.stopRule.2.2 := by
  unfold State.stopRule
  split
  · exact ((calm_enter _ s).trans (calm_closeFilling _)).sane.trans (sane_settle false _)
  · exact .refl s
  · exact .refl s
  · exact .of rfl rfl rfl rfl rfl
  · exact .refl s

theorem sane_flushRule (s : State) : Sane s s.flushRule.2.2 := by
  unfold State.flushRule
  split
  · exact (calm_closeFilling s).sane.trans (sane_settle false _)
  · exact (calm_closeFilling s).sane.trans (sane_settle false _)
  · exact .refl s

theorem sane_appendNoteRule (args : List Byte) (s : State) : Sane s (s.appendNoteRule args).2.2 := by
  unfold State.appendNoteRule
  dsimp only
  split
  · exact .refl s
  · split
    · exact .refl s
    · split
      · exact .refl s
      · exact .of rfl rfl rfl rfl rfl

theorem sane_formatRule (s : State) : Sane s s.formatRule.2.2 := by
  have started : Sane s (s.formatStart.settle false) := (calm_formatStart s).sane.trans (sane_settle false _)
  unfold State.formatRule
  split
  · exact .refl s
  · split
    · exact started
    · exact started
    · exact started
    · exact .refl s

theorem sane_seekRule (args : List Byte) (s : State) : Sane s (s.seekRule args).2.2 := by
  have placed {kind : Nat} {u : State} (h : s.seekTo kind args = some u) : Calm s u := by
    unfold State.seekTo at h
    dsimp only at h
    split at h <;> cases h
    · exact calm_placeCursor _ s
    · exact calm_placeCursor _ s
    · exact calm_placeCursor _ s
    · exact (calm_placeCursor _ s).trans (calm_seekChoose _ _ _)
  unfold State.seekRule
  split
  · exact .refl s
  · next h => exact (placed h).sane.trans (sane_settle false _)

theorem sane_resetDeviceRule (s : State) : Sane s s.resetDeviceRule.2.2 :=
  .ite _ (calm_withCtrl _ s).sane (calm_withCtrl _ s).sane

theorem sane_readLineStateRule (args : List Byte) (s : State) : Sane s (s.readLineStateRule args).2.2 := by
  unfold State.readLineStateRule
  split <;> exact .refl s

theorem sane_readDirectoryEntryRule (args : List Byte) (s : State) : Sane s (s.readDirectoryEntryRule args).2.2 := by
  unfold State.readDirectoryEntryRule
  split <;> exact .refl s

/-- Every command's rule is sane. -/
theorem sane_rule (m : BitVec 11) (args : List Byte) (s : State) : ∀ c : Command, Sane s (c.rule m args s).2.2
  | .readStatus | .readIdentity | .readJournalSummary | .readRecords | .readEvents => .refl s
  | .readLineState => sane_readLineStateRule args s
  | .readDirectoryEntry => sane_readDirectoryEntryRule args s
  | .writeLineSetup => sane_writeLineSetupRule args s
  | .writeJournalSetup => sane_writeJournalSetupRule args s
  | .storeSetup => sane_storeSetupRule s
  | .setRetainFloor => sane_setRetainFloorRule args s
  | .run => sane_runRule s
  | .stop => sane_stopRule s
  | .flush => sane_flushRule s
  | .appendNote => sane_appendNoteRule args s
  | .format => sane_formatRule s
  | .resetDevice => sane_resetDeviceRule s
  | .seek => sane_seekRule args s
  | .clearEvents | .writeEventEnables => .of rfl rfl rfl rfl rfl

theorem sane_answer {s : State} {d : Decision} (code : Byte) (args : List Byte) (h : Sane s d.2.2) :
    Sane s (State.answer code args d) := h.trans (.of rfl rfl rfl rfl rfl)

theorem sane_gather (c : Command) (code : Byte) (args : List Byte) (m : BitVec 11) :
    SaneOp (State.gather c code args m) := fun s => by
  have decided : Sane s (c.decide m args s).2.2 := by
    unfold Command.decide
    split
    · exact .refl s
    · exact sane_rule m args s c
  exact .ite _ (sane_answer code args decided) (.of rfl rfl rfl rfl rfl)

/-- Whatever a byte on SDI completes is sane. -/
theorem sane_takeByte (b : Byte) (m : BitVec 11) (s : State) : SaneAnswer s (s.takeByte b m) := by
  refine .live (.next ?_)
  unfold State.byteArrives
  split
  · exact .of rfl rfl rfl rfl rfl
  · exact .of rfl rfl rfl rfl rfl
  · exact .of rfl rfl rfl rfl rfl
  · split
    · exact sane_answer b [] (.refl s)
    · exact sane_gather _ _ _ m s
  · split
    · exact .refl s
    · exact sane_gather _ _ _ m s

theorem sane_sendToken : SaneOp State.sendToken := fun _ => .of rfl rfl rfl rfl rfl

theorem sane_tokenChoice (s : State) : SaneAnswer s (execTokenChoice s) :=
  .live (.ifArises (.settled false ((calm_chooseToken s).sane.trans (sane_sendToken _))))

theorem sane_tokenEnd (s : State) : SaneAnswer s (execTokenEnd s) := by
  refine .live (.ifArises ?_)
  split
  · exact .settled false ((calm_finishToken _ s).sane.trans (sane_sendToken _))
  · exact .next (sane_sendToken s)
  · exact .next (sane_sendToken s)

/-! ### Pins, resets and the supply (chapter 8) -/

theorem sane_setCsN (v : Bool) : SaneOp (State.setCsN v) := fun _ => .of rfl rfl rfl rfl rfl
theorem sane_setPfwN (v : Bool) : SaneOp (State.setPfwN v) := fun _ => .of rfl rfl rfl rfl rfl
theorem sane_setResetN (v : Bool) : SaneOp (State.setResetN v) := fun _ => .of rfl rfl rfl rfl rfl

theorem sane_csNFall (s : State) : SaneAnswer s (execCsNFall s) :=
  .ifArises (.next ((sane_setCsN false s).trans (.ite _ (.refl _) (.of rfl rfl rfl rfl rfl))))

theorem sane_csNRise (s : State) : SaneAnswer s (execCsNRise s) :=
  .ifArises (.next ((sane_setCsN true s).trans (.ite _ (.refl _)
    (((sane_endTransaction _).trans (sane_hostResetAtRise _)).trans (sane_settle false _)))))

theorem sane_pfwNFall (s : State) : SaneAnswer s (execPfwNFall s) := by
  refine .ifArises (.next ((sane_setPfwN false s).trans (.ite _ (.refl _) ?_)))
  split
  · exact (sane_abandonRecovery _).trans (sane_settle false _)
  · exact .refl _
  · exact .refl _
  · exact (sane_beginDrain _).trans (sane_settle false _)

theorem sane_pfwNRise (s : State) : SaneAnswer s (execPfwNRise s) :=
  .ifArises (.next ((sane_setPfwN true s).trans (.ite _
    ((sane_returnFromDrained _).trans (sane_settle false _)) (.refl _))))

theorem sane_powerOnReset (s : State) : SaneAnswer s (execPowerOnReset s) := .next (sane_takeReset _ s)

theorem sane_resetNFall (s : State) : SaneAnswer s (execResetNFall s) :=
  .ifArises (.next ((sane_setResetN false s).trans (.ite _ (.refl _)
    (.ite _ (sane_takeReset _ _) (sane_takeReset _ _)))))

theorem sane_powerLoss (s : State) : SaneAnswer s (execPowerLoss s) :=
  .live (.next ((sane_cutArray s).trans (.of rfl rfl rfl rfl rfl)))

/-! ### Every happening -/

/-- Every happening but two is sane. -/
theorem exec_sane (s : State) : ∀ i : Instr, i ≠ .stampTick → i ≠ .resetEnd → SaneAnswer s (exec i s)
  | .stampTick, tick, _ => absurd rfl tick
  | .resetEnd, _, ends => absurd rfl ends
  | .characterDelivered line data parityBit stopBit, _, _ => sane_characterDelivered line data parityBit stopBit s
  | .lineReturnsHigh line, _, _ => sane_lineReturnsHigh line s
  | .breakRecognised line, _, _ => sane_breakRecognised line s
  | .idleStep line, _, _ => sane_idleStep line s
  | .lineSettled line, _, _ => sane_lineSettled line s
  | .startEdge line confirmed, _, _ => sane_startEdge line confirmed s
  | .flushAgeReached, _, _ => sane_flushAgeReached s
  | .admission, _, _ => sane_admission s
  | .headProgramEnd o, _, _ => sane_headProgramEnd o s
  | .bodyProgramEnd o, _, _ => sane_bodyProgramEnd o s
  | .commitFieldEnd o, _, _ => sane_commitFieldEnd o s
  | .eraseSuspendEffect, _, _ => sane_eraseSuspendEffect s
  | .eraseStopEffect, _, _ => sane_eraseStopEffect s
  | .reclaimEraseEnd o, _, _ => sane_reclaimEraseEnd o s
  | .retireMarkEnd o, _, _ => sane_retireMarkEnd o s
  | .formatEraseEnd o, _, _ => sane_formatEraseEnd o s
  | .setupEraseEnd o, _, _ => sane_setupEraseEnd o s
  | .setupBodyEnd o, _, _ => sane_setupBodyEnd o s
  | .setupFieldEnd o, _, _ => sane_setupFieldEnd o s
  | .cursorReadEnd, _, _ => sane_cursorReadEnd s
  | .seekReadEnd, _, _ => sane_seekReadEnd s
  | .recoveryReadEnd, _, _ => sane_recoveryReadEnd s
  | .tokenChoice, _, _ => sane_tokenChoice s
  | .tokenEnd, _, _ => sane_tokenEnd s
  | .csNFall, _, _ => sane_csNFall s
  | .csNRise, _, _ => sane_csNRise s
  | .pfwNFall, _, _ => sane_pfwNFall s
  | .pfwNRise, _, _ => sane_pfwNRise s
  | .powerOnReset, _, _ => sane_powerOnReset s
  | .resetNFall, _, _ => sane_resetNFall s
  | .powerLoss, _, _ => sane_powerLoss s
  | .argumentByteReceived b, _, _ | .unknownCommand b, _, _ => sane_takeByte b 0 s
  | .readLineState b, _, _ | .readDirectoryEntry b, _, _ | .writeLineSetup b, _, _ | .writeJournalSetup b, _, _
  | .appendNote b, _, _ | .setRetainFloor b, _, _ | .seek b, _, _ | .writeEventEnables b, _, _ => sane_takeByte b 0 s
  | .clearEvents b, _, _ => sane_takeByte b.byte b.together s
  | .readStatus, _, _ | .readIdentity, _, _ | .readJournalSummary, _, _ | .storeSetup, _, _ | .run, _, _
  | .stop, _, _ | .flush, _, _ | .readRecords, _, _ | .readEvents, _, _ | .format, _, _
  | .resetDevice, _, _ => sane_takeByte _ 0 s

/-! ### Every step -/

/-- What a happening keeps of the state before it: the queue of commands, the memory's form, the bounds of the lines and
of the counter; and where the counter may fall. -/
structure Kept (s t : State) : Prop where
  pending : t.pending = s.pending
  mem     : s.memWf → t.memWf
  lines   : s.linesBounded → t.linesBounded
  stamp   : s.stampWf → t.stampWf
  counter : s.time.counter ≤ t.time.counter ∨ t.inReset = true ∨ s.time.held = true
              ∨ s.time.counter = Config.stampMax

theorem Sane.kept {s t : State} (h : Sane s t) : Kept s t :=
  ⟨h.pending, h.mem, h.lines, h.stamp, h.counter.imp_left fun ⟨same, _⟩ => Nat.le_of_eq same.symm⟩

/-- A tick counts up by at most one, and stops at the last value with STAMP_SATURATED set (R25, R26). -/
theorem kept_stampTick {s t : State} (h : exec .stampTick s = .next t) : Kept s t := by
  have powered : s.powered = true := by
    by_contra hp
    rw [exec, execStampTick, State.live, if_neg hp] at h
    cases h
  have run : execStampTick s = _ := live_of_powered powered
  rw [exec, run] at h
  split at h <;> cases h
  · exact (Sane.refl s).kept
  · refine ⟨rfl, id, id, fun ⟨bound, _⟩ => ⟨?_, fun last => ?_⟩, .inl ?_⟩
    · change tickValue s.time.counter ≤ 0xFFFFFFFFFFFF
      change s.time.counter ≤ 0xFFFFFFFFFFFF at bound
      rw [tickValue_eq]
      split <;> omega
    · exact Bool.or_eq_true_iff.2 (.inr (beq_iff_eq.2 last))
    · change s.time.counter ≤ tickValue s.time.counter
      rw [tickValue_eq]
      split <;> omega

/-- The part with its reset over and recovery yet to begin (R144). -/
def State.outOfReset (s : State) : State := { s.setResetN true with inReset := false }

/-- The end of a reset begins or abandons recovery, out of reset and with everything else as the reset left it (R144). -/
theorem kept_resetEnd {s t : State} (h : exec .resetEnd s = .next t) : Kept s t := by
  have recovery : Sane s.outOfReset ((if s.outOfReset.pins.pfwN then s.outOfReset.beginRecovery
      else s.outOfReset.abandonRecovery).settle false) :=
    .trans (.ite _ (sane_beginRecovery _) (sane_abandonRecovery _)) (sane_settle false _)
  rw [exec, execResetEnd, State.live] at h
  split at h
  · rw [State.ifArises] at h
    split at h <;> cases h
    · exact ⟨recovery.pending, recovery.mem, recovery.lines, recovery.stamp, recovery.kept.counter⟩
    · exact (Sane.refl s).kept
  · cases h

/-- Every happening keeps the state. -/
theorem exec_kept {i : Instr} {s t : State} (h : exec i s = .next t) : Kept s t := by
  by_cases tick : i = .stampTick
  · subst tick
    exact kept_stampTick h
  by_cases ends : i = .resetEnd
  · subst ends
    exact kept_resetEnd h
  exact (exec_sane s i tick ends t h).kept

/-- Settles O59: the step idles, or it is the front command's happening. -/
theorem stepsKeepSafe : Obligations.StepsKeepSafe := by
  intro s t h
  unfold step at h
  split at h
  · cases h
    exact ⟨id, .inl (Nat.le_refl _)⟩
  · obtain ⟨_, mem, lines, stamp, counter⟩ := exec_kept h
    exact ⟨fun ⟨hm, hl, hs⟩ => ⟨mem hm, lines hl, stamp hs⟩, counter⟩

end Sys2Proof.Machine

/-! SUPPORT. The storage array (chapter 3): the end of a happening, what programs, erases and reads do to the bytes, the
effects of a suspension and of a stop, and what the arbiter grants; and the statements they settle. -/

namespace Sys2Proof.Machine

/-! ### The end of a happening (R59, R93, R108, R113) -/

/-- Format not choosing a sector, the other blocks take up their work in the model's order (log entry 20). -/
theorem State.settle_of_not_choosing (freed : Bool) {s : State} (h : ¬ s.choosing) :
    s.settle freed = State.arbitrate freed s.reclaimTest.seekLocate.seekRead.fetchStep := by
  rw [State.settle, formatStep_of_not_choosing h, State.cursorWork]

/-- Settles O3: Format takes no step, and the other blocks' work is calm block by block. -/
theorem endOfHappeningFrame : Obligations.EndOfHappeningFrame := fun freed _ h =>
  ⟨State.settle_of_not_choosing freed h, settled_settle freed (formatStep_of_not_choosing h)⟩

/-! ### Programs, erases and reads (R46 to R52) -/

/-- A program's end changes the memory, and draws a free value where it fails (R48, R51). -/
theorem State.program_eq (r : Request) (o : OpOutcome) (s : State) :
    s.program r o = { s with array := { s.array with mem := (s.program r o).array.mem }
                             freeIx := if o = .ok then s.freeIx else s.freeIx + 1 } := by
  cases o <;> rfl

/-- An erase's end changes the memory, and draws a free value where it fails (R49, R52). -/
theorem State.eraseSector_eq (sec : Sector) (o : OpOutcome) (s : State) :
    s.eraseSector sec o = { s with array := { s.array with mem := (s.eraseSector sec o).array.mem }
                                   freeIx := if o = .ok then s.freeIx else s.freeIx + 1 } := by
  cases o <;> rfl

/-- A program changes no byte outside its range, whatever its outcome (R48, R51). -/
theorem memByte_program_outside (r : Request) (o : OpOutcome) (s : State) {a : Nat}
    (h : a < r.addr ∨ r.addr + r.bytes.length ≤ a) :
    memByte (s.program r o).array.mem a = memByte s.array.mem a := by
  cases o
  · exact memByte_programOk_outside _ _ _ _ h
  · exact memByte_programTorn_outside _ _ _ _ _ h

/-- The range of a program ends within its page (R46). -/
theorem Request.range_le_page (r : Request) :
    r.addr + r.bytes.length ≤ r.sector.val * 0x2000 + r.page.val * 0x200 + 0x200 := by
  have length : r.bytes.length ≤ 512 - r.kind.offset := List.length_take_le _ _
  have offset : r.kind.offset ≤ 504 := by cases r.kind <;> decide
  unfold Request.addr pageAddr sectorAddr
  omega

/-- A bit that a torn program was not to clear keeps its old value: it was 0 already, or is to stay 1 (R51). -/
theorem getLsbD_torn {old new free : Byte} {b : Nat} (h : old.getLsbD b = false ∨ new.getLsbD b = true) :
    ((old &&& new) ||| (old &&& free)).getLsbD b = old.getLsbD b := by
  rw [BitVec.getLsbD_or, BitVec.getLsbD_and, BitVec.getLsbD_and]
  rcases h with h | h
  · rw [h, Bool.false_and, Bool.false_and, Bool.or_false]
  · rw [h, Bool.and_true]
    exact sup_inf_self

/-- An erase changes no byte outside its sector, whatever its outcome (R49, R52). -/
theorem memByte_eraseSector_outside (sec : Sector) (o : OpOutcome) (s : State) {a : Nat}
    (h : a < sec.val * 0x2000 ∨ sec.val * 0x2000 + 0x2000 ≤ a) :
    memByte (s.eraseSector sec o).array.mem a = memByte s.array.mem a := by
  have outside : ¬ inSector sec a := by unfold inSector sectorAddr; omega
  cases o
  · exact memByte_eraseOk_outside _ _ _ outside
  · exact memByte_eraseTorn_outside _ _ _ _ outside

/-- A page reads byte by byte as the memory stands (R47). -/
theorem readPage_getElem? (mem : List Host.Cell) (sec : Sector) (page : PageIx) {k : Nat} (h : k < 512) :
    (readPage mem sec page)[k]? = some (memByte mem (sec.val * 0x2000 + page.val * 0x200 + k)) := by
  have inside : k < (readPage mem sec page).length := h.trans_eq (memRead_length ..).symm
  rw [List.getElem?_eq_getElem inside]
  exact congrArg some (memRead_getElem ..)

/-- Settles O32: the frame, the range and the bytes of a program, of an erase and of a read. -/
theorem arrayEffects : Obligations.ArrayEffects := by
  refine ⟨?_, fun sec o s => ⟨s.eraseSector_eq sec o, fun a => ⟨memByte_eraseSector_outside sec o s, ?_⟩⟩,
    fun mem sec page => ⟨memRead_length .., fun k hk => readPage_getElem? mem sec page hk⟩⟩
  · rintro r o s _ _ rfl rfl
    refine ⟨s.program_eq r o, fun a => memByte_program_outside r o s, rfl, r.range_le_page, fun k hk => ⟨?_, ?_⟩⟩
    · rintro rfl
      exact memByte_programOk_inside _ _ _ _ hk
    · rintro rfl b _ kept
      refine (congrArg (BitVec.getLsbD · b) (memByte_programTorn_inside _ _ _ _ _ hk)).trans ?_
      exact getLsbD_torn kept
  · rintro rfl low high
    exact memByte_eraseOk_inside _ _ _ ⟨low, high⟩

/-! ### Suspensions and stops of an erase (R55, R57) -/

/-- The suspension that was pending takes effect (R55). -/
theorem exec_eraseSuspendEffect {s : State} {e : Erase} (hp : s.powered = true) (he : s.array.erase = some e)
    (hc : e.cond = .suspendPending) :
    exec .eraseSuspendEffect s = .next ((s.eraseSuspended e).settle true) := by
  have run : execEraseSuspendEffect s = _ := live_of_powered hp
  rw [exec, run, he]
  exact if_pos (beq_iff_eq.2 hc)

/-- The erase ceases to exist with its sector's bytes left open (R52, R57). -/
theorem State.cutErase_of_erase {s : State} {e : Erase} (he : s.array.erase = some e) :
    s.cutErase = (s.eraseSector e.sector .fail).eraseOver := by
  rw [State.cutErase, he]
  rfl

/-- The stop that was pending takes effect (R57). -/
theorem exec_eraseStopEffect {s : State} {e : Erase} (hp : s.powered = true) (he : s.array.erase = some e)
    (hc : e.cond = .stopPending) :
    exec .eraseStopEffect s
      = .next ((((s.eraseSector e.sector .fail).eraseOver.eraseAbandoned e).storeOwed).settle true) := by
  have run : execEraseStopEffect s = _ := live_of_powered hp
  rw [exec, run, he, ← State.cutErase_of_erase he]
  exact if_pos (beq_iff_eq.2 hc)

/-- The reclaim engine or Format hears that the erase of a journal sector was abandoned: the sector becomes DIRTY (R99,
R102). -/
theorem State.eraseAbandoned_of_journal {e : Erase} {j : JSector} (u : State) (hj : e.sector = sectorOf j)
    (hr : e.requester = .reclaim ∨ e.requester = .format) :
    u.eraseAbandoned e = { u with
      dir := u.dir.update j fun x => { x with state := .dirty }
      reclaim := if e.requester = .reclaim then { phase := .idle, target := none } else u.reclaim } := by
  rw [State.eraseAbandoned, hj, journalOf_sectorOf]
  rcases hr with hr | hr <;> rw [hr] <;> rfl

/-- The setup store changes nothing when it hears that its erase was abandoned (R185). -/
theorem State.eraseAbandoned_of_setup {e : Erase} (u : State) (hr : e.requester = .setup) : u.eraseAbandoned e = u := by
  rw [State.eraseAbandoned, hr]

/-- Settles O40: a suspension and a stop are each an erase that fails, with what its requester hears. -/
theorem eraseSuspendedOrStopped : Obligations.EraseSuspendedOrStopped := by
  refine ⟨?_, ?_⟩
  · rintro s _ e hp he hc rfl
    refine ⟨exec_eraseSuspendEffect hp he hc, s.eraseSector_eq e.sector .fail, fun a => ⟨fun low high => ?_, ?_⟩⟩
    · exact memByte_eraseTorn_inside _ _ _ _ ⟨low, high⟩
    · exact memByte_eraseSector_outside e.sector .fail s
  · rintro s _ e hp he hc rfl
    rw [exec_eraseStopEffect hp he hc]
    refine ⟨?_, fun hr => ?_⟩
    · rintro j hj hr _ rfl
      rw [State.eraseAbandoned_of_journal _ hj hr]
      rfl
    · rw [State.eraseAbandoned_of_setup _ hr]
      rfl

/-! ### What may be granted (R56, R61 to R63) -/

/-- The requesters that a journal state serves (R62, R63). -/
theorem JState.serves_iff (j : JState) (q : Requester) : j.serves q = true ↔
    (j = .recovering → q = .recovery) ∧ (j = .draining → q = .commit) ∧ j ≠ .drained := by
  cases j <;> simp [JState.serves]

/-- A request may be granted by the journal state, and beside an erase that it neither doubles nor addresses (R61 to R63). -/
theorem grantable_iff (j : JState) (e : Option Erase) (r : Request) : grantable j e r = true ↔
    (j = .recovering → r.requester = .recovery) ∧ (j = .draining → r.requester = .commit) ∧ j ≠ .drained
      ∧ ∀ x, e = some x → r.kind ≠ .erase ∧ r.sector ≠ x.sector := by
  unfold grantable
  rw [Bool.and_eq_true, JState.serves_iff, and_assoc, and_assoc]
  cases e <;> simp

/-- The standing resume may be granted while an erase is SUSPENDED, in the states that do not refuse it (R56, R63). -/
theorem resumable_iff (j : JState) (e : Option Erase) : resumable j e = true ↔
    j ∉ [JState.recovering, .draining, .drained] ∧ ∃ x, e = some x ∧ x.cond = .suspended := by
  unfold resumable
  rw [Bool.and_eq_true, and_comm]
  refine and_congr (by cases j <;> decide) ?_
  cases e <;> simp

/-! ### What is granted first (R59) -/

/-- The place of a request in the order of the classes, the recovery unit's reads first and the resume at 3 (R58, R59). -/
def Request.rank (r : Request) : Nat :=
  match r.requester with
  | .recovery => 0
  | .commit => 1
  | .cursorFetch | .cursorSeek => 2
  | .setup => 4
  | .reclaim | .format => 5

/-- The ranks are the classes, with class 6 in front. -/
theorem Request.rank_eq (r : Request) : r.rank = r.requester.cls % 6 := by
  unfold Request.rank
  cases r.requester <;> rfl

/-- No request ranks beside the resume. -/
theorem Request.rank_ne_three (r : Request) : r.rank ≠ 3 := by
  unfold Request.rank
  cases r.requester <;> decide

theorem Request.rank_lt_six (r : Request) : r.rank < 6 := by
  rw [r.rank_eq]
  exact Nat.mod_lt _ (by decide)

/-- The requests that suspend an erase are those of class 1 and class 2 (R55, R60). -/
theorem Request.cls_le_two_iff (r : Request) : r.requester.cls ≤ 2 ↔ r.rank = 1 ∨ r.rank = 2 := by
  unfold Request.rank
  cases r.requester <;> decide

/-- The request stands in the list in front of every grantable one of its rank, and no grantable one is of lower rank. -/
def Foremost (j : JState) (e : Option Erase) (r : Request) (l : List Request) : Prop :=
  ∃ before behind, l = before ++ r :: behind ∧ (∀ x ∈ before, grantable j e x = true → r.rank < x.rank)
    ∧ ∀ x ∈ behind, grantable j e x = true → r.rank ≤ x.rank

/-- What a grant out of a list ought to be (R59). -/
def BestOf (j : JState) (e : Option Erase) (l : List Request) : Option Grant → Prop
  | none => resumable j e = false ∧ ∀ x ∈ l, grantable j e x = false
  | some .resume => resumable j e = true ∧ ∀ x ∈ l, grantable j e x = true → 3 < x.rank
  | some (.request r) => grantable j e r = true ∧ (resumable j e = true → r.rank < 3) ∧ Foremost j e r l

/-- The grantable requests of the list are of this rank or a higher one. -/
def RankedFrom (j : JState) (e : Option Erase) (l : List Request) (n : Nat) : Prop :=
  ∀ x ∈ l, grantable j e x = true → n ≤ x.rank

section Classes

variable {j : JState} {e : Option Erase} {l : List Request} {r : Request} {c n : Nat}

/-- With no grantable request of a class the ranks begin above it. -/
theorem RankedFrom.succ (lowest : RankedFrom j e l n)
    (h : (l.filter (grantable j e)).find? (·.requester.cls == c) = none)
    (hc : ∀ q : Requester, q.cls % 6 = n → q.cls = c := by intro q; cases q <;> decide) : RankedFrom j e l (n + 1) := by
  intro x hx hg
  refine Nat.lt_of_le_of_ne (lowest x hx hg) fun hn => ?_
  have other : ¬ x.requester.cls = c := by simpa using List.find?_eq_none.1 h x (List.mem_filter.2 ⟨hx, hg⟩)
  exact other (hc _ (x.rank_eq.symm.trans hn.symm))

/-- The first grantable request of the lowest class is the foremost. -/
theorem RankedFrom.foremost (lowest : RankedFrom j e l n)
    (h : (l.filter (grantable j e)).find? (·.requester.cls == c) = some r)
    (hc : ∀ q : Requester, q.cls % 6 = n ↔ q.cls = c) : grantable j e r = true ∧ r.rank = n ∧ Foremost j e r l := by
  rw [List.find?_filter, List.find?_eq_some_iff_append] at h
  obtain ⟨hr, before, behind, rfl, others⟩ := h
  obtain ⟨hg, hcls⟩ := of_decide_eq_true hr
  have rank : r.rank = n := r.rank_eq.trans ((hc _).2 (beq_iff_eq.1 hcls))
  refine ⟨hg, rank, before, behind, rfl, fun x hx hgx => ?_, fun x hx hgx => ?_⟩
  · have other : ¬ x.requester.cls = c := by simpa [hgx] using others x hx
    have low := lowest x (List.mem_append_left _ hx) hgx
    exact rank ▸ Nat.lt_of_le_of_ne low fun hn => other ((hc _).1 (x.rank_eq.symm.trans hn.symm))
  · exact rank ▸ lowest x (List.mem_append_right _ (List.mem_cons_of_mem _ hx)) hgx

/-- Such a request is the best of the list, where a resume does not come before it. -/
theorem RankedFrom.best (lowest : RankedFrom j e l n)
    (h : (l.filter (grantable j e)).find? (·.requester.cls == c) = some r) (first : resumable j e = true → n < 3)
    (hc : ∀ q : Requester, q.cls % 6 = n ↔ q.cls = c := by intro q; cases q <;> decide) :
    BestOf j e l (some (.request r)) := by
  obtain ⟨hg, rank, foremost⟩ := lowest.foremost h hc
  exact ⟨hg, fun hr => rank ▸ first hr, foremost⟩

end Classes

/-- The arbiter's choice out of a list is the best of it (R59). -/
theorem bestGrant_best (j : JState) (e : Option Erase) (l : List Request) : BestOf j e l (bestGrant j e l) := by
  have all : RankedFrom j e l 0 := fun _ _ _ => Nat.zero_le _
  unfold bestGrant
  dsimp only
  split
  · next h6 => exact all.best h6 fun _ => by decide
  · next h6 h1 => exact (all.succ h6).best h1 fun _ => by decide
  · next h6 h1 h2 => exact ((all.succ h6).succ h1).best h2 fun _ => by decide
  · next h6 h1 h2 =>
    have fromThree := ((all.succ h6).succ h1).succ h2
    have above : RankedFrom j e l 4 := fun x hx hg => Nat.lt_of_le_of_ne (fromThree x hx hg) x.rank_ne_three.symm
    split
    · next hr => exact ⟨hr, above⟩
    · next hr =>
      split
      · next h4 => exact above.best h4 fun h => absurd h hr
      · next h4 h5 => exact (above.succ h4).best h5 fun h => absurd h hr
      · next h4 h5 =>
        have fromSix := (above.succ h4).succ h5
        exact ⟨Bool.eq_false_iff.2 hr, fun x hx => Bool.eq_false_iff.2 fun hg =>
          absurd (fromSix x hx hg) (Nat.not_le.2 x.rank_lt_six)⟩

/-- What a grant at the end of a happening ought to be (R59; log entry 9): the best of the requests that waited, or one made
at this happening that is more urgent than all of them. -/
def Fair (j : JState) (a : StorageArray) : Option Grant → Prop
  | none => resumable j a.erase = false ∧ ∀ x ∈ a.waiting ++ a.made, grantable j a.erase x = false
  | some .resume => resumable j a.erase = true ∧ ∀ x ∈ a.waiting, grantable j a.erase x = true → 3 < x.rank
  | some (.request r) => grantable j a.erase r = true ∧ (resumable j a.erase = true → r.rank < 3)
      ∧ (Foremost j a.erase r a.waiting
          ∨ r ∈ a.made ∧ ∀ x ∈ a.waiting, grantable j a.erase x = true → r.rank < x.rank)

section Choice

variable {j : JState} {a : StorageArray}

/-- The best of the requests that waited and of some made at this happening is fair. -/
theorem BestOf.fair {early : List Request} {g : Grant} (h : BestOf j a.erase (a.waiting ++ early) (some g))
    (sub : early ⊆ a.made) : Fair j a (some g) := by
  cases g with
  | resume => exact ⟨h.1, fun x hx => h.2 x (List.mem_append_left _ hx)⟩
  | request r =>
    obtain ⟨hg, hr, before, behind, split, lower, low⟩ := h
    refine ⟨hg, hr, ?_⟩
    have made {l : List Request} (hearly : early = l ++ r :: behind) (hwait : ∀ x ∈ a.waiting, x ∈ before) :
        r ∈ a.made ∧ ∀ x ∈ a.waiting, grantable j a.erase x = true → r.rank < x.rank :=
      ⟨sub (by simp [hearly]), fun x hx => lower x (hwait x hx)⟩
    rcases List.append_eq_append_iff.1 split with ⟨m, rfl, hearly⟩ | ⟨m, hwait, hm⟩
    · exact .inr (made hearly fun x hx => List.mem_append_left _ hx)
    · cases m with
      | nil => exact .inr (made (l := []) hm.symm fun x hx => by simpa [hwait] using hx)
      | cons q m =>
        obtain ⟨rfl, rfl⟩ := List.cons.inj hm
        exact .inl ⟨before, m, hwait, lower, fun x hx => low x (List.mem_append_left _ hx)⟩

/-- The best of the requests that waited is fair. -/
theorem BestOf.fair_waited {g : Grant} (h : BestOf j a.erase a.waiting (some g)) : Fair j a (some g) :=
  BestOf.fair (early := []) (by rwa [List.append_nil]) (List.nil_subset _)

/-- Where nothing that waited may be granted, any grantable request made at this happening is fair. -/
theorem BestOf.fair_made {r : Request} (h : BestOf j a.erase a.waiting none) (hr : r ∈ a.made)
    (hg : grantable j a.erase r = true) : Fair j a (some (.request r)) :=
  ⟨hg, fun hres => absurd hres (Bool.eq_false_iff.1 h.1),
    .inr ⟨hr, fun x hx hgx => absurd hgx (Bool.eq_false_iff.1 (h.2 x hx))⟩⟩

/-- Where nothing that waited may be granted, the best of the requests made at this happening is fair. -/
theorem BestOf.fair_only_made {g : Option Grant} (h : BestOf j a.erase a.waiting none) (k : BestOf j a.erase a.made g) :
    Fair j a g := by
  match g with
  | none => exact ⟨h.1, fun x hx => (List.mem_append.1 hx).elim (h.2 x) (k.2 x)⟩
  | some .resume => exact absurd k.1 (Bool.eq_false_iff.1 h.1)
  | some (.request r) =>
    obtain ⟨hg, _, before, behind, split, _⟩ := k
    exact h.fair_made (by simp [split]) hg

/-- Where nothing that waited may be granted, the first grantable request made at this happening is fair, and so is no grant
where there is none. -/
theorem BestOf.fair_find? (h : BestOf j a.erase a.waiting none) :
    Fair j a ((a.made.find? (grantable j a.erase)).map .request) := by
  cases hf : a.made.find? (grantable j a.erase) with
  | some r => exact h.fair_made (List.mem_of_find?_eq_some hf) (List.find?_some hf)
  | none => exact h.fair_only_made ⟨h.1, fun x hx => Bool.eq_false_iff.2 (List.find?_eq_none.1 hf x hx)⟩

end Choice

/-- The arbiter's choice is fair, whatever the free values (R59, R60). -/
theorem chooseGrant_fair (freed : Bool) (ix : Nat) (j : JState) (a : StorageArray) :
    Fair j a (chooseGrant freed ix j a) := by
  have best := bestGrant_best j a.erase
  have waited {g : Option Grant} (h : bestGrant j a.erase a.waiting = g) : BestOf j a.erase a.waiting g := h ▸ best _
  unfold chooseGrant
  dsimp only
  split
  · next hmade =>
    cases hold : bestGrant j a.erase a.waiting with
    | some g => exact (waited hold).fair_waited
    | none => exact (waited hold).fair_only_made (g := none) (hmade ▸ ⟨(waited hold).1, nofun⟩)
  · next hold hmade =>
    rw [← hmade]
    exact (waited hold).fair_only_made (best a.made)
  · split
    · split
      · next hbest => exact BestOf.fair (hbest ▸ best _) fun _ => List.mem_of_mem_filter
      · next hbest =>
        obtain ⟨stays, refused⟩ : BestOf j a.erase _ none := hbest ▸ best _
        exact BestOf.fair_find? ⟨stays, fun x hx => refused x (List.mem_append_left _ hx)⟩
    · split
      · next hold => exact (waited hold).fair_waited
      · next hold hearly =>
        exact (waited hold).fair_made (List.mem_of_mem_filter (List.mem_of_find?_eq_some hearly))
          (List.find?_some hearly)
      · next hold _ => exact (waited hold).fair_find?

/-! ### What a grant leaves (R55, R56, R59, R60) -/

/-- The array after a grant, if there was one. -/
def StorageArray.granted (g : Option Grant) (a : StorageArray) : StorageArray := g.elim a fun g => a.grant g

/-- The requests made at the happening suspend an erase or not, and wait (R55, R59, R60). -/
def StorageArray.queued (a : StorageArray) : StorageArray :=
  { a.suspendFor a.made with waiting := a.waiting ++ a.made, made := [] }

/-- While the array is occupied nothing is granted (R59). -/
theorem State.arbitrate_of_occupied (freed : Bool) {s : State} (h : s.array.free = false) :
    s.arbitrate freed = { s with array := s.array.queued, freeIx := s.freeIx + 1 } := by
  simp only [State.arbitrate, h]
  rfl

/-- While the array is free the arbiter's choice is granted (R59). -/
theorem State.arbitrate_of_free (freed : Bool) {s : State} (h : s.array.free = true) :
    s.arbitrate freed = { s with
      array := (s.array.granted (chooseGrant freed s.freeIx s.ctrl.state s.array)).queued
      freeIx := s.freeIx + 1 } := by
  simp only [State.arbitrate, h, if_true]
  cases chooseGrant freed s.freeIx s.ctrl.state s.array <;> rfl

/-- A free array has no read or program in flight, and no erase but a SUSPENDED one (section 3.4). -/
theorem StorageArray.free_iff (a : StorageArray) :
    a.free = true ↔ a.op = none ∧ ∀ e, a.erase = some e → e.cond = .suspended := by
  unfold StorageArray.free
  rw [Bool.and_eq_true, Option.isNone_iff_eq_none]
  cases a.erase <;> simp

/-- An erase is suspended by a class 1 or class 2 request just made, where it is RUNNING and not the setup store's (R55,
R60). -/
theorem StorageArray.queued_erase {a : StorageArray} {e : Erase} (h : a.erase = some e) :
    a.queued.erase = some (if e.cond = .running ∧ e.requester ≠ .setup ∧ (∃ r ∈ a.made, r.requester.cls ≤ 2) then
      { e with cond := .suspendPending } else e) := by
  have any : a.made.any (fun r => r.requester.cls ≤ 2) = true ↔ ∃ r ∈ a.made, r.requester.cls ≤ 2 := by simp
  change (a.suspendFor a.made).erase = _
  unfold StorageArray.suspendFor
  rw [h]
  exact congrArg some (if_congr (by rw [any]) rfl rfl)

/-- An erase that is not RUNNING is left as it is. -/
theorem StorageArray.queued_erase_of_not_running {a : StorageArray} (h : ∀ e, a.erase = some e → e.cond ≠ .running) :
    a.queued.erase = a.erase := by
  cases he : a.erase with
  | none => exact congrArg (Option.map _) he
  | some e => rw [StorageArray.queued_erase he, if_neg fun hc => h e he hc.1]

/-- The condition of an erase that is RUNNING after the grant, the requests still to be dealt with given (R55, R60). -/
def condAfter (l : List Request) (q : Requester) : EraseCond :=
  if q ≠ .setup ∧ (∃ x ∈ l, x.rank = 1 ∨ x.rank = 2) then .suspendPending else .running

/-- An erase that the grant has set running runs on, or is suspended at once (R55, R60). -/
theorem StorageArray.queued_erase_of_running {a : StorageArray} {e : Erase}
    (h : a.erase = some { e with cond := .running }) :
    a.queued.erase = some { e with cond := condAfter a.made e.requester } := by
  simp only [StorageArray.queued_erase h, condAfter, true_and, Request.cls_le_two_iff]
  split <;> rfl

/-- A granted erase begins to run (R49). -/
theorem StorageArray.grant_of_erase {r : Request} (a : StorageArray) (h : r.kind = .erase) :
    a.grant (.request r) = { a with
      waiting := a.waiting.erase r
      made := a.made.erase r
      erase := some
        { sector := r.sector, requester := r.requester, cond := .running, runMicros := 0, wanted := r.wanted } } :=
  if_pos h

/-- A granted read or program is in flight (R47, R48). -/
theorem StorageArray.grant_of_not_erase {r : Request} (a : StorageArray) (h : r.kind ≠ .erase) :
    a.grant (.request r) = { a with waiting := a.waiting.erase r, made := a.made.erase r, op := some r } :=
  if_neg h

/-- After the grant of a request the other ones wait, in the order made (R59). -/
theorem StorageArray.grant_waiting (a : StorageArray) (r : Request) :
    (a.grant (.request r)).queued.waiting = a.waiting.erase r ++ a.made.erase r := by
  by_cases h : r.kind = .erase
  · rw [StorageArray.grant_of_erase a h]
    rfl
  · rw [StorageArray.grant_of_not_erase a h]
    rfl

/-- Settles O33: while the array is free the arbiter's choice is fair, and each of the three choices leaves what its grant
leaves; the other clauses are the rules of `StorageArray.queued` and of `State.settle`. -/
theorem arbiterRules : Obligations.ArbiterRules := by
  refine ⟨?_, fun freed s e he hf => ?_, fun freed r s => ⟨rfl, fun hs hr hm => ?_⟩⟩
  · intro freed s a b can rank resumes cond ha hb hcan hrank hresumes hcond
    obtain rfl : can = fun r => grantable s.ctrl.state a.erase r = true :=
      funext fun r => propext ((hcan r).trans (grantable_iff _ _ r).symm)
    obtain rfl : resumes = (resumable s.ctrl.state a.erase = true) :=
      propext (hresumes.trans (resumable_iff _ _).symm)
    obtain rfl : rank = Request.rank := hrank
    obtain rfl : cond = condAfter := hcond
    subst ha hb
    refine ⟨rfl, (calm_arbitrate freed s).mem, rfl, fun hf => ?_, fun hf => ?_⟩
    · rw [State.arbitrate_of_occupied freed hf]
      exact ⟨rfl, rfl⟩
    · have fair := chooseGrant_fair freed s.freeIx s.ctrl.state s.array
      obtain ⟨hop, hsuspended⟩ := s.array.free_iff.1 hf
      have notRunning (e : Erase) (he : s.array.erase = some e) : e.cond ≠ .running := by
        rw [hsuspended e he]
        decide
      rw [State.arbitrate_of_free freed hf]
      match chooseGrant freed s.freeIx s.ctrl.state s.array, fair with
      | none, ⟨stays, refused⟩ =>
        exact .inl ⟨hop, StorageArray.queued_erase_of_not_running notRunning, rfl, Bool.eq_false_iff.1 stays,
          fun x hx => Bool.eq_false_iff.1 (refused x hx)⟩
      | some .resume, ⟨resumes, above⟩ =>
        obtain ⟨_, e, he, _⟩ := (resumable_iff _ _).1 resumes
        have running : (s.array.grant .resume).erase = some { e with cond := .running } := congrArg (Option.map _) he
        exact .inr (.inl ⟨e, he, resumes, hop, rfl, StorageArray.queued_erase_of_running running, above⟩)
      | some (.request r), ⟨granted, urgent, first⟩ =>
        refine .inr (.inr ⟨r, granted, urgent, s.array.grant_waiting r, first, fun hk => ?_, fun hk => ?_⟩)
        · have grant : s.array.granted (some (.request r)) = _ := s.array.grant_of_not_erase hk
          rw [grant]
          exact ⟨rfl, StorageArray.queued_erase_of_not_running notRunning⟩
        · have grant : s.array.granted (some (.request r)) = _ := s.array.grant_of_erase hk
          rw [grant]
          exact ⟨hop, StorageArray.queued_erase_of_running (e := ⟨r.sector, r.requester, .running, 0, r.wanted⟩) rfl⟩
  · rw [State.arbitrate_of_occupied freed hf]
    exact StorageArray.queued_erase he
  · exact hasRequest_settle freed (formatStep_of_not_choosing hs) hr hm

end Sys2Proof.Machine

/-! SUPPORT. Committing records (chapter 4): the free pool, how the commit path seeks its target, and what the ends of its
head, body and commit-field programs do, whether or not the path is working on them; and the statements they settle. -/

namespace Sys2Proof.Machine

/-! ### The free pool (R67, R87) -/

/-- There is no next sector to open only when no sector is FREE (R68). -/
theorem Directory.poolFirst_eq_none_iff (d : Directory) : d.poolFirst = none ↔ ∀ j : JSector, d[j].state ≠ .free := by
  simp only [Directory.poolFirst, leastBy_eq_none, List.eq_nil_iff_forall_not_mem, mem_inState, ne_eq]

/-- The next sector to open is the FREE one of least erase count, and of least index among those (R67, R87). -/
theorem Directory.poolFirst_eq_some_iff (d : Directory) (j : JSector) :
    d.poolFirst = some j ↔ d[j].state = .free ∧ ∀ i : JSector, d[i].state = .free →
      d[j].eraseCount < d[i].eraseCount ∨ d[j].eraseCount = d[i].eraseCount ∧ j.val ≤ i.val := by
  refine (leastBy_spec _ (inState_pairwise d .free) j).trans ?_
  simp only [mem_inState]

/-! ### Two changes of one entry -/

/-- A second change of the same entry acts on what the first one left. -/
theorem Directory.update_update (d : Directory) (j : JSector) (f g : Entry → Entry) :
    (d.update j f).update j g = d.update j fun x => g (f x) := by
  have changed : (d.update j f)[j] = f d[j] := by rw [Directory.update_get, if_pos rfl]
  rw [Directory.update, changed]
  exact Vector.set_set ..

/-- Only what a change makes of the entry itself counts. -/
theorem Directory.update_congr {d : Directory} {j : JSector} {f g : Entry → Entry} (h : f d[j] = g d[j]) :
    d.update j f = d.update j g := by
  rw [Directory.update, h, Directory.update]

/-! ### Seeking a target (R66 to R68, R72) -/

/-- The body of the held buffer is requested for the target's next page (R72). -/
theorem State.startBody_of_holding {s : State} {b : BufId} (j : JSector) (h : s.commit.holding = some b) :
    s.startBody j = State.request
      (commitRequest .bodyProgram j s.commit.nextPage (pageBody s.dir[j].epoch (s.adm.buf b)))
      { s with commit := { s.commit with phase := .body, bodyCrc := crc (pageBody s.dir[j].epoch (s.adm.buf b)) } } := by
  rw [State.startBody, h]

/-- A target with a page left is used (R66, R72). -/
theorem State.seekTarget_of_page {s : State} {j : JSector} (ht : s.commit.target = some j) (hp : s.commit.nextPage ≤ 15) :
    s.seekTarget = s.startBody j := by
  rw [State.seekTarget, ht]
  exact if_pos hp

/-- Without a target a sector is opened, or the path is blocked (R67, R68). -/
theorem State.seekTarget_of_no_target {s : State} (ht : s.commit.target = none) : s.seekTarget = s.openOrBlock := by
  rw [State.seekTarget, ht]

/-- A used-up target is CLOSED, and the path goes on without it (R66). -/
theorem State.seekTarget_of_used {s : State} {j : JSector} (ht : s.commit.target = some j) (hp : 15 < s.commit.nextPage) :
    s.seekTarget = State.seekTarget
      { s with dir := s.dir.update j fun x => { x with state := .closed }, commit := { s.commit with target := none } } := by
  rw [State.seekTarget, ht]
  exact if_neg (Nat.not_le.2 hp)

/-- With a FREE sector the first of the pool is opened (R67). -/
theorem State.openOrBlock_of_free {s : State} {j : JSector} (h : s.dir.poolFirst = some j) :
    s.openOrBlock = s.openSector j := by
  rw [State.openOrBlock, h]

/-- With no FREE sector the path blocks (R68). -/
theorem State.openOrBlock_of_no_free {s : State} (h : s.dir.poolFirst = none) : s.openOrBlock = s.block := by
  rw [State.openOrBlock, h]

/-- A sector is opened: its entry is a new one but for the erase count, and its head program carries that count (R67). -/
theorem State.openSector_eq (j : JSector) (s : State) :
    s.openSector j = State.request (commitRequest .headProgram j 0 (headFields s.nextEpoch s.dir[j].eraseCount))
      { s with
        dir := s.dir.update j fun x =>
          { state := .opened, epoch := s.nextEpoch, firstSeq := 0, lastSeq := 0, firstStamp := 0, lastStamp := 0,
            pagesUsed := 0, eraseCount := x.eraseCount, retireMark := false, failCount := 0 }
        commit := { s.commit with lastEpoch := s.nextEpoch, target := some j, nextPage := 1, phase := .head } } := by
  rw [State.openSector]
  dsimp only [State.setEntry]
  rw [Directory.update_get, if_pos rfl]

/-- Space blocked, by the journal state (R126, R131, R139). -/
theorem State.spaceBlocked_eq (s : State) :
    s.spaceBlocked = match s.ctrl.state with
      | .running => { s with ctrl := { s.ctrl with spaceWait := true, state := .full }
                             events := { s.events with flags := s.events.flags ||| Event.state.mask } }
      | .stopping | .stopped =>
        { s with ctrl := { s.ctrl with spaceWait := true, state := .full, stopRequested := true }
                 events := { s.events with flags := s.events.flags ||| Event.state.mask } }
      | .formatting =>
        { s with ctrl := { s.ctrl with spaceWait := true, state := .full, stopRequested := true, format := .noFormat,
                                       formatDone := [], opKind := .noOp, opOutcome := .ok }
                 events := { s.events with flags := s.events.flags ||| Event.state.mask ||| Event.opDone.mask } }
      | .recovering | .full | .draining | .drained | .failed => { s with ctrl := { s.ctrl with spaceWait := true } } := by
  cases h : s.ctrl.state <;> simp only [State.spaceBlocked, h]
  case running | stopping | stopped => exact State.enter_of_ne nofun
  case formatting =>
    refine (congrArg (State.endHostOp .ok) (State.enter_of_ne ?_)).trans rfl
    exact nofun

/-- Settles O34: the free pool, the four ways of seeking, and space blocked state by state. -/
theorem seekingTarget : Obligations.SeekingTarget := by
  refine ⟨fun d => ⟨fun st => rfl, rfl, d.poolFirst_eq_none_iff, d.poolFirst_eq_some_iff⟩,
    fun s => ⟨fun j b ht hp hb => ?_, fun j => State.seekTarget_of_used, fun j ht hf => ?_, ?_, fun ht hf => ?_⟩,
    State.spaceBlocked_eq⟩
  · rw [State.seekTarget_of_page ht hp, State.startBody_of_holding j hb]
  · rw [State.seekTarget_of_no_target ht, State.openOrBlock_of_free hf]
  · rintro j e rfl
    exact s.openSector_eq j
  · rw [State.seekTarget_of_no_target ht, State.openOrBlock_of_no_free hf]
    unfold State.block
    cases s.ctrl.state <;> rfl

/-! ### A program of the commit path ends (R48, R51, R70 to R79) -/

/-- A program of the commit path in flight ends, and the part of the path that asked for it hears the outcome. The three
happenings of R70, R73 and R74 are this one, with the kind and the hearer of each. -/
theorem live_commitProgramEnds {s t : State} {r : Request} {kind : OpKind} {hears : Request → State → State} (o : OpOutcome)
    (hp : s.powered = true) (hop : s.array.op = some r) (hr : r.requester = .commit) (hk : r.kind = kind)
    (h : hears r (s.program r o).opOver = t) :
    s.live (fun s => s.programEnds (fun q k => q == .commit && k == kind) o hears) = .next (t.settle true) := by
  rw [live_of_powered hp, programEnds_eq hop (by rw [hr, hk, beq_self_eq_true, beq_self_eq_true, Bool.and_self]), h]

/-- The commit path is at work on a program: in its phase, with the buffer still held (R77, R78). -/
def CommitPath.working (p : CommitPhase) (c : CommitPath) : Bool := c.phase == p && c.holding.isSome

theorem CommitPath.working_of_holding {c : CommitPath} {p : CommitPhase} {b : BufId} (hp : c.phase = p)
    (hb : c.holding = some b) : c.working p = true := by
  rw [CommitPath.working, hp, hb, beq_self_eq_true, Option.isSome_some, Bool.and_self]

theorem CommitPath.working_eq_false {c : CommitPath} {p : CommitPhase} (h : c.phase ≠ p ∨ c.holding = none) :
    c.working p = false := by
  rw [CommitPath.working, Bool.and_eq_false_iff]
  exact h.imp beq_eq_false_iff_ne.2 fun hn => by rw [hn, Option.isSome_none]

/-- A working path answers a failure by another attempt, or in DRAINING by giving the records up (R71, R75, R76, R79). -/
theorem State.retryOrLose_of_working {s : State} {w : Bool} (h : w = true) :
    s.retryOrLose w = if s.ctrl.state = .draining then s.release false else s.seekTarget := by
  rw [h]
  rfl

/-- A path that is not working on the program makes no other attempt (R77, R78). -/
theorem State.retryOrLose_of_not_working {s : State} {w : Bool} (h : w = false) : s.retryOrLose w = s := by
  rw [h]
  rfl

/-! ### The head program (R69 to R71) -/

section
variable {s : State} {r : Request} {j : JSector}

/-- The outcome of a program that a Format gave up is not looked at (R80). -/
theorem State.headEnded_of_unwanted (o : OpOutcome) (hw : r.wanted = false) : s.headEnded o r = s := by
  rw [State.headEnded, hw]

/-- A working path goes on to the body of the held buffer, and is out of BLOCKED, with space back (R69, R70). -/
theorem State.headEnded_ok_of_working {v : State} {b : BufId} (hw : r.wanted = true) (hj : r.sector = sectorOf j)
    (hp : s.commit.phase = .head) (hb : s.commit.holding = some b)
    (hv : v = State.request
      (commitRequest .bodyProgram j s.commit.nextPage (pageBody s.dir[j].epoch (s.adm.buf b)))
      { s with commit := { s.commit with phase := .body, leavingBlocked := false,
                                         bodyCrc := crc (pageBody s.dir[j].epoch (s.adm.buf b)) } }) :
    s.headEnded .ok r = if s.commit.leavingBlocked then v.spaceBack else v := by
  have started : (s.withCommit fun c => { c with leavingBlocked := false }).startBody j = v :=
    (State.startBody_of_holding (s := s.withCommit fun c => { c with leavingBlocked := false }) j hb).trans hv.symm
  rw [State.headEnded, hw, hj, journalOf_sectorOf, ← started]
  exact if_pos (CommitPath.working_of_holding hp hb)

/-- Nobody waits for the head of a path that is not working (R77, R78). -/
theorem State.headEnded_ok_of_not_working (hw : r.wanted = true) (hj : r.sector = sectorOf j)
    (h : s.commit.working .head = false) : s.headEnded .ok r = s := by
  rw [State.headEnded, hw, hj, journalOf_sectorOf]
  exact if_neg (Bool.eq_false_iff.1 h)

/-- A failed head makes its sector DIRTY, to be retired, and no target (R71). -/
theorem State.headEnded_fail (hw : r.wanted = true) (hj : r.sector = sectorOf j) :
    s.headEnded .fail r = State.retryOrLose (s.commit.working .head)
      { s with dir := s.dir.update j fun x => { x with state := .dirty, retireMark := true }
               commit := { s.commit with target := none } } := by
  rw [State.headEnded, hw, hj, journalOf_sectorOf]
  rfl

end

/-- Settles O35: the head of a working path, and what its outcome leads to. -/
theorem headProgramEnd : Obligations.HeadProgramEnd := by
  rintro s _ r j b o hp hop hr hk hw hj hphase hb rfl
  refine ⟨?_, ?_⟩
  · rintro rfl v hv
    exact live_commitProgramEnds .ok hp hop hr hk (State.headEnded_ok_of_working hw hj hphase hb hv)
  · rintro rfl v rfl
    refine live_commitProgramEnds .fail hp hop hr hk ((State.headEnded_fail hw hj).trans ?_)
    exact State.retryOrLose_of_working (CommitPath.working_of_holding hphase hb)

/-! ### A failure counts against its sector (R75, R76) -/

/-- The entry after a failed program: the second failure closes the sector, to be retired (R76). -/
def Entry.programFailed (x : Entry) : Entry :=
  if 2 ≤ x.failCount + 1 then { x with failCount := x.failCount + 1, state := .closed, retireMark := true }
  else { x with failCount := x.failCount + 1 }

/-- The failure in the directory and in the commit path; the next page moves on at every one (R75, R76; log entry 24). -/
theorem State.programFailed_eq (j : JSector) (s : State) :
    s.programFailed j =
      { s with dir := s.dir.update j Entry.programFailed
               commit := { s.commit with nextPage := s.commit.nextPage + 1,
                                         target := if 2 ≤ s.dir[j].failCount + 1 then none else s.commit.target } } := by
  simp only [State.programFailed, State.withCommit_dir, State.setEntry_dir, Directory.update_get, if_true]
  split
  case isTrue h =>
    have second : s.dir.update j Entry.programFailed
        = (s.dir.update j fun x => { x with failCount := x.failCount + 1 }).update j
            fun x => { x with state := .closed, retireMark := true } := by
      rw [Directory.update_update]
      exact Directory.update_congr (if_pos h)
    rw [second]
    rfl
  case isFalse h =>
    have first : s.dir.update j Entry.programFailed
        = s.dir.update j fun x => { x with failCount := x.failCount + 1 } := Directory.update_congr (if_neg h)
    rw [first]
    rfl

/-! ### The body program (R73, R75) -/

section
variable {s : State} {r : Request} {j : JSector}

/-- The outcome of a program that a Format gave up is not looked at (R80). -/
theorem State.bodyEnded_of_unwanted (o : OpOutcome) (hw : r.wanted = false) : s.bodyEnded o r = s := by
  rw [State.bodyEnded, hw]

/-- A working path goes on to the commit field (R73). -/
theorem State.bodyEnded_ok_of_working (hw : r.wanted = true) (hj : r.sector = sectorOf j)
    (h : s.commit.working .body = true) :
    s.bodyEnded .ok r = State.request (commitRequest .fieldProgram j r.page.val (commitField s.commit.bodyCrc))
      { s with dir := s.dir.update j fun x => { x with pagesUsed := r.page.val }
               commit := { s.commit with phase := .field } } := by
  rw [State.bodyEnded, hw, hj, journalOf_sectorOf]
  exact if_pos h

/-- The page counts as used, and nobody waits for the body of a path that is not working (R77, R78). -/
theorem State.bodyEnded_ok_of_not_working (hw : r.wanted = true) (hj : r.sector = sectorOf j)
    (h : s.commit.working .body = false) :
    s.bodyEnded .ok r = { s with dir := s.dir.update j fun x => { x with pagesUsed := r.page.val } } := by
  rw [State.bodyEnded, hw, hj, journalOf_sectorOf]
  exact if_neg (Bool.eq_false_iff.1 h)

/-- A failed body uses its page up, and counts against the sector (R75). -/
theorem State.bodyEnded_fail (hw : r.wanted = true) (hj : r.sector = sectorOf j) :
    s.bodyEnded .fail r = State.retryOrLose (s.commit.working .body)
      { s with dir := s.dir.update j fun x => Entry.programFailed { x with pagesUsed := r.page.val }
               commit := { s.commit with nextPage := s.commit.nextPage + 1,
                                         target := if 2 ≤ s.dir[j].failCount + 1 then none else s.commit.target } } := by
  have used : ((s.setEntry j fun x => { x with pagesUsed := r.page.val }).dir[j]).failCount = s.dir[j].failCount := by
    rw [State.setEntry_dir, Directory.update_get, if_pos rfl]
  have ended : s.bodyEnded .fail r = State.retryOrLose (s.commit.working .body)
      (State.programFailed j (s.setEntry j fun x => { x with pagesUsed := r.page.val })) := by
    rw [State.bodyEnded, hw, hj, journalOf_sectorOf]
    rfl
  rw [ended, State.programFailed_eq, used, State.setEntry_dir, Directory.update_update]
  rfl

end

/-- Settles O36: the body of a working path, and what its outcome leads to. -/
theorem bodyProgramEnd : Obligations.BodyProgramEnd := by
  rintro s _ r j b o hp hop hr hk hw hj hphase hb rfl
  have working : s.commit.working .body = true := CommitPath.working_of_holding hphase hb
  refine ⟨?_, ?_⟩
  · rintro rfl
    exact live_commitProgramEnds .ok hp hop hr hk (State.bodyEnded_ok_of_working hw hj working)
  · rintro rfl v rfl
    refine live_commitProgramEnds .fail hp hop hr hk ((State.bodyEnded_fail hw hj).trans ?_)
    exact State.retryOrLose_of_working working

/-! ### The commit-field program (R74 to R77, R107) -/

section
variable {s : State} {r : Request} {j : JSector}

/-- The publication of a buffer (R74, R77): the entry's range of records, the newest seq, and COMMITTED at the threshold. -/
theorem State.publish_eq {b : Buffer} {recs : List (List Byte)} {n : Nat} {due : Bool}
    (hrecs : recs = (walkRecords b.count b.data).getD []) (hn : n = s.commit.countSince + b.count)
    (hdue : due = decide (s.setup.fields.journal.threshold ≤ n)) :
    s.publish j b =
      { s with
        dir := s.dir.update j fun x =>
          { x with
            firstSeq := if x.firstSeq = 0 then b.firstSeq else x.firstSeq
            firstStamp := if x.firstSeq = 0 then recStamp (recs.headD []) else x.firstStamp
            lastSeq := b.lastSeq
            lastStamp := recStamp (recs.getLastD []) }
        commit := { s.commit with newestSeq := b.lastSeq, countSince := if due then 0 else n,
                                  nextPage := s.commit.nextPage + 1 }
        events := if due then { s.events with flags := s.events.flags ||| Event.committed.mask } else s.events } := by
  subst hrecs hn
  unfold State.publish State.setEntry
  dsimp only
  rw [← hdue]
  cases due <;> rfl

/-- The outcome of a program that a Format gave up is not looked at (R80). -/
theorem State.fieldEnded_of_unwanted (o : OpOutcome) (hw : r.wanted = false) : s.fieldEnded o r = s := by
  rw [State.fieldEnded, hw]

/-- A path that holds its buffer publishes it, also HALTED, and releases it (R74, R77). -/
theorem State.fieldEnded_ok_of_holding {b : BufId} (hw : r.wanted = true) (hj : r.sector = sectorOf j)
    (hb : s.commit.holding = some b) (hp : s.commit.phase = .field ∨ s.commit.phase = .halted) :
    s.fieldEnded .ok r = (s.publish j (s.adm.buf b)).release true := by
  rw [State.fieldEnded, hw, hj, journalOf_sectorOf]
  dsimp only
  rw [hb]
  exact if_pos hp

/-- Without its buffer the path publishes nothing (log entry 23). -/
theorem State.fieldEnded_ok_of_no_buffer (hw : r.wanted = true) (hj : r.sector = sectorOf j)
    (hb : s.commit.holding = none) : s.fieldEnded .ok r = s := by
  rw [State.fieldEnded, hw, hj, journalOf_sectorOf]
  dsimp only
  rw [hb]

/-- A failed commit field withholds its page, and counts against the sector (R76, R107). -/
theorem State.fieldEnded_fail (hw : r.wanted = true) (hj : r.sector = sectorOf j) :
    s.fieldEnded .fail r = State.retryOrLose (s.commit.working .field)
      { s with cursor := { s.cursor with withheld := s.cursor.withheld ++ [(j, r.page)] }
               dir := s.dir.update j Entry.programFailed
               commit := { s.commit with nextPage := s.commit.nextPage + 1,
                                         target := if 2 ≤ s.dir[j].failCount + 1 then none else s.commit.target } } := by
  have ended : s.fieldEnded .fail r
      = State.retryOrLose (s.commit.working .field) ((s.withhold j r.page).programFailed j) := by
    rw [State.fieldEnded, hw, hj, journalOf_sectorOf]
    rfl
  rw [ended, State.programFailed_eq]
  rfl

end

/-- Settles O37: the commit field of a path that holds its buffer, published, or withheld and tried again. -/
theorem commitFieldEnd : Obligations.CommitFieldEnd := by
  rintro s _ r j b o recs hp hop hr hk hw hj hb hrecs rfl
  refine ⟨?_, ?_⟩
  · rintro rfl hphase n due hn hdue
    refine live_commitProgramEnds .ok hp hop hr hk (Eq.trans (State.fieldEnded_ok_of_holding hw hj hb hphase) ?_)
    exact congrArg (State.release true) (State.publish_eq hrecs hn hdue)
  · rintro rfl hphase v rfl
    refine live_commitProgramEnds .fail hp hop hr hk ((State.fieldEnded_fail hw hj).trans ?_)
    exact State.retryOrLose_of_working (CommitPath.working_of_holding hphase hb)

/-! ### Programs that no working path waits for (R77, R78, R80) -/

/-- The entry after a failed program, field by field (R75, R76). -/
theorem Entry.programFailed_eq (x : Entry) :
    x.programFailed = { x with failCount := x.failCount + 1
                               state := if 2 ≤ x.failCount + 1 then .closed else x.state
                               retireMark := decide (2 ≤ x.failCount + 1) || x.retireMark } := by
  unfold Entry.programFailed
  by_cases h : 2 ≤ x.failCount + 1
  · simp only [h, if_true, decide_true, Bool.true_or]
  · simp only [h, if_false, decide_false, Bool.false_or]

/-- Settles O38: a program given up is not heard of, and one whose path is not working changes the directory alone. -/
theorem givenUpProgram : Obligations.GivenUpProgram := by
  refine ⟨?_, ?_⟩
  · rintro s r o _ hp hop hr hw (⟨rfl, hk⟩ | ⟨rfl, hk⟩ | ⟨rfl, hk⟩)
    · exact live_commitProgramEnds o hp hop hr hk (State.headEnded_of_unwanted o hw)
    · exact live_commitProgramEnds o hp hop hr hk (State.bodyEnded_of_unwanted o hw)
    · exact live_commitProgramEnds o hp hop hr hk (State.fieldEnded_of_unwanted o hw)
  · rintro s _ r j o _ hp hop hr hw hj rfl rfl
    refine ⟨fun hk h => ?_, fun hk h => ?_, ?_, ?_⟩
    · have idle : s.commit.working .head = false := CommitPath.working_eq_false h
      cases o with
      | ok => exact live_commitProgramEnds .ok hp hop hr hk (State.headEnded_ok_of_not_working hw hj idle)
      | fail =>
        refine live_commitProgramEnds .fail hp hop hr hk ((State.headEnded_fail hw hj).trans ?_)
        exact State.retryOrLose_of_not_working idle
    · have idle : s.commit.working .body = false := CommitPath.working_eq_false h
      cases o with
      | ok => exact live_commitProgramEnds .ok hp hop hr hk (State.bodyEnded_ok_of_not_working hw hj idle)
      | fail =>
        refine live_commitProgramEnds .fail hp hop hr hk ((State.bodyEnded_fail hw hj).trans ?_)
        refine (State.retryOrLose_of_not_working idle).trans ?_
        simp only [Entry.programFailed_eq]
        rfl
    · rintro hk rfl h
      have idle : s.commit.working .field = false := CommitPath.working_eq_false h
      refine live_commitProgramEnds .fail hp hop hr hk ((State.fieldEnded_fail hw hj).trans ?_)
      refine (State.retryOrLose_of_not_working idle).trans ?_
      rw [funext Entry.programFailed_eq]
      rfl
    · rintro hk rfl hb
      exact live_commitProgramEnds .ok hp hop hr hk (State.fieldEnded_ok_of_no_buffer hw hj hb)

end Sys2Proof.Machine

/-! SUPPORT. The layouts of chapter 12: what a line block, a journal block, a setup copy, a head page and a record page read
back as, and the classes of head pages and record pages; and the statement they settle. -/

namespace Sys2Proof.Machine

/-! ### Slices of bytes -/

/-- A slice that begins behind the first part is a slice of the rest. -/
theorem bytesAt_skip {l r : List Byte} {a off n : Nat} (h : l.length = a) (ho : a ≤ off) :
    bytesAt (l ++ r) off n = bytesAt r (off - a) n := by
  rw [bytesAt, List.drop_append, List.drop_of_length_le (h.trans_le ho), h, List.nil_append, bytesAt]

/-- A slice up to the end. -/
theorem bytesAt_of_length {l : List Byte} {off n : Nat} (h : l.length = off + n) : bytesAt l off n = l.drop off :=
  List.take_of_length_le (by rw [List.length_drop]; omega)

/-- A slice of FFh bytes alone. -/
theorem allFF_bytesAt {l : List Byte} (off n : Nat) (h : allFF l = true) : allFF (bytesAt l off n) = true :=
  (allFF_iff _).2 fun b hb => (allFF_iff l).1 h b (List.mem_of_mem_drop (List.mem_of_mem_take hb))

/-! ### Line and journal blocks (R201) -/

/-! Each code names the value whose code it is. -/

theorem Parity.ofCode_code (p : Parity) : Parity.ofCode p.code = some p := by cases p <;> rfl
theorem FrameMode.ofCode_code (m : FrameMode) : FrameMode.ofCode m.code = some m := by cases m <;> rfl
theorem Overflow.ofCode_code (o : Overflow) : Overflow.ofCode o.code = some o := by cases o <;> rfl
theorem Polarity.ofCode_code (p : Polarity) : Polarity.ofCode p.code = some p := by cases p <;> rfl
theorem Retention.ofCode_code (r : Retention) : Retention.ofCode r.code = some r := by cases r <;> rfl
theorem FloorMode.ofCode_code (m : FloorMode) : FloorMode.ofCode m.code = some m := by cases m <;> rfl

/-- A line block with its fields in range reads back (R19, R201). -/
theorem lineOfBlock_lineBlock {u : LineSetup} (h : u.inRange = true) : lineOfBlock (lineBlock u) = some u := by
  obtain ⟨-, hdivisor, -, hg, -, hn, -, hmaxlen, -, hhigh, hlow⟩ := of_decide_eq_true h
  have enable : (byteAt (lineBlock u) 0).getLsbD 0 = u.enable := by
    change (BitVec.ofNat 8 u.enable.toNat).getLsbD 0 = u.enable
    cases u.enable <;> rfl
  have parity : (byteAt (lineBlock u) 3).toNat = u.parity.code := toNat_ofNat_byte (by cases u.parity <;> decide)
  have mode : (byteAt (lineBlock u) 4).toNat = u.mode.code := toNat_ofNat_byte (by cases u.mode <;> decide)
  have policy : (byteAt (lineBlock u) 10).toNat = u.policy.code := toNat_ofNat_byte (by cases u.policy <;> decide)
  have polarity : (byteAt (lineBlock u) 15).toNat = u.polarity.code := toNat_ofNat_byte (by cases u.polarity <;> decide)
  have divisor : fieldAt (lineBlock u) 1 2 = u.divisor := beNat_beBytes_of_lt 2 _ (by omega)
  have high : fieldAt (lineBlock u) 11 2 = u.high := beNat_beBytes_of_lt 2 _ (by omega)
  have low : fieldAt (lineBlock u) 13 2 = u.low := beNat_beBytes_of_lt 2 _ (by omega)
  have g : (byteAt (lineBlock u) 5).toNat = u.g := toNat_ofNat_byte (by omega)
  have n : (byteAt (lineBlock u) 8).toNat = u.n := toNat_ofNat_byte (by omega)
  have maxlen : (byteAt (lineBlock u) 9).toNat = u.maxlen := toNat_ofNat_byte (by omega)
  rw [lineOfBlock, parity, mode, policy, polarity, Parity.ofCode_code, FrameMode.ofCode_code, Overflow.ofCode_code,
    Polarity.ofCode_code, enable, divisor, high, low, g, n, maxlen]
  exact if_pos h

/-- A journal block with its fields in range reads back (R179, R201). -/
theorem journalOfBlock_journalBlock {j : JournalSetup} (h : j.inRange = true) :
    journalOfBlock (journalBlock j) = some j := by
  obtain ⟨hk, hage, -, hthreshold, hfloor⟩ := of_decide_eq_true h
  have retention : (byteAt (journalBlock j) 0).toNat = j.retention.code :=
    toNat_ofNat_byte (by cases j.retention <;> decide)
  have floorMode : (byteAt (journalBlock j) 1).toNat = j.floorMode.code :=
    toNat_ofNat_byte (by cases j.floorMode <;> decide)
  have fixedFloor : fieldAt (journalBlock j) 2 4 = j.fixedFloor :=
    beNat_beBytes_of_lt 4 _ (Nat.lt_succ_of_le hfloor)
  have k : (byteAt (journalBlock j) 6).toNat = j.k := toNat_ofNat_byte (by omega)
  have flushAge : fieldAt (journalBlock j) 7 2 = j.flushAge := beNat_beBytes_of_lt 2 _ (by omega)
  have threshold : fieldAt (journalBlock j) 9 2 = j.threshold := beNat_beBytes_of_lt 2 _ (by omega)
  have autostart : (byteAt (journalBlock j) 11 == 1) = j.autostart ∧ (byteAt (journalBlock j) 11).toNat ≤ 1 := by
    change (BitVec.ofNat 8 j.autostart.toNat == 1) = j.autostart ∧ (BitVec.ofNat 8 j.autostart.toNat).toNat ≤ 1
    cases j.autostart <;> decide
  rw [journalOfBlock, retention, floorMode, Retention.ofCode_code, FloorMode.ofCode_code, fixedFloor, k, flushAge, threshold,
    autostart.1]
  exact if_pos (Bool.and_eq_true_iff.2 ⟨h, decide_eq_true autostart.2⟩)

/-! ### Setup copies (R159, R201) -/

/-- Each line's block stands at its place among the blocks (R201). -/
theorem bytesAt_lineBlocks (rest : List Byte) : ∀ (us : List LineSetup) (i : Nat) (h : i < us.length),
    bytesAt (us.flatMap lineBlock ++ rest) (16 * i) 16 = lineBlock us[i]
  | u :: us, 0, _ => by
    rw [List.flatMap_cons, List.append_assoc]
    exact bytesAt_start (lineBlock_length u)
  | u :: us, i + 1, h => by
    rw [List.flatMap_cons, List.append_assoc, bytesAt_skip (lineBlock_length u) (by omega), Nat.mul_succ,
      Nat.add_sub_cancel]
    exact bytesAt_lineBlocks rest us i (Nat.lt_of_succ_lt_succ h)

/-- The blocks of the four lines have 64 bytes (R201). -/
theorem lineBlocks_length (v : Vector LineSetup 4) : (v.toList.flatMap lineBlock).length = 64 := by
  simp [List.length_flatMap, lineBlock_length]

/-- A setup body has 504 bytes (R201). -/
theorem setupBody_length (f : SetupFields) (g : Nat) : (setupBody f g).length = 504 := by
  simp only [setupBody, List.length_append, beBytes_length, lineBlocks_length, journalBlock_length, List.length_replicate]

/-- A setup copy with its commit field reads back (R159, R201). -/
theorem setupOfPage_setupBody {f : SetupFields} {g : Nat} (hg : g < 2 ^ 32)
    (hline : ∀ i : LineIx, f.line[i].inRange = true) (hjournal : f.journal.inRange = true) :
    setupOfPage (setupBody f g ++ commitField (crc (setupBody f g))) = some (f, g) := by
  obtain ⟨hmark, hcrc⟩ := commitField_accepted (setupBody_length f g)
  generalize commitField (crc (setupBody f g)) = field at hmark hcrc ⊢
  have layout : setupBody f g ++ field = beBytes 4 g ++ (f.line.toList.flatMap lineBlock
      ++ (journalBlock f.journal ++ (List.replicate 424 0 ++ field))) := by
    simp only [setupBody, List.append_assoc]
  generalize setupBody f g ++ field = page at hmark hcrc layout ⊢
  have line (i : LineIx) (off : Nat) (h : off = 4 + 16 * i.val) :
      lineOfBlock (bytesAt page off 16) = some f.line[i] := by
    subst h
    rw [layout, bytesAt_skip (beBytes_length 4 g) (by omega), Nat.add_sub_cancel_left,
      bytesAt_lineBlocks _ _ i.val (by simp)]
    exact lineOfBlock_lineBlock (hline i)
  have journal : journalOfBlock (bytesAt page 68 12) = some f.journal := by
    rw [layout, bytesAt_skip (beBytes_length 4 g) (by decide), bytesAt_skip (lineBlocks_length f.line) (by decide)]
    exact (congrArg journalOfBlock (bytesAt_start (journalBlock_length f.journal))).trans
      (journalOfBlock_journalBlock hjournal)
  have generation : fieldAt page 0 4 = g := by
    rw [layout, fieldAt, bytesAt_start (beBytes_length 4 g), beNat_beBytes_of_lt 4 g hg]
  have lines : #v[f.line[0], f.line[1], f.line[2], f.line[3]] = f.line := by
    ext i hi
    match i with
    | 0 | 1 | 2 | 3 => rfl
  rw [setupOfPage, hmark, hcrc, line 0 4 rfl, line 1 20 rfl, line 2 36 rfl, line 3 52 rfl, journal, generation]
  exact congrArg (fun v => some (({ line := v, journal := f.journal } : SetupFields), g)) lines

/-! ### Head pages (R160, R199) -/

/-- The class of a head page, test by test, over the bytes of the page (R160). -/
theorem headClass_eq {page : List Byte} (h : page.length = 512) :
    headClass page =
      if page.drop 496 = List.replicate 16 0 then .retired
      else if ∀ b ∈ page, b = 0xFF then .blank
      else if page.take 4 = [0x7A, 0x31, 0xC6, 0xE5] ∧ byteAt page 4 = 0x01 ∧ fieldAt page 8 4 ≠ 0 ∧ fieldAt page 12 4 ≤ 99999
          ∧ fieldAt page 16 4 = (crc (page.take 16)).toNat ∧ ∀ b ∈ page.drop 496, b = 0xFF then
        .valid (fieldAt page 8 4) (fieldAt page 12 4) 0
      else .damaged := by
  have tail : bytesAt page 496 16 = page.drop 496 := bytesAt_of_length h
  rw [headClass, tail]
  refine if_congr beq_iff_eq rfl (if_congr (allFF_iff page) rfl (if_congr ?_ rfl rfl))
  simp only [Bool.and_eq_true, beq_iff_eq, bne_iff_ne, decide_eq_true_eq, allFF_iff, and_assoc]
  rfl

/-- A head page whose head program has written the erased bytes (R67). -/
def headPage (epoch count : Nat) : List Byte := headFields epoch count ++ List.replicate 492 0xFF

/-- The head program has 20 bytes (R67). -/
theorem headFields_length (epoch count : Nat) : (headFields epoch count).length = 20 := rfl

/-- A head page is a page. -/
theorem headPage_length (epoch count : Nat) : (headPage epoch count).length = 512 := by
  rw [headPage, List.length_append, headFields_length, List.length_replicate]

/-- The head program leaves the bytes of the retire field erased (R67, R97). -/
theorem headPage_drop (epoch count : Nat) : (headPage epoch count).drop 496 = List.replicate 16 0xFF := by
  rw [headPage, List.drop_append, List.drop_of_length_le ((headFields_length epoch count).trans_le (by decide)),
    List.drop_replicate, headFields_length, List.nil_append]

/-- A head page that the head program wrote is VALID, with its epoch and erase count (R67, R160). -/
theorem headClass_headPage {epoch count : Nat} (h0 : 0 < epoch) (he : epoch < 2 ^ 32) (hc : count ≤ 99999) :
    headClass (headPage epoch count) = .valid epoch count 0 := by
  have epochField : fieldAt (headPage epoch count) 8 4 = epoch := beNat_beBytes_of_lt 4 epoch he
  have countField : fieldAt (headPage epoch count) 12 4 = count := beNat_beBytes_of_lt 4 count (by omega)
  have crcField : fieldAt (headPage epoch count) 16 4 = (crc ((headPage epoch count).take 16)).toNat :=
    beNat_beBytes_of_lt 4 _ (crc _).isLt
  rw [headClass_eq (headPage_length epoch count), headPage_drop, epochField, countField, crcField, if_neg (by decide),
    if_neg fun erased => absurd (erased 0x7A (.head _)) (by decide)]
  exact if_pos ⟨rfl, rfl, Nat.ne_of_gt h0, hc, rfl, fun _ => List.eq_of_mem_replicate⟩

/-! ### Records one behind the other (R82, R198) -/

/-- A walk finds exactly the records that stand one behind the other, each as long as its length byte says. -/
theorem walkRecords_eq_some_iff {n : Nat} {l : List Byte} {recs : List (List Byte)} :
    walkRecords n l = some recs ↔ recs.length = n ∧ (∃ rest, l = recs.flatten ++ rest)
      ∧ ∀ r ∈ recs, r.length = 16 + (byteAt r 3).toNat ∧ r.length ≤ 256 := by
  refine ⟨walkRecords_spec n l recs, ?_⟩
  rintro ⟨rfl, ⟨rest, rfl⟩, sizes⟩
  induction recs with
  | nil => rfl
  | cons r recs ih =>
    obtain ⟨⟨size, max⟩, sizes⟩ := List.forall_mem_cons.1 sizes
    have lengthByte : byteAt (r ++ (recs.flatten ++ rest)) 3 = byteAt r 3 := by
      rw [byteAt, List.getD_append _ _ _ _ (by omega), byteAt]
    rw [List.length_cons, List.flatten_cons, List.append_assoc, walkRecords, lengthByte, ← size,
      if_neg (by rw [List.length_append]; omega), List.drop_left, List.take_left, ih sizes]
    rfl

/-- What makes a page consistent, said of its records (R82). -/
theorem pageConsistent_iff_of_walk (page : List Byte) :
    pageConsistent page = true ↔ ∃ recs : List (List Byte), pageRecords? page = some recs
      ∧ (1 ≤ recs.length ∧ recs.length ≤ 30) ∧ recSeq (recs.headD []) ≠ 0
      ∧ (∀ (k : Nat) (h : k + 1 < recs.length), recSeq recs[k + 1] = recSeq recs[k] + 1)
      ∧ fieldAt page 8 4 = recSeq (recs.headD []) ∧ fieldAt page 12 4 = recSeq (recs.getLastD []) := by
  unfold pageConsistent
  cases hrecs : pageRecords? page with
  | none => exact ⟨nofun, nofun⟩
  | some recs =>
    simp only [Bool.and_eq_true, decide_eq_true_eq, bne_iff_ne, beq_iff_eq, seqsRise_iff, firstRec, lastRec, and_assoc,
      Option.some.injEq, exists_eq_left', ne_eq]

/-! ### Record pages (R82, R199) -/

/-- A page with the commit mark is erased neither as a whole nor in its commit field. -/
theorem not_allFF_of_markExact {page : List Byte} (h : markExact page = true) :
    allFF page = false ∧ allFF (bytesAt page 504 8) = false := by
  have mark : bytesAt page 508 4 = commitMark := beq_iff_eq.1 h
  have inField : bytesAt (bytesAt page 504 8) 4 4 = bytesAt page 508 4 := by
    simp only [bytesAt, List.drop_take, List.drop_drop, List.take_take]
    rfl
  refine ⟨Bool.eq_false_iff.2 fun erased => ?_, Bool.eq_false_iff.2 fun erased => ?_⟩
  · have markErased := allFF_bytesAt 508 4 erased
    rw [mark] at markErased
    exact absurd markErased (by decide)
  · have markErased := allFF_bytesAt 4 4 erased
    rw [inField, mark] at markErased
    exact absurd markErased (by decide)

/-- With the mark the CRC decides, and then the records (R82). -/
theorem pageClass_of_mark {page : List Byte} (h : markExact page = true) :
    pageClass page = if crcMatches page then if pageConsistent page then .committed else .torn false else .torn true := by
  obtain ⟨whole, field⟩ := not_allFF_of_markExact h
  rw [pageClass, whole, field, h]
  cases crcMatches page <;> rfl

/-- Without the mark a page is ERASED, UNCOMMITTED or TORN and not corrupt (R82). -/
theorem pageClass_of_no_mark {page : List Byte} (hl : page.length = 512) (h : markExact page = false) :
    pageClass page =
      if allFF page then .erased else if allFF (bytesAt page 504 8) then .uncommitted else .torn false := by
  have parts : allFF page = (allFF (bytesAt page 0 504) && allFF (bytesAt page 504 8)) := by
    have page_eq : page = bytesAt page 0 504 ++ bytesAt page 504 8 := by
      rw [bytesAt_of_length (off := 504) hl]
      exact (List.take_append_drop 504 page).symm
    conv_lhs => rw [page_eq]
    exact List.all_append
  rw [pageClass, h, parts]
  cases allFF (bytesAt page 0 504) <;> cases allFF (bytesAt page 504 8) <;> rfl

/-- The 16-byte header of a record page (R199). -/
def pageHeader (epoch : Nat) (b : Buffer) : List Byte :=
  [0xC3, 0x5A] ++ beBytes 4 epoch ++ [BitVec.ofNat 8 b.count, 0] ++ beBytes 4 b.firstSeq ++ beBytes 4 b.lastSeq

/-- A page body is its header and its padded records (R72, R199). -/
theorem pageBody_eq (epoch : Nat) (b : Buffer) : pageBody epoch b = pageHeader epoch b ++ padFF 488 b.data := rfl

/-- The header has 16 bytes (R199). -/
theorem pageHeader_length (epoch : Nat) (b : Buffer) : (pageHeader epoch b).length = 16 := rfl

/-- Bytes that fit are padded to the length asked for. -/
theorem padFF_length {n : Nat} {l : List Byte} (h : l.length ≤ n) : (padFF n l).length = n := by
  rw [padFF, List.length_append, List.length_replicate, Nat.add_sub_cancel' h]

/-- The page's records are walked from offset 16 to the end of its body (R82). -/
theorem pageRecords?_eq_some_iff {page : List Byte} {recs : List (List Byte)} :
    pageRecords? page = some recs ↔ recs.length = (byteAt page 6).toNat
      ∧ (∃ rest, (page.take 504).drop 16 = recs.flatten ++ rest)
      ∧ ∀ r ∈ recs, r.length = 16 + (byteAt r 3).toNat ∧ (byteAt r 3).toNat ≤ 240 := by
  have area : (page.take 504).drop 16 = bytesAt page 16 488 := List.drop_take ..
  rw [pageRecords?, walkRecords_eq_some_iff, area]
  refine and_congr_right' (and_congr_right' (forall₂_congr fun r _ => and_congr_right fun size => ?_))
  omega

/-- What makes a page consistent (R82). -/
theorem pageConsistent_iff (page : List Byte) :
    pageConsistent page = true ↔ ∃ (recs : List (List Byte)) (rest : List Byte),
      (page.take 504).drop 16 = recs.flatten ++ rest ∧ recs.length = (byteAt page 6).toNat ∧ 1 ≤ recs.length
      ∧ recs.length ≤ 30 ∧ (∀ rec ∈ recs, rec.length = 16 + (byteAt rec 3).toNat ∧ (byteAt rec 3).toNat ≤ 240)
      ∧ recSeq (recs.headD []) ≠ 0
      ∧ (∀ (k : Nat) (h : k + 1 < recs.length), recSeq recs[k + 1] = recSeq recs[k] + 1)
      ∧ fieldAt page 8 4 = recSeq (recs.headD []) ∧ fieldAt page 12 4 = recSeq (recs.getLastD []) := by
  refine (pageConsistent_iff_of_walk page).trans (exists_congr fun recs => ?_)
  rw [pageRecords?_eq_some_iff]
  constructor
  · rintro ⟨⟨count, ⟨rest, area⟩, sizes⟩, ⟨least, most⟩, seqs⟩
    exact ⟨rest, area, count, least, most, sizes, seqs⟩
  · rintro ⟨rest, area, count, least, most, sizes, seqs⟩
    exact ⟨⟨count, ⟨rest, area⟩, sizes⟩, ⟨least, most⟩, seqs⟩

/-- The class of a record page, test by test, over its body and its commit field (R82). -/
theorem pageClass_eq {page : List Byte} (h : page.length = 512) :
    pageClass page =
      if ∀ b ∈ page, b = 0xFF then .erased
      else if ∀ b ∈ page.drop 504, b = 0xFF then .uncommitted
      else if (page.drop 504).drop 4 ≠ [0x5E, 0x1A, 0x0C, 0x97] then .torn false
      else if beNat ((page.drop 504).take 4) ≠ (crc (page.take 504)).toNat then .torn true
      else if pageConsistent page then .committed
      else .torn false := by
  have mark : markExact page = true ↔ (page.drop 504).drop 4 = [0x5E, 0x1A, 0x0C, 0x97] := by
    rw [markExact, beq_iff_eq, bytesAt_of_length h, List.drop_drop]
    rfl
  have crcField : crcMatches page = true ↔ beNat ((page.drop 504).take 4) = (crc (page.take 504)).toNat := beq_iff_eq
  have field : bytesAt page 504 8 = page.drop 504 := bytesAt_of_length h
  cases hm : markExact page with
  | true =>
    obtain ⟨whole, inField⟩ := not_allFF_of_markExact hm
    rw [pageClass_of_mark hm, if_neg (mt (allFF_iff page).2 (Bool.eq_false_iff.1 whole)),
      if_neg (mt (allFF_iff _).2 (Bool.eq_false_iff.1 (field ▸ inField))), if_neg (not_not.2 (mark.1 hm)), ite_not]
    exact if_congr crcField rfl rfl
  | false =>
    rw [pageClass_of_no_mark h hm, if_pos (mt mark.2 (Bool.eq_false_iff.1 hm)), field]
    exact if_congr (allFF_iff page) rfl (if_congr (allFF_iff _) rfl rfl)

/-- The record area of a page body is the buffer's data, padded (R72). -/
theorem bytesAt_recordArea (epoch : Nat) (b : Buffer) (field : List Byte) (h : b.data.length ≤ 488) :
    bytesAt (pageBody epoch b ++ field) 16 488 = padFF 488 b.data := by
  rw [pageBody_eq, List.append_assoc]
  exact bytesAt_middle (pageHeader_length epoch b) (padFF_length h)

/-- The records of a page body are those of its buffer (R82, R199). -/
theorem pageRecords?_pageBody {epoch : Nat} {b : Buffer} {recs : List (List Byte)} (field : List Byte)
    (hdata : b.data = recs.flatten) (hcount : b.count = recs.length) (hmax : recs.length ≤ 30)
    (hlen : b.data.length ≤ 488)
    (hsize : ∀ rec ∈ recs, rec.length = 16 + (byteAt rec 3).toNat ∧ rec.length ≤ 256) :
    pageRecords? (pageBody epoch b ++ field) = some recs := by
  have count : (byteAt (pageBody epoch b ++ field) 6).toNat = recs.length :=
    (toNat_ofNat_byte (by omega)).trans hcount
  rw [pageRecords?, count, bytesAt_recordArea epoch b field hlen, walkRecords_eq_some_iff]
  exact ⟨rfl, ⟨_, congrArg (· ++ _) hdata⟩, hsize⟩

/-- A record page whose body and commit field the commit path has programmed (R72, R73). -/
def committedPage (epoch : Nat) (b : Buffer) : List Byte := pageBody epoch b ++ commitField (crc (pageBody epoch b))

/-- Such a page has the mark and the right CRC (R82, R200). -/
theorem committedPage_accepted (epoch : Nat) {b : Buffer} (h : b.data.length ≤ 488) :
    markExact (committedPage epoch b) = true ∧ crcMatches (committedPage epoch b) = true :=
  commitField_accepted (by rw [pageBody_eq, List.length_append, pageHeader_length, padFF_length h])

/-- Such a page is COMMITTED (R82), by the mark and CRC of its commit field and by the seqs of its records. -/
theorem pageClass_committedPage {epoch : Nat} {b : Buffer} {recs : List (List Byte)} (hdata : b.data = recs.flatten)
    (hcount : b.count = recs.length) (hmin : 1 ≤ recs.length) (hmax : recs.length ≤ 30) (hlen : b.data.length ≤ 488)
    (hsize : ∀ rec ∈ recs, rec.length = 16 + (byteAt rec 3).toNat ∧ rec.length ≤ 256)
    (hseq : ∀ (k : Nat) (h : k < recs.length), recSeq recs[k] = b.firstSeq + k) (hfirst : 0 < b.firstSeq)
    (hlast : b.lastSeq = b.firstSeq + recs.length - 1) (hbound : b.lastSeq < 2 ^ 32) :
    pageClass (committedPage epoch b) = .committed := by
  obtain ⟨mark, crcField⟩ := committedPage_accepted epoch hlen
  have firstField : fieldAt (committedPage epoch b) 8 4 = b.firstSeq :=
    beNat_beBytes_of_lt 4 _ (by omega)
  have lastField : fieldAt (committedPage epoch b) 12 4 = b.lastSeq :=
    beNat_beBytes_of_lt 4 _ hbound
  have first : recSeq (recs.headD []) = b.firstSeq := by
    rw [List.headD_eq_head?_getD, List.head?_eq_getElem?, List.getElem?_eq_getElem hmin]
    exact hseq 0 hmin
  have last : recSeq (recs.getLastD []) = b.lastSeq := by
    rw [List.getLastD_eq_getLast?, List.getLast?_eq_getElem?, List.getElem?_eq_getElem (by omega), Option.getD_some,
      hseq _ (by omega)]
    omega
  have consistent : pageConsistent (committedPage epoch b) = true := by
    refine (pageConsistent_iff_of_walk _).2
      ⟨recs, pageRecords?_pageBody _ hdata hcount hmax hlen hsize, ⟨hmin, hmax⟩, ?_, fun k h => ?_, ?_, ?_⟩
    · rw [first]
      exact Nat.ne_of_gt hfirst
    · rw [hseq (k + 1) h, hseq k (by omega)]
      omega
    · rw [firstField, first]
    · rw [lastField, last]
  rw [pageClass_of_mark mark, if_pos crcField, if_pos consistent]

/-- Settles O58: each layout reads back, and the classes of record pages and head pages test by test. -/
theorem layoutsReadBack : Obligations.LayoutsReadBack := by
  refine ⟨⟨by decide +kernel, fun f g => setupOfPage_setupBody, fun epoch count => headClass_headPage, ?readBack⟩,
    ?pages, fun page => headClass_eq⟩
  case readBack =>
    intro epoch b recs hdata hcount hmin hmax hlen hsize hseq hfirst hlast hbound
    refine ⟨pageClass_committedPage hdata hcount hmin hmax hlen hsize hseq hfirst hlast hbound, ?_⟩
    rw [pageRecords, pageRecords?_pageBody _ hdata hcount hmax hlen hsize, Option.getD_some]
  case pages =>
    rintro page _ _ consistent _ h rfl rfl hc
    rw [pageClass_eq h]
    have judged : pageConsistent page = true ↔ consistent := (pageConsistent_iff page).trans hc.symm
    simp only [judged]

end Sys2Proof.Machine

/-! SUPPORT. The sector directory and reclaim (chapter 5) with the fetches of the cursor engine (chapter 6): the commands that
read and write of them, which sector a reclaim takes and what its start does, the ends of erases and of retire marks, space
back, and the page a fetch asks for; and the statements they settle. -/

namespace Sys2Proof.Machine

/-! ### Read Directory Entry (R103) -/

/-- Read Directory Entry is taken at its sector index and decided by its rule (R103). -/
theorem exec_readDirectoryEntry {s : State} (b : Byte) (h : s.atArguments 0x05 []) (hr : s.ctrl.state ≠ .recovering) :
    exec (.readDirectoryEntry b) s = .next (State.answer 0x05 [b] (s.readDirectoryEntryRule [b])) :=
  takeByte_argument (c := .readDirectoryEntry) h rfl rfl (.inl hr)

/-- While RECOVERING it is refused, whatever its index (R188). -/
theorem exec_readDirectoryEntry_of_recovering {s : State} (b : Byte) (h : s.atArguments 0x05 [])
    (hr : s.ctrl.state = .recovering) :
    exec (.readDirectoryEntry b) s = .next (State.answer 0x05 [b] (s.refuseWith .notReady)) := by
  have taken : exec (.readDirectoryEntry b) s = .next (s.gather .readDirectoryEntry 0x05 [b] 0) := takeByte_next h rfl
  rw [taken, gather_notReady (c := .readDirectoryEntry) rfl hr nofun nofun]

/-- An index above 125 names no journal sector (R103). -/
theorem State.readDirectoryEntryRule_of_le (s : State) {b : Byte} (h : 126 ≤ b.toNat) :
    s.readDirectoryEntryRule [b] = s.refuseWith .badArg := dif_neg (Nat.not_lt.2 h)

/-- The entry of the sector that the index names (R103). -/
theorem State.readDirectoryEntryRule_of_eq (s : State) {b : Byte} {j : JSector} (h : b.toNat = j.val) :
    s.readDirectoryEntryRule [b] = (.ok, s.dir[j].bytes, s) := by
  have below : (byteAt [b] 0).toNat < 126 := h.trans_lt j.isLt
  obtain rfl : j = ⟨(byteAt [b] 0).toNat, below⟩ := Fin.ext h.symm
  exact dif_pos below

/-- Settles O12: the refusals and the entry's bytes. -/
theorem readDirectoryEntryReply : Obligations.ReadDirectoryEntryReply := by
  intro s b h
  have hc : commandOf 0x05 ≠ some .readStatus ∧ commandOf 0x05 ≠ some .readRecords := by decide
  refine ⟨fun hr => ?_, fun hr hb => ?_, fun j hr hj => ?_⟩
  · rw [exec_readDirectoryEntry_of_recovering b h hr, answer_refuse hc.1 hc.2]
  · rw [exec_readDirectoryEntry b h hr, s.readDirectoryEntryRule_of_le hb, answer_refuse hc.1 hc.2]
  · rw [exec_readDirectoryEntry b h hr, s.readDirectoryEntryRule_of_eq hj, answer_eq_replied hc.1 hc.2]
    rfl

/-! ### Set Retain Floor (R91) -/

/-- Set Retain Floor is taken at the last byte of its value and decided by its rule (R91). -/
theorem exec_setRetainFloor {s : State} {mode b1 b2 b3 : Byte} (b4 : Byte) (h : s.atArguments 0x24 [mode, b1, b2, b3])
    (hr : s.ctrl.state ≠ .recovering) :
    exec (.setRetainFloor b4) s
      = .next (State.answer 0x24 [mode, b1, b2, b3, b4] (s.setRetainFloorRule [mode, b1, b2, b3, b4])) :=
  takeByte_argument (c := .setRetainFloor) h rfl rfl (.inl hr)

/-- A number above 2 is no code of a floor mode (R91). -/
theorem FloorMode.ofCode_of_lt : ∀ {n : Nat}, 2 < n → FloorMode.ofCode n = none
  | 0, h | 1, h | 2, h => absurd h (by decide)
  | _ + 3, _ => rfl

/-- An undefined mode is refused (R91). -/
theorem State.setRetainFloorRule_of_undefined (s : State) {mode : Byte} (value : List Byte) (h : 2 < mode.toNat) :
    s.setRetainFloorRule (mode :: value) = s.refuseWith .badArg := by
  rw [State.setRetainFloorRule, show byteAt (mode :: value) 0 = mode from rfl, FloorMode.ofCode_of_lt h]

/-- The mode changes, and under FIXED the value with it (R91). -/
theorem State.setRetainFloorRule_of_code (s : State) {mode : Byte} {m : FloorMode} (value : List Byte)
    (h : mode.toNat = m.code) :
    s.setRetainFloorRule (mode :: value) = State.accept (State.settle false (s.setJournal
      { s.setup.fields.journal with
        floorMode := m
        fixedFloor := if m = .fixed then fieldAt (mode :: value) 1 4 else s.setup.fields.journal.fixedFloor })) := by
  rw [State.setRetainFloorRule, show byteAt (mode :: value) 0 = mode from rfl, h, FloorMode.ofCode_code]

/-- Settles O15: the two ways of `State.setRetainFloorRule`. -/
theorem setRetainFloorRule : Obligations.SetRetainFloorRule := by
  intro s mode b1 b2 b3 b4 h hr
  have hc : commandOf 0x24 ≠ some .readStatus ∧ commandOf 0x24 ≠ some .readRecords := by decide
  rw [exec_setRetainFloor b4 h hr]
  refine ⟨fun hm => ?_, fun m hm => ?_⟩
  · rw [s.setRetainFloorRule_of_undefined _ hm, answer_refuse hc.1 hc.2]
  · rw [s.setRetainFloorRule_of_code _ hm, answer_accept hc.1 hc.2]
    rfl

/-! ### The sector a reclaim takes (R89, R90, R94) -/

/-- The list of a state begins with its sector of least index. -/
theorem Directory.head?_inState {d : Directory} {st : SectorState} {j : JSector} (hj : d[j].state = st)
    (least : ∀ i : JSector, d[i].state = st → j.val ≤ i.val) : (d.inState st).head? = some j := by
  have sorted := inState_pairwise d st
  have listed : j ∈ d.inState st := mem_inState.2 hj
  cases hl : d.inState st with
  | nil => rw [hl] at listed; cases listed
  | cons a rest =>
    rw [hl] at sorted listed
    have above : j.val ≤ a.val := least a (mem_inState.1 (hl ▸ List.mem_cons_self))
    rcases List.mem_cons.1 listed with rfl | later
    · rfl
    · exact absurd (List.rel_of_pairwise_cons sorted later) (Nat.not_lt.2 above)

/-- No sector is listed under a state that none is in. -/
theorem Directory.inState_eq_nil_iff {d : Directory} {st : SectorState} :
    d.inState st = [] ↔ ∀ j : JSector, d[j].state ≠ st := by
  simp only [List.eq_nil_iff_forall_not_mem, mem_inState, ne_eq]

/-- The CLOSED sector of least epoch, and of least index among those (R86). -/
theorem Directory.oldestClosed_eq_some_iff (d : Directory) (j : JSector) :
    d.oldestClosed = some j ↔ d[j].state = .closed ∧ ∀ i : JSector, d[i].state = .closed →
      d[j].epoch < d[i].epoch ∨ d[j].epoch = d[i].epoch ∧ j.val ≤ i.val := by
  refine (leastBy_spec _ (inState_pairwise d .closed) j).trans ?_
  simp only [mem_inState]

/-- The CLOSED sector with nothing readable that a reclaim would take: the one of least epoch, and of least index among
those (R94). -/
def Directory.oldestEmpty (d : Directory) : Option JSector :=
  leastBy (fun j => d[j].epoch) ((d.inState .closed).filter fun j => d[j].firstSeq == 0)

/-- What such a sector is. -/
theorem Directory.oldestEmpty_eq_some_iff (d : Directory) (j : JSector) :
    d.oldestEmpty = some j ↔ (d[j].state = .closed ∧ d[j].firstSeq = 0) ∧
      ∀ i : JSector, d[i].state = .closed ∧ d[i].firstSeq = 0 →
        d[j].epoch < d[i].epoch ∨ d[j].epoch = d[i].epoch ∧ j.val ≤ i.val := by
  refine (leastBy_spec _ ((inState_pairwise d .closed).filter _) j).trans ?_
  simp only [List.mem_filter, mem_inState, beq_iff_eq]

/-- There is none where every CLOSED sector holds readable records. -/
theorem Directory.oldestEmpty_eq_none_iff (d : Directory) :
    d.oldestEmpty = none ↔ ∀ j : JSector, d[j].state = .closed → d[j].firstSeq ≠ 0 := by
  simp only [Directory.oldestEmpty, leastBy_eq_none, List.filter_eq_nil_iff, mem_inState, beq_iff_eq, ne_eq]

section
variable {s : State} {j : JSector}

/-- A DIRTY sector is taken first (R94). -/
theorem State.reclaimCandidate_of_dirty (h : (s.dir.inState .dirty).head? = some j) : s.reclaimCandidate = some j := by
  rw [State.reclaimCandidate, h]

/-- Without a DIRTY sector one with nothing readable is taken (R94). -/
theorem State.reclaimCandidate_of_empty (hd : s.dir.inState .dirty = []) (h : s.dir.oldestEmpty = some j) :
    s.reclaimCandidate = some j := by
  rw [Directory.oldestEmpty] at h
  rw [State.reclaimCandidate, hd, h]
  rfl

/-- Else the oldest CLOSED sector is taken where it is reclaimable (R89, R94). -/
theorem State.reclaimCandidate_of_oldest (hd : s.dir.inState .dirty = []) (he : s.dir.oldestEmpty = none)
    (ho : s.dir.oldestClosed = some j) (hj : s.dir[j].firstSeq ≠ 0) :
    s.reclaimCandidate = if s.reclaimable j = true then some j else none := by
  rw [Directory.oldestEmpty] at he
  rw [State.reclaimCandidate, hd, he, ho]
  exact if_congr (by rw [bne_iff_ne.2 hj, Bool.true_and]) rfl rfl

/-- The oldest CLOSED sector is reclaimable under WRAP, outside FAILED, where the retain floor lets it go (R89, R90). -/
theorem State.reclaimable_iff_of_oldest (ho : s.dir.oldestClosed = some j) :
    s.reclaimable j = true ↔ s.setup.fields.journal.retention = .wrap ∧ s.ctrl.state ≠ .failed
      ∧ s.floorAdmits s.dir[j].lastSeq = true := by
  simp only [State.reclaimable, ho, beq_self_eq_true, Bool.true_and, Bool.and_eq_true, beq_iff_eq, bne_iff_ne, and_assoc]

end

/-- Settles O49: the three sectors of R94 in their order. -/
theorem reclaimCandidates : Obligations.ReclaimCandidates := by
  refine fun s j => ⟨reclaimCandidate_state, fun hj least => ?_,
    fun none => ⟨fun hj he least => ?_, fun readable hj least => ?_⟩⟩
  · exact State.reclaimCandidate_of_dirty (Directory.head?_inState hj least)
  · refine State.reclaimCandidate_of_empty (Directory.inState_eq_nil_iff.2 none) ?_
    exact (s.dir.oldestEmpty_eq_some_iff j).2 ⟨⟨hj, he⟩, fun i hi => least i hi.1 hi.2⟩
  · have oldest : s.dir.oldestClosed = some j := (s.dir.oldestClosed_eq_some_iff j).2 ⟨hj, least⟩
    rw [State.reclaimCandidate_of_oldest (Directory.inState_eq_nil_iff.2 none) (s.dir.oldestEmpty_eq_none_iff.2 readable)
      oldest (readable j hj)]
    exact if_congr (State.reclaimable_iff_of_oldest oldest) rfl rfl

/-! ### The usable test (R77, R98, R134) -/

/-- A halted commit path makes no request any more (R77). -/
theorem State.haltCommit_eq (s : State) : s.haltCommit = { s with
    commit := { s.commit with phase := .halted, leavingBlocked := false }
    array := { s.array with waiting := s.array.waiting.filter (fun r => r.requester != .commit)
                            made := s.array.made.filter (fun r => r.requester != .commit) } } := rfl

/-- The journal fails, in one of these states (R134). -/
theorem State.journalFailed_of_fails {s : State} (h : s.ctrl.state ∈ [JState.running, .stopping, .stopped, .full]) :
    s.journalFailed = State.haltCommit
      { s with ctrl := { s.ctrl with state := .failed, stopRequested := false, spaceWait := false }
               events := { s.events with flags := s.events.flags ||| Event.state.mask } } := by
  have entered : s.enter .failed = _ := State.enter_of_ne fun failed => by rw [failed] at h; exact absurd h (by decide)
  have failed : s.journalFailed
      = ((s.enter .failed).withCtrl fun c => { c with stopRequested := false, spaceWait := false }).haltCommit := by
    simp only [List.mem_cons, List.not_mem_nil, or_false] at h
    rcases h with h | h | h | h <;> simp only [State.journalFailed, h]
  rw [failed, entered]
  rfl

/-- In the other states the report changes nothing (R134). -/
theorem State.journalFailed_of_not_fails {s : State} (h : s.ctrl.state ∉ [JState.running, .stopping, .stopped, .full]) :
    s.journalFailed = s := by
  unfold State.journalFailed
  split
  case h_1 | h_2 | h_3 | h_4 => rename_i state; rw [state] at h; exact absurd (by decide) h
  case h_5 => rfl

/-- The usable test, and the failure of the journal it leads to (R77, R98, R134). -/
theorem State.usableTest_eq (s : State) : s.usableTest =
    if s.dir.usable < 4 ∧ s.ctrl.state ∈ [JState.running, .stopping, .stopped, .full] then State.haltCommit
      { s with ctrl := { s.ctrl with state := .failed, stopRequested := false, spaceWait := false }
               events := { s.events with flags := s.events.flags ||| Event.state.mask } }
    else s := by
  unfold State.usableTest
  by_cases few : s.dir.usable < 4
  · rw [if_pos few]
    by_cases state : s.ctrl.state ∈ [JState.running, .stopping, .stopped, .full]
    · rw [if_pos ⟨few, state⟩, State.journalFailed_of_fails state]
    · rw [if_neg fun h => state h.2, State.journalFailed_of_not_fails state]
  · rw [if_neg few, if_neg fun h => few h.1]

/-! ### A sector freed, and space back (R69, R132) -/

section
variable {s : State}

/-- A BLOCKED commit path opens the first sector of the pool (R69). -/
theorem State.sectorFreed_of_blocked {j : JSector} (h : s.commit.phase = .blocked) (hj : s.dir.poolFirst = some j) :
    s.sectorFreed = State.openSector j { s with commit := { s.commit with leavingBlocked := true } } := by
  rw [State.sectorFreed, if_pos h]
  dsimp only [State.withCommit]
  rw [hj]

/-- With space-wait set and the path IDLE the space is back (R132). -/
theorem State.sectorFreed_of_waiting (h : s.commit.phase = .idle) (hw : s.ctrl.spaceWait = true) :
    s.sectorFreed = s.spaceBack := by
  rw [State.sectorFreed, if_neg (by rw [h]; exact nofun), if_pos ⟨hw, h⟩]

/-- Else nobody waits for the sector. -/
theorem State.sectorFreed_of_other (h : s.commit.phase ≠ .blocked)
    (hw : s.commit.phase ≠ .idle ∨ s.ctrl.spaceWait = false) : s.sectorFreed = s := by
  have nobody : ¬ (s.ctrl.spaceWait = true ∧ s.commit.phase = .idle) := fun ⟨waits, idle⟩ =>
    hw.elim (· idle) fun clear => Bool.noConfusion (waits.symm.trans clear)
  rw [State.sectorFreed, if_neg h, if_neg nobody]

/-- The end of a stop in FULL (R132). -/
theorem State.fullToStopped_of_full (h : s.ctrl.state = .full) : s.fullToStopped =
    { s with ctrl := { s.ctrl with stopRequested := false, state := .stopped }
             events := { s.events with flags := s.events.flags ||| Event.state.mask } } :=
  State.enter_of_ne (by rw [State.withCtrl_ctrl, h]; exact nofun)

/-- Space back in FULL, with numbers left: back to RUNNING, or the end of the stop once nothing is staged (R132). -/
theorem State.spaceBack_eq {u : State} (hu : u = { s with ctrl := { s.ctrl with spaceWait := false } }) :
    s.spaceBack =
      if s.ctrl.state = .full ∧ s.adm.exhausted = false then
        if s.ctrl.stopRequested = false then u.enterRunning
        else if s.staged = false then u.fullToStopped
        else u
      else u := by
  have not_iff (b : Bool) : (!b) = true ↔ b = false := iff_of_eq (Bool.not_eq_true' b)
  subst hu
  exact if_congr (and_congr_right' (not_iff _)) (if_congr (not_iff _) rfl (if_congr (not_iff _) rfl rfl)) rfl

end

/-- Settles O42: the usable test, who waits for a sector, and what becomes of FULL. -/
theorem usableAndSpace : Obligations.UsableAndSpace := by
  refine ⟨fun s => ⟨s.haltCommit_eq, s.usableTest_eq⟩,
    fun s => ⟨fun h j => State.sectorFreed_of_blocked h, State.sectorFreed_of_waiting, State.sectorFreed_of_other⟩, ?_⟩
  rintro s u rfl
  rw [State.spaceBack_eq rfl]
  refine ite_congr rfl (fun full => ?_) fun _ => rfl
  refine ite_congr rfl (fun _ => rfl) fun _ => ite_congr rfl (fun _ => ?_) fun _ => rfl
  exact State.fullToStopped_of_full full.1

/-! ### Reads given up (R110, R114) -/

/-- A request in flight that `gone` picks runs on unwanted. -/
def Request.dropped (gone : Request → Bool) (r : Request) : Request := if gone r then { r with wanted := false } else r

/-- It is no longer wanted (R58). -/
theorem Request.dropped_of {gone : Request → Bool} {r : Request} (h : gone r = true) :
    r.dropped gone = { r with wanted := false } := if_pos h

/-- Another one stays as it is. -/
theorem Request.dropped_of_not {gone : Request → Bool} {r : Request} (h : gone r = false) : r.dropped gone = r :=
  if_neg (Bool.eq_false_iff.1 h)

/-- The array after the requests that `gone` picks are given up: those that wait are withdrawn, and the one in flight runs on
unwanted. -/
def StorageArray.giveUp (gone : Request → Bool) (a : StorageArray) : StorageArray :=
  { a with op := a.op.map (Request.dropped gone)
           waiting := a.waiting.filter fun r => !gone r
           made := a.made.filter fun r => !gone r }

/-- The cursor engine gives up its reads of a kind so (R110). -/
theorem State.giveUpReads_eq (p : Requester → Bool) (s : State) :
    s.giveUpReads p = { s with array := s.array.giveUp fun r => p r.requester } := rfl

/-- A seek gives up its reads of a sector so (R114). -/
theorem State.giveUpSeekRead_eq (j : JSector) (s : State) :
    s.giveUpSeekRead j = { s with array := s.array.giveUp (Request.seeks j) } := rfl

/-- Nothing is given up where nothing is picked. -/
theorem StorageArray.giveUp_false (a : StorageArray) : a.giveUp (fun _ => false) = a := by
  have kept : Request.dropped (fun _ => false) = id := rfl
  simp only [StorageArray.giveUp, kept, Option.map_id, id, Bool.not_false, List.filter_true]

/-- Requests given up in two steps are those that either step picks. -/
theorem StorageArray.giveUp_giveUp (p q : Request → Bool) (a : StorageArray) :
    (a.giveUp p).giveUp q = a.giveUp fun r => q r || p r := by
  have both : Request.dropped q ∘ Request.dropped p = Request.dropped fun r => q r || p r := by
    funext r
    rw [Function.comp]
    cases hp : p r with
    | false => rw [Request.dropped_of_not hp, Request.dropped, Request.dropped, hp, Bool.or_false]
    | true =>
      rw [Request.dropped_of hp, Request.dropped_of (gone := fun r => q r || p r) (by rw [hp, Bool.or_true])]
      exact ite_self _
  simp only [StorageArray.giveUp, List.filter_filter, Option.map_map, Bool.not_or, both]

/-- Where other reads are given up, a seek still wants a read of the sector if it did before (R114). -/
theorem StorageArray.seekReads_giveUp {j : JSector} {gone : Request → Bool} (a : StorageArray)
    (others : ∀ r, gone r = true → r.seeks j = false) : (a.giveUp gone).seekReads j = a.seekReads j := by
  have listed (r : Request) : (!gone r && (r.wanted && r.seeks j)) = (r.wanted && r.seeks j) := by
    cases h : gone r with
    | false => rfl
    | true => rw [others r h, Bool.and_false, Bool.and_false]
  have flying (r : Request) : ((r.dropped gone).wanted && (r.dropped gone).seeks j) = (r.wanted && r.seeks j) := by
    cases h : gone r with
    | false => rw [Request.dropped_of_not h]
    | true => rw [Request.dropped_of h, others r h, Bool.false_and, Bool.and_false]
  simp only [StorageArray.seekReads, StorageArray.giveUp, List.any_append, List.any_filter, listed]
  cases a.op with
  | none => rfl
  | some r => simp only [Option.map_some, Option.toList_some, List.any_cons, List.any_nil, flying]

/-! ### What the start of a reclaim changes (R93, R95, R107, R114, R122) -/

/-- The read buffer after it has given up the pages of a sector (R122). -/
def ReadBuffer.without (j : JSector) : ReadBuffer → ReadBuffer
  | .held i p b => if i = j then .empty else .held i p b
  | .fetching i p => if i = j then .empty else .fetching i p
  | .empty => .empty

/-- A page of the sector is being fetched. -/
def ReadBuffer.fetches (j : JSector) : ReadBuffer → Bool
  | .fetching i _ => i == j
  | _ => false

/-- The read buffer gives up the sector's pages, and a fetch of one is no longer wanted (R110, R122). -/
theorem State.invalidate_eq (j : JSector) (s : State) :
    s.invalidate j = { s with
      cursor := { s.cursor with buffer := s.cursor.buffer.without j }
      array := s.array.giveUp fun r => r.requester == .cursorFetch && s.cursor.buffer.fetches j } := by
  unfold State.invalidate
  cases hb : s.cursor.buffer with
  | empty =>
    simp only [ReadBuffer.fetches, Bool.and_false, StorageArray.giveUp_false]
    rw [ReadBuffer.without, ← hb]
  | held i p b =>
    simp only [ReadBuffer.fetches, Bool.and_false, StorageArray.giveUp_false]
    by_cases h : i = j
    · rw [if_pos h, ReadBuffer.without, if_pos h]
    · rw [if_neg h, ReadBuffer.without, if_neg h, ← hb]
  | fetching i p =>
    simp only [ReadBuffer.fetches]
    by_cases h : i = j
    · rw [if_pos h, ReadBuffer.without, if_pos h, beq_iff_eq.2 h]
      simp only [Bool.and_true, State.giveUpReads_eq]
    · rw [if_neg h, ReadBuffer.without, if_neg h, beq_eq_false_iff_ne.2 h, ← hb]
      simp only [Bool.and_false, StorageArray.giveUp_false]

/-- A sector is being reclaimed, whether or not the cursor is overtaken: it is in ERASING with nothing readable, and its pages
leave the withheld list and the read buffer (R95, R107, R122). -/
def State.reclaiming (j : JSector) (s : State) : State :=
  { s with reclaim := { phase := .erase, target := some j }
           dir := s.dir.update j Entry.erasing
           cursor := { s.cursor with withheld := s.cursor.withheld.filter fun w => w.1 != j
                                     buffer := s.cursor.buffer.without j }
           array := s.array.giveUp fun r => r.requester == .cursorFetch && s.cursor.buffer.fetches j }

/-- The start of a reclaim (R95). -/
theorem State.reclaimStart_eq (j : JSector) (s : State) {taken : Bool}
    (h : taken = (s.dir[j].firstSeq != 0 && decide (s.cursor.target ≤ s.dir[j].lastSeq))) :
    s.reclaimStart j = State.request (eraseRequest .reclaim j)
      (if taken then (s.reclaiming j).overtake j else s.reclaiming j) := by
  have entered : State.invalidate j (State.enterErasing j { s with reclaim := { phase := .erase, target := some j } })
      = s.reclaiming j := State.invalidate_eq j _
  rw [State.reclaimStart, h, ← entered]

/-- The reads of a seek are still those of before the reclaim (R114). -/
theorem State.seekReads_reclaiming (j : JSector) (s : State) :
    (s.reclaiming j).array.seekReads j = s.array.seekReads j :=
  StorageArray.seekReads_giveUp _ fun r h => by
    have fetch : r.requester = .cursorFetch := beq_iff_eq.1 (Bool.and_eq_true_iff.1 h).1
    rw [Request.seeks, fetch]
    rfl

/-- The reads that the reclaim of a sector takes from the cursor engine: a fetch of one of its pages, and, with the cursor
overtaken, a seek's reads of it (R110, R114). -/
def Request.lost (taken : Bool) (j : JSector) (b : ReadBuffer) (r : Request) : Bool :=
  taken && r.requester == .cursorSeek && r.sector == sectorOf j || r.requester == .cursorFetch && b.fetches j

/-- The transmit store after a reclaim's start: an overtaking takes the RECORD kept (R122). -/
def TransmitStore.reclaimed (taken : Bool) : TransmitStore → TransmitStore
  | .kept n rec => if taken then .empty else .kept n rec
  | x => x

/-- The whole effect of a reclaim's start, `n` being the resume point it leaves (R95, R107, R110, R114, R122). -/
theorem State.reclaimStart_fields (j : JSector) (s : State) {taken : Bool} {n : Nat}
    (htaken : taken = (s.dir[j].firstSeq != 0 && decide (s.cursor.target ≤ s.dir[j].lastSeq)))
    (hn : n = State.resumePoint { s with dir := s.dir.update j Entry.erasing }) :
    s.reclaimStart j = State.request (eraseRequest .reclaim j)
      { s with
        reclaim := { phase := .erase, target := some j }
        dir := s.dir.update j Entry.erasing
        cursor := { s.cursor with
          withheld := s.cursor.withheld.filter fun w => w.1 != j
          buffer := s.cursor.buffer.without j
          target := if taken then n else s.cursor.target
          pendingToken := if taken then .lost n else s.cursor.pendingToken
          faultSeen := if taken then false else s.cursor.faultSeen
          store := s.cursor.store.reclaimed taken
          seek := if taken then
              s.cursor.seek.map fun k => ⟨k.stamp, none, k.outstanding && !s.array.seekReads j⟩
            else s.cursor.seek }
        events := if taken then { s.events with flags := s.events.flags ||| Event.cursorLost.mask } else s.events
        array := s.array.giveUp (Request.lost taken j s.cursor.buffer) } := by
  rw [s.reclaimStart_eq j htaken]
  refine congrArg _ ?_
  clear htaken
  subst hn
  cases taken with
  | false =>
    have store : s.cursor.store.reclaimed false = s.cursor.store := by cases s.cursor.store <;> rfl
    rw [store]
    rfl
  | true =>
    have array : ((s.reclaiming j).giveUpSeekRead j).array = s.array.giveUp (Request.lost true j s.cursor.buffer) := by
      rw [State.giveUpSeekRead_eq]
      exact StorageArray.giveUp_giveUp _ _ s.array
    rw [if_pos rfl, overtake_eq, array, s.seekReads_reclaiming j]
    rfl

/-- The reclaim trigger does nothing where one of its conditions is missing (R93). -/
theorem State.reclaimTest_of_not {s : State} (h : s.reclaim.phase ≠ .idle ∨ 2 ≤ s.dir.countOf .free
    ∨ s.ctrl.state ∈ [JState.recovering, .formatting, .draining, .drained] ∨ s.reclaimCandidate = none) :
    s.reclaimTest = s := by
  unfold State.reclaimTest
  split
  case isTrue conditions =>
    obtain ⟨idle, few, state⟩ := conditions
    have candidate : s.reclaimCandidate = none := by
      rcases h with busy | many | other | none
      · exact absurd idle busy
      · exact absurd few (Nat.not_lt.2 many)
      · simp only [List.mem_cons, List.not_mem_nil, or_false] at other
        rcases other with h | h | h | h <;> rw [h] at state <;> cases state
      · exact none
    rw [candidate]
  case isFalse => rfl

/-- With its conditions the trigger starts the reclaim of the candidate (R93, R94). -/
theorem State.reclaimTest_of_candidate {s : State} {j : JSector} (idle : s.reclaim.phase = .idle)
    (few : s.dir.countOf .free < 2) (state : s.ctrl.state ∈ [JState.running, .stopping, .stopped, .full, .failed])
    (h : s.reclaimCandidate = some j) : s.reclaimTest = s.reclaimStart j := by
  have reclaims : s.ctrl.state.reclaims = true := by
    simp only [List.mem_cons, List.not_mem_nil, or_false] at state
    rcases state with h | h | h | h | h <;> rw [h] <;> rfl
  rw [State.reclaimTest, if_pos ⟨idle, few, reclaims⟩, h]

/-- Settles O50: the conditions of the trigger, and `State.reclaimStart_fields` field by field. -/
theorem reclaimStarts : Obligations.ReclaimStarts := by
  refine fun s => ⟨State.reclaimTest_of_not, fun j idle few state candidate => ⟨s.reclaimStart j, ?_⟩⟩
  refine ⟨State.reclaimTest_of_candidate idle few state candidate, ?_⟩
  rw [s.reclaimStart_fields j rfl rfl]
  refine ⟨rfl, rfl, List.mem_append_right _ (List.mem_singleton.2 rfl), rfl, rfl, rfl, rfl, rfl, ?_⟩
  rintro taken gone htaken hgone
  have lost : gone = Request.lost taken j s.cursor.buffer := hgone
  rw [lost, htaken]
  exact ⟨rfl, rfl, rfl, rfl, rfl, rfl, rfl, rfl, rfl⟩

/-! ### A sector is freed or retired (R96 to R99, R102) -/

/-- The journal states in which an erase is judged as in a drain (R96, R99). -/
theorem JState.draws_eq (j : JState) : j.draws = decide (j = .draining ∨ j = .drained) := by cases j <;> rfl

/-- The usable test leaves the journal alone in DRAINING and DRAINED (R98). -/
theorem State.usableTest_of_draws {s : State} (h : s.ctrl.state.draws = true) : s.usableTest = s := by
  rw [State.usableTest_eq, if_neg]
  rintro ⟨-, state⟩
  simp only [List.mem_cons, List.not_mem_nil, or_false] at state
  rcases state with k | k | k | k <;> rw [k] at h <;> cases h

/-- The usable test leaves the reclaim engine alone (R77, R98, R134). -/
theorem State.usableTest_reclaim (s : State) : s.usableTest.reclaim = s.reclaim := by
  rw [State.usableTest_eq]
  split <;> rfl

/-- The usable test brings no drain about (R98). -/
theorem State.usableTest_draws {s : State} (h : s.ctrl.state.draws = false) : s.usableTest.ctrl.state.draws = false := by
  rw [State.usableTest_eq]
  split
  · rfl
  · exact h

/-- The requester is done with the sector: the reclaim engine becomes idle, and Format has a rule of its own (R96, R99). -/
def State.idleFor (who : Requester) (s : State) : State :=
  { s with reclaim := if who = .reclaim then { phase := .idle, target := none } else s.reclaim }

/-- The model's way to say it. -/
theorem State.idleFor_eq (who : Requester) (s : State) :
    s.idleFor who = if who = .reclaim then s.reclaimIdle else s := by
  unfold State.idleFor
  split <;> rfl

/-- Format deals with a sector whose erase has ended, where it still erases it (R102, R137). -/
def State.dealt (who : Requester) (j : JSector) (s : State) : State :=
  if who = .format ∧ s.ctrl.format = .erasing j then
    { s with ctrl := { s.ctrl with format := .choosing, formatDone := j :: s.ctrl.formatDone } }
  else s

/-- The sector that Format erased or marked is dealt with (R97, R137). -/
theorem State.formatDealt_eq (j : JSector) (s : State) :
    s.formatDealt j = if s.ctrl.format = .erasing j ∨ s.ctrl.format = .marking j then
        { s with ctrl := { s.ctrl with format := .choosing, formatDone := j :: s.ctrl.formatDone } }
      else s := by
  unfold State.formatDealt
  cases s.ctrl.format with
  | noFormat | choosing | starting => simp only [reduceCtorEq, or_self, if_false]
  | erasing i => simp only [reduceCtorEq, FormatPhase.erasing.injEq, or_false, State.withCtrl]
  | marking i => simp only [reduceCtorEq, FormatPhase.marking.injEq, false_or, State.withCtrl]

/-- Format's way to hear of its erase. -/
theorem State.dealt_format (j : JSector) (s : State) :
    s.dealt .format j = if s.ctrl.format = .erasing j then s.formatDealt j else s := by
  rw [State.dealt, State.formatDealt_eq]
  by_cases erasing : s.ctrl.format = .erasing j
  · rw [if_pos ⟨rfl, erasing⟩, if_pos erasing, if_pos (.inl erasing)]
  · rw [if_neg fun h => erasing h.2, if_neg erasing]

/-- The retire mark is requested, which DRAINING and DRAINED refuse (R97, R99). -/
def State.marking (who : Requester) (j : JSector) (s : State) : State :=
  State.request (retireMarkRequest who j)
    (if who = .reclaim then { s with reclaim := { s.reclaim with phase := .mark } }
     else if s.ctrl.state = .formatting then { s with ctrl := { s.ctrl with format := .marking j } }
     else s)

section
variable {who : Requester} (j : JSector) {s : State}

/-- A drain refuses the mark, and the reclaim engine is done with the sector (R99). -/
theorem State.requestMark_of_draws (h : s.ctrl.state.draws = true) : s.requestMark who j = s.idleFor who := by
  rw [State.requestMark, if_pos h, State.idleFor_eq]

/-- Outside a drain the mark is requested (R97). -/
theorem State.requestMark_of_not_draws (hw : who = .reclaim ∨ who = .format) (h : s.ctrl.state.draws = false) :
    s.requestMark who j = s.marking who j := by
  rw [State.requestMark, if_neg (Bool.eq_false_iff.1 h), State.marking]
  rcases hw with rfl | rfl
  · rfl
  · by_cases formatting : s.ctrl.state = .formatting
    · rw [if_neg (by decide), if_pos formatting]
      exact if_pos formatting
    · rw [if_neg (by decide), if_neg formatting]
      exact if_neg formatting

/-- A sector is retired in a drain: no mark is programmed (R97, R99). -/
theorem State.retire_of_draws (count : Nat) (h : s.ctrl.state.draws = true) :
    s.retire who j count = (s.markRetired j count).idleFor who := by
  have untested : (s.markRetired j count).usableTest = s.markRetired j count := State.usableTest_of_draws h
  rw [State.retire, untested]
  exact State.requestMark_of_draws j h

/-- A sector is retired outside a drain: the usable test, and the request of the mark (R97, R98). -/
theorem State.retire_of_not_draws (count : Nat) (hw : who = .reclaim ∨ who = .format) (h : s.ctrl.state.draws = false) :
    s.retire who j count = (s.markRetired j count).usableTest.marking who j :=
  State.requestMark_of_not_draws j hw (State.usableTest_draws h)

/-- An erase ends OK in a drain: the sector is DIRTY with its fields kept (R96, R99, R102). -/
theorem State.eraseEnded_of_draws (h : s.ctrl.state.draws = true) :
    s.eraseEnded who j .ok
      = (s.setEntry j fun x => { x with state := .dirty, eraseCount := s.dir[j].eraseCount + 1 }).idleFor who := by
  rw [State.idleFor_eq]
  exact if_pos h

/-- An erase ends OK outside a drain, with its sector to be used again: it is FREE (R96). -/
theorem State.eraseEnded_of_usable (h : s.ctrl.state.draws = false) (hc : s.dir[j].eraseCount + 1 < 100000)
    (hm : s.dir[j].retireMark = false) :
    s.eraseEnded who j .ok
      = ((s.setEntry j fun _ => Entry.freed (s.dir[j].eraseCount + 1)).idleFor who).sectorFreed := by
  have usable : ¬ (Config.eraseLimit ≤ s.dir[j].eraseCount + 1 ∨ s.dir[j].retireMark = true) :=
    not_or.2 ⟨Nat.not_le.2 hc, Bool.eq_false_iff.1 hm⟩
  rw [State.idleFor_eq]
  exact (if_neg (Bool.eq_false_iff.1 h)).trans (if_neg usable)

/-- An erase fails, or ends OK outside a drain with its sector worn out or marked: the sector is retired (R96, R97). -/
theorem State.eraseEnded_of_retired {o : OpOutcome} (h : o = .fail ∨ s.ctrl.state.draws = false ∧
      (100000 ≤ s.dir[j].eraseCount + 1 ∨ s.dir[j].retireMark = true)) :
    s.eraseEnded who j o = s.retire who j (s.dir[j].eraseCount + 1) := by
  cases o with
  | fail => rfl
  | ok =>
    obtain ⟨undrawn, due⟩ := h.resolve_left nofun
    exact (if_neg (Bool.eq_false_iff.1 undrawn)).trans (if_pos due)

end

/-- The end of an erase of a journal sector: the bytes take their values, and its requester hears the outcome (R49, R52,
R96, R102, R137). -/
theorem exec_journalEraseEnd {s : State} {e : Erase} {j : JSector} {o : OpOutcome} {i : Instr} (hp : s.powered = true)
    (he : s.array.erase = some e) (hc : e.cond ≠ .suspended) (hj : e.sector = sectorOf j)
    (hi : i = .reclaimEraseEnd o ∧ e.requester = .reclaim ∨ i = .formatEraseEnd o ∧ e.requester = .format) :
    exec i s = .next (State.settle true
      (((s.eraseSector e.sector o).eraseOver.eraseEnded e.requester j o).dealt e.requester j)) := by
  have heard : journalOf e.sector = some j := hj ▸ journalOf_sectorOf j
  rcases hi with ⟨rfl, hr⟩ | ⟨rfl, hr⟩
  · have run : execReclaimEraseEnd o s = _ := (live_of_powered hp).trans (eraseEnds_eq he hr hc)
    rw [exec, run, heard, hr]
    rfl
  · have run : execFormatEraseEnd o s = _ := (live_of_powered hp).trans (eraseEnds_eq he hr hc)
    rw [exec, run, heard, hr]
    exact congrArg (fun t => Host.Outcome.next (State.settle true t)) (State.dealt_format j _).symm

section
variable {s : State} {r : Request} (o : OpOutcome) (hp : s.powered = true) (hop : s.array.op = some r)
  (hk : r.kind = .retireMark)
include hp hop hk

/-- The reclaim engine is done with the sector it had marked (R97). -/
theorem exec_retireMarkEnd_of_reclaim (hr : r.requester = .reclaim) :
    exec (.retireMarkEnd o) s = .next ((s.program r o).opOver.reclaimIdle.settle true) := by
  have run : execRetireMarkEnd o s = _ := (live_of_powered hp).trans (programEnds_eq hop (beq_iff_eq.2 hk))
  rw [exec, run, hr]

/-- Format is done with the sector it had marked (R97). -/
theorem exec_retireMarkEnd_of_format {j : JSector} (hr : r.requester = .format) (hj : r.sector = sectorOf j) :
    exec (.retireMarkEnd o) s = .next (((s.program r o).opOver.formatDealt j).settle true) := by
  have run : execRetireMarkEnd o s = _ := (live_of_powered hp).trans (programEnds_eq hop (beq_iff_eq.2 hk))
  rw [exec, run, hr, hj, journalOf_sectorOf]

end

/-- Settles O41: the three ends of an erase for either requester, and the end of the mark for each. -/
theorem journalEraseEnd : Obligations.JournalEraseEnd := by
  refine ⟨?_, ?_⟩
  · intro s u e j o draws count i hp he hc hj hi hdraws hcount hu v idle deal hidle hdeal
    have ended (t : State) (h : u.eraseEnded e.requester j o = t) : exec i s = .next ((deal t).settle true) := by
      rw [exec_journalEraseEnd hp he hc hj hi, ← h, hu, hdeal]
      rfl
    have who : e.requester = .reclaim ∨ e.requester = .format := hi.imp And.right And.right
    have frame : s.dir = u.dir ∧ s.reclaim = u.reclaim ∧ s.events = u.events ∧ s.ctrl = u.ctrl := by
      rw [hu, State.eraseSector_eq]
      exact ⟨rfl, rfl, rfl, rfl⟩
    obtain ⟨dir, reclaim, events, ctrl⟩ := frame
    rw [dir] at hcount
    rw [ctrl, ← JState.draws_eq] at hdraws
    rw [reclaim] at hidle
    rw [dir, reclaim, events]
    subst hcount hidle hdraws
    refine ⟨?_, ?_, ?_⟩
    · rintro rfl drained rfl
      exact ended _ (State.eraseEnded_of_draws j drained)
    · rintro rfl undrained below unmarked rfl
      exact ended _ (State.eraseEnded_of_usable j undrained below unmarked)
    · rintro due rfl w hw
      have retired := State.eraseEnded_of_retired (who := e.requester) j due
      cases drained : u.ctrl.state.draws with
      | true => exact ended _ (retired.trans (State.retire_of_draws j _ drained))
      | false =>
        have kept : u.reclaim = w.reclaim := by rw [hw, State.usableTest_reclaim]
        rw [kept, hw]
        exact ended _ (retired.trans (State.retire_of_not_draws j _ who drained))
  · rintro s _ r o hp hop hk rfl
    refine ⟨exec_retireMarkEnd_of_reclaim o hp hop hk, fun j hr hj => ?_⟩
    have ctrl : (s.program r o).opOver.ctrl = s.ctrl := State.program_ctrl ..
    rw [exec_retireMarkEnd_of_format o hp hop hk hr hj, State.formatDealt_eq, ctrl]
    rfl

/-! ### The ring (R86) -/

section
variable (d : Directory)

/-- The CLOSED sectors as the ring has them, in ascending epoch. -/
def Directory.closedRing : List JSector := (d.inState .closed).foldr (insertBy fun j => d[j].epoch) []

theorem Directory.ring_eq : d.ring = d.closedRing ++ d.inState .opened := rfl

theorem Directory.mem_closedRing {j : JSector} : j ∈ d.closedRing ↔ d[j].state = .closed :=
  ((sortBy_spec _ _).1.mem_iff).trans mem_inState

/-- The ring lists the CLOSED and the OPEN sectors. -/
theorem Directory.mem_ring {j : JSector} : j ∈ d.ring ↔ d[j].state = .closed ∨ d[j].state = .opened := by
  rw [Directory.ring_eq, List.mem_append, Directory.mem_closedRing, mem_inState]

/-- No sector is listed twice under its state. -/
theorem Directory.inState_nodup (st : SectorState) : (d.inState st).Nodup :=
  (List.nodup_finRange 126).filter _

/-- The ring lists no sector twice. -/
theorem Directory.ring_nodup : d.ring.Nodup := by
  refine List.nodup_append.2 ⟨(sortBy_spec _ _).1.nodup_iff.2 (d.inState_nodup _), d.inState_nodup _, ?_⟩
  rintro i hi _ ho rfl
  rw [mem_inState, d.mem_closedRing.1 hi] at ho
  cases ho

/-- The ring's order: ascending epochs, and the OPEN sector behind. -/
theorem Directory.ring_pairwise :
    d.ring.Pairwise fun i j => d[j].state = .opened ∨ d[i].state = .closed ∧ d[i].epoch ≤ d[j].epoch := by
  refine List.pairwise_append.2 ⟨?_, ?_, fun i _ j hj => .inl (mem_inState.1 hj)⟩
  · exact (sortBy_spec _ _).2.imp_of_mem fun hi _ le => .inr ⟨d.mem_closedRing.1 hi, le⟩
  · exact (inState_pairwise d .opened).imp_of_mem fun _ hj _ => .inl (mem_inState.1 hj)

end

/-! ### What a fetch is for (R106 to R108, R110) -/

/-- A record is returnable that a COMMITTED page not withheld holds, at or above the wanted seq, above the last one returned
and not above the newest (R106, R107). -/
theorem State.mem_returnable {s : State} {rec : List Byte} :
    rec ∈ s.returnable ↔ ∃ j p bytes, s.cursor.buffer = .held j p bytes
      ∧ pageClass bytes = .committed ∧ (j, p) ∉ s.cursor.withheld ∧ rec ∈ pageRecords bytes
      ∧ s.cursor.wanted ≤ recSeq rec ∧ s.cursor.lastReturned < recSeq rec ∧ recSeq rec ≤ s.commit.newestSeq := by
  unfold State.returnable
  cases hb : s.cursor.buffer with
  | held j p bytes =>
    have good : (pageClass bytes = .committed ∧ (!s.cursor.isWithheld j p) = true)
        ↔ pageClass bytes = .committed ∧ (j, p) ∉ s.cursor.withheld := by
      rw [CursorEngine.isWithheld, Bool.not_eq_true', List.contains_eq_mem, decide_eq_false_iff_not]
    dsimp only
    rw [if_congr good rfl rfl]
    split
    case isTrue h =>
      simp only [List.mem_filter, decide_eq_true_iff]
      constructor
      · rintro ⟨listed, inRange⟩
        exact ⟨j, p, bytes, rfl, h.1, h.2, listed, inRange⟩
      · rintro ⟨_, _, _, same, _, _, listed, inRange⟩
        cases same
        exact ⟨listed, inRange⟩
    case isFalse h =>
      refine ⟨nofun, ?_⟩
      rintro ⟨_, _, _, same, committed, free, _⟩
      cases same
      exact absurd ⟨committed, free⟩ h
  | fetching j p => simp only [List.not_mem_nil, reduceCtorEq, false_and, exists_const]
  | empty => simp only [List.not_mem_nil, reduceCtorEq, false_and, exists_const]

/-- The conditions of a fetch, one by one (R108, R110). -/
theorem State.wantsFetch_iff {s : State} : s.wantsFetch = true ↔
    s.cursor.target ≠ 0 ∧ s.cursor.seek = none ∧ (∀ r, s.array.op = some r → r.requester.isCursor = true → r.wanted = true)
      ∧ s.cursor.wanted ≤ s.commit.newestSeq ∧ (∀ j p, s.cursor.buffer ≠ .fetching j p) ∧ s.returnable = [] := by
  have stale : s.staleRead = false ↔ ∀ r, s.array.op = some r → r.requester.isCursor = true → r.wanted = true := by
    unfold State.staleRead
    cases s.array.op with
    | none => simp only [reduceCtorEq, false_imp_iff, implies_true]
    | some r =>
      simp only [Bool.and_eq_false_imp, Bool.not_eq_false', Option.some.injEq, forall_eq']
  rw [← stale]
  unfold State.wantsFetch
  cases s.cursor.buffer with
  | fetching j p =>
    refine ⟨fun h => ?_, fun ⟨_, _, _, _, other, _⟩ => absurd rfl (other j p)⟩
    exact absurd (Bool.and_eq_true_iff.1 h).2 Bool.false_ne_true
  | held | empty =>
    simp only [Bool.and_eq_true, bne_iff_ne, Option.isNone_iff_eq_none, Bool.not_eq_true', decide_eq_true_iff, and_assoc,
      List.isEmpty_iff, ne_eq, reduceCtorEq, not_false_eq_true, implies_true, true_and]

/-- Without its conditions, and in RECOVERING, there is no fetch (R108, R110). -/
theorem State.fetchStep_of_not_wanted {s : State} (h : s.wantsFetch = false ∨ s.ctrl.state = .recovering) :
    s.fetchStep = s := by
  unfold State.fetchStep
  rcases h with h | h
  · rw [h]
    rfl
  · rw [h, ite_eq_left_iff]
    intro _
    cases s.fetchPlace <;> rfl

/-- Without a page to ask for there is no fetch (R108). -/
theorem State.fetchStep_of_no_place {s : State} (h : s.fetchPlace = none) : s.fetchStep = s := by
  rw [State.fetchStep, h]
  exact ite_self _

/-- The page is requested; in DRAINING and DRAINED the request is refused, and the page held is given up (R63, R108, R110). -/
theorem State.fetchStep_of_place {s : State} {j : JSector} {p : PageIx} (hw : s.wantsFetch = true)
    (hr : s.ctrl.state ≠ .recovering) (h : s.fetchPlace = some (j, p)) :
    s.fetchStep = if s.ctrl.state = .draining ∨ s.ctrl.state = .drained then
        { s with cursor := { s.cursor with buffer := .empty } }
      else State.request (cursorRead .cursorFetch j p) { s with cursor := { s.cursor with buffer := .fetching j p } } := by
  rw [State.fetchStep, hw, h]
  cases state : s.ctrl.state with
  | recovering => exact absurd state hr
  | draining | drained => rfl
  | running | stopping | stopped | full | formatting | failed => rfl

/-- A search of the ring sectors that hold readable records is one of the ring (R86, R108). -/
theorem Directory.find?_holders (d : Directory) (q : JSector → Bool) :
    d.holders.find? q = d.ring.find? fun j => d[j].firstSeq != 0 && q j := by
  simp only [Directory.holders, List.find?_filter, Bool.decide_and, Bool.decide_eq_true]

/-- Settles O46: the ring, the returnable records, and the fetch with and without its conditions. -/
theorem cursorFetches : Obligations.CursorFetches := by
  refine ⟨fun d => ⟨d.ring_nodup, fun j => d.mem_ring, d.ring_pairwise⟩, fun s w hw => ?_⟩
  have wanted : w = s.cursor.wanted := hw
  rw [wanted]
  clear hw wanted
  refine ⟨fun rec => State.mem_returnable, fun missing => State.fetchStep_of_not_wanted ?_, ?_⟩
  · refine or_iff_not_imp_left.2 fun wants => ?_
    obtain ⟨target, seek, stale, newest, fetching, returnable⟩ := State.wantsFetch_iff.1 (eq_true_of_ne_false wants)
    rcases missing with h | h | h | h | ⟨j, p, h⟩ | ⟨r, op, cursor, unwanted⟩ | h
    · exact absurd h target
    · exact absurd seek h
    · exact absurd newest (Nat.not_le.2 h)
    · exact absurd returnable h
    · exact absurd h (fetching j p)
    · exact absurd (unwanted.symm.trans (stale r op cursor)) Bool.false_ne_true
    · exact h
  · intro place j p hplace target seek newest returnable fetching stale state
    have conditions : s.wantsFetch = true := State.wantsFetch_iff.2 ⟨target, seek, stale, newest, fetching, returnable⟩
    have asked : s.fetchPlace = place := by
      rw [hplace, State.fetchPlace]
      cases buffer : s.cursor.buffer with
      | held i q bytes => rfl
      | empty =>
        dsimp only
        rw [s.dir.find?_holders]
      | fetching i q => exact absurd buffer (fetching i q)
    exact ⟨fun h => State.fetchStep_of_no_place (asked.trans h),
      fun h => State.fetchStep_of_place conditions state (asked.trans h)⟩

end Sys2Proof.Machine

/-! SUPPORT. Reading the journal (chapter 6): Seek and its targets, the search of a seek by stamp and the reads it makes, the
ends of the cursor engine's reads, Read Records, and the tokens; and the statements they settle. -/

namespace Sys2Proof.Machine

/-! ### Seek (R111 to R113) -/

/-- A kind above 3 owes no byte after the kind itself (R188). -/
theorem owed_seek_of_undefined {b : Byte} (h : 3 < b.toNat) : owed .seek [b] = 0 := by
  have notStamp : b ≠ 3 := by rintro rfl; exact absurd h (by decide)
  have notSeq : b ≠ 2 := by rintro rfl; exact absurd h (by decide)
  exact (if_neg notSeq).trans (if_neg notStamp)

/-- A number above 3 is no kind of Seek (R111). -/
theorem State.seekTo_of_undefined (args : List Byte) (s : State) : ∀ {kind : Nat}, 3 < kind → s.seekTo kind args = none
  | 0, h | 1, h | 2, h | 3, h => absurd h (by decide)
  | _ + 4, _ => rfl

/-- What a Seek empties and sets, whatever its kind (R111). -/
theorem State.placeCursor_eq (n : Nat) (s : State) : s.placeCursor n = { s with
    array := s.array.giveUp fun r => r.requester.isCursor
    cursor := { target := n, lastReturned := 0, buffer := .empty, faultSeen := false, pendingToken := .noToken,
                seek := none, store := .empty, withheld := s.cursor.withheld } } := rfl

section
variable {s : State} {b : Byte} {args : List Byte} (h : s.atArguments 0x30 args) (hr : s.ctrl.state ≠ .recovering)
  (whole : owed .seek (args ++ [b]) = 0)
include h hr whole

/-- Seek is taken at its last byte and decided by its rule (R111). -/
theorem exec_seek :
    exec (.seek b) s = .next (State.answer 0x30 (args ++ [b]) (s.seekRule (args ++ [b]))) :=
  takeByte_argument (c := .seek) h rfl whole (.inl hr)

/-- An undefined kind is refused (R111). -/
theorem exec_seek_of_undefined (undefined : s.seekTo (byteAt (args ++ [b]) 0).toNat (args ++ [b]) = none) :
    exec (.seek b) s = .next (s.replied 0x30 (args ++ [b]) .badArg []) := by
  rw [exec_seek h hr whole, State.seekRule, undefined, answer_refuse (by decide) (by decide)]

/-- A Seek of a defined kind is accepted, and the blocks take up the work it leaves (R111). -/
theorem exec_seek_of_target {t : State} (target : s.seekTo (byteAt (args ++ [b]) 0).toNat (args ++ [b]) = some t) :
    exec (.seek b) s = .next (State.replied 0x30 (args ++ [b]) .ok [] (t.settle false)) := by
  rw [exec_seek h hr whole, State.seekRule, target, answer_accept (by decide) (by decide)]

end

/-- Settles O21: `State.seekTo` kind by kind, and what `State.placeCursor` writes. -/
theorem seekRule : Obligations.SeekRule := by
  intro s b hr
  refine ⟨fun h undefined => ?_, fun h kind => ?_, fun h kind => ?_, fun b1 b2 b3 h => ?_, fun b1 b2 b3 b4 b5 h => ?_,
    fun n => ⟨_, s.placeCursor_eq n, rfl, rfl, rfl, fun r flying => ?_⟩⟩
  · exact exec_seek_of_undefined h hr (owed_seek_of_undefined undefined) (s.seekTo_of_undefined [b] undefined)
  · subst kind
    exact exec_seek_of_target h hr rfl rfl
  · subst kind
    rw [Nat.max_def]
    exact exec_seek_of_target h hr rfl rfl
  · exact exec_seek_of_target h hr rfl rfl
  · exact ⟨_, rfl, exec_seek_of_target h hr rfl rfl⟩
  · exact congrArg (Option.map _) flying

/-! ### The sector a seek by stamp reads (R113, step 1) -/

section
variable {s : State} {k : SeekState} {l : List JSector}
  (skipped : ∀ i ∈ l, s.dir[i].firstSeq = 0 ∨ s.dir[i].lastStamp < k.stamp)
include skipped

/-- Step 1 passes over the sectors without a record at or above the stamp. -/
theorem State.seekChoose_find?_eq_none :
    l.find? (fun i => s.dir[i].firstSeq != 0 && decide (k.stamp ≤ s.dir[i].lastStamp)) = none := by
  refine List.find?_eq_none.2 fun i listed chosen => ?_
  obtain ⟨holds, reaches⟩ := Bool.and_eq_true_iff.1 chosen
  rcases skipped i listed with empty | below
  · exact bne_iff_ne.1 holds empty
  · exact absurd (of_decide_eq_true reaches) (Nat.not_le.2 below)

/-- With no sector to read the seek ends behind the newest record (R113). -/
theorem State.seekChoose_of_none : s.seekChoose k l = s.endSeek (s.commit.newestSeq + 1) := by
  rw [State.seekChoose, State.seekChoose_find?_eq_none skipped]

/-- The first sector whose last stamp is at or above the sought one: the seek ends at its first record, or reads it from page 1
on (R113). -/
theorem State.seekChoose_of_first {j : JSector} {rest : List JSector} (holds : s.dir[j].firstSeq ≠ 0)
    (reaches : k.stamp ≤ s.dir[j].lastStamp) :
    s.seekChoose k (l ++ j :: rest) =
      if k.stamp ≤ s.dir[j].firstStamp then s.endSeek s.dir[j].firstSeq
      else { s with cursor := { s.cursor with seek := some { k with position := some (j, 1) } } } := by
  have chosen : (s.dir[j].firstSeq != 0 && decide (k.stamp ≤ s.dir[j].lastStamp)) = true :=
    Bool.and_eq_true_iff.2 ⟨bne_iff_ne.2 holds, decide_eq_true reaches⟩
  rw [State.seekChoose, List.find?_append, State.seekChoose_find?_eq_none skipped, Option.none_or, List.find?_cons, chosen]

end

/-! ### The requests of a seek by stamp (R110, R114) -/

/-- Without a seek nothing is located. -/
theorem State.seekLocate_of_no_seek {s : State} (h : s.cursor.seek = none) : s.seekLocate = s := by
  rw [State.seekLocate, h]

/-- Without a seek nothing is read for one. -/
theorem State.seekRead_of_no_seek {s : State} (h : s.cursor.seek = none) : s.seekRead = s := by
  rw [State.seekRead, h]

/-- Whether the read in flight is one that the cursor engine no longer wants, of the array's operation (R110). -/
theorem State.staleRead_eq (s : State) :
    s.staleRead = s.array.op.any fun r => r.requester.isCursor && !r.wanted := by
  unfold State.staleRead
  cases s.array.op <;> rfl

/-- What giving up the reads of one requester leaves of the array (R110). -/
theorem StorageArray.giveUp_requester (who : Requester) (a : StorageArray) :
    a.giveUp (fun r => r.requester == who) = { a with
      waiting := a.waiting.filter fun r => r.requester != who
      made := a.made.filter fun r => r.requester != who
      op := a.op.map fun r => if r.requester = who then { r with wanted := false } else r } := by
  have unwanted : Request.dropped (fun r => r.requester == who)
      = fun r => if r.requester = who then { r with wanted := false } else r :=
    funext fun r => if_congr beq_iff_eq rfl rfl
  rw [StorageArray.giveUp, unwanted]
  rfl

/-- A seek that has ended gives up its reads, and one that goes on keeps them (R110). -/
theorem State.dropSeekRead_eq (s : State) : s.dropSeekRead =
    if s.cursor.seek = none then { s with array := s.array.giveUp fun r => r.requester == .cursorSeek } else s :=
  if_congr Option.isNone_iff_eq_none rfl rfl

section
variable {s : State} {k : SeekState} (seeking : s.cursor.seek = some k)
include seeking

/-- A restarted seek takes step 1 (R114). -/
theorem State.seekLocate_of_restarted (h : k.position = none) :
    s.seekLocate = (s.seekChoose k s.dir.ring).dropSeekRead := by
  rw [State.seekLocate, seeking]
  exact if_pos (Option.isNone_iff_eq_none.2 h)

/-- A seek that has its page keeps it. -/
theorem State.seekLocate_of_located (h : k.position ≠ none) : s.seekLocate = s := by
  rw [State.seekLocate, seeking]
  exact if_neg fun restarted => h (Option.isNone_iff_eq_none.1 restarted)

/-- The page a seek stands at is requested, unless a read of the engine is outstanding or runs on unwanted, or the journal
state refuses it (R63, R110, R114). -/
theorem State.seekRead_of_position {j : JSector} {p : PageIx} (h : k.position = some (j, p)) : s.seekRead =
    if k.outstanding || s.staleRead || decide (s.ctrl.state ∈ [JState.recovering, .draining, .drained]) then s
    else State.request (cursorRead .cursorSeek j p)
      { s with cursor := { s.cursor with seek := some { k with outstanding := true } } } := by
  rw [State.seekRead, seeking]
  dsimp only
  rw [h]
  dsimp only
  cases k.outstanding || s.staleRead with
  | true => rfl
  | false => cases s.ctrl.state <;> rfl

end

/-! ### The ends of the cursor engine's reads (R109, R110, R113) -/

/-- A page that reads TORN and is not withheld (R107, R109). -/
def CursorEngine.seesTorn (c : CursorEngine) (j : JSector) (p : PageIx) (bytes : List Byte) : Bool :=
  match pageClass bytes with
  | .torn _ => !c.isWithheld j p
  | _ => false

/-- A page is not withheld that the list does not name (R107). -/
theorem CursorEngine.not_isWithheld_iff {c : CursorEngine} {j : JSector} {p : PageIx} :
    (!c.isWithheld j p) = true ↔ (j, p) ∉ c.withheld := by
  rw [CursorEngine.isWithheld, Bool.not_eq_true', List.contains_eq_mem, decide_eq_false_iff_not]

/-- TORN is either of its two kinds (R82). -/
theorem CursorEngine.seesTorn_eq (c : CursorEngine) (j : JSector) (p : PageIx) (bytes : List Byte) :
    c.seesTorn j p bytes
      = decide ((pageClass bytes = .torn true ∨ pageClass bytes = .torn false) ∧ (j, p) ∉ c.withheld) := by
  rw [Bool.eq_iff_iff, decide_eq_true_iff, ← CursorEngine.not_isWithheld_iff]
  unfold CursorEngine.seesTorn
  cases pageClass bytes with
  | torn corrupt => cases corrupt <;> simp
  | erased | uncommitted | committed => simp

/-- The record a seek looks for in a page (R113). -/
def State.sought (s : State) (k : SeekState) (j : JSector) (p : PageIx) (bytes : List Byte) : Option (List Byte) :=
  if pageClass bytes = .committed ∧ (j, p) ∉ s.cursor.withheld then
    (pageRecords bytes).find? fun rec => decide (k.stamp ≤ recStamp rec ∧ recSeq rec ≤ s.commit.newestSeq)
  else none

section
variable (s : State) (k : SeekState) (j : JSector) (p : PageIx) (bytes : List Byte)

/-- The search of a page, by the record it looks for and by the fault it may see there (R113). -/
theorem State.seekSearch_eq : s.seekSearch k j p bytes =
    match s.sought k j p bytes with
    | some rec =>
      { s with cursor := { s.cursor with target := recSeq rec, seek := none, pendingToken := .noToken,
                                         buffer := .held j p bytes } }
    | none =>
      if p.val < s.dir[j].pagesUsed ∧ p.val < 15 then
        { s with cursor := { s.cursor with
            faultSeen := s.cursor.faultSeen || s.cursor.seesTorn j p bytes
            seek := some { k with position := some (j, pageOf (p.val + 1)) } } }
      else State.seekChoose k (s.dir.after j)
        { s with cursor := { s.cursor with faultSeen := s.cursor.faultSeen || s.cursor.seesTorn j p bytes } } := by
  rw [State.seekSearch, State.sought, if_congr (and_congr_right fun _ => CursorEngine.not_isWithheld_iff) rfl rfl]
  rfl

variable {s k j p}

/-- The page a seek stands at is searched (R113). -/
theorem State.seekDeliver_of_position (seeking : s.cursor.seek = some k) (h : k.position = some (j, p)) :
    s.seekDeliver j p bytes = s.seekSearch { k with outstanding := false } j p bytes := by
  rw [State.seekDeliver, seeking]
  exact if_pos h

/-- A page that a restarted seek does not ask for has been read for nothing (R114). -/
theorem State.seekDeliver_of_other (seeking : s.cursor.seek = some k) (h : k.position ≠ some (j, p)) :
    s.seekDeliver j p bytes
      = { s with cursor := { s.cursor with seek := some { k with outstanding := false } } } := by
  rw [State.seekDeliver, seeking]
  exact if_neg h

/-- A page delivered without a seek changes nothing. -/
theorem State.seekDeliver_of_no_seek (h : s.cursor.seek = none) : s.seekDeliver j p bytes = s := by
  rw [State.seekDeliver, h]

end

section
variable {s : State} {r : Request} {page : List Byte} {j : JSector} (hp : s.powered = true) (flying : s.array.op = some r)
  (read : page = readPage s.array.mem r.sector r.page) (hj : r.sector = sectorOf j)
include hp flying read hj

/-- A fetch ends (R109, R110). -/
theorem exec_cursorReadEnd (hr : r.requester = .cursorFetch) :
    exec .cursorReadEnd s = .next (State.settle true
      (if r.wanted then
        { s.opOver with cursor := { s.cursor with
            buffer := .held j r.page page
            faultSeen := s.cursor.faultSeen || s.cursor.seesTorn j r.page page } }
       else s.opOver)) := by
  have run : execCursorReadEnd s = _ := (live_of_powered hp).trans (readEnds_eq flying hr)
  rw [exec, run, ← read, hj, journalOf_sectorOf]
  cases r.wanted with
  | true =>
    unfold CursorEngine.seesTorn
    cases pageClass page <;> rfl
  | false => rfl

/-- A read of a seek ends (R110, R113). -/
theorem exec_seekReadEnd (hr : r.requester = .cursorSeek) :
    exec .seekReadEnd s = .next (State.settle true
      (if r.wanted then s.opOver.seekDeliver j r.page page else s.opOver)) := by
  have run : execSeekReadEnd s = _ := (live_of_powered hp).trans (readEnds_eq flying hr)
  rw [exec, run, ← read, hj, journalOf_sectorOf]
  cases r.wanted with
  | true | false => rfl

end

/-- Settles O47: the two ends of a read, step 1 of a seek, and what it requests. -/
theorem cursorReads : Obligations.CursorReads := by
  refine ⟨?_, ⟨fun s noSeek => ⟨s.seekLocate_of_no_seek noSeek, s.seekRead_of_no_seek noSeek⟩, ?_, ?_⟩⟩
  · rintro s _ r page fault hp flying read rfl j hj hfault
    have seen : fault = (s.cursor.faultSeen || s.cursor.seesTorn j r.page page) :=
      hfault.trans (congrArg _ (CursorEngine.seesTorn_eq ..).symm)
    subst seen
    refine ⟨fun hr => exec_cursorReadEnd hp flying read hj hr, fun hr unneeded => ?_, fun k hr wanted seeking other => ?_,
      fun hr wanted k seeking asked found hfound => ?_⟩
    all_goals rw [exec_seekReadEnd hp flying read hj hr]
    · rcases unneeded with unwanted | noSeek
      · rw [unwanted]
        rfl
      · rw [s.opOver.seekDeliver_of_no_seek page noSeek, ite_self]
        rfl
    · rw [if_pos wanted, s.opOver.seekDeliver_of_other _ seeking other]
      rfl
    · have sought : found = s.opOver.sought { k with outstanding := false } j r.page page := hfound
      rw [if_pos wanted, s.opOver.seekDeliver_of_position _ seeking asked, State.seekSearch_eq, ← sought]
      rfl
  · intro s k seeking
    refine ⟨fun restarted t ht => ?_, s.seekLocate_of_located seeking, fun j p asked => ?_⟩
    · rw [State.seekLocate_of_restarted seeking restarted, ← ht, State.dropSeekRead_eq, StorageArray.giveUp_requester]
    · rw [State.seekRead_of_position seeking asked, State.staleRead_eq]
      rfl
  · intro s k sectors
    refine ⟨fun skipped => State.seekChoose_of_none skipped, ?_⟩
    rintro l rest j rfl skipped holds reaches
    rw [State.seekChoose_of_first skipped holds reaches]
    split <;> rfl

/-! ### Read Records (R115, R189) -/

/-- Read Records is accepted at its command byte, and the port enters STREAM (R189). -/
theorem exec_readRecords {s : State} (h : s.atCommand) (hr : s.ctrl.state ≠ .recovering) :
    exec .readRecords s = .next (State.answer 0x31 [] s.accept) :=
  takeByte_command (c := .readRecords) h rfl rfl (.inl hr)

/-! ### Tokens (R115 to R121) -/

/-- The token chosen goes to the transmit store and to SDO; a FAULT chosen for the fault-seen mark becomes the pending token in
its place (R115, R121). -/
theorem State.chooseToken_sendToken (s : State) :
    s.chooseToken.sendToken = { s with
      port := { s.port with reply := s.nextToken.bytes }
      cursor := { s.cursor with
        store := .transfer s.nextToken
        pendingToken :=
          (match s.nextToken with
           | .fault n => if s.cursor.pendingToken = .noToken then .fault n else s.cursor.pendingToken
           | _ => s.cursor.pendingToken)
        faultSeen :=
          (match s.nextToken with
           | .fault _ => if s.cursor.pendingToken = .noToken then false else s.cursor.faultSeen
           | _ => s.cursor.faultSeen) } } := by
  unfold State.chooseToken
  cases s.nextToken with
  | fault n => by_cases marked : s.cursor.pendingToken = .noToken <;> simp only [marked] <;> rfl
  | record | endOfJournal | wait | lost => rfl

/-- The store is empty behind a token that has ended, and SDO has no byte of it left (R117, R120, R121). -/
theorem State.finishToken_sendToken (s : State) (t : Token) :
    (s.finishToken t).sendToken = { s with
      port := { s.port with reply := [] }
      cursor :=
        (match t with
         | .record n _ => { s.cursor with store := .empty, lastReturned := n, target := max s.cursor.target (n + 1) }
         | .lost n => { s.cursor with
             store := .empty
             pendingToken := if s.cursor.pendingToken = .lost n then .noToken else s.cursor.pendingToken }
         | .fault n => { s.cursor with
             store := .empty
             pendingToken := if s.cursor.pendingToken = .fault n then .noToken else s.cursor.pendingToken }
         | .endOfJournal | .wait => { s.cursor with store := .empty }) } := by
  cases t with
  | lost n => by_cases sent : s.cursor.pendingToken = .lost n <;> simp [State.finishToken, State.sendToken, sent]
  | fault n => by_cases sent : s.cursor.pendingToken = .fault n <;> simp [State.finishToken, State.sendToken, sent]
  | record | endOfJournal | wait => rfl

section
variable {s : State} (hp : s.powered = true) (stream : s.port.phase = .stream)
include hp stream

/-- A token is chosen where none is in transfer (R115). -/
theorem exec_tokenChoice (free : ∀ t, s.cursor.store ≠ .transfer t) :
    exec .tokenChoice s = .next (s.chooseToken.sendToken.settle false) := by
  have idle : s.cursor.store.busy = false := by
    cases store : s.cursor.store with
    | transfer t => exact absurd store (free t)
    | empty | kept => rfl
  rw [exec, execTokenChoice, live_of_powered hp, stream, idle]
  rfl

/-- The token in transfer ends (R117, R120, R121). -/
theorem exec_tokenEnd {t : Token} (sending : s.cursor.store = .transfer t) :
    exec .tokenEnd s = .next ((s.finishToken t).sendToken.settle false) := by
  rw [exec, execTokenEnd, live_of_powered hp, stream, sending]
  rfl

/-- The end of a token that the store no longer holds (R124, R174). -/
theorem exec_tokenEnd_of_gone (gone : ∀ t, s.cursor.store ≠ .transfer t) :
    exec .tokenEnd s = .next { s with port := { s.port with reply := [] } } := by
  rw [exec, execTokenEnd, live_of_powered hp, stream]
  cases store : s.cursor.store with
  | transfer t => exact absurd store (gone t)
  | empty | kept => simp [State.ifArises, State.sendToken, store]

end

/-- Settles O48: the token of `State.nextToken`, the two ends of a token, and Read Records. -/
theorem tokens : Obligations.Tokens := by
  refine ⟨fun s t hp stream free ht => ?_, fun s t hp stream sending => ?_, fun s => exec_tokenEnd_of_gone,
    fun s h hr => exec_readRecords h hr⟩
  · have chosen : s.nextToken = t := by
      rw [ht, State.nextToken, ite_not, if_congr Option.isSome_iff_ne_none rfl rfl, ite_not]
      cases s.cursor.pendingToken with
      | lost | fault => rfl
      | noToken => cases s.cursor.store <;> rfl
    rw [exec_tokenChoice hp stream free, State.chooseToken_sendToken, chosen]
    cases t <;> rfl
  · rw [exec_tokenEnd hp stream sending]
    exact congrArg (fun u => Host.Outcome.next (State.settle false u)) (s.finishToken_sendToken t)

end Sys2Proof.Machine

/-! SUPPORT. The journal controller (chapter 7) as the host drives it: Run, Stop and Flush by the journal's state, the change
into RUNNING and the system stamp, the start of a Format, and the sectors it erases; and the statements they settle. -/

namespace Sys2Proof.Machine

/-! ### Commands without an argument (R188) -/

/-- While RECOVERING a command of one byte is refused, but for Read Status and Read Identity (R188). -/
theorem takeByte_command_of_recovering {c : Command} {code : Byte} {m : BitVec 11} {s : State} (h : s.atCommand)
    (hc : commandOf code = some c) (whole : owed c [] = 0) (hr : s.ctrl.state = .recovering) (h1 : c ≠ .readStatus)
    (h2 : c ≠ .readIdentity) : s.takeByte code m = .next (State.answer code [] (s.refuseWith .notReady)) := by
  rw [takeByte_first h hc, gather_notReady whole hr h1 h2]

/-! ### The system stamp (R38) -/

/-- The stamps that the system stamp is the least of: the counter, the close stamps of the queue heads, and that of a note in
its slot (R38). -/
def State.systemStamps (s : State) : List Nat :=
  s.time.counter :: (s.lines.toList.filterMap (fun p => p.queue.head?.map (·.close)) ++ s.adm.note.toList.map (·.stamp))

/-- The system stamp is one of them, and none is below it (R38). -/
theorem State.systemStamp_eq_iff {s : State} {n : Nat} :
    s.systemStamp = n ↔ n ∈ s.systemStamps ∧ ∀ m ∈ s.systemStamps, n ≤ m := by
  rw [← List.min?_eq_some_iff, State.systemStamps, List.min?_cons', Option.some.injEq]
  rfl

/-- The close stamps of the queue heads, line by line. -/
theorem mem_headCloses {lines : Vector LinePort 4} {n : Nat} :
    n ∈ lines.toList.filterMap (fun p => p.queue.head?.map (·.close))
      ↔ ∃ (i : LineIx) (d : Descriptor), lines[i].queue.head? = some d ∧ n = d.close := by
  simp only [List.mem_filterMap, Option.map_eq_some_iff, Vector.mem_toList_iff, Vector.mem_iff_getElem]
  constructor
  · rintro ⟨_, ⟨i, hi, rfl⟩, d, head, rfl⟩
    exact ⟨⟨i, hi⟩, d, head, rfl⟩
  · rintro ⟨i, d, head, rfl⟩
    exact ⟨_, ⟨i, i.isLt, rfl⟩, d, head, rfl⟩

/-- The stamps one by one (R38). -/
theorem State.mem_systemStamps {s : State} {n : Nat} : n ∈ s.systemStamps ↔
    n = s.time.counter ∨ (∃ (i : LineIx) (d : Descriptor), s.lines[i].queue.head? = some d ∧ n = d.close)
      ∨ ∃ note, s.adm.note = some note ∧ n = note.stamp := by
  simp only [State.systemStamps, List.mem_cons, List.mem_append, mem_headCloses, List.mem_map, Option.mem_toList, eq_comm]

/-! ### The change into RUNNING (R28, R37, R126) -/

/-- The journal after its state has become RUNNING, with the RETIME START that the retime test may place (R28, R126). -/
def State.running (s : State) : State :=
  { s with
    ctrl := { s.ctrl with state := .running }
    events := { s.events with flags := s.events.flags ||| Event.state.mask }
    adm := if s.time.retimePending = true ∧ s.adm.sys = none then
        { s.adm with sys := some (.start (s.startContent .retime false) s.systemStamp) }
      else s.adm }

/-- A change into RUNNING ends with the close that the flush age owes (R28, R37). -/
theorem State.enterRunning_of_ne {s : State} (h : s.ctrl.state ≠ .running) :
    s.enterRunning = if s.flushOwed then s.running.closeFilling else s.running := by
  have entered : (if (s.enter .running).time.retimePending ∧ (s.enter .running).adm.sys.isNone
      then (s.enter .running).placeStart ((s.enter .running).startContent .retime false) else s.enter .running)
        = s.running := by
    rw [State.enter_of_ne h, if_congr (and_congr_right' Option.isNone_iff_eq_none) rfl rfl]
    unfold State.running
    split <;> rfl
  have owed : s.running.flushOwed = s.flushOwed := by
    have adm : s.running.adm.bufP = s.adm.bufP ∧ s.running.adm.bufQ = s.adm.bufQ := by
      unfold State.running
      dsimp only
      split <;> exact ⟨rfl, rfl⟩
    have filling : s.running.adm.filling = s.adm.filling := by rw [Admission.filling, adm.1, adm.2]; rfl
    have buf (b : BufId) : s.running.adm.buf b = s.adm.buf b := by cases b; exacts [adm.1, adm.2]
    simp only [State.flushOwed, filling, buf]
    rfl
  rw [State.enterRunning, if_neg h]
  dsimp only
  rw [entered, owed]

/-! ### Run (R128) -/

section
variable {s : State}

/-- Run is taken at its command byte and decided by its rule (R128). -/
theorem exec_run (h : s.atCommand) (hr : s.ctrl.state ≠ .recovering) :
    exec .run s = .next (State.answer 0x20 [] s.runRule) :=
  takeByte_command (c := .run) h rfl rfl (.inl hr)

/-- It ends a stop (R128). -/
theorem State.runRule_of_stopped (h : s.ctrl.state = .stopped ∨ s.ctrl.state = .stopping) :
    s.runRule = (s.enterRunning.settle false).accept := by
  rcases h with h | h <;> rw [State.runRule, h]

/-- In RUNNING it has no effect (R128). -/
theorem State.runRule_of_running (h : s.ctrl.state = .running) : s.runRule = s.accept := by rw [State.runRule, h]

/-- In FULL it clears stop-requested, and leaves FULL when neither condition keeps the journal there (R128). -/
theorem State.runRule_of_full {u : State} (h : s.ctrl.state = .full)
    (hu : u = { s with ctrl := { s.ctrl with stopRequested := false } }) :
    s.runRule = ((if s.ctrl.spaceWait || s.adm.exhausted then u else u.enterRunning).settle false).accept := by
  subst hu
  rw [State.runRule, h]
  dsimp only [State.withCtrl]
  cases s.ctrl.spaceWait <;> cases s.adm.exhausted <;> rfl

/-- In the other states it is refused (R128). -/
theorem State.runRule_of_refused (h : s.ctrl.state ∈ [JState.formatting, .draining, .drained, .failed]) :
    s.runRule = s.refuseWith .state := by
  simp only [List.mem_cons, List.not_mem_nil, or_false] at h
  rcases h with h | h | h | h <;> rw [State.runRule, h]

end

/-- Settles O19: Run state by state, the change into RUNNING, and the least stamp. -/
theorem runRule : Obligations.RunRule := by
  have hc : commandOf 0x20 ≠ some .readStatus ∧ commandOf 0x20 ≠ some .readRecords := by decide
  refine ⟨fun s u h hu => ?_, fun s u state hu => ?_, fun s => ?_⟩
  · by_cases hr : s.ctrl.state = .recovering
    · have taken : exec .run s = _ := takeByte_command_of_recovering (c := .run) h rfl rfl hr nofun nofun
      rw [taken, answer_refuse hc.1 hc.2, hr]
    rw [exec_run h hr]
    cases state : s.ctrl.state with
    | recovering => exact absurd state hr
    | formatting | draining | drained | failed =>
      rw [State.runRule_of_refused (by rw [state]; decide), answer_refuse hc.1 hc.2]
    | running => rw [State.runRule_of_running state, answer_accept hc.1 hc.2]
    | stopped => rw [State.runRule_of_stopped (.inl state), answer_accept hc.1 hc.2]
    | stopping => rw [State.runRule_of_stopped (.inr state), answer_accept hc.1 hc.2]
    | full => rw [State.runRule_of_full state hu, answer_accept hc.1 hc.2]
  · have running : u = s.running := hu
    rw [State.enterRunning_of_ne state, running]
  · obtain ⟨attained, least⟩ := State.systemStamp_eq_iff.1 (Eq.refl s.systemStamp)
    refine ⟨least _ ?_, fun i d head => least _ ?_, fun note slot => least _ ?_, State.mem_systemStamps.1 attained⟩
    all_goals rw [State.mem_systemStamps]
    · exact .inl rfl
    · exact .inr (.inl ⟨i, d, head, rfl⟩)
    · exact .inr (.inr ⟨note, slot, rfl⟩)

/-! ### Stop and Flush (R41, R127, R129) -/

section
variable {s : State}

/-- Stop is taken at its command byte and decided by its rule (R127). -/
theorem exec_stop (h : s.atCommand) (hr : s.ctrl.state ≠ .recovering) :
    exec .stop s = .next (State.answer 0x21 [] s.stopRule) :=
  takeByte_command (c := .stop) h rfl rfl (.inl hr)

/-- In RUNNING the state changes first, by the records staged, and then the filling buffer is closed (R127; log entry 21). -/
theorem State.stopRule_of_running (h : s.ctrl.state = .running) :
    s.stopRule = State.accept (State.settle false (State.closeFilling
      { s with ctrl := { s.ctrl with state := if s.staged then .stopping else .stopped }
               events := { s.events with flags := s.events.flags ||| Event.state.mask } })) := by
  have other : s.ctrl.state ≠ if s.staged then .stopping else .stopped := by rw [h]; split <;> exact nofun
  rw [State.stopRule, h]
  dsimp only
  rw [State.stopRunning, State.enter_of_ne other]

/-- A journal that stops or has stopped stays as it is (R127). -/
theorem State.stopRule_of_stopped (h : s.ctrl.state = .stopping ∨ s.ctrl.state = .stopped) : s.stopRule = s.accept := by
  rcases h with h | h <;> rw [State.stopRule, h]

/-- In FULL the stop is requested (R127). -/
theorem State.stopRule_of_full (h : s.ctrl.state = .full) :
    s.stopRule = State.accept { s with ctrl := { s.ctrl with stopRequested := true } } := by
  rw [State.stopRule, h]
  rfl

/-- In the other states it is refused (R127). -/
theorem State.stopRule_of_refused (h : s.ctrl.state ∈ [JState.formatting, .draining, .drained, .failed]) :
    s.stopRule = s.refuseWith .state := by
  simp only [List.mem_cons, List.not_mem_nil, or_false] at h
  rcases h with h | h | h | h <;> rw [State.stopRule, h]

/-- Flush is taken at its command byte and decided by its rule (R129). -/
theorem exec_flush (h : s.atCommand) (hr : s.ctrl.state ≠ .recovering) :
    exec .flush s = .next (State.answer 0x22 [] s.flushRule) :=
  takeByte_command (c := .flush) h rfl rfl (.inl hr)

/-- Flush closes the filling buffer in RUNNING and STOPPING, and is refused elsewhere (R129). -/
theorem State.flushRule_eq (s : State) :
    s.flushRule = if s.ctrl.state = .running ∨ s.ctrl.state = .stopping then (s.closeFilling.settle false).accept
      else s.refuseWith .state := by
  unfold State.flushRule
  cases s.ctrl.state <;> rfl

/-- A buffer holds staged records by its role, and in FILLING by its count (R41). -/
theorem Buffer.staged_iff (b : Buffer) :
    b.staged = true ↔ b.role = .committing ∨ b.role = .closed ∨ b.role = .filling ∧ b.count ≠ 0 := by
  unfold Buffer.staged
  cases b.role <;> simp

/-- Records are staged where one of the two buffers holds some (R41). -/
theorem State.staged_iff (s : State) : s.staged = true ↔ ∃ b : BufId, (s.adm.buf b).staged = true := by
  rw [State.staged, Bool.or_eq_true]
  constructor
  · rintro (p | q)
    exacts [⟨.p, p⟩, ⟨.q, q⟩]
  · rintro ⟨b, h⟩
    cases b
    exacts [.inl h, .inr h]

end

/-- Settles O20: Stop state by state, Flush, and the two buffers. -/
theorem stopAndFlushRules : Obligations.StopAndFlushRules := by
  have hc : commandOf 0x21 ≠ some .readStatus ∧ commandOf 0x21 ≠ some .readRecords := by decide
  have hf : commandOf 0x22 ≠ some .readStatus ∧ commandOf 0x22 ≠ some .readRecords := by decide
  refine ⟨fun s h => ?_, fun s h hr => ?_, fun s => ?_⟩
  · by_cases hr : s.ctrl.state = .recovering
    · have taken : exec .stop s = _ := takeByte_command_of_recovering (c := .stop) h rfl rfl hr nofun nofun
      rw [taken, answer_refuse hc.1 hc.2, hr]
    rw [exec_stop h hr]
    cases state : s.ctrl.state with
    | recovering => exact absurd state hr
    | formatting | draining | drained | failed =>
      rw [State.stopRule_of_refused (by rw [state]; decide), answer_refuse hc.1 hc.2]
    | stopping => rw [State.stopRule_of_stopped (.inl state), answer_accept hc.1 hc.2]
    | stopped => rw [State.stopRule_of_stopped (.inr state), answer_accept hc.1 hc.2]
    | full => rw [State.stopRule_of_full state, answer_accept hc.1 hc.2]
    | running => rw [State.stopRule_of_running state, answer_accept hc.1 hc.2]
  · rw [exec_flush h hr, State.flushRule_eq]
    split
    · rw [answer_accept hf.1 hf.2]
    · rw [answer_refuse hf.1 hf.2]
  · rw [s.staged_iff]
    exact exists_congr fun b => Buffer.staged_iff _

/-! ### Format, by command (R136) -/

section
variable {s : State}

/-- Format is taken at its command byte and decided by its rule (R136). -/
theorem exec_format (h : s.atCommand) (hr : s.ctrl.state ≠ .recovering) :
    exec .format s = .next (State.answer 0x50 [] s.formatRule) :=
  takeByte_command (c := .format) h rfl rfl (.inl hr)

/-- Another host operation comes first (R136). -/
theorem State.formatRule_of_busy (h : s.ctrl.opKind ≠ .noOp) : s.formatRule = s.refuseWith .busy := if_pos h

/-- Format is refused outside STOPPED, FULL and FAILED (R136). -/
theorem State.formatRule_of_refused (h : s.ctrl.opKind = .noOp) (state : s.ctrl.state ∉ [JState.stopped, .full, .failed]) :
    s.formatRule = s.refuseWith .state := by
  rw [State.formatRule, if_neg (not_not.2 h)]
  split
  case h_1 | h_2 | h_3 => rename_i known; rw [known] at state; exact absurd (by decide) state
  case h_4 => rfl

/-- In these states it starts (R136). -/
theorem State.formatRule_of_starting (h : s.ctrl.opKind = .noOp) (state : s.ctrl.state ∈ [JState.stopped, .full, .failed]) :
    s.formatRule = (s.formatStart.settle false).accept := by
  simp only [List.mem_cons, List.not_mem_nil, or_false] at state
  rw [State.formatRule, if_neg (not_not.2 h)]
  rcases state with state | state | state <;> rw [state]

end

/-! ### The start of a Format (R44, R80, R101, R124, R136) -/

/-- The OPEN and CLOSED sectors become DIRTY with nothing readable (R101). -/
theorem Directory.forgotten_getElem (d : Directory) (j : JSector) : d.forgotten[j] =
    if d[j].state = .opened ∨ d[j].state = .closed then
      { d[j] with state := .dirty, firstSeq := 0, lastSeq := 0, firstStamp := 0, lastStamp := 0 }
    else d[j] :=
  mapAll_getElem d _ j

/-- A reclaim is under way whose erase request still waits (R101). -/
def State.reclaimWaits (s : State) : Bool :=
  s.reclaim.target.isSome && decide (s.reclaim.phase = .erase) && s.array.waits .reclaim .erase

/-- A sector whose erase is given up is DIRTY (R101). -/
def Directory.givenUp (d : Directory) : Option JSector → Directory
  | some j => d.update j fun x => { x with state := .dirty }
  | none => d

/-- The other sectors are as they were. -/
theorem Directory.givenUp_getElem (d : Directory) (o : Option JSector) (j : JSector) :
    (d.givenUp o)[j] = if o = some j then { d[j] with state := .dirty } else d[j] := by
  cases o with
  | none => rfl
  | some i => exact (update_dirty d i j).trans (if_congr Option.some_inj.symm rfl rfl)

/-- A sector whose records are forgotten has its erase given up with nothing readable left (R101). -/
theorem Directory.forgotten_givenUp_getElem (d : Directory) (o : Option JSector) (j : JSector) :
    (d.forgotten.givenUp o)[j] = if d[j].state = .opened ∨ d[j].state = .closed then
        { d[j] with state := .dirty, firstSeq := 0, lastSeq := 0, firstStamp := 0, lastStamp := 0 }
      else if o = some j then { d[j] with state := .dirty } else d[j] := by
  rw [Directory.givenUp_getElem, Directory.forgotten_getElem]
  split <;> split <;> rfl

/-- No sector is OPEN or CLOSED then. -/
theorem Directory.forgotten_givenUp_state (d : Directory) (o : Option JSector) (j : JSector) :
    (d.forgotten.givenUp o)[j].state ≠ .opened ∧ (d.forgotten.givenUp o)[j].state ≠ .closed := by
  rw [d.forgotten_givenUp_getElem]
  split
  case isTrue => exact ⟨nofun, nofun⟩
  case isFalse other =>
    split
    · exact ⟨nofun, nofun⟩
    · exact not_or.1 other

/-- Nothing is withdrawn where no requester is picked. -/
theorem State.withdraw_none (s : State) : s.withdraw (fun _ => false) = s := by
  simp only [State.withdraw, Bool.not_false, List.filter_true]

/-- Such a reclaim is ended: its requests are withdrawn, and its sector is DIRTY again (R101). -/
theorem State.formatEndsReclaim_eq {s : State} {ended : Bool} (h : ended = s.reclaimWaits) : s.formatEndsReclaim =
    { s with
      array := (s.withdraw fun q => ended && q == .reclaim).array
      dir := s.dir.givenUp (if ended then s.reclaim.target else none)
      reclaim := if ended then { phase := .idle, target := none } else s.reclaim } := by
  rw [State.reclaimWaits] at h
  unfold State.formatEndsReclaim
  cases target : s.reclaim.target with
  | none =>
    obtain rfl : ended = false := by rw [h, target]; rfl
    simp only [Bool.false_and, State.withdraw_none]
    rfl
  | some j =>
    have waits : (s.reclaim.phase = .erase ∧ s.array.waits .reclaim .erase) ↔ ended = true := by
      rw [h, target, Option.isSome_some, Bool.true_and, Bool.and_eq_true, decide_eq_true_iff]
    dsimp only
    rw [if_congr waits rfl rfl]
    cases ended with
    | true => rfl
    | false =>
      simp only [Bool.false_and, State.withdraw_none]
      rfl

/-- A journal without OPEN and CLOSED sectors resumes behind its newest record (R88). -/
theorem State.resumePoint_of_no_ring {s : State} (h : ∀ j : JSector, s.dir[j].state ≠ .opened ∧ s.dir[j].state ≠ .closed) :
    s.resumePoint = s.commit.newestSeq + 1 := by
  have ring : s.dir.ring = [] := List.eq_nil_iff_forall_not_mem.2 fun j listed =>
    (s.dir.mem_ring.1 listed).elim (h j).2 (h j).1
  have oldest : s.dir.oldestRetained = 0 := by rw [Directory.oldestRetained, Directory.holders, ring]; rfl
  rw [State.resumePoint, oldest]
  rfl

/-- The journal with a Format begun, the reclaim engine and the cursor not yet reached (R44, R80, R101, R136). -/
def State.formatBegun (s : State) : State :=
  { s with
    ctrl := { s.ctrl with state := .formatting, stopRequested := false, spaceWait := false, opKind := .format,
                          opOutcome := .noOutcome, format := .choosing, formatDone := [] }
    events := { s.events with flags := s.events.flags ||| Event.state.mask }
    adm := { s.adm with note := none, sys := none, bufP := Buffer.empty .filling, bufQ := Buffer.empty .idle }
    commit := { s.commit with phase := .idle, holding := none, target := none, newestSeq := 0, countSince := 0,
                              leavingBlocked := false }
    dir := s.dir.forgotten
    array := s.array.giveUp fun r => r.requester == .commit }

/-- The requests of the commit path are no erase requests of the reclaim engine (R58). -/
theorem State.reclaimWaits_formatBegun (s : State) : s.formatBegun.reclaimWaits = s.reclaimWaits := by
  have waits : (s.array.giveUp fun r => r.requester == .commit).waits .reclaim .erase = s.array.waits .reclaim .erase := by
    have other (r : Request) : (!(r.requester == .commit) && (r.requester == .reclaim && r.kind == .erase))
        = (r.requester == .reclaim && r.kind == .erase) := by
      cases r.requester <;> rfl
    simp only [StorageArray.waits, StorageArray.giveUp, List.any_append, List.any_filter, other]
  rw [State.reclaimWaits, State.reclaimWaits, ← waits]
  rfl

/-- The requests that the start of a Format withdraws: the commit path's, the cursor engine's, and those of a reclaim that it
ends (R80, R101, R124). -/
def Request.formatDrops (ended : Bool) (r : Request) : Bool :=
  r.requester.isCursor || (ended && r.requester == .reclaim || r.requester == .commit)

/-- What is left of the array's requests (R80, R101, R124). -/
theorem State.formatBegun_array_given_up (s : State) (ended : Bool) :
    ((s.formatBegun.withdraw fun q => ended && q == .reclaim).array.giveUp fun r => r.requester.isCursor) = { s.array with
      op := s.array.op.map (Request.dropped fun r => r.requester.isCursor || r.requester == .commit)
      waiting := s.array.waiting.filter fun r => !r.formatDrops ended
      made := s.array.made.filter fun r => !r.formatDrops ended } := by
  have op : s.array.op.map (Request.dropped fun r => r.requester.isCursor || r.requester == .commit) = _ :=
    (congrArg StorageArray.op (s.array.giveUp_giveUp (·.requester == .commit) (·.requester.isCursor))).symm
  rw [op]
  simp only [Request.formatDrops, Bool.not_or, ← List.filter_filter]
  rfl

/-- The whole effect of the start of a Format (R44, R80, R101, R124, R136). -/
theorem State.formatStart_eq {s : State} {ended : Bool} (h : s.ctrl.state ≠ .formatting) (hended : ended = s.reclaimWaits) :
    s.formatStart = { s.formatBegun with
      array := { s.array with
        op := s.array.op.map (Request.dropped fun r => r.requester.isCursor || r.requester == .commit)
        waiting := s.array.waiting.filter fun r => !r.formatDrops ended
        made := s.array.made.filter fun r => !r.formatDrops ended }
      dir := s.dir.forgotten.givenUp (if ended then s.reclaim.target else none)
      reclaim := if ended then { phase := .idle, target := none } else s.reclaim
      cursor := { target := 1, lastReturned := 0, buffer := .empty, faultSeen := false, pendingToken := .noToken, seek := none,
                  store := .empty, withheld := s.cursor.withheld } } := by
  have ended_eq : ended = s.formatBegun.reclaimWaits := hended.trans s.reclaimWaits_formatBegun.symm
  have started : s.formatStart = s.formatBegun.formatEndsReclaim.placeCursor s.formatBegun.formatEndsReclaim.resumePoint := by
    rw [State.formatStart, State.enter_of_ne h]
    rfl
  have resume : s.formatBegun.formatEndsReclaim.resumePoint = 1 := by
    rw [State.formatEndsReclaim_eq ended_eq]
    exact State.resumePoint_of_no_ring fun j => s.dir.forgotten_givenUp_state _ j
  rw [started, resume, State.formatEndsReclaim_eq ended_eq, State.placeCursor_eq, ← s.formatBegun_array_given_up]
  rfl

/-- Settles O43: the command by its rule, and the start of a Format by `State.formatStart_eq`. -/
theorem formatStarts : Obligations.FormatStarts := by
  have hc : commandOf 0x50 ≠ some .readStatus ∧ commandOf 0x50 ≠ some .readRecords := by decide
  refine ⟨fun s h hr => ⟨fun busy => ?_, fun free state => ?_, fun free state => ?_⟩, fun s state ended hended => ?_⟩
  · rw [exec_format h hr, State.formatRule_of_busy busy, answer_refuse hc.1 hc.2]
  · rw [exec_format h hr, State.formatRule_of_refused free state, answer_refuse hc.1 hc.2]
  · rw [exec_format h hr, State.formatRule_of_starting free state, answer_accept hc.1 hc.2]
  · refine ⟨_, State.formatStart_eq state hended, rfl, fun r => ?_, fun r flying => ?_, fun j => ?_⟩
    · refine List.mem_filter.trans ?_
      simp only [Request.formatDrops, Bool.not_or, Bool.not_and, Bool.and_eq_true, Bool.or_eq_true, Bool.not_eq_true',
        beq_eq_false_iff_ne, ne_eq, imp_iff_not_or, Bool.not_eq_true]
      tauto
    · refine (congrArg (Option.map _) flying).trans (congrArg some (if_congr ?_ rfl rfl))
      rw [Bool.or_eq_true, beq_iff_eq, or_comm]
    · have target : (if ended then s.reclaim.target else none) = some j ↔ ended = true ∧ s.reclaim.target = some j := by
        cases ended <;> simp
      exact (s.dir.forgotten_givenUp_getElem _ j).trans (if_congr Iff.rfl rfl (if_congr target rfl rfl))

/-! ### The next sector of a Format (R137) -/

section
variable (s : State)

/-- A sector that Format takes first: it is left over, DIRTY, and has an epoch (R137). -/
def State.isAged (j : JSector) : Prop := j ∉ s.ctrl.formatDone ∧ s.dir[j].state = .dirty ∧ s.dir[j].epoch ≠ 0

/-- A sector that Format takes after those: it is left over, and FREE or DIRTY without an epoch (R137). -/
def State.isYoung (j : JSector) : Prop :=
  j ∉ s.ctrl.formatDone ∧ (s.dir[j].state = .free ∨ s.dir[j].state = .dirty ∧ s.dir[j].epoch = 0)

/-- The sectors that Format has not dealt with, in ascending index (R137). -/
def State.formatLeft : List JSector := allSectors.filter fun j => !s.ctrl.formatDone.contains j

/-- Those it takes first. -/
def State.formatAged : List JSector := s.formatLeft.filter fun j => s.dir[j].state == .dirty && s.dir[j].epoch != 0

/-- Those it takes after them. -/
def State.formatYoung : List JSector :=
  s.formatLeft.filter fun j => s.dir[j].state == .free || s.dir[j].state == .dirty && s.dir[j].epoch == 0

/-- The order of R137. -/
theorem State.formatNext_eq : s.formatNext =
    (leastBy (fun j => s.dir[j].epoch) s.formatAged).or s.formatYoung.head? := by
  rw [State.formatYoung, List.head?_filter]
  unfold State.formatNext
  dsimp only
  rw [← State.formatLeft, ← State.formatAged]
  cases leastBy (fun j => s.dir[j].epoch) s.formatAged <;> rfl

variable {s}

theorem State.mem_formatLeft {j : JSector} : j ∈ s.formatLeft ↔ j ∉ s.ctrl.formatDone := by
  simp [State.formatLeft, allSectors]

theorem State.mem_formatAged {j : JSector} : j ∈ s.formatAged ↔ s.isAged j := by
  simp only [State.formatAged, List.mem_filter, State.mem_formatLeft, Bool.and_eq_true, beq_iff_eq, bne_iff_ne, State.isAged]

theorem State.mem_formatYoung {j : JSector} : j ∈ s.formatYoung ↔ s.isYoung j := by
  simp only [State.formatYoung, List.mem_filter, State.mem_formatLeft, Bool.or_eq_true, Bool.and_eq_true, beq_iff_eq,
    State.isYoung]

/-- The sectors left over are listed in ascending index. -/
theorem State.formatLeft_pairwise : s.formatLeft.Pairwise fun a b => a.val < b.val :=
  (List.pairwise_lt_finRange 126).filter _

/-- A list of sectors in ascending index begins with its least. -/
theorem head?_eq_some_of_least {l : List JSector} {j : JSector} (sorted : l.Pairwise fun a b => a.val < b.val) (hj : j ∈ l)
    (least : ∀ i ∈ l, j.val ≤ i.val) : l.head? = some j := by
  cases l with
  | nil => cases hj
  | cons a rest =>
    rcases List.mem_cons.1 hj with rfl | later
    · rfl
    · exact absurd (List.rel_of_pairwise_cons sorted later) (Nat.not_lt.2 (least a List.mem_cons_self))

/-- The DIRTY sector of least epoch comes first, and of least index among those (R137). -/
theorem State.formatNext_of_aged {j : JSector} (hj : s.isAged j)
    (least : ∀ i, s.isAged i → s.dir[j].epoch < s.dir[i].epoch ∨ s.dir[j].epoch = s.dir[i].epoch ∧ j.val ≤ i.val) :
    s.formatNext = some j := by
  have first : leastBy (fun j => s.dir[j].epoch) s.formatAged = some j :=
    (leastBy_spec _ (State.formatLeft_pairwise.filter _) j).2
      ⟨State.mem_formatAged.2 hj, fun i hi => least i (State.mem_formatAged.1 hi)⟩
  rw [State.formatNext_eq, first, Option.some_or]

/-- Without a DIRTY sector that has an epoch the head of the others comes next (R137). -/
theorem State.formatNext_of_no_aged (h : ∀ i, ¬ s.isAged i) : s.formatNext = s.formatYoung.head? := by
  have noAged : s.formatAged = [] := List.eq_nil_iff_forall_not_mem.2 fun i listed => h i (State.mem_formatAged.1 listed)
  rw [State.formatNext_eq, leastBy_eq_none.2 noAged, Option.none_or]

/-- The other sectors follow in ascending index (R137). -/
theorem State.formatNext_of_young {j : JSector} (h : ∀ i, ¬ s.isAged i) (hj : s.isYoung j)
    (least : ∀ i, s.isYoung i → j.val ≤ i.val) : s.formatNext = some j := by
  rw [State.formatNext_of_no_aged h]
  exact head?_eq_some_of_least (State.formatLeft_pairwise.filter _) (State.mem_formatYoung.2 hj)
    fun i hi => least i (State.mem_formatYoung.1 hi)

/-- After the last sector there is no next one (R137, R138). -/
theorem State.formatNext_of_none (h : ∀ i, ¬ s.isAged i ∧ ¬ s.isYoung i) : s.formatNext = none := by
  have noYoung : s.formatYoung = [] :=
    List.eq_nil_iff_forall_not_mem.2 fun i listed => (h i).2 (State.mem_formatYoung.1 listed)
  rw [State.formatNext_of_no_aged fun i => (h i).1, noYoung, List.head?_nil]

end

/-! ### Format's step at the end of a happening (R27, R44, R58, R80, R97, R98, R137, R138) -/

/-- Format takes a sector: it is in ERASING with nothing readable, its pages leave the withheld list, and its erase is requested
(R107, R137). -/
def State.formatTakes (j : JSector) (s : State) : State :=
  State.request (eraseRequest .format j)
    { s with
      ctrl := { s.ctrl with format := .erasing j }
      dir := s.dir.update j Entry.erasing
      cursor := { s.cursor with withheld := s.cursor.withheld.filter fun w => w.1 != j } }

section
variable {s : State}

/-- What Format does where it chooses (R137). -/
theorem State.formatStep_of_choosing (h : s.choosing) :
    s.formatStep = match s.formatNext with | some j => s.formatTakes j | none => s.formatErasesEnd := by
  obtain ⟨choosing, state, noErase, noRequest⟩ := h
  have noResult : (!s.array.owesResult .format) = true := by rw [owesResult_eq_false.2 noRequest]; rfl
  rw [State.formatStep, if_pos ⟨choosing, state, Option.isNone_iff_eq_none.2 noErase, noResult⟩]
  rfl

/-- Where Format's step leaves it in another phase, the end of the happening goes on from there: Format has one step in each. -/
theorem State.settle_of_formatStep {t : State} (freed : Bool) (step : s.formatStep = t) (other : t.ctrl.format ≠ .choosing) :
    s.settle freed = t.settle freed := by
  have rests : t.formatStep = t := formatStep_of_not_choosing fun choosing => other choosing.1
  rw [State.settle, State.settle, step, rests]

/-- With fewer than four usable sectors the Format ends FAILED (R98, R138). -/
theorem State.formatErasesEnd_of_few (state : s.ctrl.state = .formatting) (few : s.dir.usable < 4) : s.formatErasesEnd =
    { s with
      ctrl := { s.ctrl with state := .failed, format := .noFormat, formatDone := [], opKind := .noOp, opOutcome := .failed }
      events := { s.events with flags := s.events.flags ||| Event.state.mask ||| Event.opDone.mask }
      commit := { s.commit with lastEpoch := 0, phase := .halted, leavingBlocked := false }
      adm := { s.adm with nextSeq := 1, exhausted := false }
      array := { s.array with waiting := s.array.waiting.filter (fun r => r.requester != .commit)
                              made := s.array.made.filter (fun r => r.requester != .commit) } } := by
  have other : s.restartNumbers.ctrl.state ≠ .failed := by
    show s.ctrl.state ≠ _
    rw [state]
    exact nofun
  rw [State.formatErasesEnd, if_pos few, State.formatFailed, State.enter_of_ne other]
  rfl

/-- A saturated counter starts again at 0, and so do the close stamps of the queued descriptors (R27). -/
theorem State.zeroSaturated_eq (s : State) : s.zeroSaturated = { s with
    time := if s.time.counter = 0xFFFFFFFFFFFF then { s.time with counter := 0, saturated := false } else s.time
    lines := if s.time.counter = 0xFFFFFFFFFFFF then
               s.lines.map fun p => { p with queue := p.queue.map fun d => { d with close := 0 } }
             else s.lines } := by
  have last : s.counterSaturated = true ↔ s.time.counter = 0xFFFFFFFFFFFF := beq_iff_eq
  rw [State.zeroSaturated, if_congr last rfl rfl]
  split <;> rfl

/-- The system stamp is 0 with the counter (R27, R38). -/
theorem State.systemStamp_of_counter_zero {s : State} (h : s.time.counter = 0) : s.systemStamp = 0 := by
  obtain ⟨-, least⟩ := State.systemStamp_eq_iff.1 (Eq.refl s.systemStamp)
  exact Nat.le_zero.1 (h ▸ least s.time.counter (State.mem_systemStamps.2 (.inl rfl)))

/-- A counter that was not saturated leaves the system stamp as it was (R27, R38). -/
theorem State.systemStamp_zeroSaturated (s : State) :
    s.zeroSaturated.systemStamp = if s.time.counter = 0xFFFFFFFFFFFF then 0 else s.systemStamp := by
  rw [State.zeroSaturated_eq]
  by_cases last : s.time.counter = 0xFFFFFFFFFFFF
  · simp only [if_pos last]
    exact State.systemStamp_of_counter_zero rfl
  · simp only [if_neg last]

/-- Else the FORMAT START is placed, the counter having left its last value (R27, R138). -/
theorem State.formatErasesEnd_of_usable (usable : ¬ s.dir.usable < 4) : s.formatErasesEnd =
    { s with
      ctrl := { s.ctrl with format := .starting }
      commit := { s.commit with lastEpoch := 0 }
      time := if s.time.counter = 0xFFFFFFFFFFFF then { s.time with counter := 0, saturated := false } else s.time
      lines := if s.time.counter = 0xFFFFFFFFFFFF then
                 s.lines.map fun p => { p with queue := p.queue.map fun d => { d with close := 0 } }
               else s.lines
      adm := { s.adm with
        nextSeq := 1
        exhausted := false
        sys := some (.start (s.startContent .format false)
          (if s.time.counter = 0xFFFFFFFFFFFF then 0 else s.systemStamp)) } } := by
  have stamp : s.restartNumbers.zeroSaturated.systemStamp = _ := State.systemStamp_zeroSaturated _
  rw [State.formatErasesEnd, if_neg usable, State.placeFormatStart, State.placeStart, stamp, State.zeroSaturated_eq]
  rfl

end

/-- Settles O44: the step Format takes where it chooses, by `State.formatNext`, and none where it waits. -/
theorem formatErases : Obligations.FormatErases := by
  refine ⟨fun freed s choosing aged young haged hyoung => ⟨fun j first => ?_, fun noneLeft => ?_⟩,
    fun freed s choosing state busy => ?_⟩
  · have next : s.formatNext = some j := by
      subst haged hyoung
      rcases first with ⟨hj, least⟩ | ⟨hj, noAged, least⟩
      · exact State.formatNext_of_aged hj least
      · exact State.formatNext_of_young noAged hj least
    have step : s.formatStep = s.formatTakes j := by rw [State.formatStep_of_choosing choosing, next]
    exact State.settle_of_formatStep freed step nofun
  · have next : s.formatNext = none := by
      subst haged hyoung
      exact State.formatNext_of_none noneLeft
    have step : s.formatStep = s.formatErasesEnd := by rw [State.formatStep_of_choosing choosing, next]
    by_cases few : s.dir.usable < 4
    · rw [if_pos few]
      exact State.settle_of_formatStep freed (step.trans (State.formatErasesEnd_of_few choosing.2.1 few)) nofun
    · rw [if_neg few]
      exact State.settle_of_formatStep freed (step.trans (State.formatErasesEnd_of_usable few)) nofun
  · have waits : ¬ s.choosing := by
      rintro ⟨-, -, noErase, noRequest⟩
      rcases busy with ⟨e, he⟩ | ⟨r, listed, format⟩
      · exact nomatch noErase.symm.trans he
      · exact noRequest r listed format
    have noReclaim : s.reclaimTest = s := State.reclaimTest_of_not (.inr (.inr (.inl (by rw [state]; decide))))
    have settled : s.settle freed = s.cursorWork.arbitrate freed := by
      rw [State.settle_of_not_choosing freed waits, noReclaim, State.cursorWork]
    have only : CursorOnly s (s.settle freed) := by
      rw [settled]
      exact (cursorOnly_cursorWork s).trans (cursorOnly_arbitrate freed _)
    exact ⟨settled, only.ctrl, only.dir⟩

end Sys2Proof.Machine

/-! SUPPORT. Resets, the end of a drain and the return from DRAINED (chapters 7 and 8): what a Reset Device marks and what the
rise of CS_N does with it, the pins and the supply, the SHUTDOWN step, and the return by the saved state; and the statements
they settle. -/

namespace Sys2Proof.Machine

/-! ### Reset Device (R154) -/

section
variable {s : State}

/-- Reset Device is taken at its command byte and decided by its rule (R154). -/
theorem exec_resetDevice (h : s.atCommand) (hr : s.ctrl.state ≠ .recovering) :
    exec .resetDevice s = .next (State.answer 0x5A [] s.resetDeviceRule) :=
  takeByte_command (c := .resetDevice) h rfl rfl (.inl hr)

/-- A token cut short leaves the journal controller alone (R118). -/
@[simp] theorem State.cutToken_ctrl (s : State) : s.cutToken.ctrl = s.ctrl := by
  unfold State.cutToken
  split <;> rfl

/-- The end of a transaction leaves the journal controller alone (R187). -/
@[simp] theorem State.endTransaction_ctrl (s : State) : s.endTransaction.ctrl = s.ctrl := by
  unfold State.endTransaction
  dsimp only
  split
  · exact s.cutToken_ctrl
  · rfl

/-- Out of reset a rise of CS_N ends the transaction, and then a Reset Device taken before has its effect (R154, R187). -/
theorem exec_csNRise (hp : s.powered = true) (hr : s.inReset = false) (hc : s.pins.csN = false) :
    exec .csNRise s = .next ((s.setCsN true).endTransaction.hostResetAtRise.settle false) := by
  have heard : (s.setCsN true).deaf = false := State.not_deaf hp hr
  rw [exec, execCsNRise, State.ifArises, if_pos (Bool.not_eq_true' _ ▸ hc)]
  dsimp only
  rw [heard]
  rfl

/-- A reset marked in DRAINED is taken in whatever state the journal then is (R154; log entry 30). -/
theorem State.hostResetAtRise_of_marked (h : s.ctrl.resetAtRise = true) : s.hostResetAtRise = s.takeReset .hostReset :=
  if_pos h

/-- A pending host reset begins the drain in a working state (R154). -/
theorem State.hostResetAtRise_of_pending (h : s.ctrl.resetAtRise = false) (hp : s.ctrl.hostResetPending = true) :
    s.hostResetAtRise =
      if s.ctrl.state ∈ [JState.running, .stopping, .stopped, .full, .formatting, .failed] then s.beginDrain else s := by
  rw [State.hostResetAtRise, if_neg (Bool.eq_false_iff.1 h), if_pos hp]
  cases s.ctrl.state <;> rfl

end

/-- Settles O22: the mark set at the taking, and the two marks at the rise of CS_N. -/
theorem resetDeviceRule : Obligations.ResetDeviceRule := by
  have hc : commandOf 0x5A ≠ some .readStatus ∧ commandOf 0x5A ≠ some .readRecords := by decide
  refine ⟨fun s h hr => ?_, ?_⟩
  · rw [exec_resetDevice h hr, State.resetDeviceRule, answer_accept hc.1 hc.2]
    rfl
  · rintro s u hp hr hcs rfl
    have ctrl : (s.setCsN true).endTransaction.ctrl = s.ctrl := State.endTransaction_ctrl _
    rw [exec_csNRise hp hr hcs]
    refine ⟨fun marked => ?_, fun unmarked pending => ?_⟩
    · rw [State.hostResetAtRise_of_marked (by rwa [ctrl])]
    · rw [State.hostResetAtRise_of_pending (by rwa [ctrl]) (by rwa [ctrl]), ctrl]

/-! ### Resets and the supply (R64, R144, R153, R155) -/

section
variable {s : State}

/-- RESET_N takes a reset in a part with supply; in a power-on reset it is still that one (R153, R155; log entry 31). -/
theorem exec_resetNFall (h : s.pins.resetN = true) (hp : s.powered = true) :
    exec .resetNFall s = .next ((s.setResetN false).takeReset
      (if s.inReset = true ∧ s.ctrl.resetCause = .powerOn then .powerOn else .resetPin)) := by
  rw [exec, execResetNFall, State.ifArises, if_pos h]
  dsimp only
  rw [State.setResetN_powered, hp, State.setResetN_inReset, State.setResetN_ctrl, apply_ite State.takeReset, ite_apply]
  rfl

/-- Without supply only the pin changes (log entry 4). -/
theorem exec_resetNFall_of_unpowered (h : s.pins.resetN = true) (hp : s.powered = false) :
    exec .resetNFall s = .next (s.setResetN false) := by
  rw [exec, execResetNFall, State.ifArises, if_pos h]
  dsimp only
  rw [State.setResetN_powered, hp]
  rfl

/-- The end of a reset begins recovery, or abandons it before its first read with PFW_N low (R144, R158, R173). -/
theorem exec_resetEnd (hp : s.powered = true) (hr : s.inReset = true) : exec .resetEnd s =
    .next ((if s.pins.pfwN then s.outOfReset.beginRecovery else s.outOfReset.abandonRecovery).settle false) := by
  have run : execResetEnd s = _ := live_of_powered hp
  rw [exec, run, State.ifArises, if_pos hr]
  rfl

/-- A loss of power cuts what is in flight and ends a drain unfinished (R64). -/
theorem exec_powerLoss (hp : s.powered = true) : exec .powerLoss s =
    .next { s.cutArray.withCtrl fun c => { c with drain := .noDrain } with powered := false } := by
  have run : execPowerLoss s = _ := live_of_powered hp
  rw [exec, run]

/-- A cut leaves no operation in flight (R64). -/
theorem State.cutOp_op (s : State) : s.cutOp.array.op = none := by
  unfold State.cutOp
  split
  · assumption
  · rfl

/-- A cut leaves no erase in existence, and the operation in flight as it was (R64). -/
theorem State.cutErase_erase (s : State) : s.cutErase.array.erase = none ∧ s.cutErase.array.op = s.array.op := by
  unfold State.cutErase
  split
  · exact ⟨‹_›, rfl⟩
  · exact ⟨rfl, rfl⟩

/-- After a cut nothing is in flight and nothing waits (R64). -/
theorem State.cutArray_idle (s : State) :
    s.cutArray.array.op = none ∧ s.cutArray.array.erase = none ∧ s.cutArray.array.waiting = [] :=
  ⟨(State.cutErase_erase _).2.trans s.cutOp_op, (State.cutErase_erase _).1, rfl⟩

end

/-- Settles O55: the reset whatever its cause, and the pin, the end and the loss of power one by one. -/
theorem resets : Obligations.Resets := by
  refine ⟨⟨?reset, ?causes⟩, fun s u => ⟨⟨_, rfl⟩, fun high => ?fall, ?ending, fun powered => ?loss⟩⟩
  case reset =>
    rintro s t cause rfl
    rw [takeReset_eq]
    exact ⟨rfl, fun a => memByte_cutArray s a⟩
  case causes =>
    rintro s u rfl
    exact ⟨rfl, fun high powered => exec_resetNFall high powered⟩
  case fall =>
    rcases Bool.eq_false_or_eq_true s.powered with powered | unpowered
    · exact ⟨_, exec_resetNFall high powered, fun unpowered => nomatch powered.symm.trans unpowered⟩
    · exact ⟨_, exec_resetNFall_of_unpowered high unpowered, fun _ => rfl⟩
  case ending =>
    rintro powered inReset rfl
    rw [exec_resetEnd powered inReset]
    constructor <;> intro pin <;> rw [pin] <;> rfl
  case loss =>
    obtain ⟨op, erase, waiting⟩ := s.cutArray_idle
    have frame := cutArray_frame s
    refine ⟨_, exec_powerLoss powered, rfl, op, erase, waiting, ?_, ?_, fun a => memByte_cutArray s a⟩
    all_goals rw [frame]; rfl

/-! ### The steps of a drain (R147 to R150) -/

section
variable {s : State}

/-- The SHUTDOWN record is admitted with its system stamp, and closes its buffer (R147, R148). -/
theorem State.shutdownStep_of_filling {b : BufId} (h : s.adm.exhausted = false) (hf : s.adm.filling = some b) :
    s.shutdownStep = (s.admitted b (.sys (.shutdown s.systemStamp))).handOver := by
  have numbers : ¬ (s.setSys (some (.shutdown s.systemStamp))).adm.exhausted = true := Bool.eq_false_iff.1 h
  have filling : (s.setSys (some (.shutdown s.systemStamp))).adm.filling = some b := hf
  rw [State.shutdownStep, if_neg numbers, filling]
  cases b <;> rfl

/-- Some record is in the filling buffer (R36). -/
theorem State.fillingHolds_iff : s.fillingHolds = true ↔ ∃ b, s.adm.filling = some b ∧ (s.adm.buf b).count ≠ 0 := by
  unfold State.fillingHolds
  cases s.adm.filling <;> simp

/-- With the numbers exhausted the SHUTDOWN is not admitted; an empty buffer ends the drain at once (R147, R150). -/
theorem State.shutdownStep_of_exhausted {v : State} (h : s.adm.exhausted = true)
    (hv : v = { s with adm := { s.adm with sys := some (.shutdown s.systemStamp) }
                       ctrl := { s.ctrl with shutdownOutcome := .notAdmitted } }) :
    s.shutdownStep = if s.fillingHolds then v.handOver else v.drainEnd .notAdmitted := by
  subst hv
  exact if_pos h

/-- The drain ends at once where the closed buffer was released at its taking (R147, R150). -/
theorem State.handOver_eq {v : State} (hv : v = State.closeFilling { s with ctrl := { s.ctrl with drain := .closing } }) :
    s.handOver = if v.commit.holding = none then v.drainEnd .lost else v := by
  subst hv
  exact if_congr Option.isNone_iff_eq_none rfl rfl

/-- A drain ends in DRAINED, and goes on to the reset of a Reset Device or, with PFW_N high, to the return (R149; log
entry 53). -/
theorem State.drainEnd_of_draining {o : ShutdownOutcome} {v : State} (h : s.ctrl.state = .draining)
    (hv : v = { s with
      ctrl := { s.ctrl with state := .drained, drain := .noDrain,
                            shutdownOutcome := if s.ctrl.shutdownOutcome = .notAdmitted then .notAdmitted else o }
      adm := { s.adm with sys := none }
      events := { s.events with flags := s.events.flags ||| Event.state.mask } }) :
    s.drainEnd o = if s.ctrl.hostResetPending then v.takeReset .hostReset
      else if s.pins.pfwN then v.returnFromDrained else v := by
  have draining : (s.drainDone o).ctrl.state ≠ .drained := by
    rw [show (s.drainDone o).ctrl.state = s.ctrl.state from rfl, h]
    exact nofun
  have drained : (s.drainDone o).enter .drained = v := (State.enter_of_ne draining).trans hv.symm
  rw [State.drainEnd, drained, hv]

/-! ### A rise of PFW_N (R142, R144) -/

/-- A part that takes no notice of the pin, or is not DRAINED, keeps everything but the pin (R144, R153). -/
theorem exec_pfwNRise_of_unheard (h : s.pins.pfwN = false)
    (hu : s.powered = false ∨ s.inReset = true ∨ s.ctrl.state ≠ .drained) :
    exec .pfwNRise s = .next (s.setPfwN true) := by
  have unheard : ¬ ((!(s.setPfwN true).deaf) = true ∧ (s.setPfwN true).ctrl.state = .drained) := by
    rintro ⟨heard, drained⟩
    rcases hu with hu | hu | hu
    · simp [State.deaf, hu] at heard
    · simp [State.deaf, hu] at heard
    · exact hu drained
  rw [exec, execPfwNRise, State.ifArises, if_pos (Bool.not_eq_true' _ ▸ h)]
  dsimp only
  rw [if_neg unheard]

/-- In DRAINED the journal returns (R142). -/
theorem exec_pfwNRise_of_drained (h : s.pins.pfwN = false) (hp : s.powered = true) (hr : s.inReset = false)
    (hd : s.ctrl.state = .drained) : exec .pfwNRise s = .next ((s.setPfwN true).returnFromDrained.settle false) := by
  have heard : (s.setPfwN true).deaf = false := State.not_deaf hp hr
  rw [exec, execPfwNRise, State.ifArises, if_pos (Bool.not_eq_true' _ ▸ h)]
  dsimp only
  rw [if_pos ⟨Bool.not_eq_true' _ ▸ heard, hd⟩]

/-! ### The return from DRAINED by the saved state (R142, R151, R174) -/

/-- The journal leaves DRAINED for a saved state: it is saved no more, and drain loss mode is over (R142). -/
def State.returning (s : State) : State :=
  { s with ctrl := { s.ctrl with saved := none }, commit := { s.commit with drainLoss := false } }

/-- The journal back from DRAINED in a state, stop-requested as given and its RESUME START placed (R142, R151). -/
def State.resumedIn (j : JState) (stop : Bool) (s : State) : State :=
  (s.returning.withCtrl fun c => { c with stopRequested := stop }).enter j |>.placeResume

/-- The RESUME START's content, its stamp, and what else the return writes (R126, R142, R151). -/
theorem State.resumedIn_eq {j : JState} {v : State} (stop : Bool) (h : s.ctrl.state ≠ j)
    (hv : v = { s.returning with
      ctrl := { s.returning.ctrl with state := j, stopRequested := stop }
      events := { s.events with flags := s.events.flags ||| Event.state.mask } }) :
    s.resumedIn j stop = { v with
      adm := { v.adm with
        sys := some (.start (s.startContent .resume (s.ctrl.shutdownOutcome == .committed)) v.systemStamp) }
      ctrl := { v.ctrl with shutdownOutcome := .noOutcome } } := by
  have entered : (s.returning.withCtrl fun c => { c with stopRequested := stop }).enter j = v := by
    rw [hv]
    exact State.enter_of_ne h
  rw [State.resumedIn, entered, hv]
  rfl

/-- A recovery that was abandoned starts again (R174; log entries 48 and 50). -/
theorem State.returnFromDrained_of_recovering (hd : s.ctrl.state = .drained) (h : s.ctrl.saved = some .recovering) :
    s.returnFromDrained = State.beginRecovery { s with
      ctrl := { s.ctrl with state := .recovering, saved := none }
      events := { s.events with flags := s.events.flags ||| Event.state.mask }
      commit := CommitPath.reset
      cursor := CursorEngine.reset
      adm := State.reset.adm } := by
  have drained : s.restartBlocks.ctrl.state ≠ .recovering := by
    rw [show s.restartBlocks.ctrl.state = s.ctrl.state from rfl, hd]
    exact nofun
  rw [State.returnFromDrained, h]
  dsimp only
  rw [State.restartRecovery, State.enter_of_ne drained]
  rfl

/-- Below four usable sectors the journal has failed, and a failed one stays so (R142; log entry 37). -/
theorem State.returnFromDrained_into_failed {x : JState} (h : s.ctrl.saved = some x) (hx : x ≠ .recovering)
    (fails : s.dir.usable < 4 ∨ x = .failed) :
    s.returnFromDrained = (s.resumedIn .failed s.ctrl.stopRequested).haltCommit := by
  rw [State.returnFromDrained, h]
  rcases fails with few | rfl
  · have few : s.returning.dir.usable < Config.usableMin := few
    cases x
    case recovering => exact absurd rfl hx
    all_goals exact if_pos few
  · exact ite_self _

/-- A Format begins anew, with no RESUME START (R142; log entry 37). -/
theorem State.returnFromDrained_of_formatting (h : s.ctrl.saved = some .formatting) (usable : 4 ≤ s.dir.usable) :
    s.returnFromDrained = s.returning.formatStart.withCtrl fun c => { c with shutdownOutcome := .noOutcome } := by
  rw [State.returnFromDrained, h]
  exact if_neg (Nat.not_lt.2 usable)

/-- A running journal runs on (R142). -/
theorem State.returnFromDrained_of_running (h : s.ctrl.saved = some .running) (usable : 4 ≤ s.dir.usable) :
    s.returnFromDrained = s.returning.returnTo true false := by
  rw [State.returnFromDrained, h]
  exact if_neg (Nat.not_lt.2 usable)

/-- A stop in progress, or taken, has ended (R142). -/
theorem State.returnFromDrained_of_stopped {x : JState} (h : s.ctrl.saved = some x) (hx : x = .stopping ∨ x = .stopped)
    (usable : 4 ≤ s.dir.usable) : s.returnFromDrained = s.returning.returnTo false true := by
  rw [State.returnFromDrained, h]
  rcases hx with rfl | rfl <;> exact if_neg (Nat.not_lt.2 usable)

/-- FULL lasts while space is waited for or the numbers are exhausted, and else ends as its stop request says (R142). -/
theorem State.returnFromDrained_of_full (h : s.ctrl.saved = some .full) (usable : 4 ≤ s.dir.usable) :
    s.returnFromDrained =
      if s.ctrl.spaceWait = true ∨ s.adm.exhausted = true then s.resumedIn .full s.ctrl.stopRequested
      else s.returning.returnTo (!s.ctrl.stopRequested) false := by
  rw [State.returnFromDrained, h]
  exact if_neg (Nat.not_lt.2 usable)

/-- With the numbers exhausted the journal is FULL, and a stop stays requested (R142). -/
theorem State.returnTo_of_exhausted (running stop : Bool) (h : s.adm.exhausted = true) :
    s.returning.returnTo running stop = s.resumedIn .full (stop || s.ctrl.stopRequested) := if_pos h

/-- With numbers left a stopped journal is STOPPED, with no stop requested any more (R142). -/
theorem State.returnTo_of_stopped (stop : Bool) (h : s.adm.exhausted = false) :
    s.returning.returnTo false stop = s.resumedIn .stopped false :=
  if_neg (Bool.eq_false_iff.1 h)

/-- With numbers left a running journal runs on, its RESUME START placed first (R142, R151). -/
theorem State.returnTo_of_running (stop : Bool) (h : s.adm.exhausted = false) :
    s.returning.returnTo true stop = s.returning.placeResume.enterRunning :=
  if_neg (Bool.eq_false_iff.1 h)

/-- With the numbers exhausted the journal is FULL, whatever it was, and a stop stays requested (R142). -/
theorem State.returnFromDrained_into_full {x : JState} (h : s.ctrl.saved = some x) (usable : 4 ≤ s.dir.usable)
    (exhausted : s.adm.exhausted = true) (hx : x ∈ [JState.running, .stopping, .stopped, .full]) :
    s.returnFromDrained = s.resumedIn .full (decide (x = .stopping ∨ x = .stopped) || s.ctrl.stopRequested) := by
  simp only [List.mem_cons, List.not_mem_nil, or_false] at hx
  rcases hx with rfl | rfl | rfl | rfl
  · rw [State.returnFromDrained_of_running h usable]
    exact State.returnTo_of_exhausted true false exhausted
  · rw [State.returnFromDrained_of_stopped h (.inl rfl) usable]
    exact State.returnTo_of_exhausted false true exhausted
  · rw [State.returnFromDrained_of_stopped h (.inr rfl) usable]
    exact State.returnTo_of_exhausted false true exhausted
  · rw [State.returnFromDrained_of_full h usable]
    exact if_pos (.inr exhausted)

/-- A stop ends in STOPPED, and so does FULL for no lasting reason where one is requested (R142). -/
theorem State.returnFromDrained_into_stopped {x : JState} (h : s.ctrl.saved = some x) (usable : 4 ≤ s.dir.usable)
    (numbers : s.adm.exhausted = false)
    (hx : x = .stopping ∨ x = .stopped ∨ x = .full ∧ s.ctrl.spaceWait = false ∧ s.ctrl.stopRequested = true) :
    s.returnFromDrained = s.resumedIn .stopped false := by
  rw [← State.returnTo_of_stopped true numbers]
  rcases hx with hx | hx | ⟨rfl, space, stop⟩
  · exact State.returnFromDrained_of_stopped h (.inl hx) usable
  · exact State.returnFromDrained_of_stopped h (.inr hx) usable
  · rw [State.returnFromDrained_of_full h usable, if_neg (by simp [space, numbers]), stop,
      State.returnTo_of_stopped true numbers]
    exact State.returnTo_of_stopped false numbers

/-- A running journal runs on, and so does FULL for no lasting reason where no stop is requested (R142, R151). -/
theorem State.returnFromDrained_into_running {x : JState} (h : s.ctrl.saved = some x) (usable : 4 ≤ s.dir.usable)
    (numbers : s.adm.exhausted = false)
    (hx : x = .running ∨ x = .full ∧ s.ctrl.spaceWait = false ∧ s.ctrl.stopRequested = false) :
    s.returnFromDrained = s.returning.placeResume.enterRunning := by
  rw [← State.returnTo_of_running false numbers]
  rcases hx with rfl | ⟨rfl, space, noStop⟩
  · exact State.returnFromDrained_of_running h usable
  · rw [State.returnFromDrained_of_full h usable, if_neg (by simp [space, numbers]), noStop]
    rfl

end

/-- Settles O57: the SHUTDOWN step, the end of the drain, the pin, and the return saved state by saved state. -/
theorem drainAndReturn : Obligations.DrainAndReturn := by
  refine ⟨fun s v => ⟨?admitted, ?numberless, State.handOver_eq, fun o => State.drainEnd_of_draining⟩,
    fun s u hpin hu => ⟨fun unheard => ?unheard, fun powered running drained enter resume henter hresume => ?drained⟩⟩
  case admitted =>
    rintro b numbers filling rfl
    exact State.shutdownStep_of_filling numbers filling
  case numberless =>
    intro exhausted hv
    rw [State.shutdownStep_of_exhausted exhausted hv]
    exact if_congr State.fillingHolds_iff rfl rfl
  all_goals obtain rfl : u = s.setPfwN true := hu
  case unheard => exact exec_pfwNRise_of_unheard hpin unheard
  refine ⟨exec_pfwNRise_of_drained hpin powered running drained,
    State.returnFromDrained_of_recovering (s := s.setPfwN true) drained, ?_⟩
  intro b x saved known hb
  obtain rfl : b = (s.setPfwN true).returning := hb
  have saved : (s.setPfwN true).ctrl.saved = some x := saved
  have resumed (j : JState) (stop : Bool) (hj : JState.drained ≠ j) : (s.setPfwN true).resumedIn j stop
      = resume (enter j { (s.setPfwN true).returning with
          ctrl := { (s.setPfwN true).returning.ctrl with stopRequested := stop } }) := by
    subst henter hresume
    exact State.resumedIn_eq stop (drained ▸ hj) rfl
  have kept (j : JState) (hj : JState.drained ≠ j) : (s.setPfwN true).resumedIn j s.ctrl.stopRequested
      = resume (enter j (s.setPfwN true).returning) := resumed j _ hj
  refine ⟨fun fails => ?failed, fun usable hx => ?formatting, fun usable exhausted hfailed hformatting => ?exhausted,
    fun usable numbers => ⟨fun ⟨hx, waits⟩ => ?waiting, fun hx => ?stopped, fun hx => ?running⟩⟩
  case failed =>
    rw [← kept .failed nofun]
    exact State.returnFromDrained_into_failed saved (by rintro rfl; exact known (by decide)) fails
  case formatting =>
    subst hx
    exact State.returnFromDrained_of_formatting saved usable
  case exhausted =>
    have back : x ∈ [JState.running, .stopping, .stopped, .full] := by
      cases x
      case recovering | draining | drained => exact absurd (by decide) known
      case failed => exact absurd rfl hfailed
      case formatting => exact absurd rfl hformatting
      all_goals decide
    rw [State.returnFromDrained_into_full saved usable exhausted back]
    by_cases stops : x = .stopping ∨ x = .stopped
    · rw [if_pos stops, decide_eq_true stops]
      exact resumed .full true nofun
    · rw [if_neg stops, decide_eq_false stops]
      exact kept .full nofun
  case waiting =>
    subst hx
    rw [State.returnFromDrained_of_full saved usable, if_pos (.inl waits)]
    exact kept .full nofun
  case stopped =>
    rw [← resumed .stopped false nofun]
    exact State.returnFromDrained_into_stopped saved usable numbers hx
  case running =>
    subst hresume
    exact State.returnFromDrained_into_running saved usable numbers hx

end Sys2Proof.Machine

/-! SUPPORT. Recovery (chapter 9): what the end of a recovery read delivers, the setup load, the head table and the order of the
page scan, the record pages by class, what is rebuilt from them, and how recovery ends; and the statements they settle. -/

namespace Sys2Proof.Machine

/-! ### The end of a recovery read (R158, R173) -/

section
variable {s : State}

/-- A read of an abandoned recovery ends and is not used (R173). -/
theorem exec_recoveryReadEnd_of_unwanted {r : Request} (hp : s.powered = true) (flying : s.array.op = some r)
    (hr : r.requester = .recovery) (unwanted : r.wanted = false) :
    exec .recoveryReadEnd s = .next (s.opOver.settle true) := by
  have run : execRecoveryReadEnd s = _ := live_of_powered hp
  rw [exec, run, flying]
  dsimp only
  rw [State.ifArises, if_pos (beq_iff_eq.2 hr), unwanted]
  rfl

/-- Any other read of the recovery unit ends with its page delivered (R158). -/
theorem exec_recoveryReadEnd_of_wanted {r : Request} (hp : s.powered = true) (flying : s.array.op = some r)
    (hr : r.requester = .recovery) (wanted : r.wanted = true) :
    exec .recoveryReadEnd s = .next (State.settle true
      (s.opOver.recoveryDeliver r.sector r.page (readPage s.array.mem r.sector r.page))) := by
  have run : execRecoveryReadEnd s = _ := live_of_powered hp
  rw [exec, run, flying]
  dsimp only
  rw [State.ifArises, if_pos (beq_iff_eq.2 hr), wanted]
  rfl

/-- In LOADING the page is one of the setup (R159). -/
theorem State.recoveryDeliver_of_loading (sec : Sector) (p : PageIx) (page : List Byte) (h : s.recov.phase = .loading) :
    s.recoveryDeliver sec p page = s.scanSetup sec p page := by
  rw [State.recoveryDeliver, h]

/-- In HEADS the page is a head page (R160). -/
theorem State.recoveryDeliver_of_heads {sec : Sector} {j : JSector} (p : PageIx) (page : List Byte)
    (h : s.recov.phase = .heads) (hj : sec = sectorOf j) : s.recoveryDeliver sec p page = s.scanHead j page := by
  rw [State.recoveryDeliver, h, hj, journalOf_sectorOf]

/-- In PAGES the page is a record page (R162). -/
theorem State.recoveryDeliver_of_pages {sec : Sector} {j : JSector} (p : PageIx) (page : List Byte)
    (h : s.recov.phase = .pages) (hj : sec = sectorOf j) : s.recoveryDeliver sec p page = s.scanPage j p page := by
  rw [State.recoveryDeliver, h, hj, journalOf_sectorOf]

end

/-! ### The setup load (R159, R180) -/

/-- Setup sector A is any but sector 127 (R46). -/
theorem setupSectorOf_eq_a_iff {sec : Sector} : setupSectorOf sec = .a ↔ sec ≠ 127 := by
  unfold setupSectorOf
  split <;> simp_all

section
variable (sec : Sector) (p : PageIx) (page : List Byte) (r : RecoveryUnit)

/-- The recovery unit with a setup page counted among those in use, unless all its bytes are FFh (R180). -/
def RecoveryUnit.countSetup : RecoveryUnit :=
  { r with nextA := if allFF page = false ∧ sec ≠ 127 then p.val + 1 else r.nextA
           nextB := if allFF page = false ∧ sec = 127 then p.val + 1 else r.nextB }

/-- The count of R180, as the load takes it. -/
theorem RecoveryUnit.countSetup_eq : r.countSetup sec p page =
    if allFF page then r
    else if setupSectorOf sec = .a then { r with nextA := p.val + 1 }
    else { r with nextB := p.val + 1 } := by
  rw [if_congr setupSectorOf_eq_a_iff rfl rfl, RecoveryUnit.countSetup]
  by_cases erased : allFF page = true <;> by_cases b : sec = 127 <;> simp [erased, b]

variable {page}

/-- A page that is no committed copy in range is only counted (R159). -/
theorem RecoveryUnit.takeSetup_of_none (h : setupOfPage page = none) :
    r.takeSetup sec p page = r.countSetup sec p page := by
  rw [RecoveryUnit.takeSetup, h, RecoveryUnit.countSetup_eq]

/-- A committed copy in range replaces a choice of no higher generation (R159). -/
theorem RecoveryUnit.takeSetup_of_copy {f : SetupFields} {g : Nat} (h : setupOfPage page = some (f, g)) :
    r.takeSetup sec p page =
      if r.choice = none ∨ ∃ c, r.choice = some c ∧ c.generation ≤ g then
        { r.countSetup sec p page with choice := some { fields := f, generation := g, sector := sec, page := p } }
      else r.countSetup sec p page := by
  rw [RecoveryUnit.takeSetup, h]
  dsimp only
  rw [← RecoveryUnit.countSetup_eq]
  have kept : (r.countSetup sec p page).choice = r.choice := rfl
  rw [kept]
  cases r.choice <;> simp

end

section
variable {s : State}

/-- Without a choice the defaults are loaded (R159). -/
theorem State.loadSetup_of_none (h : s.recov.choice = none) : s.loadSetup =
    { s with setup := WorkingSetup.default
             setupLoaded := true
             store := { SetupStore.reset with nextPage := s.recov.nextA }
             recov := { s.recov with result := some (.defaults, 0) } } := by
  rw [State.loadSetup, h]
  rfl

/-- The choice becomes the working setup, and the store goes on in its sector (R159, R180). -/
theorem State.loadSetup_of_choice {c : LoadChoice} (h : s.recov.choice = some c) : s.loadSetup =
    { s with setup := { fields := c.fields, source := .stored, generation := c.generation }
             setupLoaded := true
             store := { SetupStore.reset with
               current := setupSectorOf c.sector
               nextPage := if c.sector = 127 then s.recov.nextB else s.recov.nextA
               location := some (setupSectorOf c.sector, c.page)
               latest := c.generation
               issued := c.generation }
             recov := { s.recov with result := some (.stored, c.generation) } } := by
  rw [State.loadSetup, h]
  dsimp only
  rw [if_congr setupSectorOf_eq_a_iff rfl rfl, ite_not]
  rfl

end

/-! ### The head table (R161) -/

/-- A head is VALID with this epoch. -/
theorem HeadInfo.epoch?_eq_some_iff {h : HeadInfo} {e : Nat} : h.epoch? = some e ↔ ∃ c used, h = .valid e c used := by
  cases h <;> simp [HeadInfo.epoch?]

/-- A VALID head whose epoch one of the heads behind it has too (R161). -/
def HeadInfo.sharedWith (h : HeadInfo) (behind : List HeadInfo) : Bool :=
  h.epoch?.any fun e => behind.any fun h' => h'.epoch? == some e

/-- The heads are judged one by one, each by those behind it (R161). -/
theorem damageShared_cons (h : HeadInfo) (behind : List HeadInfo) :
    damageShared (h :: behind) = (if h.sharedWith behind then .damaged else h) :: damageShared behind := by
  cases h <;> rfl

/-- What becomes of the head at an index (R161). -/
theorem damageShared_getElem? {heads : List HeadInfo} {i : Nat} {h : HeadInfo} (at_i : heads[i]? = some h) :
    (damageShared heads)[i]? = some (if h.sharedWith (heads.drop (i + 1)) then .damaged else h) := by
  induction heads generalizing i with
  | nil => cases at_i
  | cons a behind ih =>
    rw [damageShared_cons]
    cases i with
    | zero => obtain rfl : a = h := Option.some.inj at_i; rfl
    | succ i => exact ih at_i

/-- A head shares its epoch with one of a higher index. -/
theorem HeadInfo.sharedWith_drop_iff {h : HeadInfo} {heads : List HeadInfo} {i : Nat} :
    h.sharedWith (heads.drop (i + 1)) = true ↔
      ∃ e k h', h.epoch? = some e ∧ i < k ∧ heads[k]? = some h' ∧ h'.epoch? = some e := by
  simp only [HeadInfo.sharedWith, Option.any_eq_true, List.any_eq_true, beq_iff_eq, List.mem_iff_getElem?, List.getElem?_drop]
  constructor
  · rintro ⟨e, he, h', ⟨n, at_n⟩, he'⟩
    exact ⟨e, i + 1 + n, h', he, by omega, at_n, he'⟩
  · rintro ⟨e, k, h', he, later, at_k, he'⟩
    exact ⟨e, he, h', ⟨k - (i + 1), by rwa [Nat.add_sub_cancel' later]⟩, he'⟩

/-! ### The order of the page scan (R162) -/

/-- The first of the sectors with a property is the one of least index. -/
theorem find?_allSectors_eq_some_iff {q : JSector → Bool} {j : JSector} :
    allSectors.find? q = some j ↔ q j = true ∧ ∀ i : JSector, q i = true → j.val ≤ i.val := by
  have sorted : (allSectors.filter q).Pairwise fun a b => a.val < b.val := (List.pairwise_lt_finRange 126).filter _
  have listed {i : JSector} : i ∈ allSectors.filter q ↔ q i = true := by simp [allSectors]
  rw [← List.head?_filter]
  constructor
  · intro first
    refine ⟨listed.1 (List.mem_of_head? first), fun i hi => ?_⟩
    obtain ⟨rest, list_eq⟩ := List.head?_eq_some_iff.1 first
    rw [list_eq] at sorted listed
    rcases List.mem_cons.1 (listed.2 hi) with rfl | later
    · exact le_rfl
    · exact (List.rel_of_pairwise_cons sorted later).le
  · rintro ⟨has, least⟩
    exact head?_eq_some_of_least sorted (listed.2 has) fun i hi => least i (listed.1 hi)

section
variable {r : RecoveryUnit} {n : Nat}

/-- The next BLANK sector is the first of them from an index on (R162). -/
theorem RecoveryUnit.nextBlank_eq_some_iff {j : JSector} : r.nextBlank n = some j ↔
    n ≤ j.val ∧ r.head j = .blank ∧ ∀ i : JSector, n ≤ i.val → r.head i = .blank → j.val ≤ i.val := by
  simp only [RecoveryUnit.nextBlank, find?_allSectors_eq_some_iff, Bool.and_eq_true, decide_eq_true_iff, beq_iff_eq, and_assoc,
    and_imp]

/-- There is none when no sector from that index on is BLANK. -/
theorem RecoveryUnit.nextBlank_eq_none_iff : r.nextBlank n = none ↔ ∀ j : JSector, n ≤ j.val → r.head j ≠ .blank := by
  simp [RecoveryUnit.nextBlank, allSectors, List.find?_eq_none]

variable {e : Nat}

/-- The sectors that are VALID with an epoch above one, in ascending index. -/
theorem RecoveryUnit.mem_validAbove {j : JSector} :
    j ∈ allSectors.filter (fun j => (r.head j).epoch?.isSome && decide (e < r.epochOf j)) ↔
      ∃ m, (r.head j).epoch? = some m ∧ e < m := by
  rw [List.mem_filter, RecoveryUnit.epochOf]
  cases (r.head j).epoch? <;> simp [allSectors]

/-- The next VALID sector is the one of least epoch above that of the sector before it (R162). -/
theorem RecoveryUnit.nextValid_eq_some {j : JSector} {m : Nat} (hj : (r.head j).epoch? = some m) (above : e < m)
    (least : ∀ i k, (r.head i).epoch? = some k → e < k → m < k ∨ m = k ∧ j.val ≤ i.val) : r.nextValid e = some j := by
  refine (leastBy_spec _ ((List.pairwise_lt_finRange 126).filter _) j).2
    ⟨RecoveryUnit.mem_validAbove.2 ⟨m, hj, above⟩, fun i listed => ?_⟩
  obtain ⟨k, hi, k_above⟩ := RecoveryUnit.mem_validAbove.1 listed
  simpa only [RecoveryUnit.epochOf, hj, hi, Option.getD_some] using least i k hi k_above

/-- There is none when no VALID sector has a higher epoch. -/
theorem RecoveryUnit.nextValid_eq_none (h : ∀ j m, (r.head j).epoch? = some m → m ≤ e) : r.nextValid e = none := by
  refine leastBy_eq_none.2 (List.eq_nil_iff_forall_not_mem.2 fun j listed => ?_)
  obtain ⟨m, hj, above⟩ := RecoveryUnit.mem_validAbove.1 listed
  exact Nat.not_lt.2 (h j m hj) above

end

/-- Behind the VALID sectors the scan goes on with the BLANK ones (R162). -/
theorem State.scanAfterValid_of_none {s : State} {e : Nat} (h : s.recov.nextValid e = none) :
    s.scanAfterValid e = s.scanSector (s.recov.nextBlank 0) := by
  rw [State.scanAfterValid, h]

/-- The scan goes on with the next VALID sector (R162). -/
theorem State.scanAfterValid_of_some {s : State} {e : Nat} {j : JSector} (h : s.recov.nextValid e = some j) :
    s.scanAfterValid e = s.recoverNext (sectorOf j) 1 := by
  rw [State.scanAfterValid, h]
  rfl

/-- Settles O51: the three reads by phase, the setup load, and the order of the scan. -/
theorem recoveryReads : Obligations.RecoveryReads := by
  refine ⟨?reads, ⟨?page, fun s => ⟨State.loadSetup_of_none, fun c chosen => State.loadSetup_of_choice chosen⟩⟩,
    fun heads i h at_i => ⟨fun shared => ?shared, fun alone => ?alone⟩, fun _ _ _ => rfl,
    fun r n => ⟨RecoveryUnit.nextBlank_eq_none_iff, fun j => RecoveryUnit.nextBlank_eq_some_iff⟩,
    fun s e valid hvalid => ?scan⟩
  case reads =>
    intro s u r page hp flying hr hpage hu read hread
    obtain rfl : u = s.opOver := hu
    obtain rfl : read = State.recoverNext := hread
    refine ⟨exec_recoveryReadEnd_of_unwanted hp flying hr, fun wanted loading v hv => ?loading,
      fun wanted inHeads j v hj hv => ?heads⟩
    case loading =>
      rw [exec_recoveryReadEnd_of_wanted hp flying hr wanted, ← hpage,
        State.recoveryDeliver_of_loading (s := s.opOver) _ _ _ loading, hv, ← if_congr setupSectorOf_eq_a_iff rfl rfl]
      rfl
    case heads =>
      rw [exec_recoveryReadEnd_of_wanted hp flying hr wanted, ← hpage,
        State.recoveryDeliver_of_heads (s := s.opOver) _ _ inHeads hj, hv, List.countP_eq_length_filter]
      rfl
  case page =>
    rintro sec p page r _ rfl
    cases copy : setupOfPage page with
    | none =>
      rw [r.takeSetup_of_none sec p copy]
      exact ⟨rfl, rfl, rfl, fun _ => rfl, nofun⟩
    | some fg =>
      obtain ⟨f, g⟩ := fg
      rw [r.takeSetup_of_copy sec p copy]
      refine ⟨?_, ?_, ?_, nofun, ?_⟩
      · split <;> rfl
      · split <;> rfl
      · split <;> rfl
      · rintro _ _ ⟨rfl, rfl⟩
        refine ⟨fun better => by rw [if_pos better], fun c chosen higher => ?_⟩
        rw [if_neg (by simp [chosen, higher])]
        exact chosen
  case shared => rw [damageShared_getElem? at_i, if_pos (HeadInfo.sharedWith_drop_iff.2 shared)]
  case alone =>
    rw [damageShared_getElem? at_i, if_neg]
    intro shared
    obtain ⟨e, k, h', he, later, at_k, he'⟩ := HeadInfo.sharedWith_drop_iff.1 shared
    exact alone e k h' he later at_k he'
  case scan =>
    have epochs (j : JSector) (n : Nat) : valid j n ↔ (s.recov.head j).epoch? = some n :=
      (hvalid j n).trans HeadInfo.epoch?_eq_some_iff.symm
    simp only [epochs]
    refine ⟨fun j n hj above least => State.scanAfterValid_of_some (RecoveryUnit.nextValid_eq_some hj above least),
      fun done => ?_⟩
    rw [State.scanAfterValid_of_none (RecoveryUnit.nextValid_eq_none done)]
    rfl

/-! ### The record pages (R162 to R164) -/

section
variable {r : RecoveryUnit} {page : List Byte} (j : JSector) (p : PageIx)

/-- An ERASED page of a VALID sector counts for nothing (R163). -/
theorem RecoveryUnit.takePage_of_erased (h : pageClass page = .erased) : r.takePage j p page = r := by
  rw [RecoveryUnit.takePage, h]

/-- An UNCOMMITTED page, and a TORN one that is not corrupt, is discarded (R163). -/
theorem RecoveryUnit.takePage_of_discarded (h : pageClass page = .uncommitted ∨ pageClass page = .torn false) :
    r.takePage j p page = { r with discarded := r.discarded + 1 } := by
  rcases h with h | h <;> rw [RecoveryUnit.takePage, h]

/-- A corrupt page is counted (R163). -/
theorem RecoveryUnit.takePage_of_corrupt (h : pageClass page = .torn true) :
    r.takePage j p page = { r with corrupt := r.corrupt + 1 } := by
  rw [RecoveryUnit.takePage, h]

/-- A COMMITTED page is offered to the accepted list (R164). -/
theorem RecoveryUnit.takePage_of_committed (h : pageClass page = .committed) :
    r.takePage j p page = r.offer j p page := by
  rw [RecoveryUnit.takePage, h]

end

section
variable {s : State} {j : JSector} (p : PageIx) (page : List Byte)

/-- All fifteen pages of a VALID sector are read (R162). -/
theorem State.scanPage_of_valid {e c used : Nat} {v : State} (h : s.recov.head j = .valid e c used)
    (hv : v = s.withRecov fun r =>
      (r.setHead j (.valid e c (if pageClass page = .erased then used else p.val))).takePage j p page) :
    s.scanPage j p page = if p.val < 15 then v.recoverNext (sectorOf j) (pageOf (p.val + 1)) else v.scanAfterValid e := by
  rw [hv, State.scanPage, h]

variable {page}

/-- A BLANK sector is read on while its pages are ERASED (R162). -/
theorem State.scanPage_of_blank_erased (h : s.recov.head j = .blank) (erased : pageClass page = .erased) :
    s.scanPage j p page = if p.val < 15 then s.recoverNext (sectorOf j) (pageOf (p.val + 1))
      else s.scanSector (s.recov.nextBlank (j.val + 1)) := by
  rw [State.scanPage, h]
  exact if_pos erased

/-- The first page that is not ERASED makes it DAMAGED (R162). -/
theorem State.scanPage_of_blank_used {v : State} (h : s.recov.head j = .blank)
    (used : pageClass page ≠ .erased) (hv : v = s.withRecov fun r => { r.setHead j .damaged with damaged := r.damaged + 1 }) :
    s.scanPage j p page = v.scanSector (v.recov.nextBlank (j.val + 1)) := by
  rw [hv, State.scanPage, h]
  exact if_neg used

end

/-- Settles O52: a page of a VALID sector by its class, and a page of a BLANK one. -/
theorem recoveryReadsPages : Obligations.RecoveryReadsPages := by
  intro s u r page j hp flying hr hpage hu wanted inPages hj
  obtain rfl : u = s.opOver := hu
  rw [exec_recoveryReadEnd_of_wanted hp flying hr wanted, ← hpage,
    State.recoveryDeliver_of_pages (s := s.opOver) _ _ inPages hj, hj]
  refine ⟨fun e c used valid kept v hkept hv => ?_, fun blank v hv => ?_⟩
  · have taken : v = s.opOver.withRecov fun r' =>
        (r'.setHead j (.valid e c (if pageClass page = .erased then used else r.page.val))).takePage j r.page page := by
      rw [hv, hkept, State.withRecov]
      cases class_eq : pageClass page with
      | erased => rw [RecoveryUnit.takePage_of_erased _ _ class_eq]; rfl
      | uncommitted => rw [RecoveryUnit.takePage_of_discarded _ _ (.inl class_eq)]; rfl
      | committed => rw [RecoveryUnit.takePage_of_committed _ _ class_eq]; rfl
      | torn corrupt =>
        cases corrupt with
        | false => rw [RecoveryUnit.takePage_of_discarded _ _ (.inr class_eq)]; rfl
        | true => rw [RecoveryUnit.takePage_of_corrupt _ _ class_eq]; rfl
    rw [State.scanPage_of_valid (s := s.opOver) _ _ valid taken]
  · by_cases erased : pageClass page = .erased
    · obtain rfl : v = s.opOver := hv.trans (if_pos erased)
      rw [State.scanPage_of_blank_erased (s := s.opOver) _ blank erased, if_congr (and_iff_right erased) rfl rfl]
      rfl
    · rw [State.scanPage_of_blank_used (s := s.opOver) _ blank erased (hv.trans (if_neg erased)),
        if_neg fun more => erased more.1]
      rfl

/-! ### The highest epoch and the inherited erase count (R161, R167) -/

section
variable {α : Type} (f : α → Nat)

/-- A running maximum is at most what its start and every value taken in are at most. -/
theorem foldl_max_le_iff {l : List α} {m n : Nat} :
    l.foldl (fun m a => max m (f a)) m ≤ n ↔ m ≤ n ∧ ∀ a ∈ l, f a ≤ n := by
  induction l generalizing m with
  | nil => simp
  | cons a l ih => rw [List.foldl_cons, ih, max_le_iff, List.forall_mem_cons, and_assoc]

/-- A running maximum is its start or a value taken in. -/
theorem foldl_max_attained (l : List α) (m : Nat) :
    l.foldl (fun m a => max m (f a)) m = m ∨ ∃ a ∈ l, f a = l.foldl (fun m a => max m (f a)) m := by
  induction l generalizing m with
  | nil => exact .inl rfl
  | cons a l ih =>
    rw [List.foldl_cons]
    rcases ih (max m (f a)) with start | ⟨b, listed, hb⟩
    · rw [start]
      rcases max_choice m (f a) with kept | taken
      · exact .inl kept
      · exact .inr ⟨a, List.mem_cons_self, taken.symm⟩
    · exact .inr ⟨b, List.mem_cons_of_mem _ listed, hb⟩

end

section
variable {r : RecoveryUnit}

/-- No VALID head has an epoch above the last (R167). -/
theorem RecoveryUnit.epoch_le_lastEpoch {h : HeadInfo} {e : Nat} (listed : h ∈ r.heads) (he : h.epoch? = some e) :
    e ≤ r.lastEpoch := by
  have le := ((foldl_max_le_iff fun h : HeadInfo => h.epoch?.getD 0).1 (le_refl r.lastEpoch)).2 h listed
  rwa [he] at le

/-- The last epoch is that of a VALID head, or 0 (R167). -/
theorem RecoveryUnit.lastEpoch_attained : r.lastEpoch = 0 ∨ ∃ h ∈ r.heads, h.epoch? = some r.lastEpoch := by
  rcases foldl_max_attained (fun h : HeadInfo => h.epoch?.getD 0) r.heads 0 with zero | ⟨h, listed, hh⟩
  · exact .inl zero
  · have attained : h.epoch?.getD 0 = r.lastEpoch := hh
    rw [← attained]
    cases he : h.epoch? with
    | none => exact .inl rfl
    | some e => exact .inr ⟨h, listed, he⟩

/-- No VALID head has an erase count above the inherited one (R161). -/
theorem RecoveryUnit.eraseCount_le_inherited {h : HeadInfo} (listed : h ∈ r.heads) : h.eraseCount ≤ r.inherited :=
  ((foldl_max_le_iff HeadInfo.eraseCount).1 (le_refl r.inherited)).2 h listed

/-- The inherited erase count is that of a VALID head, or 0 (R161). -/
theorem RecoveryUnit.inherited_attained :
    r.inherited = 0 ∨ ∃ e used, HeadInfo.valid e r.inherited used ∈ r.heads := by
  rcases foldl_max_attained HeadInfo.eraseCount r.heads 0 with zero | ⟨h, listed, hh⟩
  · exact .inl zero
  · have attained : h.eraseCount = r.inherited := hh
    rw [← attained]
    cases h with
    | valid e c used => exact .inr ⟨e, used, listed⟩
    | blank | retired | damaged => exact .inl rfl

end

/-! ### The sectors of the ring (R165, R166) -/

section
variable {r : RecoveryUnit}

/-- A VALID sector that goes into the ring, with its epoch and its pages used (R165). -/
def RecoveryUnit.RingAt (r : RecoveryUnit) (j : JSector) (e used : Nat) : Prop :=
  (∃ c, r.head j = .valid e c used) ∧ (r.acceptedOf j ≠ [] ∨ used ≠ 0)

/-- The epoch of a ring sector, as the choice of the OPEN sector compares it (R166). -/
theorem RecoveryUnit.RingAt.epochOf {j : JSector} {e used : Nat} (h : r.RingAt j e used) : r.epochOf j = e := by
  obtain ⟨⟨c, head⟩, -⟩ := h
  rw [RecoveryUnit.epochOf, head]
  rfl

/-- A VALID sector is in the ring when it has an accepted or a used page (R165). -/
theorem RecoveryUnit.inRing_of_valid {j : JSector} {e c used : Nat} (head : r.head j = .valid e c used) :
    r.inRing j = true ↔ r.acceptedOf j ≠ [] ∨ used ≠ 0 := by
  rw [RecoveryUnit.inRing, head]
  simp

/-- The sectors of the ring (R165). -/
theorem RecoveryUnit.inRing_iff {j : JSector} : r.inRing j = true ↔ ∃ e used, r.RingAt j e used := by
  constructor
  · intro ring
    cases head : r.head j with
    | valid e c used => exact ⟨e, used, ⟨c, head⟩, (RecoveryUnit.inRing_of_valid head).1 ring⟩
    | blank | retired | damaged => rw [RecoveryUnit.inRing, head] at ring; cases ring
  · rintro ⟨e, used, ⟨c, head⟩, pages⟩
    exact (RecoveryUnit.inRing_of_valid head).2 pages

/-- The first ring sector than which none has a higher epoch (R166). -/
def RecoveryUnit.highest (r : RecoveryUnit) : Option JSector :=
  (allSectors.filter r.inRing).find? fun j => (allSectors.filter r.inRing).all fun i => decide (r.epochOf i ≤ r.epochOf j)

/-- What makes a sector the highest of the ring. -/
theorem RecoveryUnit.highest_eq_some_iff {j : JSector} : r.highest = some j ↔
    (r.inRing j = true ∧ ∀ i, r.inRing i = true → r.epochOf i ≤ r.epochOf j)
      ∧ ∀ k : JSector, r.inRing k = true → (∀ i, r.inRing i = true → r.epochOf i ≤ r.epochOf k) → j.val ≤ k.val := by
  have listed (i : JSector) : i ∈ allSectors := List.mem_finRange i
  simp only [RecoveryUnit.highest, List.find?_filter, find?_allSectors_eq_some_iff, List.all_eq_true, List.mem_filter, listed,
    true_and, decide_eq_true_iff, and_imp]

/-- A ring sector of less than fifteen pages used is OPEN if it is the highest (R166). -/
theorem RecoveryUnit.openSector_of_highest {j : JSector} {e used : Nat} (top : r.highest = some j) (ring : r.RingAt j e used) :
    r.openSector = if used < 15 then some j else none := by
  obtain ⟨⟨c, head⟩, -⟩ := ring
  rw [RecoveryUnit.openSector, ← RecoveryUnit.highest, top]
  dsimp only
  rw [head]

/-- Without a highest ring sector none is OPEN. -/
theorem RecoveryUnit.openSector_of_none (top : r.highest = none) : r.openSector = none := by
  rw [RecoveryUnit.openSector, ← RecoveryUnit.highest, top]

/-- With no sector in the ring none becomes OPEN (R166). -/
theorem RecoveryUnit.openSector_of_no_ring (h : ∀ j e used, ¬ r.RingAt j e used) : r.openSector = none := by
  refine RecoveryUnit.openSector_of_none (Option.eq_none_iff_forall_ne_some.2 fun j top => ?_)
  obtain ⟨e, used, ring⟩ := RecoveryUnit.inRing_iff.1 (RecoveryUnit.highest_eq_some_iff.1 top).1.1
  exact h j e used ring

/-- The ring sector whose epoch is above all others becomes OPEN, if its pages used is below 15 (R166). -/
theorem RecoveryUnit.openSector_of_top {j : JSector} {e used : Nat} (ring : r.RingAt j e used)
    (top : ∀ i e' used', r.RingAt i e' used' → i ≠ j → e' < e) : r.openSector = if used < 15 then some j else none := by
  have below (i : JSector) (hi : r.inRing i = true) (other : i ≠ j) : r.epochOf i < r.epochOf j := by
    obtain ⟨e', used', ring'⟩ := RecoveryUnit.inRing_iff.1 hi
    rw [ring'.epochOf, ring.epochOf]
    exact top i e' used' ring' other
  have self : r.inRing j = true := RecoveryUnit.inRing_iff.2 ⟨e, used, ring⟩
  refine RecoveryUnit.openSector_of_highest
    (RecoveryUnit.highest_eq_some_iff.2 ⟨⟨self, fun i hi => ?_⟩, fun k hk least => ?_⟩) ring
  · rcases eq_or_ne i j with rfl | other
    · exact le_rfl
    · exact (below i hi other).le
  · rcases eq_or_ne k j with rfl | other
    · exact le_rfl
    · exact absurd (least j self) (Nat.not_le.2 (below k hk other))

/-- The OPEN sector is in the ring with less than fifteen pages used, and none of the ring has a higher epoch (R166). -/
theorem RecoveryUnit.openSector_spec {j : JSector} (opens : r.openSector = some j) :
    ∃ e used, r.RingAt j e used ∧ used < 15 ∧ ∀ i e' used', r.RingAt i e' used' → e' ≤ e := by
  cases highest : r.highest with
  | none => rw [RecoveryUnit.openSector_of_none highest] at opens; cases opens
  | some k =>
    obtain ⟨⟨hk, top⟩, -⟩ := RecoveryUnit.highest_eq_some_iff.1 highest
    obtain ⟨e, used, ring⟩ := RecoveryUnit.inRing_iff.1 hk
    rw [RecoveryUnit.openSector_of_highest highest ring, Option.ite_none_right_eq_some] at opens
    obtain ⟨few, same⟩ := opens
    obtain rfl : k = j := Option.some.inj same
    refine ⟨e, used, ring, few, fun i e' used' ring' => ?_⟩
    rw [← ring.epochOf, ← ring'.epochOf]
    exact top i (RecoveryUnit.inRing_iff.2 ⟨e', used', ring'⟩)

/-! ### The rebuilt entries (R165) -/

section
variable {j : JSector}

/-- A BLANK head gives a FREE sector (R165). -/
theorem RecoveryUnit.entry_of_blank (h : r.head j = .blank) :
    r.entry j = { Entry.blank .free with eraseCount := r.inherited } := by
  rw [RecoveryUnit.entry, h]

/-- A DAMAGED head gives a DIRTY sector (R165). -/
theorem RecoveryUnit.entry_of_damaged (h : r.head j = .damaged) :
    r.entry j = { Entry.blank .dirty with eraseCount := r.inherited } := by
  rw [RecoveryUnit.entry, h]

/-- A RETIRED head gives a RETIRED sector (R165). -/
theorem RecoveryUnit.entry_of_retired (h : r.head j = .retired) :
    r.entry j = { Entry.blank .retired with eraseCount := r.inherited } := by
  rw [RecoveryUnit.entry, h]

variable {e c used : Nat} (head : r.head j = .valid e c used)
include head

/-- A VALID sector outside the ring is DIRTY (R165). -/
theorem RecoveryUnit.entry_of_unused (noPage : r.acceptedOf j = []) (unused : used = 0) :
    r.entry j = { Entry.blank .dirty with epoch := e, eraseCount := c } := by
  have out : r.inRing j = false := by
    rw [← Bool.not_eq_true, RecoveryUnit.inRing_of_valid head]
    simp [noPage, unused]
  rw [RecoveryUnit.entry, head]
  dsimp only
  rw [out]
  rfl

/-- A sector of the ring without an accepted page has no readable record (R165, R166). -/
theorem RecoveryUnit.entry_of_used (noPage : r.acceptedOf j = []) (usesPages : used ≠ 0) :
    r.entry j = { Entry.blank (if r.openSector = some j then .opened else .closed) with
      epoch := e, eraseCount := c, pagesUsed := used } := by
  rw [RecoveryUnit.entry, head]
  dsimp only
  rw [(RecoveryUnit.inRing_of_valid head).2 (.inr usesPages), noPage]
  rfl

/-- A sector with accepted pages is in the ring with the seqs and stamps of the first and last of them (R165, R166). -/
theorem RecoveryUnit.entry_of_accepted {a z : AcceptedPage} (first : (r.acceptedOf j).head? = some a)
    (last : (r.acceptedOf j).getLast? = some z) :
    r.entry j = { Entry.blank (if r.openSector = some j then .opened else .closed) with
      epoch := e, eraseCount := c, pagesUsed := used, firstSeq := a.firstSeq, firstStamp := a.firstStamp,
      lastSeq := z.lastSeq, lastStamp := z.lastStamp } := by
  have some_page : r.acceptedOf j ≠ [] := fun noPage => by rw [noPage] at first; cases first
  rw [RecoveryUnit.entry, head]
  dsimp only
  rw [(RecoveryUnit.inRing_of_valid head).2 (.inl some_page), first, last]
  rfl

end

end

/-! ### The finishing happening (R125, R165 to R167) -/

/-- The stamp counter as the rebuild leaves it (R26, R167). -/
theorem Timebase.load_eq (last : Option AcceptedPage) (t : Timebase) {n : Nat}
    (hn : n = match last with | some a => min (a.lastStamp + 1) 0xFFFFFFFFFFFF | none => 0) :
    t.load last = if t.held then
        { t with counter := n, prescaler := 0, held := false, saturated := n == 0xFFFFFFFFFFFF }
      else t := by
  cases last <;> rw [hn] <;> rfl

section
variable (s : State)

/-- The rebuilt directory, sector by sector (R165). -/
theorem State.rebuild_dir (j : JSector) : s.rebuild.dir[j] = s.recov.entry j := by
  have dir : s.rebuild.dir = Vector.ofFn s.recov.entry := rfl
  rw [dir, Fin.getElem_fin, Vector.getElem_ofFn]

/-- The commit path goes on in the OPEN sector, behind its used pages (R166). -/
theorem State.rebuild_nextPage {j : JSector} (h : s.rebuild.commit.target = some j) :
    s.rebuild.commit.nextPage = s.rebuild.dir[j].pagesUsed + 1 := by
  have opens : s.recov.openSector = some j := h
  have next : s.rebuild.commit.nextPage =
    match s.recov.openSector with | some j => s.recov.directory[j].pagesUsed + 1 | none => 1 := rfl
  rw [next, opens]
  rfl

/-- The cursor goes to the resume point of the rebuilt journal, and stays otherwise as it was (R125; log entry 51). -/
theorem State.rebuild_cursor : s.rebuild.cursor = { s.cursor with target := s.rebuild.resumePoint } := by
  have resume : s.rebuild.resumePoint =
    if s.rebuild.dir.oldestRetained != 0 then s.rebuild.dir.oldestRetained else s.rebuild.commit.newestSeq + 1 := rfl
  rw [resume]
  rfl

/-- The rebuild changes the directory, the timebase, the numbers and the cursor's target alone (R125, R165 to R167). -/
theorem State.rebuild_eq {last : Nat × Nat}
    (hlast : last = match s.recov.accepted.getLast? with
      | some a => (a.lastSeq, min (a.lastStamp + 1) 0xFFFFFFFFFFFF) | none => (0, 0)) :
    s.rebuild = { s with
      dir := s.rebuild.dir
      time := if s.time.held then
          { s.time with counter := last.2, prescaler := 0, held := false, saturated := last.2 == 0xFFFFFFFFFFFF }
        else s.time
      commit := { s.commit with newestSeq := last.1, lastEpoch := s.rebuild.commit.lastEpoch,
                                target := s.rebuild.commit.target, nextPage := s.rebuild.commit.nextPage }
      adm := { s.adm with nextSeq := if 0xFFFFFFFF ≤ last.1 then 0 else last.1 + 1
                          exhausted := decide (0xFFFFFFFF ≤ last.1) }
      cursor := { s.cursor with target := s.rebuild.resumePoint } } := by
  have seq : last.1 = match s.recov.accepted.getLast? with | some a => a.lastSeq | none => 0 := by
    rw [hlast]; cases s.recov.accepted.getLast? <;> rfl
  have stamp : last.2 = match s.recov.accepted.getLast? with
      | some a => min (a.lastStamp + 1) 0xFFFFFFFFFFFF | none => 0 := by
    rw [hlast]; cases s.recov.accepted.getLast? <;> rfl
  rw [← Timebase.load_eq _ s.time stamp, seq, ← s.rebuild_cursor]
  rfl

end

/-- Settles O53: the changed parts of the state, the target, and the directory by the heads. -/
theorem recoveryRebuilds : Obligations.RecoveryRebuilds := by
  rintro s _ last pages ring rfl hlast hpages hring
  obtain rfl : pages = s.recov.acceptedOf := hpages
  have ringAt (j : JSector) (e used : Nat) : ring j e used ↔ s.recov.RingAt j e used := hring j e used
  simp only [ringAt]
  refine ⟨s.rebuild_eq hlast, fun h listed e => RecoveryUnit.epoch_le_lastEpoch listed, RecoveryUnit.lastEpoch_attained,
    RecoveryUnit.openSector_of_no_ring, fun j e used => RecoveryUnit.openSector_of_top,
    fun j target => ⟨RecoveryUnit.openSector_spec target, s.rebuild_nextPage target⟩,
    s.recov.inherited, ?inherited, RecoveryUnit.inherited_attained, fun j => ?entry⟩
  case inherited =>
    rintro _ listed e c used rfl
    exact RecoveryUnit.eraseCount_le_inherited listed
  case entry =>
    rw [s.rebuild_dir j]
    exact ⟨RecoveryUnit.entry_of_blank, RecoveryUnit.entry_of_damaged, RecoveryUnit.entry_of_retired,
      fun e c used valid => ⟨RecoveryUnit.entry_of_unused valid, RecoveryUnit.entry_of_used valid,
        fun a z => RecoveryUnit.entry_of_accepted valid⟩⟩

/-! ### The end of recovery (R22, R62, R168 to R171) -/

/-- What happens at every end of recovery (R22, R171). -/
theorem State.recoveryClose_eq (v : State) : v.recoveryClose = { v with
    recov := { v.recov with phase := .idle }
    lines := Vector.ofFn fun i => if v.setup.fields.line[i].enable then { v.lines[i] with receiver := .unsettled, idle := none }
                                  else v.lines[i]
    events := { v.events with flags := v.events.flags ||| Event.recoveryDone.mask } } := by
  rw [State.recoveryClose, enableLines_eq]
  rfl

/-- The state after the finishing happening's rebuild, the scan over (R165 to R167). -/
def State.rebuilt (s : State) : State := { s.rebuild with recov := { s.recov with scan := none } }

/-- The finishing happening goes by the usable count and the numbers of what it has rebuilt (R168, R169). -/
theorem State.finishRecovery_eq (s : State) : s.finishRecovery =
    if s.rebuilt.dir.usable < 4 then s.rebuilt.recoveryFailed
    else if s.rebuilt.adm.exhausted then s.rebuilt.recoveryEnter.reportExhausted.recoveryClose
    else (s.rebuilt.placeStart s.rebuilt.recoveryStart).withRecov fun r => { r with phase := .closing } := by
  have scanned : (s.rebuild.withRecov fun r => { r with scan := none }) = s.rebuilt := rfl
  rw [State.finishRecovery, scanned]

section
variable {s : State}

/-- With too few usable sectors recovery ends into FAILED (R168). -/
theorem State.finishRecovery_of_few (few : s.rebuilt.dir.usable < 4) : s.finishRecovery = s.rebuilt.recoveryFailed := by
  rw [State.finishRecovery_eq, if_pos few]

/-- With the numbers exhausted it ends without a START (R169). -/
theorem State.finishRecovery_of_exhausted (usable : 4 ≤ s.rebuilt.dir.usable) (exhausted : s.rebuilt.adm.exhausted = true) :
    s.finishRecovery = s.rebuilt.recoveryEnter.reportExhausted.recoveryClose := by
  rw [State.finishRecovery_eq, if_neg (Nat.not_lt.2 usable), if_pos exhausted]

/-- Else the START is placed, and recovery waits for the close of its buffer (R169, R170). -/
theorem State.finishRecovery_of_numbers (usable : 4 ≤ s.rebuilt.dir.usable) (numbers : s.rebuilt.adm.exhausted = false) :
    s.finishRecovery = (s.rebuilt.placeStart s.rebuilt.recoveryStart).withRecov fun r => { r with phase := .closing } := by
  rw [State.finishRecovery_eq, if_neg (Nat.not_lt.2 usable), if_neg (Bool.eq_false_iff.1 numbers)]

end

/-- What the recovery START carries (R155, R169). -/
theorem State.recoveryStart_eq (s : State) : s.recoveryStart =
    { cause := (match s.ctrl.resetCause with
        | .powerOn => .powerOn | .resetPin => .resetPin | .hostReset => .hostReset)
      clean := (match s.recov.accepted.getLast? with | some a => a.lastKind == 4 | none => false)
      k := s.setup.fields.journal.k
      source := (match s.recov.result with | some (x, _) => x | none => .defaults)
      generation := (match s.recov.result with | some (_, g) => g | none => 0)
      discarded := s.recov.discarded
      corrupt := s.recov.corrupt
      damaged := s.recov.damaged
      retired := s.dir.countOf .retired } := by
  rw [State.recoveryStart]
  cases s.recov.result <;> rfl

/-- Settles O54: the three ends of the finishing happening, and the end at the report. -/
theorem recoveryFinishes : Obligations.RecoveryFinishes := by
  intro s t ht close hclose
  obtain rfl : t = s.rebuilt := ht
  have closes (v : State) : close v = v.recoveryClose := by rw [State.recoveryClose_eq, hclose]
  simp only [closes]
  refine ⟨State.finishRecovery_of_few, State.finishRecovery_of_exhausted, fun usable numbers => ?_, ?_⟩
  · rw [State.finishRecovery_of_numbers usable numbers, State.recoveryStart_eq]
    rfl
  · rintro u v w rfl rfl rfl
    rfl

end Sys2Proof.Machine

/-! SUPPORT. The working setup and the setup store (chapter 10): the journal block and its write, with the judging of a changed
flush age; and the start of a Store Setup, the page it seeks, and the ends of the store's operations; and the statements they
settle. -/

namespace Sys2Proof.Machine

/-! ### The journal block (R179, R201) -/

/-- A number is no code of a retention mode, or the code of the one it names (R201). -/
theorem Retention.ofCode_cases : ∀ n : Nat,
    1 < n ∧ Retention.ofCode n = none ∨ n ≤ 1 ∧ ∃ r : Retention, r.code = n ∧ Retention.ofCode n = some r
  | 0 => .inr ⟨by omega, .wrap, rfl, rfl⟩
  | 1 => .inr ⟨by omega, .halt, rfl, rfl⟩
  | n + 2 => .inl ⟨by omega, rfl⟩

/-- A number is no code of a floor mode, or the code of the one it names (R201). -/
theorem FloorMode.ofCode_cases : ∀ n : Nat,
    2 < n ∧ FloorMode.ofCode n = none ∨ n ≤ 2 ∧ ∃ m : FloorMode, m.code = n ∧ FloorMode.ofCode n = some m
  | 0 => .inr ⟨by omega, .noFloor, rfl, rfl⟩
  | 1 => .inr ⟨by omega, .fixed, rfl, rfl⟩
  | 2 => .inr ⟨by omega, .cursor, rfl, rfl⟩
  | n + 3 => .inl ⟨by omega, rfl⟩

/-- Bytes spell a number below 256 to their count (section 1.6). -/
theorem beNat_lt : ∀ l : List Byte, beNat l < 256 ^ l.length
  | [] => by decide
  | b :: l => by
    have spelled : beNat (b :: l) = (0 * 256 + b.toNat) * 256 ^ l.length + beNat l := foldl_bytes l (0 * 256 + b.toNat)
    have lead : (b.toNat + 1) * 256 ^ l.length ≤ 256 * 256 ^ l.length := Nat.mul_le_mul_right _ b.isLt
    have rest : beNat l < 256 ^ l.length := beNat_lt l
    rw [spelled, List.length_cons, Nat.pow_succ', Nat.zero_mul, Nat.zero_add]
    rw [Nat.succ_mul] at lead
    omega

/-- A field holds a number below 256 to its width (section 1.6). -/
theorem fieldAt_lt (l : List Byte) (off n : Nat) : fieldAt l off n < 256 ^ n :=
  (beNat_lt _).trans_le (Nat.pow_le_pow_right (by decide) (List.length_take_le _ _))

/-- The bytes of a journal block carry these fields (R201), whether or not they are in range. -/
def JournalSetup.carriedBy (l : List Byte) (j : JournalSetup) : Prop :=
  j.retention.code = (byteAt l 0).toNat ∧ j.floorMode.code = (byteAt l 1).toNat ∧ j.fixedFloor = fieldAt l 2 4
    ∧ j.k = (byteAt l 6).toNat ∧ j.flushAge = fieldAt l 7 2 ∧ j.threshold = fieldAt l 9 2
    ∧ (j.autostart = true ↔ byteAt l 11 = 1)

/-- The fields of a journal block's bytes, its codes already read (R201). -/
def JournalSetup.ofBytes (l : List Byte) (retention : Retention) (floorMode : FloorMode) : JournalSetup :=
  { retention := retention, floorMode := floorMode, fixedFloor := fieldAt l 2 4, k := (byteAt l 6).toNat,
    flushAge := fieldAt l 7 2, threshold := fieldAt l 9 2, autostart := byteAt l 11 == 1 }

/-- A journal block is refused for an undefined code; with its codes defined it carries fields, and the ranges decide. -/
theorem journalOfBlock_cases (l : List Byte) :
    (1 < (byteAt l 0).toNat ∨ 2 < (byteAt l 1).toNat) ∧ journalOfBlock l = none
    ∨ ((byteAt l 0).toNat ≤ 1 ∧ (byteAt l 1).toNat ≤ 2) ∧ ∃ j : JournalSetup, j.carriedBy l
        ∧ journalOfBlock l = if j.inRange ∧ (byteAt l 11).toNat ≤ 1 then some j else none := by
  rcases Retention.ofCode_cases (byteAt l 0).toNat with ⟨h0, e0⟩ | ⟨h0, retention, hretention, e0⟩
  · exact .inl ⟨.inl h0, by simp only [journalOfBlock, e0]⟩
  rcases FloorMode.ofCode_cases (byteAt l 1).toNat with ⟨h1, e1⟩ | ⟨h1, floorMode, hfloorMode, e1⟩
  · exact .inl ⟨.inr h1, by simp only [journalOfBlock, e0, e1]⟩
  have carried : (JournalSetup.ofBytes l retention floorMode).carriedBy l :=
    ⟨hretention, hfloorMode, rfl, rfl, rfl, rfl, beq_iff_eq⟩
  refine .inr ⟨⟨h0, h1⟩, _, carried, ?_⟩
  rw [journalOfBlock, e0, e1]
  simp only [Bool.and_eq_true, decide_eq_true_iff]
  rfl

/-- The fields that a journal block is read as are those its bytes carry. -/
theorem journalOfBlock_carries {l : List Byte} {j : JournalSetup} (h : journalOfBlock l = some j) : j.carriedBy l := by
  rcases journalOfBlock_cases l with ⟨_, hnone⟩ | ⟨_, i, hi, hsome⟩
  · rw [hnone] at h
    cases h
  · rw [hsome] at h
    split at h
    · cases h; exact hi
    · cases h

/-- The ranges of R179, said of the bytes that carry the fields; a floor and a threshold cannot be too great for theirs. -/
theorem JournalSetup.inRange_of_carriedBy {l : List Byte} {j : JournalSetup} (h : j.carriedBy l) :
    j.inRange = true ↔ (byteAt l 6).toNat ≤ 7 ∧ fieldAt l 7 2 ≤ 60000 ∧ 1 ≤ fieldAt l 9 2 := by
  obtain ⟨-, -, hfloor, hk, hage, hthreshold, -⟩ := h
  have floor : fieldAt l 2 4 ≤ Config.max32 := Nat.le_of_lt_succ (fieldAt_lt l 2 4)
  have threshold : fieldAt l 9 2 < 65536 := fieldAt_lt l 9 2
  rw [JournalSetup.inRange, decide_eq_true_iff, hfloor, hk, hage, hthreshold]
  omega

/-- Exactly when a journal block is refused (R179, R201). -/
theorem journalOfBlock_eq_none_iff (l : List Byte) :
    journalOfBlock l = none ↔
      1 < (byteAt l 0).toNat ∨ 2 < (byteAt l 1).toNat ∨ 7 < (byteAt l 6).toNat ∨ 60000 < fieldAt l 7 2 ∨ fieldAt l 9 2 = 0
        ∨ 1 < (byteAt l 11).toNat := by
  rcases journalOfBlock_cases l with ⟨hcodes, hnone⟩ | ⟨hcodes, j, hj, hsome⟩
  · simp only [hnone, true_iff]
    omega
  · have refused : journalOfBlock l = none ↔ ¬ (j.inRange = true ∧ (byteAt l 11).toNat ≤ 1) := by rw [hsome]; simp
    rw [refused, JournalSetup.inRange_of_carriedBy hj]
    omega

/-! ### A changed flush age (R37) -/

section
variable {s : State} {age : Nat} {b : BufId}

/-- A changed flush age is judged by the clock of a filling buffer with records. -/
theorem State.pastNewAge_of_filling (hf : s.adm.filling = some b) :
    s.pastNewAge age = (age != s.setup.fields.journal.flushAge && age != 0 && (s.adm.buf b).count != 0
      && s.clockPast (s.adm.buf b) age) := by
  rw [State.pastNewAge, hf]

/-- With neither buffer FILLING no clock runs (R37). -/
theorem State.pastNewAge_of_no_filling (h : s.adm.filling = none) : s.pastNewAge age = false := by
  rw [State.pastNewAge, h]

/-- A flush age that is 0, or not changed, is not judged (R37; log entry 39). -/
theorem State.pastNewAge_of_unjudged (h : age = 0 ∨ age = s.setup.fields.journal.flushAge) : s.pastNewAge age = false := by
  cases hf : s.adm.filling with
  | none => exact State.pastNewAge_of_no_filling hf
  | some b =>
    rw [State.pastNewAge_of_filling hf]
    rcases h with rfl | h
    · rw [bne_self_eq_false 0, Bool.and_false, Bool.false_and, Bool.false_and]
    · rw [← h, bne_self_eq_false, Bool.false_and, Bool.false_and, Bool.false_and]

/-- The clock of an empty buffer does not run (R37). -/
theorem State.pastNewAge_of_empty (hf : s.adm.filling = some b) (h : (s.adm.buf b).count = 0) :
    s.pastNewAge age = false := by
  rw [State.pastNewAge_of_filling hf, h, bne_self_eq_false, Bool.and_false, Bool.false_and]

/-- A judged flush age is passed where the clock of the filling buffer is (R37). -/
theorem State.pastNewAge_of_judged (hf : s.adm.filling = some b) (h0 : age ≠ 0)
    (hage : age ≠ s.setup.fields.journal.flushAge) (hc : (s.adm.buf b).count ≠ 0) :
    s.pastNewAge age = s.clockPast (s.adm.buf b) age := by
  rw [State.pastNewAge_of_filling hf, bne_iff_ne.2 hage, bne_iff_ne.2 h0, bne_iff_ne.2 hc, Bool.and_self, Bool.and_self,
    Bool.true_and]

/-- A clock that has reached an age as great, or stands a tick or more past it, is past it (R37). -/
theorem State.clockPast_of_le {v : Buffer}
    (h : age ≤ v.reachedAge ∨ age * 1000 + 2 ^ s.setup.fields.journal.k ≤ v.clock) : s.clockPast v age = true := if_pos h

/-- A clock that has reached no such age, and stands a tick or more below it, is not (R37). -/
theorem State.clockPast_of_lt {v : Buffer} (hr : v.reachedAge < age)
    (hc : v.clock + 2 ^ s.setup.fields.journal.k ≤ age * 1000) : s.clockPast v age = false := by
  have tick : 0 < 2 ^ s.setup.fields.journal.k := Nat.two_pow_pos _
  exact (if_neg (by omega)).trans (if_pos hc)

/-- An age reached is kept as the greatest (log entry 39). -/
theorem State.markReached_of_filling (hf : s.adm.filling = some b) :
    s.markReached age = s.setBuf b { s.adm.buf b with reachedAge := max (s.adm.buf b).reachedAge age } := by
  rw [State.markReached, hf]

end

theorem State.markReached_ctrl (age : Nat) (s : State) : (s.markReached age).ctrl = s.ctrl := by
  cases hf : s.adm.filling with
  | none => rw [State.markReached, hf]
  | some b => rw [State.markReached_of_filling hf, State.setBuf_ctrl]

/-- A flush age already passed closes the filling buffer in RUNNING, and owes its close in any other state (R37). -/
theorem State.newFlushAge_eq (past : Bool) (age : Nat) (s : State) :
    s.newFlushAge past age =
      if past then if s.ctrl.state = .running then (s.markReached age).closeFilling else s.markReached age else s := by
  rw [State.newFlushAge]
  dsimp only
  rw [State.markReached_ctrl]

/-! ### Write Journal Setup (R28, R37, R179) -/

section
variable {s : State}

/-- An accepted write replaces the fields, with a change of k restarts the prescaler (R28), and applies its flush age (R37). -/
theorem State.writeJournal_eq {u : State} {j : JournalSetup}
    (hu : u = { s with
      setup := { s.setup with fields := { s.setup.fields with journal :=
        { j with fixedFloor := if j.floorMode = .fixed then j.fixedFloor else s.setup.fields.journal.fixedFloor } } }
      time := if j.k = s.setup.fields.journal.k then s.time
              else { s.time with prescaler := 0, retimePending := true } }) :
    s.writeJournal j = State.settle false
      (if s.pastNewAge j.flushAge then
        if s.ctrl.state = .running then (u.markReached j.flushAge).closeFilling else u.markReached j.flushAge
       else u) := by
  have written : s.writeJournal j = (u.newFlushAge (s.pastNewAge j.flushAge) j.flushAge).settle false := by
    unfold State.writeJournal
    subst hu
    dsimp only
    split <;> rfl
  have ctrl : u.ctrl = s.ctrl := by rw [hu]
  rw [written, State.newFlushAge_eq, ctrl]

/-- Write Journal Setup is taken at its twelfth argument byte and decided by its rule (R179). -/
theorem exec_writeJournalSetup {args : List Byte} (b : Byte) (h : s.atArguments 0x11 args) (hl : args.length = 11)
    (hr : s.ctrl.state ≠ .recovering) :
    exec (.writeJournalSetup b) s = .next (State.answer 0x11 (args ++ [b]) (s.writeJournalSetupRule (args ++ [b]))) :=
  takeByte_argument (c := .writeJournalSetup) h rfl (by simp [owed, hl]) (.inl hr)

variable {block : List Byte} {j : JournalSetup}

/-- A refused block is answered BAD_ARG, before the state is looked at (R179). -/
theorem State.writeJournalSetupRule_of_refused (h : journalOfBlock block = none) :
    s.writeJournalSetupRule block = s.refuseWith .badArg := by
  rw [State.writeJournalSetupRule, h]

/-- A block that is read is refused with STATE where it changes k outside STOPPED, and else written (R28, R179). -/
theorem State.writeJournalSetupRule_of_read (h : journalOfBlock block = some j) :
    s.writeJournalSetupRule block =
      if j.k ≠ s.setup.fields.journal.k ∧ s.ctrl.state ≠ .stopped then s.refuseWith .state
      else (s.writeJournal j).accept := by
  rw [State.writeJournalSetupRule, h]

end

/-- Settles O16: the block's reading, the answers, and the judging of a changed flush age. -/
theorem writeJournalSetupRule : Obligations.WriteJournalSetupRule := by
  refine ⟨fun l _ => ⟨journalOfBlock_eq_none_iff l, fun j hj => journalOfBlock_carries hj⟩,
    fun s args b h hl hr => ?_, fun s age => ⟨?_, fun b hf => ⟨State.markReached_of_filling hf,
      State.pastNewAge_of_empty hf, fun h0 hage hc => ?_⟩⟩⟩
  · have hc : commandOf 0x11 ≠ some .readStatus ∧ commandOf 0x11 ≠ some .readRecords := by decide
    rw [exec_writeJournalSetup b h hl hr]
    refine ⟨fun hbad => ?_, fun j hj => ?_⟩
    · rw [State.writeJournalSetupRule_of_refused hbad, answer_refuse hc.1 hc.2]
    · rw [State.writeJournalSetupRule_of_read hj]
      refine ⟨fun hk hs => ?_, fun u hu allowed => ?_⟩
      · rw [if_pos ⟨hk, hs⟩, answer_refuse hc.1 hc.2]
      · rw [if_neg (fun ⟨hk, hs⟩ => allowed.elim hk hs), answer_accept hc.1 hc.2, State.writeJournal_eq hu]
  · rintro (hf | h)
    · exact State.pastNewAge_of_no_filling hf
    · exact State.pastNewAge_of_unjudged h
  · rw [State.pastNewAge_of_judged hf h0 hage hc]
    exact ⟨State.clockPast_of_le, State.clockPast_of_lt⟩

/-! ### The outcome of a Store Setup (R184) -/

/-- A Store Setup that fails raises SETUP_FAULT and OP_DONE (R184). -/
theorem State.storeEnd_failed (s : State) :
    s.storeEnd .failed =
      { s with
        ctrl := { s.ctrl with opKind := .noOp, opOutcome := .failed }
        store := { s.store with phase := .idle, copy := none, seekOwed := false }
        events := { s.events with flags := s.events.flags ||| Event.setupFault.mask ||| Event.opDone.mask } } := rfl

/-- One that succeeds puts its copy in force as the origin of the working setup (R184). -/
theorem State.storeEnd_ok (s : State) :
    s.storeEnd .ok =
      { s with
        store := { s.store with phase := .idle, copy := none, seekOwed := false }
        setup := (match s.store.copy with
          | some (_, g) => { s.setup with source := .stored, generation := g }
          | none => s.setup)
        ctrl := { s.ctrl with opKind := .noOp, opOutcome := .ok }
        events := { s.events with flags := s.events.flags ||| Event.opDone.mask } } := by
  unfold State.storeEnd State.storeOutcome
  cases s.store.copy <;> rfl

/-! ### The store's requests (R58) -/

/-- A request for the page of an earlier one names that page. -/
theorem setupRequest_page (kind : OpKind) (x : SetupSector) (page : PageIx) (data : List Byte) (generation : Nat) :
    setupRequest kind x page.val data generation =
      { requester := .setup, kind := kind, sector := x.sector, page := page, data := data, generation := generation,
        wanted := true } := by
  rw [setupRequest, Fin.ofNat_val_eq_self]

/-! ### The seek of a page (R182) -/

/-- A Store Setup with its copy takes the next page of its sector, fails at a second switch, or erases the other sector. -/
theorem State.storeSeek_of_copy {s : State} {f : SetupFields} {g : Nat} (h : s.store.copy = some (f, g)) :
    s.storeSeek =
      if s.store.nextPage ≤ 15 then
        State.request (setupRequest .setupBody s.store.current s.store.nextPage (setupBody f g) g)
          { s with store := { s.store with phase := .body, seekOwed := false } }
      else if s.store.switched then s.storeEnd .failed
      else
        State.request (setupRequest .erase s.store.toErase 0 [] g)
          { s with store := { s.store with phase := .erase, switched := true, seekOwed := false } } := by
  rw [State.storeSeek, h]
  rfl

/-! ### Store Setup (R181, R182) -/

/-- Some program or erase of the store is in flight or in existence (R181). -/
theorem State.storeOutstanding_iff (s : State) :
    s.storeOutstanding = true ↔
      (∃ r, s.array.op = some r ∧ r.requester = .setup) ∨ ∃ e, s.array.erase = some e ∧ e.requester = .setup := by
  rw [State.storeOutstanding, Bool.or_eq_true]
  refine or_congr ?_ ?_
  · cases s.array.op <;> simp
  · cases s.array.erase <;> simp

/-- The state of a Store Setup that has begun, with the given state of the store (R181). -/
def State.storeBegun (x : SetupStore) (s : State) : State :=
  { s with ctrl := { s.ctrl with opKind := .storeSetup, opOutcome := .noOutcome }, store := x }

/-- The store with the next generation issued, and the whole working setup copied under it (R181). -/
def State.storeCopied (s : State) : SetupStore :=
  { s.store with switched := false, issued := s.store.issued + 1,
                 copy := some (s.setup.fields, s.store.issued + 1) }

section
variable {s : State}

/-- With every generation issued the operation ends at once (R181, R184). -/
theorem State.storeStart_of_exhausted (h : Config.max32 ≤ s.store.issued) :
    s.storeStart = (s.storeBegun { s.store with switched := false }).storeEnd .failed := if_pos h

/-- With an operation of an earlier Store Setup outstanding the seek is owed (R181). -/
theorem State.storeStart_of_outstanding (h : ¬ Config.max32 ≤ s.store.issued) (ho : s.storeOutstanding = true) :
    s.storeStart = s.storeBegun { s.storeCopied with seekOwed := true } := (if_neg h).trans (if_pos ho)

/-- Otherwise the store seeks its page (R181, R182). -/
theorem State.storeStart_of_clear (h : ¬ Config.max32 ≤ s.store.issued) (ho : ¬ s.storeOutstanding = true) :
    s.storeStart = (s.storeBegun s.storeCopied).storeSeek := (if_neg h).trans (if_neg ho)

/-- Store Setup is taken at its command byte and decided by its rule (R181). -/
theorem exec_storeSetup (h : s.atCommand) (hr : s.ctrl.state ≠ .recovering) :
    exec .storeSetup s = .next (State.answer 0x12 [] s.storeSetupRule) :=
  takeByte_command (c := .storeSetup) h rfl rfl (.inl hr)

/-- It is refused while a host operation runs, whatever the state (R181). -/
theorem State.storeSetupRule_of_busy (h : s.ctrl.opKind ≠ .noOp) : s.storeSetupRule = s.refuseWith .busy := if_pos h

/-- It is refused in DRAINING and DRAINED (R181). -/
theorem State.storeSetupRule_of_draws (h : s.ctrl.opKind = .noOp) (hd : s.ctrl.state.draws = true) :
    s.storeSetupRule = s.refuseWith .state := (if_neg (not_not.2 h)).trans (if_pos hd)

/-- Otherwise its operation starts (R181). -/
theorem State.storeSetupRule_of_free (h : s.ctrl.opKind = .noOp) (hd : ¬ s.ctrl.state.draws = true) :
    s.storeSetupRule = (s.storeStart.settle false).accept := (if_neg (not_not.2 h)).trans (if_neg hd)

end

/-- Settles O18: the two refusals, and the four ways in which the operation starts. -/
theorem storeSetupRule : Obligations.StoreSetupRule := by
  intro s h hr
  have hc : commandOf 0x12 ≠ some .readStatus ∧ commandOf 0x12 ≠ some .readRecords := by decide
  have draws : s.ctrl.state.draws = true ↔ s.ctrl.state = .draining ∨ s.ctrl.state = .drained := by
    rw [JState.draws_eq, decide_eq_true_iff]
  rw [exec_storeSetup h hr]
  refine ⟨fun busy => ?_, fun free hd => ?_, fun free draining drained ctrl g outstanding _ hctrl hg ho => ?_⟩
  · rw [State.storeSetupRule_of_busy busy, answer_refuse hc.1 hc.2]
  · rw [State.storeSetupRule_of_draws free (draws.2 hd), answer_refuse hc.1 hc.2]
  · rw [State.storeSetupRule_of_free free (mt draws.1 (not_or.2 ⟨draining, drained⟩)), answer_accept hc.1 hc.2]
    rw [← State.storeOutstanding_iff] at ho
    refine congrArg (fun t => Host.Outcome.next (State.replied 0x12 [] .ok [] (State.settle false t))) ?_
    subst hctrl hg
    by_cases exhausted : Config.max32 ≤ s.store.issued
    · rw [if_pos exhausted, State.storeStart_of_exhausted exhausted]
      rfl
    rw [if_neg exhausted]
    by_cases waits : outstanding
    · rw [if_pos waits, State.storeStart_of_outstanding exhausted (ho.1 waits)]
      rfl
    · have copied : (s.storeBegun s.storeCopied).store.copy = some (s.setup.fields, s.store.issued + 1) := rfl
      rw [if_neg waits, State.storeStart_of_clear exhausted (mt ho.2 waits), State.storeSeek_of_copy copied]
      rfl

/-! ### The ends of the store's operations (R183, R185) -/

section
variable {s t : State} (o : OpOutcome)

/-- An erase of the setup store in flight ends, and the store hears the outcome (R183, R185). -/
theorem live_setupEraseEnds {e : Erase} {hears : Erase → State → State} (hp : s.powered = true)
    (he : s.array.erase = some e) (hr : e.requester = .setup) (hc : e.cond ≠ .suspended)
    (h : hears e (s.eraseSector e.sector o).eraseOver = t) :
    s.live (fun s => s.eraseEnds .setup o hears) = .next (t.settle true) := by
  rw [live_of_powered hp, eraseEnds_eq he hr hc, h]

/-- A program of the setup store in flight ends, and the store hears the outcome (R183, R185). -/
theorem live_setupProgramEnds {r : Request} {kind : OpKind} {hears : Request → State → State} (hp : s.powered = true)
    (hop : s.array.op = some r) (hr : r.requester = .setup) (hk : r.kind = kind)
    (h : hears r (s.program r o).opOver = t) :
    s.live (fun s => s.programEnds (fun q k => q == .setup && k == kind) o hears) = .next (t.settle true) := by
  rw [live_of_powered hp, programEnds_eq hop (by rw [hr, hk, beq_self_eq_true, beq_self_eq_true, Bool.and_self]), h]

end

/-- Settles O45: the seek, and for each operation its two outcomes, heard by the Store Setup that wants it or come late. -/
theorem setupStoreRules : Obligations.SetupStoreRules := by
  refine ⟨fun s f g h => ?_, fun s u o hp => ⟨?_, fun r hop hr hu => ⟨?_, ?_⟩⟩⟩
  · rw [State.storeSeek_of_copy h]
    rfl
  · rintro e he hr hc rfl v rfl
    refine live_setupEraseEnds o hp he hr hc ?_
    cases o with
    | ok => cases e.wanted <;> rfl
    | fail =>
      cases e.wanted with
      | true => exact State.storeEnd_failed _
      | false => rfl
  · rintro hk v rfl
    refine live_setupProgramEnds o hp hop hr hk ?_
    subst hu
    cases o with
    | ok =>
      cases r.wanted with
      | true => exact congrArg (State.request · _) (setupRequest_page ..)
      | false => rfl
    | fail => cases r.wanted <;> rfl
  · rintro hk v rfl
    refine live_setupProgramEnds o hp hop hr hk ?_
    subst hu
    cases o with
    | ok =>
      cases r.wanted with
      | true => exact State.storeEnd_ok _
      | false => rfl
    | fail => cases r.wanted <;> rfl

end Sys2Proof.Machine

/-! SUPPORT. The host port and the event unit (chapter 11): how the last byte of a command arrives, the two sampled bytes (the
status byte and the byte on SDO), the event flags and masks, the PACE pins, the fall and the rise of CS_N, and the journal
summary; and the statements they settle. -/

namespace Sys2Proof.Machine

/-! ### Host commands and the bytes that bring them (R188) -/

/-- The command byte of a host command names that command (R202). -/
theorem commandOf_of_hostCommand {i : Instr} {c : Command} {code : Byte} {a : Arrival} (h : hostCommand i = some (c, code, a)) :
    commandOf code = some c := by
  cases i <;> cases h <;> rfl

/-- The happening of a host command brings that command's last byte (R188). -/
theorem arrivingByte_of_hostCommand {i : Instr} {c : Command} {code : Byte} {a : Arrival}
    (h : hostCommand i = some (c, code, a)) :
    ∃ m, arrivingByte i = some (a.byte code, m) := by
  cases i <;> cases h <;> exact ⟨_, rfl⟩

/-- A host command, a byte kept and an unknown command are all the arrival of a byte (R188; log entry 5). -/
theorem exists_arrivingByte {i : Instr}
    (h : (hostCommand i).isSome = true ∨ (∃ b, i = .argumentByteReceived b) ∨ ∃ b, i = .unknownCommand b) :
    ∃ b m, arrivingByte i = some (b, m) := by
  rcases h with h | ⟨b, rfl⟩ | ⟨b, rfl⟩
  · obtain ⟨⟨c, code, a⟩, hc⟩ := Option.isSome_iff_exists.1 h
    exact ⟨_, arrivingByte_of_hostCommand hc⟩
  · exact ⟨b, 0, rfl⟩
  · exact ⟨b, 0, rfl⟩

section
variable {s : State} {c : Command} {code b : Byte} {args : List Byte} {m : BitVec 11}

/-- A command that still owes bytes keeps those received (R188). -/
theorem gather_owing (h : owed c args ≠ 0) : s.gather c code args m =
    { s with port := { s.port with phase := .arguments, command := code, args := args } } := if_neg h

/-- A command byte that names no command is answered UNKNOWN (R188). -/
theorem takeByte_unknown (h : s.atCommand) (hb : commandOf b = none) :
    s.takeByte b m = .next (State.answer b [] (s.refuseWith .unknown)) := by
  obtain ⟨hp, hq⟩ := h
  rw [State.takeByte, live_of_powered hp, State.byteArrives, hq]
  dsimp only
  rw [hb]

/-- A refusal of any command but Read Status is answered in REPLY, a refused Read Records included (R188, R189). -/
theorem answer_refuse_of_ne_ok {r : Result} (hc : commandOf code ≠ some .readStatus) (hr : r ≠ .ok) :
    State.answer code args (s.refuseWith r) = s.replied code args r [] := by
  simp only [State.answer, State.refuseWith, State.replied, hc, hr, and_false, if_false]

/-- Without a transaction SCK has no effect (R187). -/
theorem HostPort.clocked_of_idle {p : HostPort} (h : p.phase = .idle) : p.clocked = p := by rw [HostPort.clocked, h]

/-- In REPLY and STREAM the byte sent leaves SDO (R187, R189). -/
theorem HostPort.clocked_of_sending {p : HostPort} (h : p.phase = .reply ∨ p.phase = .stream) :
    p.clocked = { p with reply := p.reply.tail } := by
  cases p
  rcases h with h | h <;> cases h <;> rfl

/-- In REPLY and STREAM the byte sent leaves SDO, and without a transaction nothing changes (R187, R189). -/
theorem State.clocked_of_ignoring (h : s.port.phase = .idle ∨ s.port.phase = .reply ∨ s.port.phase = .stream) :
    s.clocked = if s.port.phase = .idle then s else { s with port := { s.port with reply := s.port.reply.tail } } := by
  rcases h with h | h
  · rw [if_pos h, State.clocked, HostPort.clocked_of_idle h]
  · have transaction : s.port.phase ≠ .idle := by rcases h with h | h <;> rw [h] <;> nofun
    rw [if_neg transaction, State.clocked, HostPort.clocked_of_sending h]

end

/-- Settles O7: every row is the arrival of its byte, and the phase decides what the byte does. -/
theorem transactionBytes : Obligations.TransactionBytes := by
  refine ⟨fun b s c => ⟨fun h hc ho => ?_, fun code args h hc ho => ?_⟩, fun b s h hb => ?_, fun i s hp hq hi => ?_,
    fun i j x s hi hj => ?_⟩
  · rw [exec_byte (b := b) rfl s, takeByte_first h hc, gather_owing ho]
  · rw [exec_byte (b := b) rfl s, takeByte_next h hc, gather_owing ho]
    obtain ⟨-, hq, rfl, -⟩ := h
    rw [← hq]
  · rw [exec_byte (b := b) rfl s, takeByte_unknown h hb, answer_refuse_of_ne_ok (r := .unknown) (by rw [hb]; nofun) nofun]
  · obtain ⟨b, m, hb⟩ := exists_arrivingByte hi
    rw [exec_byte hb s, takeByte_ignored hp hq, State.clocked_of_ignoring hq]
  · rw [exec_byte hi s, exec_byte hj s]

/-- Settles O8: whichever way its last byte arrives, the whole command is gathered and refused. -/
theorem notReadyWhileRecovering : Obligations.NotReadyWhileRecovering := by
  intro i c code a args s hi notStatus notIdentity hp hr whole
  have names : commandOf code = some c := commandOf_of_hostCommand hi
  obtain ⟨m, arrives⟩ := arrivingByte_of_hostCommand hi
  obtain ⟨taken, owesNone⟩ := takeByte_complete (m := m) hp names whole
  have refused : commandOf code ≠ some .readStatus := by
    rw [names]
    exact fun h => notStatus (Option.some.inj h)
  rw [exec_byte arrives s, taken, gather_notReady owesNone hr notStatus notIdentity, 
    answer_refuse_of_ne_ok (r := .notReady) refused nofun]

/-- Settles O9: both commands are decided by their rules, RECOVERING or not. -/
theorem readStatusAndIdentity : Obligations.ReadStatusAndIdentity := by
  refine fun s h => ⟨?_, ?_⟩
  · exact takeByte_command (c := .readStatus) (code := 0x01) h rfl rfl (.inr (.inl rfl))
  · exact takeByte_command (c := .readIdentity) (code := 0x02) h rfl rfl (.inr (.inr rfl))

/-! ### Events (R194, R195, R196) -/

/-- The event of a bit (R202), RECOVERY_DONE beyond the last. -/
def Event.ofBit : Nat → Event
  | 0 => .committed
  | 1 => .state
  | 2 => .lineFault 0
  | 3 => .lineFault 1
  | 4 => .lineFault 2
  | 5 => .lineFault 3
  | 6 => .cursorLost
  | 7 => .sectorRetired
  | 8 => .opDone
  | 9 => .setupFault
  | _ => .recoveryDone

/-- An event is the one its bit names (R202). -/
theorem Event.ofBit_bit : Function.LeftInverse Event.ofBit Event.bit
  | .lineFault i => by fin_cases i <;> rfl
  | .committed | .state | .cursorLost | .sectorRetired | .opDone | .setupFault | .recoveryDone => rfl

/-- Every bit of the flags is its event's (R202). -/
theorem Event.bit_ofBit {k : Nat} (h : k < 11) : (Event.ofBit k).bit = k := by
  interval_cases k <;> rfl

/-- The bits of the flags are eleven (R202). -/
theorem Event.bit_lt (e : Event) : e.bit < 11 := by
  cases e with
  | lineFault i => exact Nat.lt_of_lt_of_le (Nat.add_lt_add_left i.isLt 2) (by decide)
  | _ => decide

/-- The mask of an event holds its own bit and no other event's (R202). -/
theorem Event.mask_getLsbD (e e' : Event) : e.mask.getLsbD e'.bit = decide (e' = e) := by
  rw [Event.mask, BitVec.getLsbD_ofNat, Nat.testBit_two_pow, decide_eq_true e'.bit_lt, Bool.true_and]
  exact decide_eq_decide.2 (eq_comm.trans Event.ofBit_bit.injective.eq_iff)

/-- A raise sets its event's flag and keeps the others (R194). -/
theorem State.flagSet_raise (e e' : Event) (s : State) :
    (s.raise e).flagSet e' = true ↔ e' = e ∨ s.flagSet e' = true := by
  have both : (s.raise e).flagSet e' = (s.flagSet e' || e.mask.getLsbD e'.bit) := BitVec.getLsbD_or
  rw [both, Event.mask_getLsbD, Bool.or_eq_true, decide_eq_true_iff, or_comm]

/-- IRQ_N is active by an event's flag and enable (R196). -/
theorem State.irqActive_iff (s : State) :
    s.irqActive = true ↔ ∃ e : Event, s.flagSet e = true ∧ s.events.enables.getLsbD e.bit = true := by
  have both (e : Event) : (s.events.flags &&& s.events.enables).getLsbD e.bit = true ↔
      s.flagSet e = true ∧ s.events.enables.getLsbD e.bit = true := by
    rw [BitVec.getLsbD_and, Bool.and_eq_true, State.flagSet]
  have zero (k : Nat) : (0 : BitVec 11).getLsbD k = false := BitVec.getLsbD_zero
  simp only [State.irqActive, bne_iff_ne, ← both]
  refine ⟨fun some_bit => ?_, fun ⟨e, set⟩ none_set => ?_⟩
  · by_contra none_set
    refine some_bit (BitVec.eq_of_getLsbD_eq fun k hk => ?_)
    rw [zero, Bool.eq_false_iff]
    exact fun set => none_set ⟨Event.ofBit k, by rwa [Event.bit_ofBit hk]⟩
  · rw [none_set, zero] at set
    cases set

/-- The two bytes of a mask spell it, most significant byte first (R202). -/
theorem fieldAt_two_bytes (a b : Byte) : fieldAt [a, b] 0 2 = (a ++ b).toNat := by
  rw [BitVec.toNat_append, ← Nat.shiftLeft_add_eq_or_of_lt b.isLt, Nat.shiftLeft_eq]
  simp [fieldAt, bytesAt, beNat]

/-- A received mask has the low eleven bits of its two bytes (R203). -/
theorem maskOf_getLsbD (a b : Byte) {k : Nat} (h : k < 11) : (maskOf [a, b]).getLsbD k = (a ++ b).getLsbD k := by
  rw [maskOf, fieldAt_two_bytes, BitVec.getLsbD_ofNat, decide_eq_true h, Bool.true_and, BitVec.testBit_toNat]

section
variable {s : State} (a b : Byte) (m : BitVec 11)

/-- Read Events is taken at its command byte and decided by its rule (R195). -/
theorem exec_readEvents (h : s.atCommand) (hr : s.ctrl.state ≠ .recovering) :
    exec .readEvents s = .next (State.answer 0x40 [] s.readEventsRule) :=
  takeByte_command (c := .readEvents) h rfl rfl (.inl hr)

/-- Clear Events is taken at its second mask byte and decided by its rule (R195). -/
theorem exec_clearEvents (h : s.atArguments 0x41 [a]) (hr : s.ctrl.state ≠ .recovering) :
    exec (.clearEvents ⟨b, m⟩) s = .next (State.answer 0x41 [a, b] (s.clearEventsRule m [a, b])) := by
  rw [exec_byte (b := b) (m := m) rfl s, takeByte_argument (c := .clearEvents) h rfl rfl (.inl hr)]
  rfl

/-- Write Event Enables is taken at its second mask byte and decided by its rule (R195). -/
theorem exec_writeEventEnables (h : s.atArguments 0x42 [a]) (hr : s.ctrl.state ≠ .recovering) :
    exec (.writeEventEnables b) s = .next (State.answer 0x42 [a, b] (s.writeEventEnablesRule [a, b])) :=
  takeByte_argument (c := .writeEventEnables) h rfl rfl (.inl hr)

end

/-- Settles O13: the rules of the three commands, the new flags and enables read bit by bit. -/
theorem eventCommands : Obligations.EventCommands := by
  intro s hr
  refine ⟨fun h => ?_, fun a b m h => ⟨s.events.flags &&& ~~~(maskOf [a, b] &&& ~~~m), ?_, fun k hk => ?_⟩,
    fun a b h => ⟨maskOf [a, b], ?_, fun k hk => maskOf_getLsbD a b hk⟩⟩
  · rw [exec_readEvents h hr, State.readEventsRule, answer_eq_replied (by decide) (by decide), if_pos rfl]
    rfl
  · rw [exec_clearEvents a b m h hr, State.clearEventsRule, answer_accept (by decide) (by decide)]
    rfl
  · rw [BitVec.getLsbD_and, BitVec.getLsbD_not, BitVec.getLsbD_and, BitVec.getLsbD_not, maskOf_getLsbD a b hk,
      decide_eq_true hk, Bool.true_and, Bool.true_and]
  · rw [exec_writeEventEnables a b h hr, State.writeEventEnablesRule, answer_accept (by decide) (by decide)]
    rfl

/-! ### The status byte, SDO and the PACE pins (R18, R24, R187, R190) -/

/-- State codes fit their four bits (R190, R202). -/
theorem JState.code_le (j : JState) : j.code ≤ 8 := by cases j <;> decide

/-- How the fields of a status byte lie in it (R190). -/
theorem statusBits : ∀ n < 16, ∀ irq busy ready : Bool,
    let b : Byte := BitVec.ofNat 8 (16 * n + 8 * irq.toNat + 4 * busy.toNat + 2 * ready.toNat)
    b.toNat / 16 = n ∧ b.getLsbD 3 = irq ∧ b.getLsbD 2 = busy ∧ b.getLsbD 1 = ready ∧ b.getLsbD 0 = false := by
  decide

/-- A token has a first byte (R202). -/
theorem Token.bytes_head? (t : Token) : t.bytes.head? = some (t.bytes.headD 0xFF) := by cases t <;> rfl

section
variable {s : State}

/-- SDO is at high impedance without supply, in a reset and without a transaction (R187, R197; log entry 40). -/
theorem State.sdo_of_silent (h : s.powered = false ∨ s.inReset = true ∨ s.port.phase = .idle) : s.sdo = none := by
  unfold State.sdo
  split
  · rfl
  · next heard =>
    rcases h with h | h | h
    · simp [h] at heard
    · simp [h] at heard
    · rw [h]

/-- With supply and out of reset the phase chooses the byte on SDO (R187, R189). -/
theorem State.sdo_eq (hp : s.powered = true) (hr : s.inReset = false) : s.sdo =
    if s.port.phase = .idle then none
    else if s.port.phase = .command then some s.port.status
    else if s.port.phase = .arguments then some 0xFF
    else some ((if s.port.phase = .reply then s.port.reply else s.port.reply ++ s.nextToken.bytes).headD 0xFF) := by
  rw [State.sdo, hp, hr]
  cases s.port.phase <;> rfl

/-- The PACE pin is low in a reset and until the working setup is loaded (R24; log entry 47). -/
theorem State.pacePin_of_held (i : LineIx) (h : s.inReset = true ∨ s.setupLoaded = false) : s.pacePin i = false :=
  if_pos (by simpa using h)

/-- From then on the polarity says which level shows the condition (R18). -/
theorem State.pacePin_iff (i : LineIx) (hr : s.inReset = false) (hl : s.setupLoaded = true) :
    s.pacePin i = true ↔ (s.paceActive i = true ↔ s.setup.fields.line[i].polarity = .activeHigh) := by
  rw [State.pacePin, hr, hl]
  cases s.setup.fields.line[i].polarity <;> simp

/-- PACE is active by the hysteresis, by a full queue, or outside RUNNING (R18). -/
theorem State.paceActive_iff (i : LineIx) :
    s.paceActive i = true ↔ s.lines[i].hysteresis = true ∨ s.lines[i].queue.length = 8 ∨ s.ctrl.state ≠ .running := by
  rw [State.paceActive_eq, Bool.or_eq_true, Bool.or_eq_true, decide_eq_true_iff, bne_iff_ne, or_assoc]

end

/-- Settles O4: the status byte's bits, the byte on SDO by phase, the flags with IRQ_N, and the PACE pins. -/
theorem statusAndOutputs : Obligations.StatusAndOutputs := by
  refine ⟨fun s => ?_, fun s => ⟨State.sdo_of_silent, fun hp hr => ?_⟩,
    ⟨fun e e' s => ⟨s.flagSet_raise e e', rfl⟩, State.irqActive_iff⟩, fun s i => ⟨s.pacePin_of_held i, fun hr hl => ?_⟩⟩
  · exact statusBits _ (Nat.lt_of_le_of_lt s.ctrl.state.code_le (by decide)) _ _ s.cursorReady
  · rw [State.sdo_eq hp hr]
    refine ⟨fun h => ?_, fun h => ?_, fun b l h hl => ?_, fun h hl => ?_, fun h hl => ?_⟩
    · rw [h]; rfl
    · rw [h]; rfl
    · rcases h with h | h <;> rw [h, hl] <;> rfl
    · rw [h, hl]; rfl
    · rw [h, hl, s.nextToken.bytes_head?]
      exact ⟨rfl, nofun⟩
  · rw [s.pacePin_iff i hr hl, s.paceActive_iff i]

/-! ### The fall and the rise of CS_N (R118, R187, R188, R197) -/

section
variable {s : State}

/-- Without supply and in a reset a part takes no notice of CS_N (R153; log entry 4). -/
theorem State.deaf_of_unheard (h : s.powered = false ∨ s.inReset = true) : s.deaf = true := by
  simpa [State.deaf] using h

/-- Out of reset a fall of CS_N begins a transaction and samples the status byte (R187, R190). -/
theorem exec_csNFall (hp : s.powered = true) (hr : s.inReset = false) (hc : s.pins.csN = true) :
    exec .csNFall s = .next { s.setCsN false with port := { s.port with
      phase := .command, command := 0, args := [], reply := [], status := (s.setCsN false).statusByte } } := by
  have heard : (s.setCsN false).deaf = false := State.not_deaf hp hr
  rw [exec, execCsNFall, State.ifArises, if_pos hc]
  dsimp only
  rw [heard]
  rfl

/-- A fall that the part takes no notice of moves the pin (R197; log entry 4). -/
theorem exec_csNFall_of_unheard (h : s.powered = false ∨ s.inReset = true) (hc : s.pins.csN = true) :
    exec .csNFall s = .next (s.setCsN false) := by
  have unheard : (s.setCsN false).deaf = true := State.deaf_of_unheard h
  rw [exec, execCsNFall, State.ifArises, if_pos hc]
  dsimp only
  rw [unheard]
  rfl

/-- A rise that the part takes no notice of moves the pin (R197; log entry 4). -/
theorem exec_csNRise_of_unheard (h : s.powered = false ∨ s.inReset = true) (hc : s.pins.csN = false) :
    exec .csNRise s = .next (s.setCsN true) := by
  have unheard : (s.setCsN true).deaf = true := State.deaf_of_unheard h
  rw [exec, execCsNRise, State.ifArises, if_pos (Bool.not_eq_true' _ ▸ hc)]
  dsimp only
  rw [unheard]
  rfl

/-- Without a Reset Device taken before, the end of a transaction is all that a rise of CS_N brings (R154). -/
theorem State.hostResetAtRise_of_unmarked (h : s.ctrl.resetAtRise = false) (hp : s.ctrl.hostResetPending = false) :
    s.hostResetAtRise = s := by
  rw [State.hostResetAtRise, h, hp]
  rfl

end

/-- What a token cut short leaves in the transmit store (R118): a RECORD at or above the target, and what is not in transfer. -/
def TransmitStore.cut (target : Nat) : TransmitStore → TransmitStore
  | .transfer (.record n r) => if target ≤ n then .kept n r else .empty
  | .transfer _ => .empty
  | x => x

/-- A store with no token in transfer stays as it is (R118). -/
theorem TransmitStore.cut_of_no_transfer {x : TransmitStore} (target : Nat) (h : ∀ t, x ≠ .transfer t) : x.cut target = x := by
  cases x with
  | transfer t => exact absurd rfl (h t)
  | _ => rfl

/-- A token in transfer other than a RECORD leaves the store (R118). -/
theorem TransmitStore.cut_of_no_record {t : Token} (target : Nat) (h : ∀ n r, t ≠ .record n r) :
    (TransmitStore.transfer t).cut target = .empty := by
  cases t with
  | record n r => exact absurd rfl (h n r)
  | _ => rfl

/-- A rise while a token is in transfer changes the transmit store alone (R118). -/
theorem State.cutToken_eq (s : State) :
    s.cutToken = { s with cursor := { s.cursor with store := s.cursor.store.cut s.cursor.target } } := by
  have unchanged {x : TransmitStore} (h : s.cursor.store = x) : s = { s with cursor := { s.cursor with store := x } } := by
    rw [← h]
  rw [State.cutToken]
  cases store : s.cursor.store with
  | transfer t => cases t <;> rfl
  | empty => exact unchanged store
  | kept n r => exact unchanged store

/-- The end of a transaction: the port idle, an unfinished command INCOMPLETE, and in STREAM the token cut (R118, R187, R188). -/
theorem State.endTransaction_eq (s : State) : s.endTransaction = { s with
    port := { s.port with phase := .idle, reply := [],
                          lastResult := if s.port.phase = .arguments then .incomplete else s.port.lastResult }
    cursor := { s.cursor with
      store := if s.port.phase = .stream then s.cursor.store.cut s.cursor.target else s.cursor.store } } := by
  have cut : (if s.port.phase = .stream then s.cutToken else s) = { s with cursor := { s.cursor with
      store := if s.port.phase = .stream then s.cursor.store.cut s.cursor.target else s.cursor.store } } := by
    split
    · exact s.cutToken_eq
    · rfl
  rw [State.endTransaction]
  dsimp only
  rw [cut]

/-- Settles O6: the fall, the rise with what it leaves of the store, and the changes of CS_N that the part takes no notice of. -/
theorem transactions : Obligations.Transactions := by
  refine ⟨fun s hp hr hc => ⟨exec_csNFall hp hr hc, rfl⟩, fun s hp hr hc => ?_, fun s => ⟨fun hc h => ?_, fun hc h => ?_,
    fun hc => ?_, fun hc => ?_⟩⟩
  · refine ⟨_, _, rfl, (s.setCsN true).endTransaction_eq, fun unmarked unpending => ?_, fun h => if_neg h, fun h n r hn => ?_,
      fun h => ?_, fun h t ht other => ?_⟩
    · have ctrl : (s.setCsN true).endTransaction.ctrl = s.ctrl := State.endTransaction_ctrl _
      rw [exec_csNRise hp hr hc, State.hostResetAtRise_of_unmarked (by rwa [ctrl]) (by rwa [ctrl])]
    · rw [State.setCsN_port, State.setCsN_cursor, if_pos h, hn]
      rfl
    · rw [State.setCsN_port, State.setCsN_cursor, TransmitStore.cut_of_no_transfer _ h, ite_self]
    · rw [State.setCsN_port, State.setCsN_cursor, if_pos h, ht, TransmitStore.cut_of_no_record _ other]
  · exact exec_csNFall_of_unheard h hc
  · exact exec_csNRise_of_unheard h hc
  · rw [exec, execCsNFall, State.ifArises, hc]
    rfl
  · rw [exec, execCsNRise, State.ifArises, hc]
    rfl

/-! ### The journal summary (R88, R104, R193) -/

/-- No count of sectors passes a byte (R46, R104). -/
theorem Directory.countOf_lt (d : Directory) (st : SectorState) : d.countOf st < 256 :=
  Nat.lt_of_le_of_lt (List.length_filter_le _ _) (by simp [allSectors])

/-- Where no ring sector holds readable records nothing is retained (R88). -/
theorem Directory.oldestRetained_of_none {d : Directory} (h : ∀ j ∈ d.ring, d[j].firstSeq = 0) : d.oldestRetained = 0 := by
  have none_holds : d.holders = [] := List.filter_eq_nil_iff.2 fun j hj hn => bne_iff_ne.1 hn (h j hj)
  rw [Directory.oldestRetained, none_holds]

/-- The first ring sector that holds readable records holds the oldest retained one (R88). -/
theorem Directory.oldestRetained_of_first {d : Directory} {l r : List JSector} {j : JSector} (ring : d.ring = l ++ j :: r)
    (before : ∀ i ∈ l, d[i].firstSeq = 0) (holds : d[j].firstSeq ≠ 0) : d.oldestRetained = d[j].firstSeq := by
  have none_before : l.filter (fun i => d[i].firstSeq != 0) = [] := List.filter_eq_nil_iff.2 fun i hi hn =>
    bne_iff_ne.1 hn (before i hi)
  have first : d.holders = j :: r.filter fun i => d[i].firstSeq != 0 := by
    rw [Directory.holders, ring, List.filter_append, none_before, List.nil_append, List.filter_cons, if_pos (bne_iff_ne.2 holds)]
  rw [Directory.oldestRetained, first]

/-- The second byte of the summary: STOP_REQUESTED, STAMP_SATURATED, exhausted numbers and nothing else (R193, R202). -/
theorem summaryFlags : ∀ stop saturated exhausted : Bool,
    let b : Byte := BitVec.ofNat 8 (stop.toNat + 2 * saturated.toNat + 4 * exhausted.toNat)
    b.getLsbD 0 = stop ∧ b.getLsbD 1 = saturated ∧ b.getLsbD 2 = exhausted ∧ b.toNat < 8 := by
  decide

/-- The code of a host operation's kind fits its byte (R202). -/
theorem HostOpKind.code_lt (k : HostOpKind) : k.code < 256 := by cases k <;> decide

/-- The code of a host operation's outcome fits its byte (R202). -/
theorem HostOpOutcome.code_lt (o : HostOpOutcome) : o.code < 256 := by cases o <;> decide

/-- The code of a floor mode fits its byte (R202). -/
theorem FloorMode.code_lt (m : FloorMode) : m.code < 256 := by cases m <;> decide

/-- Settles O10: the 33 bytes one by one, and the oldest retained seq by the first ring sector that holds records. -/
theorem readJournalSummaryReply : Obligations.ReadJournalSummaryReply := by
  refine ⟨fun s h hr => ?_, fun s => ⟨fun none_holds => ?_, fun l r j ring before holds => ?_⟩⟩
  · have taken : exec .readJournalSummary s = .next (s.replied 0x03 [] .ok s.summary) :=
      takeByte_command (c := .readJournalSummary) (code := 0x03) h rfl rfl (.inl hr)
    have count (st : SectorState) : (BitVec.ofNat 8 (s.dir.countOf st)).toNat = s.dir.countOf st :=
      toNat_ofNat_byte (s.dir.countOf_lt st)
    have state : 16 * s.ctrl.state.code < 256 := by have := s.ctrl.state.code_le; omega
    obtain ⟨stop, saturated, exhausted, defined⟩ := summaryFlags s.ctrl.stopRequested s.time.saturated s.adm.exhausted
    refine ⟨s.summary, taken, rfl, toNat_ofNat_byte state, stop, saturated, exhausted, defined,
      toNat_ofNat_byte s.ctrl.opKind.code_lt, toNat_ofNat_byte s.ctrl.opOutcome.code_lt,
      beNat_beBytes 4 _, beNat_beBytes 4 _, beNat_beBytes 4 _, beNat_beBytes 6 _,
      count .free, count .opened, count .closed, count .erasing, count .dirty, count .retired,
      toNat_ofNat_byte (FloorMode.code_lt _), ?_⟩
    have floor : fieldAt s.summary 29 4 = s.floorValue % 2 ^ 32 := beNat_beBytes 4 _
    rw [floor, State.floorValue]
    cases s.setup.fields.journal.floorMode <;> rfl
  · have oldest : s.dir.oldestRetained = 0 := Directory.oldestRetained_of_none none_holds
    rw [State.resumePoint, oldest]
    exact ⟨rfl, rfl⟩
  · have oldest : s.dir.oldestRetained = s.dir[j].firstSeq := Directory.oldestRetained_of_first ring before holds
    rw [State.resumePoint, oldest]
    exact ⟨rfl, if_pos (bne_iff_ne.2 holds)⟩

end Sys2Proof.Machine

/-! SUPPORT. The step and the table of commands: what the front of the queue decides, which answer every happening gives with
and without supply (log entries 2 to 5), and which commands owe argument bytes (R188, R202). -/

namespace Sys2Proof.Machine

/-! ### The queue of commands (log entries 2 and 3) -/

/-- An empty queue leaves the part as it stands. -/
theorem step_of_empty {s : State} (h : s.pending = []) : step s = .next s := by
  rw [step, h]

/-- The command at the front takes effect with the rest waiting. -/
theorem step_of_front (c : Instr) (rest : List Instr) (s : State) :
    step { s with pending := c :: rest } = exec c { s with pending := rest } := rfl

/-- Settles O1: the queue is not empty, and its front command is run. -/
theorem stepRunsFrontCommand : Obligations.StepRunsFrontCommand := step_of_front

/-! ### Answers with and without supply (log entries 4 and 5) -/

/-- The meaning has a next state. -/
def Proceeds (a : Answer) : Prop := ∃ t, a = .next t

/-- The meaning has a next state, or the part is without supply and stops at the fault of log entry 4. -/
def ProceedsIfPowered (s : State) (a : Answer) : Prop := Proceeds a ∨ s.powered = false ∧ a = .fault .unpowered

theorem Proceeds.next (t : State) : Proceeds (.next t) := ⟨t, rfl⟩

/-- A happening that a state cannot bring about proceeds too (log entry 5). -/
theorem Proceeds.ifArises {s : State} {arises : Bool} {k : Answer} (h : Proceeds k) : Proceeds (s.ifArises arises k) := by
  unfold State.ifArises
  split
  · exact h
  · exact .next s

/-- What proceeds with supply stops without it (log entry 4). -/
theorem ProceedsIfPowered.live {s : State} {k : State → Answer} (h : Proceeds (k s)) : ProceedsIfPowered s (s.live k) := by
  cases powered : s.powered with
  | true => exact .inl (live_of_powered powered ▸ h)
  | false => exact .inr ⟨powered, if_neg (Bool.eq_false_iff.1 powered)⟩

/-- A program's end proceeds, whether or not such a program is in flight. -/
theorem programEnds_proceeds (p : Requester → OpKind → Bool) (o : OpOutcome) (s : State) (hears : Request → State → State) :
    Proceeds (s.programEnds p o hears) := by
  unfold State.programEnds
  split <;> exact .next _

/-- An erase's end proceeds, whether or not such an erase runs. -/
theorem eraseEnds_proceeds (who : Requester) (o : OpOutcome) (s : State) (hears : Erase → State → State) :
    Proceeds (s.eraseEnds who o hears) := by
  unfold State.eraseEnds
  split <;> exact .next _

/-- A read's end proceeds, whether or not such a read is in flight. -/
theorem readEnds_proceeds (who : Requester) (s : State) (hears : Request → List Byte → State → State) :
    Proceeds (s.readEnds who hears) := by
  unfold State.readEnds
  split <;> exact .next _

/-- A byte has its effect whatever it completes. -/
theorem takeByte_proceedsIfPowered (b : Byte) (m : BitVec 11) (s : State) : ProceedsIfPowered s (s.takeByte b m) :=
  .live (.next _)

/-! ### Every happening -/

/-- The levels of the pins and the coming of the supply are heard in every part; every other happening needs supply. -/
theorem exec_proceedsIfPowered (i : Instr) (s : State) : ProceedsIfPowered s (exec i s) := by
  cases i with
  | csNFall | csNRise | pfwNFall | pfwNRise | resetNFall => exact .inl (.ifArises (.next _))
  | powerOnReset => exact .inl (.next _)
  | powerLoss =>
    rw [exec]
    exact .live (.next _)
  | characterDelivered | lineSettled | flushAgeReached | tokenChoice | resetEnd =>
    rw [exec]
    exact .live (.ifArises (.next _))
  | headProgramEnd | bodyProgramEnd | commitFieldEnd | retireMarkEnd | setupBodyEnd | setupFieldEnd =>
    rw [exec]
    exact .live (programEnds_proceeds _ _ s _)
  | reclaimEraseEnd | formatEraseEnd | setupEraseEnd =>
    rw [exec]
    exact .live (eraseEnds_proceeds _ _ s _)
  | cursorReadEnd | seekReadEnd =>
    rw [exec]
    exact .live (readEnds_proceeds _ s _)
  | startEdge | lineReturnsHigh | breakRecognised | stampTick =>
    rw [exec]
    refine .live ?_
    split <;> exact .next _
  | tokenEnd =>
    rw [exec]
    refine .live (.ifArises ?_)
    split <;> exact .next _
  | eraseSuspendEffect | eraseStopEffect | recoveryReadEnd =>
    rw [exec]
    refine .live ?_
    split
    · exact .ifArises (.next _)
    · exact .next s
  | idleStep =>
    rw [exec]
    refine .live ?_
    split
    · split <;> exact .next _
    · exact .next s
  | admission =>
    rw [exec]
    refine .live ?_
    split
    · exact .next _
    · split <;> exact .next _
  | argumentByteReceived | unknownCommand | readStatus | readIdentity | readJournalSummary | readLineState
  | readDirectoryEntry | writeLineSetup | writeJournalSetup | storeSetup | run | stop | flush | appendNote | setRetainFloor
  | seek | readRecords | readEvents | clearEvents | writeEventEnables | format | resetDevice =>
    exact takeByte_proceedsIfPowered _ _ s

/-- Settles O2: the idle step, the queue as `Kept` has it, and the answer of every happening. -/
theorem queueAndSupply : Obligations.QueueAndSupply :=
  ⟨fun _ => step_of_empty, fun _ _ _ h => (exec_kept h).pending, exec_proceedsIfPowered⟩

/-! ### The table of commands (R188, R202) -/

/-- The command bytes of R202, in its order. -/
def commandCodes : List Nat :=
  [0x01, 0x02, 0x03, 0x04, 0x05, 0x10, 0x11, 0x12, 0x20, 0x21, 0x22, 0x23, 0x24, 0x30, 0x31, 0x40, 0x41, 0x42, 0x50, 0x5A]

/-- A byte names a command exactly where R202 lists it. -/
theorem commandOf_isSome_iff (b : Byte) : (commandOf b).isSome = true ↔ b.toNat ∈ commandCodes := by
  rw [commandOf]
  split <;> simp_all [commandCodes]

/-- Of the 256 bytes as many name a command as R202 lists. -/
theorem countP_commandOf :
    (List.range 256).countP (fun n => (commandOf (BitVec.ofNat 8 n)).isSome) = commandCodes.length := by
  have listed : ∀ n ∈ commandCodes, n < 256 := by decide
  have named : ((List.range 256).filter fun n => (commandOf (BitVec.ofNat 8 n)).isSome).Perm commandCodes := by
    refine (List.perm_ext_iff_of_nodup (List.nodup_range.filter _) (by decide)).2 fun n => ?_
    rw [List.mem_filter, List.mem_range, commandOf_isSome_iff]
    exact ⟨fun ⟨bound, h⟩ => toNat_ofNat_byte bound ▸ h, fun h => ⟨listed n h, (toNat_ofNat_byte (listed n h)).symm ▸ h⟩⟩
  rw [List.countP_eq_length_filter, named.length_eq]

/-- The length byte of a note tells the bytes that follow; a length outside 1 to 240 leaves none owed (R188). -/
theorem owed_appendNote_cons (b : Byte) (rest : List Byte) :
    owed .appendNote (b :: rest) = if b.toNat = 0 ∨ 240 < b.toNat then 0 else b.toNat - rest.length := by
  rw [owed]
  by_cases undefined : b.toNat = 0 ∨ 240 < b.toNat
  · rw [if_pos undefined, if_neg (by omega)]
  · rw [if_neg undefined, if_pos (by omega)]

/-- Settles O5: the twenty rows, their number among all bytes, the commands of fixed length, and the two whose first
argument byte tells the length. -/
theorem commandTable : Obligations.CommandTable := by
  refine ⟨rfl, countP_commandOf, fun args => ?_, rfl, rfl, fun b rest => ⟨owed_appendNote_cons b rest, rfl⟩⟩
  simp only [List.map_cons, List.map_nil, owed, Nat.zero_sub]

end Sys2Proof.Machine
